-- ==== Sys2Proof/Word.lean ====
section
/-! DEFINITION. The word types of the engine (20_memory.md R71, R75): bytes, 16-bit values, 32-bit values. -/

namespace Sys2Proof

/-- One byte of `Mem` (R71). -/
abbrev Byte := BitVec 8

/-- A 16-bit field: a coordinate, a size, an RGB565 colour, a character code (00_scope.md R7). -/
abbrev Half := BitVec 16

/-- A 32-bit value: a command word, an address, a raw pixel of the 32-bit shadow buffer (00_scope.md R7). -/
abbrev Word := BitVec 32

end Sys2Proof
end

