-- ==== Sys2Proof/Config.lean ====
section
/-! DEFINITION. What an implementation fixes (00_scope.md R7) and the free values of the model: constants without a body,
which nothing in Lean can evaluate. -/

namespace Sys2Proof

/-- DEPTH: bits per shadow-buffer pixel, 16 or 32 (R7). -/
inductive Depth where
  | d16
  | d32
  deriving DecidableEq, Repr, Inhabited

/-- The implementation parameters of R7. AA_THRESHOLD(N) is an integer in 1 .. 2^N - 1: the fields hold it minus one, so
that no other value can be written (AA_THRESHOLD(1) can only be 1). -/
structure Params where
  /-- DEPTH -/
  depth : Depth
  /-- FB_CAPABLE -/
  fbCapable : Bool
  /-- GLCDFONT, byte `c*5 + column` -/
  glcdfont : Vector Byte 1280
  /-- AA_THRESHOLD(2) - 1 -/
  aa2 : Fin 3
  /-- AA_THRESHOLD(3) - 1 -/
  aa3 : Fin 7
  /-- AA_THRESHOLD(4) - 1 -/
  aa4 : Fin 15
  deriving DecidableEq, Repr, Inhabited

/-- An answer to ALLOC (R103): FAIL, or the 32-byte block the region begins at, so that the address `a` has
`a mod 32 = 0` whatever the answer is (entry 5). -/
abbrev AllocAnswer := Option (BitVec 27)

namespace Config

/-- The parameters of the machine that `State.reset` describes: any choice R7 allows (entry 1). -/
opaque params : Params

/-- What a byte of `Mem` that nothing has written reads as (U7, U29; entry 2). -/
opaque unwrittenByte : Word → Byte

/-- Free value, draw `n`: byte `i` of a buffer the allocator has just answered (R82, U7; entry 3). -/
opaque freshByte (n i : Nat) : Byte

/-- Free value, draw `n`: the allocator's answer (R103, U10; entry 4). -/
opaque allocAnswer (n : Nat) : AllocAnswer

/-- Free value, draw `n`: the sink's answer to ASYNC_ACTIVE while a transfer is outstanding (R98, U11; entry 6). -/
opaque activeAnswer (n : Nat) : Bool

/-- Free value, draw `n`: pixel `i` of the sink's answer to READRECT (R96, U4, U14; entry 4). -/
opaque readPixel (n i : Nat) : Half

end Config

end Sys2Proof
end

