-- ==== Sys2Proof/Machine/State.lean ====
section
/-! DEFINITION. The state of the engine as plain data (10_state.md), its value after reset (R60, R62, R332), and the reasons a
step can stop. INVENTORY.md lists every field with its rule. -/

namespace Sys2Proof.Machine

/-- `Mem` (20_memory.md R71): the bytes that have been written, addresses strictly rising. An address that is not listed holds
a byte nothing has written; `Memory.read` says what it reads as. -/
abbrev Memory := List Host.Cell

/-- A region of `Mem`: its first address and its size in bytes, addresses modulo 2^32. -/
abbrev Region := Word × Nat

/-- WIDTH, HEIGHT (R23), ORIGIN (R24), the clip bounds (R25). -/
structure Canvas where
  width : Half
  height : Half
  originX : Half
  originY : Half
  clipX1 : Half
  clipY1 : Half
  clipX2 : Half
  clipY2 : Half
  deriving DecidableEq, Repr

/-- FB_BASE (R26) and the STATUS bits FB_EN, FB_ALLOC, FB_INT (R27). -/
structure Mirror where
  base : Word
  en : Bool
  alloc : Bool
  int : Bool
  deriving DecidableEq, Repr

/-- The dirty rectangle, corners inclusive (R29). -/
structure Dirty where
  minX : Half
  minY : Half
  maxX : Half
  maxY : Half
  deriving DecidableEq, Repr

/-- FONT_KIND, the "tagged variant over {NoFont, FixedFont, ScalableFont}" (R33). -/
inductive FontKind where
  | noFont
  | fixedFont
  | scalableFont
  deriving DecidableEq, Repr

/-- Cursor (R31), colours (R32), TEXTCTL (R33), text size (R34), scroll region (R35). -/
structure Text where
  cursorX : Half
  cursorY : Half
  fg : Half
  bg : Half
  wrap : Bool
  scrollEn : Bool
  fontKind : FontKind
  tsizeX : Byte
  tsizeY : Byte
  scrollX : Half
  scrollY : Half
  scrollW : Half
  scrollH : Half
  deriving DecidableEq, Repr

/-- FONT_HDR and F_FIXED (R36), the font latches (R37), the derived latches (R38). -/
structure Font where
  hdr : Word
  fixed : Word
  index : Word
  unicode : Word
  data : Word
  version : Byte
  reserved : Byte
  i1f : Byte
  i1l : Byte
  i2f : Byte
  i2l : Byte
  bidx : Byte
  bw : Byte
  bh : Byte
  bxo : Byte
  byo : Byte
  bdelta : Byte
  lspace : Byte
  caph : Byte
  bpp : Byte
  alphamx : Byte
  ok : Bool
  deriving DecidableEq, Repr

/-- Overlap bookkeeping LAST_* (R39). -/
structure Last where
  valid : Bool
  cx : Half
  cy : Half
  xr : Word
  fg : Half
  bg : Half
  deriving DecidableEq, Repr

/-- The transactions of the sink port (R91 to R98) and of the allocator port (R103), with the answer where the engine asked
for one (R11). WRITERECT is declared and never emitted (R95). -/
inductive Transaction where
  | setAddr (x0 y0 x1 y1 : Half)
  | begin
  | pixel (c : Half)
  | finish
  | writeRect (x y w h : Half) (pixels : List Half)
  | readRect (x y w h : Half) (answer : List Half)
  | writeRectAsync (x y w h : Half) (addr : Word) (depth : Depth)
  | asyncActive (answer : Bool)
  | alloc (size : Nat) (align : Nat) (answer : AllocAnswer)
  | free (addr : Word)
  deriving DecidableEq, Repr

/-- The MODEL's own: what the sink and the allocator will answer next (R11: "the answer is supplied by the environment (an
oracle in the model)"). A list that has run out answers free values, indexed by `draws` (entry 4). -/
structure Env where
  /-- answers to ALLOC -/
  alloc : List AllocAnswer
  /-- answers to ASYNC_ACTIVE while a transfer is outstanding -/
  active : List Bool
  /-- pixels the sink answers to READRECT, in the order they are asked for -/
  pixels : List Half
  /-- bytes a buffer holds when the allocator answers with it (R82) -/
  bytes : List Byte
  /-- how many free values have been drawn -/
  draws : Nat
  deriving DecidableEq, Repr

/-- The state of the machine (R20). -/
structure State where
  /-- the parameters of R7, which no step and no reset changes (entry 1) -/
  params : Params
  canvas : Canvas
  fb : Mirror
  /-- STATUS.ILL (R27, R303) -/
  ill : Bool
  /-- RESULT (R28, R302) -/
  result : Bool
  dirty : Dirty
  text : Text
  font : Font
  last : Last
  /-- BITCUR (R40) -/
  bitcur : Word
  /-- LINEBUF (R41) -/
  linebuf : List Word
  /-- host memory -/
  mem : Memory
  /-- the MODEL's own: the regions of the platform's address space that have nothing behind them (R77, R79; entry 18) -/
  unmapped : List Region
  /-- the transactions emitted so far, oldest first (R11) -/
  trace : List Transaction
  /-- the command port: words presented and not yet taken (R105) -/
  port : List Word
  /-- a WAITASYNC is in execution, the command port is busy (R217, R306) -/
  waiting : Bool
  /-- a transfer started by WRITERECT_ASYNC is outstanding in the sink (R42 (b), R98) -/
  asyncBusy : Bool
  env : Env
  deriving DecidableEq, Repr

/-- Why the machine stops with a fault: never. "The engine raises **no synchronous exception**" and "No command can stop the
engine" (60_exceptions.md R300). Safe: nothing stops where the hardware goes on. -/
inductive Fault where
  deriving DecidableEq, Repr

/-- Why an instruction has no meaning. -/
inductive Refusal where
  /-- Raised by `exec`'s arm of an instruction that has no meaning yet. Safe: the model stops where the hardware goes on.
  No arm of this package raises it. -/
  | notModelled (mnemonic : String)
  /-- Raised by a command that reads or writes an address with nothing behind it: "What the platform does when an address has nothing
  behind it is outside this spec. A model should give such an access no step" (20_memory.md R79, D37, U9). Safe: the model stops where
  the platform may go on. -/
  | unmappedAddress
  deriving DecidableEq, Repr

/-- The empty dirty rectangle (R29). -/
def Dirty.empty : Dirty := { minX := 0x7FFF#16, minY := 0x7FFF#16, maxX := 0xFFFF#16, maxY := 0xFFFF#16 }

/-- The canvas after reset (R23 to R25). -/
def Canvas.reset : Canvas :=
  { width := 0, height := 0, originX := 0, originY := 0, clipX1 := 0, clipY1 := 0, clipX2 := 0, clipY2 := 0 }

/-- No buffer attached, mirror disabled (R26, R27). -/
def Mirror.reset : Mirror := { base := 0, en := false, alloc := false, int := false }

/-- The text state after reset (R31 to R35). -/
def Text.reset : Text :=
  { cursorX := 0, cursorY := 0, fg := 0xFFFF#16, bg := 0xFFFF#16, wrap := true, scrollEn := false, fontKind := .noFont,
    tsizeX := 1, tsizeY := 1, scrollX := 0, scrollY := 0, scrollW := 0, scrollH := 0 }

/-- The font registers after reset, all 0 (R36 to R38). -/
def Font.reset : Font :=
  { hdr := 0, fixed := 0, index := 0, unicode := 0, data := 0, version := 0, reserved := 0, i1f := 0, i1l := 0, i2f := 0,
    i2l := 0, bidx := 0, bw := 0, bh := 0, bxo := 0, byo := 0, bdelta := 0, lspace := 0, caph := 0, bpp := 0, alphamx := 0,
    ok := false }

/-- The overlap bookkeeping after reset (R39). -/
def Last.reset : Last := { valid := false, cx := 0, cy := 0, xr := 0, fg := 0, bg := 0 }

/-- No answer scripted, no free value drawn: DESIGN CHOICE, the model's own field (entry 4). -/
def Env.reset : Env := { alloc := [], active := [], pixels := [], bytes := [], draws := 0 }

/-- The machine right after power-on and reset: every register at the value of R60's column "reset" (R62, R332), the
command port empty (R330). BITCUR and LINEBUF have no value in the spec (DESIGN CHOICE 0 and empty, entry 12), `Mem` lists
nothing (entry 2), every address is mapped (DESIGN CHOICE, entry 18), no transfer is outstanding (U11), the trace begins here
(entry 19), the parameters are any that R7 allows (entry 1). -/
def State.reset : State :=
  { params := Config.params
    canvas := Canvas.reset
    fb := Mirror.reset
    ill := false
    result := false
    dirty := Dirty.empty
    text := Text.reset
    font := Font.reset
    last := Last.reset
    bitcur := 0
    linebuf := []
    mem := []
    unmapped := []
    trace := []
    port := []
    waiting := false
    asyncBusy := false
    env := Env.reset }

end Sys2Proof.Machine
end

