-- ==== Sys2Proof/Machine/Operands.lean ====
section
/-! DEFINITION. Operand forms and the integer notation of 00_scope.md R9: `s16`, `wrap16`, `wrap32`, `sext_N`, `clamp`, index
ranges and row-major rectangles (R14), and the kinds of SETFONT. Arithmetic is over the integers (R152). -/

namespace Sys2Proof.Machine

/-- `s16(v)`: a 16-bit field read as two's complement (R9, R131). -/
def s16 (v : Half) : Int := v.toInt

/-- A field read unsigned (R131). -/
def u16 (v : Half) : Int := v.toNat

/-- `wrap16(n)`: the 16-bit register value congruent to `n` modulo 65536 (R9). -/
def wrap16 (n : Int) : Half := BitVec.ofInt 16 n

/-- `wrap32(n) = n mod 2^32` (R9, R71). -/
def wrap32 (n : Int) : Word := BitVec.ofInt 32 n

/-- `sext_n(v)` of an n-bit field; `sext_0(v) = 0` (R9). -/
def sext (n v : Nat) : Int :=
  if n = 0 then 0 else if v < 2 ^ (n - 1) then v else (v : Int) - (2 : Int) ^ n

/-- `clamp(v, lo, hi) = min(max(v, lo), hi)` (R9). -/
def clamp (v lo hi : Int) : Int := min (max v lo) hi

/-- The integers `a .. b-1`, ascending. -/
def intRange (a b : Int) : List Int := (List.range (b - a).toNat).map fun k : Nat => a + (k : Int)

/-- The points of columns `x0 .. x1-1`, rows `y0 .. y1-1`, row-major (R14). -/
def rectPoints (x0 y0 x1 y1 : Int) : List (Int × Int) :=
  (intRange y0 y1).flatMap fun y => (intRange x0 x1).map fun x => (x, y)

/-- SETFONT's kind operand; 3 is no kind (R134, R230). -/
def fontKindOf (k : BitVec 2) : Option FontKind :=
  match k with
  | 0#2 => some .noFont
  | 1#2 => some .fixedFont
  | 2#2 => some .scalableFont
  | _ => none

/-- The maximal runs of true positions of a row, as (first position, length), ascending (R257, R283). `at` is the position of
the head of the list; `open` the run that ends just before it. -/
def runsFrom (pos : Nat) (run : Option (Nat × Nat)) : List Bool → List (Nat × Nat)
  | [] => run.toList
  | true :: rest =>
    match run with
    | none => runsFrom (pos + 1) (some (pos, 1)) rest
    | some (a, n) => runsFrom (pos + 1) (some (a, n + 1)) rest
  | false :: rest => run.toList ++ runsFrom (pos + 1) none rest

/-- The maximal runs of ones of a row pattern (R257, R283). -/
def maximalRuns (row : List Bool) : List (Nat × Nat) := runsFrom 0 none row

end Sys2Proof.Machine
end

