-- ==== Sys2Proof/Machine/Flags.lean ====
section
/-! DEFINITION. The engine has no arithmetic flags (10_state.md R21). What it has in their place: the words STATUS, TEXTCTL and
the packed read-port words as functions of their fields (R27, R33, R60), the emptiness test and the union of the dirty
rectangle (R29, 40_clip_and_common.md R160), and the sticky bit ILL (R134, R303). -/

namespace Sys2Proof.Machine

/-- STATUS as the read port shows it: [0] FB_EN, [1] FB_ALLOC, [2] FB_INT, [3] ILL (R27, R60). -/
def statusWord (s : State) : Word :=
  (BitVec.ofBool s.ill ++ BitVec.ofBool s.fb.int ++ BitVec.ofBool s.fb.alloc ++ BitVec.ofBool s.fb.en).setWidth 32

/-- FONT_KIND's code (R33). -/
def fontKindCode (k : FontKind) : BitVec 2 :=
  match k with
  | .noFont => 0#2
  | .fixedFont => 1#2
  | .scalableFont => 2#2

/-- TEXTCTL as the read port shows it: [0] WRAP, [1] SCROLL_EN, [5:4] FONT_KIND (R33, R60). -/
def textctlWord (t : Text) : Word :=
  (fontKindCode t.fontKind ++ 0#2 ++ BitVec.ofBool t.scrollEn ++ BitVec.ofBool t.wrap).setWidth 32

/-- `DirtyEmpty` (R29). -/
def dirtyEmpty (d : Dirty) : Bool :=
  decide (s16 d.maxX < s16 d.minX) || decide (s16 d.maxY < s16 d.minY)

/-- `DirtyUnion(x0, y0, x1, y1)`, corners inclusive (R160). -/
def dirtyUnion (x0 y0 x1 y1 : Int) (d : Dirty) : Dirty :=
  { minX := wrap16 (min (s16 d.minX) x0)
    minY := wrap16 (min (s16 d.minY) y0)
    maxX := wrap16 (max (s16 d.maxX) x1)
    maxY := wrap16 (max (s16 d.maxY) y1) }

/-- An illegal packet's one effect on the registers: `STATUS.ILL <- 1` (R134). -/
def setIll (s : State) : State := { s with ill := true }

/-- Text is transparent iff FG = BG (R32, R256, R283). -/
def transparentText (t : Text) : Bool := t.fg == t.bg

end Sys2Proof.Machine
end

