-- ==== Sys2Proof/Machine/Ops.lean ====
section
/-! DEFINITION. The named operations over memory, the shadow buffer and the ports (00_scope.md R10, R11; 20_memory.md).
The engine takes no exception and returns from none (60_exceptions.md R300, R307): the one event that stands in their place is
the illegal packet, `discardPacket`. -/

namespace Sys2Proof.Machine

/-! ## Host memory (R10, R70 to R75) -/

/-- The canonical form: addresses strictly rising and below 2^32. -/
def Memory.wf (m : Memory) : Bool :=
  match m with
  | [] => true
  | [c] => decide (c.1 < 2 ^ 32)
  | c :: d :: rest => decide (c.1 < d.1) && Memory.wf (d :: rest)

/-- The byte written last at an address, if any has been. -/
def Memory.find (m : Memory) (a : Nat) : Option Byte :=
  match m with
  | [] => none
  | c :: rest => if c.1 = a then some c.2 else Memory.find rest a

/-- `Mem[a]` (R10): the byte written last, and a free value where nothing has been written (U7, U29; entry 2). -/
def Memory.read (m : Memory) (a : Word) : Byte := (Memory.find m a.toNat).getD (Config.unwrittenByte a)

/-- The list with the byte `b` at address `a`, addresses kept rising. -/
def Memory.insert (m : Memory) (a : Nat) (b : Byte) : Memory :=
  match m with
  | [] => [(a, b)]
  | c :: rest => if a < c.1 then (a, b) :: c :: rest else if a = c.1 then (a, b) :: rest else c :: Memory.insert rest a b

/-- `Mem[a] <- b` (R10). -/
def Memory.write (m : Memory) (a : Word) (b : Byte) : Memory := Memory.insert m a.toNat b

/-- `MemRead(addr, 2)`, little-endian (R10, R72). -/
def Memory.read16 (m : Memory) (a : Word) : Half := Memory.read m (a + 1) ++ Memory.read m a

/-- `MemRead(addr, 4)`, little-endian (R10, R72). -/
def Memory.read32 (m : Memory) (a : Word) : Word :=
  Memory.read m (a + 3) ++ Memory.read m (a + 2) ++ Memory.read m (a + 1) ++ Memory.read m a

/-- `MemWrite(addr, 2, v)`: two single bytes in ascending address order (R10). -/
def Memory.write16 (m : Memory) (a : Word) (v : Half) : Memory :=
  Memory.write (Memory.write m a (v.extractLsb' 0 8)) (a + 1) (v.extractLsb' 8 8)

/-- `MemWrite(addr, 4, v)` (R10). -/
def Memory.write32 (m : Memory) (a : Word) (v : Word) : Memory :=
  Memory.write (Memory.write (Memory.write (Memory.write m a (v.extractLsb' 0 8)) (a + 1) (v.extractLsb' 8 8))
    (a + 2) (v.extractLsb' 16 8)) (a + 3) (v.extractLsb' 24 8)

/-- Bytes stored from `base` upwards, ascending, addresses modulo 2^32 (R71). -/
def Memory.writeBytes (m : Memory) (base : Word) : List Byte → Memory
  | [] => m
  | b :: bs => Memory.writeBytes (Memory.write m base b) (base + 1) bs

/-! ## The shadow buffer (R80) -/

/-- `BPPIX = DEPTH / 8` (R80). -/
def bytesPerPixel (d : Depth) : Nat :=
  match d with
  | .d16 => 2
  | .d32 => 4

/-- `FBAddr(x, y) = wrap32(FB_BASE + (y * WIDTH + x) * BPPIX)` (R80, R309). -/
def fbAddr (s : State) (x y : Int) : Word :=
  wrap32 ((s.fb.base.toNat : Int) + (y * u16 s.canvas.width + x) * bytesPerPixel s.params.depth)

/-- `MemRead(addr, BPPIX)`: the raw pixel, zero-extended to 32 bits (R80, R309). -/
def readPixelAt (d : Depth) (m : Memory) (a : Word) : Word :=
  match d with
  | .d16 => (Memory.read16 m a).setWidth 32
  | .d32 => Memory.read32 m a

/-- `MemWrite(addr, BPPIX, v)`: the low 8*BPPIX bits of `v` (R80). -/
def writePixelAt (d : Depth) (m : Memory) (a : Word) (v : Word) : Memory :=
  match d with
  | .d16 => Memory.write16 m a (v.setWidth 16)
  | .d32 => Memory.write32 m a v

/-- `FBRead(x, y)` of the memory `m` (R80). -/
def fbReadIn (s : State) (m : Memory) (x y : Int) : Word := readPixelAt s.params.depth m (fbAddr s x y)

/-- `FBRead(x, y)` (R80). -/
def fbRead (s : State) (x y : Int) : Word := fbReadIn s s.mem x y

/-- `FBWrite(x, y, v)` into the memory `m` (R80). -/
def fbWriteIn (s : State) (m : Memory) (x y : Int) (v : Word) : Memory := writePixelAt s.params.depth m (fbAddr s x y) v

/-- The size in bytes of the shadow buffer, `WIDTH * HEIGHT * (DEPTH/8)` (R80, R211). -/
def fbSize (s : State) : Nat := s.canvas.width.toNat * s.canvas.height.toNat * bytesPerPixel s.params.depth

/-! ## The sink port and the allocator port (R11, R90 to R103) -/

/-- `emit`: append transactions to the trace, in order (R11). -/
def emit (ts : List Transaction) (s : State) : State := { s with trace := s.trace ++ ts }

/-- The next answer of a scripted list, a free value when there is none. -/
def Env.nextAlloc (e : Env) : AllocAnswer × Env :=
  match e.alloc with
  | a :: rest => (a, { e with alloc := rest })
  | [] => (Config.allocAnswer e.draws, { e with draws := e.draws + 1 })

/-- The next answer to ASYNC_ACTIVE while a transfer is outstanding, a free value when none is scripted. -/
def Env.nextActive (e : Env) : Bool × Env :=
  match e.active with
  | b :: rest => (b, { e with active := rest })
  | [] => (Config.activeAnswer e.draws, { e with draws := e.draws + 1 })

/-- The next `n` pixels of the sink, free values from where the scripted ones end. -/
def Env.nextPixels (e : Env) (n : Nat) : List Half × Env :=
  ((List.range n).map fun k => (e.pixels[k]?).getD (Config.readPixel e.draws k),
   { e with pixels := e.pixels.drop n, draws := e.draws + 1 })

/-- The `n` bytes of a buffer the allocator has answered with, free values from where the scripted ones end (R82). -/
def Env.nextBytes (e : Env) (n : Nat) : List Byte × Env :=
  ((List.range n).map fun k => (e.bytes[k]?).getD (Config.freshByte e.draws k),
   { e with bytes := e.bytes.drop n, draws := e.draws + 1 })

/-- `ask ASYNC_ACTIVE()` (R98). U11: 0 before any transfer; once 0 after a transfer, 0 until the next WRITERECT_ASYNC; while a
transfer is outstanding the answer is the environment's (entry 6). -/
def askActive (s : State) : Bool × State :=
  if s.asyncBusy then
    (s.env.nextActive.1,
     { s with env := s.env.nextActive.2, asyncBusy := s.env.nextActive.1
              trace := s.trace ++ [.asyncActive s.env.nextActive.1] })
  else (false, { s with trace := s.trace ++ [.asyncActive false] })

/-- `ask READRECT(x, y, w, h)`: `w*h` pixels, row-major, the environment's (R96). -/
def askRead (x y w h : Int) (s : State) : List Half × State :=
  ((s.env.nextPixels (w * h).toNat).1,
   { s with env := (s.env.nextPixels (w * h).toNat).2
            trace := s.trace ++
              [.readRect (wrap16 x) (wrap16 y) (wrap16 w) (wrap16 h) (s.env.nextPixels (w * h).toNat).1] })

/-- The address an allocator's block stands for: a multiple of 32 (R103). -/
def blockAddr (b : BitVec 27) : Word := BitVec.ofNat 32 (32 * b.toNat)

/-- `ask ALLOC(size, 32)` (R103, R211). -/
def askAlloc (size : Nat) (s : State) : AllocAnswer × State :=
  (s.env.nextAlloc.1,
   { s with env := s.env.nextAlloc.2, trace := s.trace ++ [.alloc size 32 s.env.nextAlloc.1] })

/-- The bytes of the region `ALLOC` answered with: "arbitrary", "a draw per byte at allocation, stable afterwards" (R82, D17). -/
def drawFresh (base : Word) (size : Nat) (s : State) : State :=
  { s with mem := Memory.writeBytes s.mem base (s.env.nextBytes size).1, env := (s.env.nextBytes size).2 }

/-- The four-part streaming session over a window, corners inclusive (R99). -/
def session (x0 y0 x1 y1 : Int) (pixels : List Half) : List Transaction :=
  .setAddr (wrap16 x0) (wrap16 y0) (wrap16 x1) (wrap16 y1) :: .begin :: (pixels.map Transaction.pixel ++ [.finish])

/-! ## The overlap bookkeeping and the hidden state -/

/-- `LAST_VALID <- 0` (R39). -/
def clearLast (s : State) : State := { s with last := { s.last with valid := false } }

/-- BITCUR and LINEBUF are "dead at the end of the command" (R40, R41): they go back to their reset values (entry 12). -/
def retireHidden (s : State) : State := { s with bitcur := 0, linebuf := [] }

/-- The dirty rectangle set to empty (R29). -/
def emptyDirty (s : State) : State := { s with dirty := Dirty.empty }

/-- The command port after a packet has been taken from it (R105). -/
def withPort (rest : List Word) (s : State) : State := { s with port := rest }

/-- An illegal packet: its words are consumed, ILL is set, "no register, no memory byte and no port other than the command port
is touched" (R134). -/
def discardPacket (rest : List Word) (s : State) : State := setIll (withPort rest s)

end Sys2Proof.Machine
end

