-- ==== Sys2Proof/Machine/Drawing.lean ====
section
/-! DEFINITION. The functions every drawing command is built from (40_clip_and_common.md R150 to R166): the clip engine, the
colour conversions, the blend, PutWindow and the drawing wrappers. -/

namespace Sys2Proof.Machine

/-! ## The clip engine (R150 to R153) -/

/-- `VIS(X, Y, vx0, vy0, vx1, vy1)` (R151). -/
structure Vis where
  X : Int
  Y : Int
  vx0 : Int
  vy0 : Int
  vx1 : Int
  vy1 : Int
  deriving DecidableEq, Repr

/-- `Clip(x, y, w, h)` in logical coordinates; `none` is the rule's NONE (R151). -/
def clip (c : Canvas) (x y w h : Int) : Option Vis :=
  if w ≤ 0 ∨ h ≤ 0 then none
  else
    let X := x + s16 c.originX
    let Y := y + s16 c.originY
    let vx0 := max X (s16 c.clipX1)
    let vx1 := min (X + w) (s16 c.clipX2)
    let vy0 := max Y (s16 c.clipY1)
    let vy1 := min (Y + h) (s16 c.clipY2)
    if vx1 ≤ vx0 ∨ vy1 ≤ vy0 then none else some ⟨X, Y, vx0, vy0, vx1, vy1⟩

/-- `SrcIndex(vx, vy) = (vy - Y) * w + (vx - X)` (R151). -/
def srcIndex (v : Vis) (w vx vy : Int) : Int := (vy - v.Y) * w + (vx - v.X)

/-! ## Colours (R15, R154 to R157) -/

/-- Red of an RGB565 colour, `c[15:11]` (R15). -/
def red5 (c : Half) : BitVec 5 := c.extractLsb' 11 5

/-- Green, `c[10:5]` (R15). -/
def green6 (c : Half) : BitVec 6 := c.extractLsb' 5 6

/-- Blue, `c[4:0]` (R15). -/
def blue5 (c : Half) : BitVec 5 := c.extractLsb' 0 5

/-- `Expand888(c)`: "each channel's low clear bits are forced to `1`" where the channel is nonzero (R154). -/
def expand888 (c : Half) : Word :=
  let r8 : Byte := if red5 c = 0#5 then 0#8 else red5 c ++ 7#3
  let g8 : Byte := if green6 c = 0#6 then 0#8 else green6 c ++ 3#2
  let b8 : Byte := if blue5 c = 0#5 then 0#8 else blue5 c ++ 7#3
  0#8 ++ r8 ++ g8 ++ b8

/-- `Quant565(v) = {v[23:19], v[15:10], v[7:3]}` (R155). -/
def quant565 (v : Word) : Half := v.extractLsb' 19 5 ++ v.extractLsb' 10 6 ++ v.extractLsb' 3 5

/-- `ToFB(c)` (R156). -/
def toFB (d : Depth) (c : Half) : Word :=
  match d with
  | .d16 => c.setWidth 32
  | .d32 => expand888 c

/-- `FromFB(v)` (R156). -/
def fromFB (d : Depth) (v : Word) : Half :=
  match d with
  | .d16 => v.setWidth 16
  | .d32 => quant565 v

/-- One channel of the blend, `floor((fg * a + bg * (32 - a)) / 32)` (R157). -/
def blendChannel (fg bg : Nat) (a : Int) : Int := ((fg : Int) * a + (bg : Int) * (32 - a)) / 32

/-- `Blend(fg, bg, a)`, per channel (R157). -/
def blend (fg bg : Half) (a : Int) : Half :=
  BitVec.ofInt 5 (blendChannel (red5 fg).toNat (red5 bg).toNat a)
    ++ BitVec.ofInt 6 (blendChannel (green6 fg).toNat (green6 bg).toNat a)
    ++ BitVec.ofInt 5 (blendChannel (blue5 fg).toNat (blue5 bg).toNat a)

/-- The spread of a colour into separated lanes: green in bits 26:21, red in 15:11, blue in 4:0 (R166). -/
def spreadLanes (c : Half) : Word := (c.setWidth 32 ||| (c.setWidth 32 <<< 16)) &&& 0x07E0F81F#32

/-- The blend in packed lanes, an implementation note of R166 that "realises rule R157 exactly" for `a` in 0..31; no command
uses it, `blend` is the definition. -/
def packedBlend (fg bg : Half) (a : Nat) : Half :=
  let d := (spreadLanes fg - spreadLanes bg) * BitVec.ofNat 32 a
  let r := ((d >>> 5) + spreadLanes bg) &&& 0x07E0F81F#32
  (r ||| (r >>> 16)).setWidth 16

/-! ## Writing pixels (R158 to R160) -/

/-- The colour of a pixel, which may read `Mem` (R158). -/
abbrev Colour := Memory → Int → Int → Half

/-- The shadow-mode loop of PutWindow: for each point in order, the colour is read and then the pixel is written (R111, R158). -/
def paint (s : State) (f : Colour) (m : Memory) : List (Int × Int) → Memory
  | [] => m
  | p :: ps => paint s f (fbWriteIn s m p.1 p.2 (toFB s.params.depth (f m p.1 p.2))) ps

/-- `PutWindow(vx0, vy0, vx1, vy1, f)`: the shadow buffer and the dirty rectangle, or one session on the sink port (R158). With
`clip` and `dirtyUnion` it is what R162's four properties are about. -/
def putWindow (vx0 vy0 vx1 vy1 : Int) (f : Colour) (s : State) : State :=
  if s.fb.en then
    { s with mem := paint s f s.mem (rectPoints vx0 vy0 vx1 vy1)
             dirty := dirtyUnion vx0 vy0 (vx1 - 1) (vy1 - 1) s.dirty }
  else
    emit (session vx0 vy0 (vx1 - 1) (vy1 - 1) ((rectPoints vx0 vy0 vx1 vy1).map fun p => f s.mem p.1 p.2)) s

/-- `DrawWindow(x, y, w, h, g)`, `g` the colour at a logical position (R159, R162 (a)). -/
def drawWindow (x y w h : Int) (g : Colour) (s : State) : State :=
  match clip s.canvas x y w h with
  | none => s
  | some v =>
    putWindow v.vx0 v.vy0 v.vx1 v.vy1
      (fun m vx vy => g m (vx - s16 s.canvas.originX) (vy - s16 s.canvas.originY)) s

/-- `DrawRect(x, y, w, h, c)` (R159). -/
def drawRect (x y w h : Int) (c : Half) (s : State) : State := drawWindow x y w h (fun _ _ _ => c) s

/-- `DrawPixel(x, y, c)` (R159). -/
def drawPixel (x y : Int) (c : Half) (s : State) : State := drawRect x y 1 1 c s

/-! ## The bit reader (R165) -/

/-- `FetchBit(b, k)`, most significant bit first (R73, R165). A negative `k` follows the same formula with the floor division
and remainder of R9 (entry 14). -/
def fetchBit (m : Memory) (b : Word) (k : Int) : Bool :=
  (Memory.read m (wrap32 ((b.toNat : Int) + k / 8))).getLsbD (7 - k % 8).toNat

/-- `FetchU(b, k, n)`: the first bit is the most significant (R165). -/
def fetchU (m : Memory) (b : Word) (k : Int) (n : Nat) : Nat :=
  (List.range n).foldl (fun (acc : Nat) (i : Nat) => 2 * acc + (fetchBit m b (k + (i : Int))).toNat) 0

/-- `FetchS(b, k, n) = sext_n(FetchU(b, k, n))` (R165). -/
def fetchS (m : Memory) (b : Word) (k : Int) (n : Nat) : Int := sext n (fetchU m b k n)

/-- `AlignUp8(k)` (R165). -/
def alignUp8 (k : Nat) : Nat := (k + 7) / 8 * 8

end Sys2Proof.Machine
end

