-- ==== Sys2Proof/Machine/CanvasCommands.lean ====
section
/-! DEFINITION. NOP, SETCANVAS, SETORIGIN, SETCLIP (41_config.md R180 to R183). -/

namespace Sys2Proof.Machine

/-- NOP: nothing (R180). -/
def execNop (s : State) : Host.Outcome State Fault Refusal := .next s

/-- The canvas after an accepted SETCANVAS: the size, and the clip bounds on the whole of it (R181). -/
def sizedCanvas (w h : Half) (c : Canvas) : Canvas :=
  { c with width := w, height := h, clipX1 := 0, clipY1 := 0, clipX2 := w, clipY2 := h }

/-- SETCANVAS w, h: ignored for a negative size and while a buffer is attached (R181). -/
def execSetcanvas (w h : Half) (s : State) : Host.Outcome State Fault Refusal :=
  .next (if s16 w < 0 ∨ s16 h < 0 then s
    else if s.fb.alloc then s
    else clearLast { s with canvas := sizedCanvas w h s.canvas })

/-- SETORIGIN x, y (R182). -/
def execSetorigin (x y : Half) (s : State) : Host.Outcome State Fault Refusal :=
  .next (clearLast { s with canvas := { s.canvas with originX := x, originY := y } })

/-- The canvas after SETCLIP x, y, w, h: bounds clamped to the canvas, the far bound never before the near one; `x + w` is
exact (R183). -/
def clippedCanvas (x y w h : Int) (c : Canvas) : Canvas :=
  let x1 := clamp x 0 (u16 c.width)
  let y1 := clamp y 0 (u16 c.height)
  { c with
    clipX1 := wrap16 x1
    clipY1 := wrap16 y1
    clipX2 := wrap16 (max x1 (clamp (x + w) 0 (u16 c.width)))
    clipY2 := wrap16 (max y1 (clamp (y + h) 0 (u16 c.height))) }

/-- SETCLIP x, y, w, h, in canvas coordinates (R183). -/
def execSetclip (x y w h : Half) (s : State) : Host.Outcome State Fault Refusal :=
  .next { s with canvas := clippedCanvas (s16 x) (s16 y) (s16 w) (s16 h) s.canvas }

end Sys2Proof.Machine
end

