-- ==== Sys2Proof/Machine/Events.lean ====
section
/-! DEFINITION. The accesses of a command one by one: every read and write of `Mem` and every transaction, in the order its rule lists
them (20_memory.md R78, R111). Two rules speak of single accesses: R79 (an address with nothing behind it) and R330 (a command abandoned
where it stands). What a command computes is its meaning; the events say in which order its effects reach `Mem` and the ports. -/

namespace Sys2Proof.Machine

/-- One access of the engine. -/
inductive Event where
  /-- `n` bytes read from `a` upwards, one by one (R10) -/
  | load (a : Word) (n : Nat)
  /-- one byte written (R10) -/
  | store (a : Word) (b : Byte)
  /-- a transaction on the sink port or the allocator port, with its answer (R11) -/
  | port (t : Transaction)
  deriving DecidableEq, Repr

/-! ## An address with nothing behind it (R79) -/

/-- Whether two regions share a byte. -/
def regionsMeet (a b : Region) : Bool :=
  decide (0 < a.2 ∧ 0 < b.2 ∧ ((b.1 - a.1).toNat < a.2 ∨ (a.1 - b.1).toNat < b.2))

/-- Whether an access touches a region. A transaction touches none: it carries no access of the engine to `Mem`. -/
def Event.touches (r : Region) (e : Event) : Bool :=
  match e with
  | .load a n => regionsMeet r (a, n)
  | .store a _ => regionsMeet r (a, 1)
  | .port _ => false

/-- Whether one of the accesses goes to an address with nothing behind it. -/
def blocked (evs : List Event) (s : State) : Bool := s.unmapped.any fun r => evs.any (Event.touches r)

/-- A command with the accesses `evs` that ends in `t`: "A model should give such an access no step" (R79). -/
def guarded (evs : List Event) (s t : State) : Host.Outcome State Fault Refusal :=
  if blocked evs s then .refused .unmappedAddress else .next t

/-! ## What the events leave (R111, R330) -/

/-- What a transaction leaves outside the registers: the trace; of a query, the answers that are left; of a hand-over, the outstanding
transfer; of a successful ALLOC, the bytes the region holds (R82). -/
def applyTransaction (t : Transaction) (s : State) : State :=
  let u := emit [t] s
  match t with
  | .readRect _ _ _ _ answer => { u with env := (s.env.nextPixels answer.length).2 }
  | .asyncActive answer => { u with env := if s.asyncBusy then s.env.nextActive.2 else s.env, asyncBusy := answer }
  | .alloc size _ answer =>
    match answer with
    | none => { u with env := s.env.nextAlloc.2 }
    | some b => drawFresh (blockAddr b) size { u with env := s.env.nextAlloc.2 }
  | .writeRectAsync _ _ _ _ _ _ => { u with asyncBusy := true }
  | .setAddr _ _ _ _ => u
  | .begin => u
  | .pixel _ => u
  | .finish => u
  | .writeRect _ _ _ _ _ => u
  | .free _ => u

/-- What one access leaves outside the registers. -/
def applyEvent (s : State) (e : Event) : State :=
  match e with
  | .load _ _ => s
  | .store a b => { s with mem := Memory.write s.mem a b }
  | .port t => applyTransaction t s

/-- What a sequence of accesses leaves outside the registers. -/
def replay (evs : List Event) (s : State) : State := evs.foldl applyEvent s

/-! ## The events of the shared operations -/

/-- `MemWrite(addr, 2, v)`, byte by byte (R10). -/
def storeHalf (a : Word) (v : Half) : List Event := [.store a (v.extractLsb' 0 8), .store (a + 1) (v.extractLsb' 8 8)]

/-- `MemWrite(addr, 4, v)`, byte by byte (R10). -/
def storeWord (a : Word) (v : Word) : List Event :=
  [.store a (v.extractLsb' 0 8), .store (a + 1) (v.extractLsb' 8 8), .store (a + 2) (v.extractLsb' 16 8),
   .store (a + 3) (v.extractLsb' 24 8)]

/-- `FBWrite(x, y, v)` (R80). -/
def storePixel (s : State) (x y : Int) (v : Word) : List Event :=
  match s.params.depth with
  | .d16 => storeHalf (fbAddr s x y) (v.setWidth 16)
  | .d32 => storeWord (fbAddr s x y) v

/-- `FBRead(x, y)` (R80). -/
def loadPixel (s : State) (x y : Int) : Event := .load (fbAddr s x y) (bytesPerPixel s.params.depth)

/-- A field of `n` bits at bit `k` of a stream: "Only the bytes that hold bits `k .. k+n-1` are read; `n = 0` reads nothing" (R165). -/
def loadField (b : Word) (k : Int) (n : Nat) : List Event :=
  if n = 0 then [] else [.load (wrap32 ((b.toNat : Int) + k / 8)) ((k + n - 1) / 8 - k / 8 + 1).toNat]

/-- The reads a colour makes of `Mem` at a position (R111: before the write of its pixel). -/
abbrev Reads := Memory → Int → Int → List Event

/-- A colour that reads nothing. -/
def noReads : Reads := fun _ _ _ => []

/-- The shadow-mode loop of PutWindow (R111, R158). -/
def paintEvents (s : State) (f : Colour) (reads : Reads) (m : Memory) : List (Int × Int) → List Event
  | [] => []
  | p :: ps =>
    reads m p.1 p.2 ++ storePixel s p.1 p.2 (toFB s.params.depth (f m p.1 p.2)) ++
      paintEvents s f reads (fbWriteIn s m p.1 p.2 (toFB s.params.depth (f m p.1 p.2))) ps

/-- One session, `pixels` the reads and the PIXELs between BEGIN and END (R99). -/
def sessionEvents (x0 y0 x1 y1 : Int) (pixels : List Event) : List Event :=
  .port (.setAddr (wrap16 x0) (wrap16 y0) (wrap16 x1) (wrap16 y1)) :: .port .begin :: (pixels ++ [.port .finish])

/-- PutWindow (R158). -/
def putWindowEvents (vx0 vy0 vx1 vy1 : Int) (f : Colour) (reads : Reads) (s : State) : List Event :=
  if s.fb.en then paintEvents s f reads s.mem (rectPoints vx0 vy0 vx1 vy1)
  else
    sessionEvents vx0 vy0 (vx1 - 1) (vy1 - 1)
      ((rectPoints vx0 vy0 vx1 vy1).flatMap fun p => reads s.mem p.1 p.2 ++ [.port (.pixel (f s.mem p.1 p.2))])

/-- DrawWindow (R159). -/
def drawWindowEvents (x y w h : Int) (g : Colour) (reads : Reads) (s : State) : List Event :=
  match clip s.canvas x y w h with
  | none => []
  | some v =>
    putWindowEvents v.vx0 v.vy0 v.vx1 v.vy1
      (fun m vx vy => g m (vx - s16 s.canvas.originX) (vy - s16 s.canvas.originY))
      (fun m vx vy => reads m (vx - s16 s.canvas.originX) (vy - s16 s.canvas.originY)) s

/-- DrawRect (R159). -/
def drawRectEvents (x y w h : Int) (c : Half) (s : State) : List Event := drawWindowEvents x y w h (fun _ _ _ => c) noReads s

/-- DrawPixel (R159). -/
def drawPixelEvents (x y : Int) (c : Half) (s : State) : List Event := drawRectEvents x y 1 1 c s

/-- A loop: the events of each turn in the state the turn begins in. -/
def loopEvents {α : Type} (body : State → α → State) (events : State → α → List Event) : List α → State → List Event
  | [], _ => []
  | a :: l, s => events s a ++ loopEvents body events l (body s a)

end Sys2Proof.Machine
end

