-- ==== Sys2Proof/Machine/PixelCommands.lean ====
section
/-! DEFINITION. SETPIXEL, FASTVLINE, FASTHLINE, FILLRECT, WRITERECT, READRECT (42_pixel_backend.md R190 to R198). -/

namespace Sys2Proof.Machine

/-- SETPIXEL x, y, #color (R191). -/
def execSetpixel (x y color : Half) (s : State) : Host.Outcome State Fault Refusal :=
  guarded (drawPixelEvents (s16 x) (s16 y) color s) s (drawPixel (s16 x) (s16 y) color s)

/-- FASTVLINE x, y, h, #color (R192). -/
def execFastvline (x y h color : Half) (s : State) : Host.Outcome State Fault Refusal :=
  guarded (drawRectEvents (s16 x) (s16 y) 1 (s16 h) color s) s (drawRect (s16 x) (s16 y) 1 (s16 h) color s)

/-- FASTHLINE x, y, w, #color (R193). -/
def execFasthline (x y w color : Half) (s : State) : Host.Outcome State Fault Refusal :=
  guarded (drawRectEvents (s16 x) (s16 y) (s16 w) 1 color s) s (drawRect (s16 x) (s16 y) (s16 w) 1 color s)

/-- FILLRECT x, y, w, h, #color (R194). -/
def execFillrect (x y w h color : Half) (s : State) : Host.Outcome State Fault Refusal :=
  guarded (drawRectEvents (s16 x) (s16 y) (s16 w) (s16 h) color s) s (drawRect (s16 x) (s16 y) (s16 w) (s16 h) color s)

/-- The address of element `k` of an array of 16-bit elements (R196, R197, R309). -/
def elementAddr (base : Word) (k : Int) : Word := wrap32 ((base.toNat : Int) + 2 * k)

/-- The colour of WRITERECT's source at a logical position: element `(ly - y) * w + (lx - x)` (R196). -/
def sourceColour (x y w : Int) (src : Word) : Colour := fun m lx ly =>
  Memory.read16 m (elementAddr src ((ly - y) * w + (lx - x)))

/-- The read of one source element (R196). -/
def sourceReads (x y w : Int) (src : Word) : Reads := fun _ lx ly => [.load (elementAddr src ((ly - y) * w + (lx - x))) 2]

/-- The accesses of WRITERECT (R78, R196). -/
def writerectEvents (x y w h : Half) (src : Word) (s : State) : List Event :=
  drawWindowEvents (s16 x) (s16 y) (s16 w) (s16 h) (sourceColour (s16 x) (s16 y) (s16 w) src)
    (sourceReads (s16 x) (s16 y) (s16 w) src) s

/-- WRITERECT x, y, w, h, @src: every visible pixel is written, no write is elided (R196, entry 22). -/
def execWriterect (x y w h : Half) (src : Word) (s : State) : Host.Outcome State Fault Refusal :=
  guarded (writerectEvents x y w h src s) s
    (drawWindow (s16 x) (s16 y) (s16 w) (s16 h) (sourceColour (s16 x) (s16 y) (s16 w) src) s)

/-- READRECT's loop with the shadow buffer: each visible pixel is read, then stored to its element (R197). -/
def copyOut (s : State) (v : Vis) (w : Int) (dst : Word) (m : Memory) : List (Int × Int) → Memory
  | [] => m
  | p :: ps =>
    copyOut s v w dst
      (Memory.write16 m (elementAddr dst (srcIndex v w p.1 p.2)) (fromFB s.params.depth (fbReadIn s m p.1 p.2))) ps

/-- READRECT's loop with the sink's answer: the pixels in row-major order go to the elements of the visible pixels (R197). -/
def storeAnswer (v : Vis) (w : Int) (dst : Word) (m : Memory) : List (Int × Int) → List Half → Memory
  | p :: ps, c :: cs => storeAnswer v w dst (Memory.write16 m (elementAddr dst (srcIndex v w p.1 p.2)) c) ps cs
  | _, _ => m

/-- READRECT after clipping: from the shadow buffer when FB_EN = 1, else from the sink (R197). -/
def readVisible (v : Vis) (w : Int) (dst : Word) (s : State) : State :=
  let pts := rectPoints v.vx0 v.vy0 v.vx1 v.vy1
  if s.fb.en then { s with mem := copyOut s v w dst s.mem pts }
  else
    let a := askRead v.vx0 v.vy0 (v.vx1 - v.vx0) (v.vy1 - v.vy0) s
    { a.2 with mem := storeAnswer v w dst s.mem pts a.1 }

/-- The accesses of the loop with the shadow buffer (R197). -/
def copyOutEvents (s : State) (v : Vis) (w : Int) (dst : Word) (m : Memory) : List (Int × Int) → List Event
  | [] => []
  | p :: ps =>
    loadPixel s p.1 p.2 ::
      (storeHalf (elementAddr dst (srcIndex v w p.1 p.2)) (fromFB s.params.depth (fbReadIn s m p.1 p.2)) ++
        copyOutEvents s v w dst
          (Memory.write16 m (elementAddr dst (srcIndex v w p.1 p.2)) (fromFB s.params.depth (fbReadIn s m p.1 p.2))) ps)

/-- The accesses of the loop with the sink's answer (R197). -/
def storeAnswerEvents (v : Vis) (w : Int) (dst : Word) : List (Int × Int) → List Half → List Event
  | p :: ps, c :: cs => storeHalf (elementAddr dst (srcIndex v w p.1 p.2)) c ++ storeAnswerEvents v w dst ps cs
  | _, _ => []

/-- `ask READRECT(x, y, w, h)` (R96). -/
def askReadEvent (x y w h : Int) (s : State) : Event :=
  .port (.readRect (wrap16 x) (wrap16 y) (wrap16 w) (wrap16 h) (askRead x y w h s).1)

/-- The accesses of READRECT (R78, R197). -/
def readrectEvents (x y w h : Half) (dst : Word) (s : State) : List Event :=
  match clip s.canvas (s16 x) (s16 y) (s16 w) (s16 h) with
  | none => []
  | some v =>
    let pts := rectPoints v.vx0 v.vy0 v.vx1 v.vy1
    if s.fb.en then copyOutEvents s v (s16 w) dst s.mem pts
    else
      askReadEvent v.vx0 v.vy0 (v.vx1 - v.vx0) (v.vy1 - v.vy0) s ::
        storeAnswerEvents v (s16 w) dst pts (askRead v.vx0 v.vy0 (v.vx1 - v.vx0) (v.vy1 - v.vy0) s).1

/-- What READRECT leaves (R197). -/
def readrectState (x y w h : Half) (dst : Word) (s : State) : State :=
  match clip s.canvas (s16 x) (s16 y) (s16 w) (s16 h) with
  | none => s
  | some v => readVisible v (s16 w) dst s

/-- READRECT x, y, w, h, @dst (R197). -/
def execReadrect (x y w h : Half) (dst : Word) (s : State) : Host.Outcome State Fault Refusal :=
  guarded (readrectEvents x y w h dst s) s (readrectState x y w h dst s)

end Sys2Proof.Machine
end

