-- ==== Sys2Proof/Machine/TextLayout.lean ====
section
/-! DEFINITION. What the two font machines share: line wrap (45_font_scalable.md R248, 46_font_fixed.md R282), auto-scroll (R249,
R282) and ScrollUp (R262). -/

namespace Sys2Proof.Machine

/-- `rlimit`: where a line ends, logical (R248, R282). -/
def lineLimit (s : State) : Int :=
  if s.text.scrollEn then s16 s.text.scrollX + s16 s.text.scrollW else u16 s.canvas.width

/-- `lstart`: where a line begins, logical (R248, R282). -/
def lineStart (s : State) : Int := if s.text.scrollEn then s16 s.text.scrollX else 0

/-- `cx`, `cy` and `moved` while a character is placed (R248). -/
structure Pen where
  cx : Int
  cy : Int
  moved : Bool
  deriving DecidableEq, Repr

/-- The wrap step: a character whose right edge is at `right` when it starts at the cursor goes to the next line when WRAP = 1
and it passes the limit (R248 with `right = ox + gw`, R282 with `right = cx + 6*sx`). -/
def wrapPen (s : State) (right lineh : Int) : Pen :=
  if s.text.wrap ∧ lineLimit s < right then
    { cx := lineStart s, cy := s16 s.text.cursorY + lineh, moved := true }
  else { cx := s16 s.text.cursorX, cy := s16 s.text.cursorY, moved := false }

/-- The auto-scroll test at the line `cy` (R249, R282). -/
def scrollDue (s : State) (cy lineh : Int) : Bool :=
  s.text.scrollEn && decide (s16 s.text.scrollY + s16 s.text.scrollH < cy + lineh)

/-- One row of ScrollUp in shadow mode: raw pixels go to LINEBUF, "no conversion", then from LINEBUF to row `dy`, then DirtyUnion (R262,
R41). DEDUCED: R156's FromFB is for a pixel that goes out of the buffer, and these stay in it (entry 27). -/
def moveRowShadow (x0 x1 sy dy : Int) (s : State) : State :=
  let buffered := { s with linebuf := (intRange x0 x1).map fun vx => fbRead s vx sy }
  let cells := (intRange x0 x1).zip buffered.linebuf
  { buffered with
    mem := cells.foldl (fun m c => fbWriteIn buffered m c.1 dy c.2) buffered.mem
    dirty := dirtyUnion x0 dy (x1 - 1) dy buffered.dirty }

/-- One row of ScrollUp in direct mode: LINEBUF takes the sink's answer, one session writes it to row `dy` (R262). -/
def moveRowDirect (x0 x1 sy dy : Int) (s : State) : State :=
  let a := askRead x0 sy (x1 - x0) 1 s
  let buffered := { a.2 with linebuf := a.1.map fun c => c.setWidth 32 }
  emit (session x0 dy (x1 - 1) dy (buffered.linebuf.map fun v => v.setWidth 16)) buffered

/-- One turn of ScrollUp's loop: row `y` moves to row `y - n` only where both are visible (R262). -/
def moveRow (n y : Int) (s : State) : State :=
  match clip s.canvas (s16 s.text.scrollX) y (s16 s.text.scrollW) 1,
      clip s.canvas (s16 s.text.scrollX) (y - n) (s16 s.text.scrollW) 1 with
  | some src, some dst =>
    if s.fb.en then moveRowShadow src.vx0 src.vx1 src.vy0 dst.vy0 s
    else moveRowDirect src.vx0 src.vx1 src.vy0 dst.vy0 s
  | _, _ => s

/-- `ScrollUp(n)`: the rows in ascending order, then the band filled with BG (R262). -/
def scrollUp (n : Int) (s : State) : State :=
  if n ≤ 0 then s
  else
    let moved := (intRange (s16 s.text.scrollY + n) (s16 s.text.scrollY + s16 s.text.scrollH)).foldl
      (fun t y => moveRow n y t) s
    drawRect (s16 s.text.scrollX) (s16 s.text.scrollY + max (s16 s.text.scrollH - n) 0) (s16 s.text.scrollW)
      (min n (s16 s.text.scrollH)) s.text.bg moved

/-- Wrap, then auto-scroll, each at most once (R248, R249, R282). -/
def placePen (s : State) (right lineh : Int) : Pen × State :=
  let p := wrapPen s right lineh
  if scrollDue s p.cy lineh then
    ({ cx := s16 s.text.scrollX, cy := p.cy - lineh, moved := true }, scrollUp lineh s)
  else (p, s)

/-! ## The accesses of ScrollUp (R78, R262) -/

/-- One row in shadow mode: the reads of the row, then the writes from LINEBUF. -/
def moveRowShadowEvents (x0 x1 sy dy : Int) (s : State) : List Event :=
  ((intRange x0 x1).map fun vx => loadPixel s vx sy) ++
    ((intRange x0 x1).zip ((intRange x0 x1).map fun vx => fbRead s vx sy)).flatMap fun c => storePixel s c.1 dy c.2

/-- One row in direct mode: the query, then one session. -/
def moveRowDirectEvents (x0 x1 sy dy : Int) (s : State) : List Event :=
  askReadEvent x0 sy (x1 - x0) 1 s ::
    sessionEvents x0 dy (x1 - 1) dy ((askRead x0 sy (x1 - x0) 1 s).1.map fun c => .port (.pixel c))

/-- One turn of the loop. -/
def moveRowEvents (n y : Int) (s : State) : List Event :=
  match clip s.canvas (s16 s.text.scrollX) y (s16 s.text.scrollW) 1,
      clip s.canvas (s16 s.text.scrollX) (y - n) (s16 s.text.scrollW) 1 with
  | some src, some dst =>
    if s.fb.en then moveRowShadowEvents src.vx0 src.vx1 src.vy0 dst.vy0 s
    else moveRowDirectEvents src.vx0 src.vx1 src.vy0 dst.vy0 s
  | _, _ => []

/-- ScrollUp: the rows, then the band. -/
def scrollUpEvents (n : Int) (s : State) : List Event :=
  if n ≤ 0 then []
  else
    let rows := intRange (s16 s.text.scrollY + n) (s16 s.text.scrollY + s16 s.text.scrollH)
    loopEvents (fun t y => moveRow n y t) (fun t y => moveRowEvents n y t) rows s ++
      drawRectEvents (s16 s.text.scrollX) (s16 s.text.scrollY + max (s16 s.text.scrollH - n) 0) (s16 s.text.scrollW)
        (min n (s16 s.text.scrollH)) s.text.bg (rows.foldl (fun t y => moveRow n y t) s)

/-- The accesses of placing a character: those of the scroll, if one is due. -/
def placePenEvents (s : State) (right lineh : Int) : List Event :=
  if scrollDue s (wrapPen s right lineh).cy lineh then scrollUpEvents lineh s else []

/-- The cursor written back through `wrap16` (R263, R285). -/
def moveCursor (x y : Int) (s : State) : State :=
  { s with text := { s.text with cursorX := wrap16 x, cursorY := wrap16 y } }

end Sys2Proof.Machine
end

