-- ==== Sys2Proof/Machine/FixedFont.lean ====
section
/-! DEFINITION. DRAWCHAR with a fixed font (46_font_fixed.md R280 to R288). -/

namespace Sys2Proof.Machine

/-- Column byte `col` of a character: GLCDFONT for FONT_KIND 0, else the supplied table (R281). -/
def fixedColumn (s : State) (code col : Nat) : Byte :=
  if s.text.fontKind = .noFont then (s.params.glcdfont[code * 5 + col]?).getD 0#8
  else Memory.read s.mem (wrap32 ((s.font.fixed.toNat : Int) + code * 5 + col))

/-- The five column bytes `B[0 .. 4]`, fetched in ascending order before anything is drawn (R281). -/
def fixedColumns (s : State) (code : Nat) : List Byte := (List.range 5).map fun col => fixedColumn s code col

/-- `bit(col, row)`, 0 outside columns 0 to 4 (R281, R284). -/
def cellBit (b : List Byte) (col row : Nat) : Bool := ((b[col]?).getD 0#8).getLsbD row

/-- Row `row` of the character, five columns (R283). -/
def cellRow (b : List Byte) (row : Nat) : List Bool := (List.range 5).map fun col => cellBit b col row

/-- One row of the transparent draw (R283). -/
def drawFixedRow (b : List Byte) (cx cy sx sy : Int) (fg : Half) (s : State) (row : Nat) : State :=
  (maximalRuns (cellRow b row)).foldl (fun u run => drawRect (cx + run.1 * sx) (cy + row * sy) (run.2 * sx) sy fg u) s

/-- Transparent draw: one rectangle per maximal run of a row, rows from the top, runs ascending (R283). -/
def drawFixedTransparent (b : List Byte) (cx cy sx sy : Int) (s : State) : State :=
  (List.range 8).foldl (drawFixedRow b cx cy sx sy s.text.fg) s

/-- `Cell(lx, ly)`: FG where a bit is set, BG elsewhere, the spacing column included (R284). -/
def cellColour (b : List Byte) (cx cy sx sy : Int) (fg bg : Half) : Colour := fun _ lx ly =>
  if cellBit b ((lx - cx) / sx).toNat ((ly - cy) / sy).toNat then fg else bg

/-- Opaque draw: the whole 6 by 8 cell as one window (R284). -/
def drawFixedOpaque (b : List Byte) (cx cy sx sy : Int) (s : State) : State :=
  drawWindow cx cy (6 * sx) (8 * sy) (cellColour b cx cy sx sy s.text.fg s.text.bg) s

/-! ## The accesses (R78, R281 to R284) -/

/-- The reads of the column bytes: none for the built-in table, which is not in `Mem` (R281). -/
def columnEvents (s : State) (code : Nat) : List Event :=
  if s.text.fontKind = .noFont then []
  else (List.range 5).map fun col => .load (wrap32 ((s.font.fixed.toNat : Int) + code * 5 + col)) 1

/-- The accesses of one row of the transparent draw. -/
def drawFixedRowEvents (b : List Byte) (cx cy sx sy : Int) (fg : Half) (s : State) (row : Nat) : List Event :=
  loopEvents (fun u run => drawRect (cx + run.1 * sx) (cy + row * sy) (run.2 * sx) sy fg u)
    (fun u run => drawRectEvents (cx + run.1 * sx) (cy + row * sy) (run.2 * sx) sy fg u) (maximalRuns (cellRow b row)) s

/-- The accesses of a fixed character: the column bytes, the scroll, the draw. -/
def drawFixedEvents (code : Nat) (s : State) : List Event :=
  if 255 < code then []
  else
    let sx : Int := s.text.tsizeX.toNat
    let sy : Int := s.text.tsizeY.toNat
    let b := fixedColumns s code
    let right := s16 s.text.cursorX + 6 * sx
    let placed := placePen s right (8 * sy)
    let pen := placed.1
    columnEvents s code ++ placePenEvents s right (8 * sy) ++
      if transparentText s.text then
        loopEvents (drawFixedRow b pen.cx pen.cy sx sy s.text.fg) (drawFixedRowEvents b pen.cx pen.cy sx sy s.text.fg)
          (List.range 8) placed.2
      else
        drawWindowEvents pen.cx pen.cy (6 * sx) (8 * sy) (cellColour b pen.cx pen.cy sx sy s.text.fg s.text.bg) noReads placed.2

/-- The fixed-font path: skip above 255, fetch, wrap and scroll, draw, cursor and bookkeeping (R280, R285, R287). -/
def drawFixed (code : Nat) (s : State) : State :=
  if 255 < code then s
  else
    let sx : Int := s.text.tsizeX.toNat
    let sy : Int := s.text.tsizeY.toNat
    let b := fixedColumns s code
    let placed := placePen s (s16 s.text.cursorX + 6 * sx) (8 * sy)
    let pen := placed.1
    let drawn :=
      if transparentText s.text then drawFixedTransparent b pen.cx pen.cy sx sy placed.2
      else drawFixedOpaque b pen.cx pen.cy sx sy placed.2
    retireHidden (clearLast (moveCursor (pen.cx + 6 * sx) pen.cy drawn))

end Sys2Proof.Machine
end

