-- ==== Sys2Proof/Machine/ScalableFont.lean ====
section
/-! DEFINITION. DRAWCHAR with a scalable font: glyph lookup, header, pixel decode, compositing, overlap bookkeeping
(45_font_scalable.md R245 to R270). -/

namespace Sys2Proof.Machine

/-! ## Finding the glyph -/

/-- The entry number of a code: range `index1` first, then `index2` (R246). -/
def glyphNumber (f : Font) (code : Nat) : Option Int :=
  if f.i1f.toNat ≤ code ∧ code ≤ f.i1l.toNat then some ((code : Int) - f.i1f.toNat)
  else if f.i2f.toNat ≤ code ∧ code ≤ f.i2l.toNat then
    some ((code : Int) - f.i2f.toNat + ((f.i1l.toNat : Int) - f.i1f.toNat + 1))
  else none

/-- `gaddr`: the address of the glyph record, or a skip (R246, R269). -/
def glyphAddr (f : Font) (m : Memory) (code : Nat) : Option Word :=
  if !f.ok then none
  else (glyphNumber f code).map fun g =>
    wrap32 ((f.data.toNat : Int) + fetchU m f.index (g * f.bidx.toNat) f.bidx.toNat)

/-- The fields of a glyph header (R247). -/
structure GlyphHeader where
  gw : Nat
  gh : Nat
  xo : Int
  yo : Int
  adv : Nat
  deriving DecidableEq, Repr

/-- An unsigned field at the decode cursor BITCUR, which moves past it (R40, R247). -/
def takeU (base : Word) (n : Nat) (s : State) : Nat × State :=
  (fetchU s.mem base s.bitcur.toNat n, { s with bitcur := s.bitcur + BitVec.ofNat 32 n })

/-- A signed field at the decode cursor (R247). -/
def takeS (base : Word) (n : Nat) (s : State) : Int × State :=
  (sext n (takeU base n s).1, (takeU base n s).2)

/-- The header of the record at `base`, BITCUR from 0; a tag other than 0 is a skip and nothing after it is read (R247). -/
def takeHeader (base : Word) (s : State) : Option (GlyphHeader × State) :=
  let f := s.font
  let tag := takeU base 3 { s with bitcur := 0 }
  if tag.1 ≠ 0 then none
  else
    let gw := takeU base f.bw.toNat tag.2
    let gh := takeU base f.bh.toNat gw.2
    let xo := takeS base f.bxo.toNat gh.2
    let yo := takeS base f.byo.toNat xo.2
    let adv := takeU base f.bdelta.toNat yo.2
    some ({ gw := gw.1, gh := gh.1, xo := xo.1, yo := yo.1, adv := adv.1 }, adv.2)

/-! ## Decoding the pixels -/

/-- A row group `(r0, cnt, pat)` (R251). -/
structure RowGroup where
  r0 : Nat
  cnt : Nat
  pat : List Bool
  deriving DecidableEq, Repr

/-- The vertical run-length code of 1-bit glyphs from row `r`, cursor `k`; a group holds at least one row, so `gh` turns are
enough. The groups, and the cursor after them (R251, C1). -/
def decodeGroups (m : Memory) (base : Word) (gw gh : Nat) (fuel r k : Nat) : List RowGroup × Nat :=
  match fuel with
  | 0 => ([], k)
  | fuel + 1 =>
    if r < gh then
      let repeated := fetchBit m base k
      let cnt := min (if repeated then fetchU m base ((k : Int) + 1) 3 + 2 else 1) (gh - r)
      let k1 := if repeated then k + 4 else k + 1
      let rest := decodeGroups m base gw gh fuel (r + cnt) (k1 + gw)
      ({ r0 := r, cnt := cnt, pat := (List.range gw).map fun i : Nat => fetchBit m base ((k1 : Int) + i) } :: rest.1, rest.2)
    else ([], k)

/-- The rows of a 1-bit glyph, each group's pattern `cnt` times (R251). -/
def groupRows (gs : List RowGroup) : List (List Nat) :=
  gs.flatMap fun g => List.replicate g.cnt (g.pat.map Bool.toNat)

/-- The levels of an anti-aliased glyph, row by row, no padding between rows (R252). -/
def decodeLevels (m : Memory) (base : Word) (gw gh n k : Nat) : List (List Nat) :=
  (List.range gh).map fun r : Nat => (List.range gw).map fun i : Nat => fetchU m base ((k : Int) + ((r * gw + i) * n : Nat)) n

/-- The pixels of a glyph: the row groups (empty for an anti-aliased glyph) and the levels of every row. -/
structure GlyphPixels where
  groups : List RowGroup
  rows : List (List Nat)
  deriving DecidableEq, Repr

/-- Pixel decode from BITCUR; the cursor ends after the last bit decoded (R40, R251, R252). DESIGN CHOICE (entry 26): a glyph whose
pixels run past bit 2^32 - 1 is read at the exact offsets of R251 and R252, and BITCUR, a 32-bit counter, is left modulo 2^32. -/
def takePixels (base : Word) (g : GlyphHeader) (s : State) : GlyphPixels × State :=
  let n := s.font.bpp.toNat
  let k := s.bitcur.toNat
  if n = 1 then
    let d := decodeGroups s.mem base g.gw g.gh g.gh 0 k
    ({ groups := d.1, rows := groupRows d.1 }, { s with bitcur := BitVec.ofNat 32 d.2 })
  else
    ({ groups := [], rows := decodeLevels s.mem base g.gw g.gh n (alignUp8 k) },
     { s with bitcur := BitVec.ofNat 32 (alignUp8 k + g.gw * g.gh * n) })

/-- `Lvl(i, r)`, 0 outside the glyph (R251 to R253). -/
def level (p : GlyphPixels) (i r : Int) : Nat :=
  if 0 ≤ i ∧ 0 ≤ r then (((p.rows[r.toNat]?).getD [])[i.toNat]?).getD 0 else 0

/-! ## Compositing -/

/-- AA_THRESHOLD(N) (R7, R258). -/
def aaThreshold (p : Params) (n : Nat) : Nat :=
  match n with
  | 2 => p.aa2.val + 1
  | 3 => p.aa3.val + 1
  | 4 => p.aa4.val + 1
  | _ => 1

/-- One row group: a rectangle per maximal run (R257). -/
def drawGroup (ox oy : Int) (fg : Half) (s : State) (g : RowGroup) : State :=
  (maximalRuns g.pat).foldl (fun u run => drawRect (ox + run.1) (oy + g.r0) run.2 g.cnt fg u) s

/-- Transparent, 1-bit: one rectangle per maximal run per row group (R257). -/
def drawGroups (p : GlyphPixels) (ox oy : Int) (fg : Half) (s : State) : State :=
  p.groups.foldl (drawGroup ox oy fg) s

/-- One pixel of a transparent anti-aliased glyph (R258). -/
def drawLevel (p : GlyphPixels) (threshold : Nat) (ox oy : Int) (fg : Half) (s : State) (c : Int × Int) : State :=
  if threshold ≤ level p c.1 c.2 then drawPixel (ox + c.1) (oy + c.2) fg s else s

/-- Transparent, anti-aliased: one pixel of plain FG per level at or above the threshold (R258). -/
def drawLevels (p : GlyphPixels) (gw gh : Nat) (threshold : Nat) (ox oy : Int) (fg : Half) (s : State) : State :=
  (rectPoints 0 0 gw gh).foldl (drawLevel p threshold ox oy fg) s

/-- The rectangle painted in opaque mode, exclusive right and bottom (R259). -/
structure Box where
  x0 : Int
  y0 : Int
  x1 : Int
  y1 : Int
  deriving DecidableEq, Repr

/-- The opaque box: the advance cell and the glyph bitmap (R259). -/
def opaqueBox (g : GlyphHeader) (pen : Pen) (ox oy lineh : Int) : Box :=
  { x0 := min ox pen.cx, y0 := min oy pen.cy
    x1 := max (pen.cx + g.adv) (ox + g.gw), y1 := max (pen.cy + lineh) (oy + g.gh) }

/-- `Col(lx, ly)` (R254, R260). -/
def glyphColour (p : GlyphPixels) (g : GlyphHeader) (f : Font) (fg bg : Half) (ox oy lx ly : Int) : Half :=
  if 0 ≤ lx - ox ∧ lx - ox < g.gw ∧ 0 ≤ ly - oy ∧ ly - oy < g.gh then
    if f.bpp.toNat = 1 then (if level p (lx - ox) (ly - oy) = 1 then fg else bg)
    else blend fg bg ((level p (lx - ox) (ly - oy) : Int) * f.alphamx.toNat)
  else bg

/-- `Ink(lx, ly)` (R253, R260). -/
def glyphInk (p : GlyphPixels) (g : GlyphHeader) (ox oy lx ly : Int) : Bool :=
  decide (0 ≤ lx - ox ∧ lx - ox < g.gw ∧ 0 ≤ ly - oy ∧ ly - oy < g.gh ∧ level p (lx - ox) (ly - oy) ≠ 0)

/-- Whether the bookkeeping of the previous character applies: same cursor at entry, same colours, no wrap and no scroll
(R261). -/
def overlapActive (l : Last) (t : Text) (moved : Bool) : Bool :=
  l.valid && l.cx == t.cursorX && l.cy == t.cursorY && l.fg == t.fg && l.bg == t.bg && !moved

/-- One pixel of the columns the previous glyph painted: drawn only where this glyph is inked (R261). -/
def drawInked (col : Int → Int → Half) (ink : Int → Int → Bool) (s : State) (p : Int × Int) : State :=
  if ink p.1 p.2 then drawPixel p.1 p.2 (col p.1 p.2) s else s

/-- Opaque draw: in the columns the previous glyph painted only inked pixels, the rest as one window (R261). -/
def drawOpaque (col : Int → Int → Half) (ink : Int → Int → Bool) (b : Box) (active : Bool) (lastXr : Int) (s : State) : State :=
  if active ∧ b.x0 ≤ lastXr then
    let split := min b.x1 (lastXr + 1)
    let inked := (rectPoints b.x0 b.y0 split b.y1).foldl (drawInked col ink) s
    drawWindow split b.y0 (b.x1 - split) (b.y1 - b.y0) (fun _ lx ly => col lx ly) inked
  else drawWindow b.x0 b.y0 (b.x1 - b.x0) (b.y1 - b.y0) (fun _ lx ly => col lx ly) s

/-- The bookkeeping an opaque glyph leaves, with the new cursor (R268). -/
def recordLast (b : Box) (s : State) : State :=
  { s with last := { valid := true, cx := s.text.cursorX, cy := s.text.cursorY, xr := wrap32 (b.x1 - 1),
                     fg := s.text.fg, bg := s.text.bg } }

/-- A glyph whose record was found and whose header was read: placement, wrap, scroll, vertical origin, pixel decode, mode, draw,
cursor, bookkeeping, in that order (R245, R248 to R268). -/
def drawGlyph (base : Word) (g : GlyphHeader) (s : State) : State :=
  let f := s.font
  let lineh : Int := f.lspace.toNat
  let placed := placePen s (s16 s.text.cursorX + g.xo + g.gw) lineh
  let pen := placed.1
  let ox := pen.cx + g.xo
  let oy := pen.cy + f.caph.toNat - g.gh - g.yo
  let decoded := takePixels base g placed.2
  let p := decoded.1
  if transparentText s.text then
    let drawn :=
      if f.bpp.toNat = 1 then drawGroups p ox oy s.text.fg decoded.2
      else drawLevels p g.gw g.gh (aaThreshold s.params f.bpp.toNat) ox oy s.text.fg decoded.2
    retireHidden (clearLast (moveCursor (pen.cx + g.adv) pen.cy drawn))
  else
    let b := opaqueBox g pen ox oy lineh
    let drawn := drawOpaque (glyphColour p g f s.text.fg s.text.bg ox oy) (glyphInk p g ox oy) b
      (overlapActive s.last s.text pen.moved) s.last.xr.toInt decoded.2
    retireHidden (recordLast b (moveCursor (pen.cx + g.adv) pen.cy drawn))

/-- The scalable path: a skip changes nothing (R246, R247, R269). -/
def drawScalable (code : Nat) (s : State) : State :=
  match glyphAddr s.font s.mem code with
  | none => s
  | some base =>
    match takeHeader base s with
    | none => s
    | some h => drawGlyph base h.1 h.2

/-! ## The accesses (R78, R246 to R262) -/

/-- The reads of one index-table entry (R246). -/
def indexEvents (f : Font) (code : Nat) : List Event :=
  if !f.ok then []
  else
    match glyphNumber f code with
    | none => []
    | some g => loadField f.index (g * f.bidx.toNat) f.bidx.toNat

/-- The reads of the header: the tag, then, if it is 0, the other fields, one after another (R247). -/
def headerEvents (base : Word) (s : State) : List Event :=
  loadField base 0 3 ++
    match takeHeader base s with
    | none => []
    | some h => loadField base 3 (h.2.bitcur.toNat - 3)

/-- The reads of the pixel decode from BITCUR on: the bits of the row groups, or of the levels (R251, R252). -/
def pixelEvents (base : Word) (g : GlyphHeader) (s : State) : List Event :=
  let n := s.font.bpp.toNat
  let k := s.bitcur.toNat
  if n = 1 then loadField base k ((decodeGroups s.mem base g.gw g.gh g.gh 0 k).2 - k)
  else loadField base (alignUp8 k) (g.gw * g.gh * n)

/-- Transparent, 1-bit (R257). -/
def drawGroupsEvents (p : GlyphPixels) (ox oy : Int) (fg : Half) (s : State) : List Event :=
  loopEvents (drawGroup ox oy fg)
    (fun t g => loopEvents (fun u run => drawRect (ox + run.1) (oy + g.r0) run.2 g.cnt fg u)
      (fun u run => drawRectEvents (ox + run.1) (oy + g.r0) run.2 g.cnt fg u) (maximalRuns g.pat) t) p.groups s

/-- Transparent, anti-aliased (R258). -/
def drawLevelsEvents (p : GlyphPixels) (gw gh : Nat) (threshold : Nat) (ox oy : Int) (fg : Half) (s : State) : List Event :=
  loopEvents (drawLevel p threshold ox oy fg)
    (fun t c => if threshold ≤ level p c.1 c.2 then drawPixelEvents (ox + c.1) (oy + c.2) fg t else []) (rectPoints 0 0 gw gh) s

/-- Opaque (R261). -/
def drawOpaqueEvents (col : Int → Int → Half) (ink : Int → Int → Bool) (b : Box) (active : Bool) (lastXr : Int) (s : State) :
    List Event :=
  if active ∧ b.x0 ≤ lastXr then
    let split := min b.x1 (lastXr + 1)
    let shared := rectPoints b.x0 b.y0 split b.y1
    loopEvents (drawInked col ink) (fun t p => if ink p.1 p.2 then drawPixelEvents p.1 p.2 (col p.1 p.2) t else []) shared s ++
      drawWindowEvents split b.y0 (b.x1 - split) (b.y1 - b.y0) (fun _ lx ly => col lx ly) noReads
        (shared.foldl (drawInked col ink) s)
  else drawWindowEvents b.x0 b.y0 (b.x1 - b.x0) (b.y1 - b.y0) (fun _ lx ly => col lx ly) noReads s

/-- The accesses of a glyph after its header: the scroll, the pixel decode, the draw. -/
def drawGlyphEvents (base : Word) (g : GlyphHeader) (s : State) : List Event :=
  let f := s.font
  let lineh : Int := f.lspace.toNat
  let right := s16 s.text.cursorX + g.xo + g.gw
  let placed := placePen s right lineh
  let pen := placed.1
  let ox := pen.cx + g.xo
  let oy := pen.cy + f.caph.toNat - g.gh - g.yo
  let decoded := takePixels base g placed.2
  let p := decoded.1
  placePenEvents s right lineh ++ pixelEvents base g placed.2 ++
    if transparentText s.text then
      if f.bpp.toNat = 1 then drawGroupsEvents p ox oy s.text.fg decoded.2
      else drawLevelsEvents p g.gw g.gh (aaThreshold s.params f.bpp.toNat) ox oy s.text.fg decoded.2
    else
      drawOpaqueEvents (glyphColour p g f s.text.fg s.text.bg ox oy) (glyphInk p g ox oy) (opaqueBox g pen ox oy lineh)
        (overlapActive s.last s.text pen.moved) s.last.xr.toInt decoded.2

/-- The accesses of a scalable character; a skip ends them (R269). -/
def drawScalableEvents (code : Nat) (s : State) : List Event :=
  indexEvents s.font code ++
    match glyphAddr s.font s.mem code with
    | none => []
    | some base =>
      headerEvents base s ++
        match takeHeader base s with
        | none => []
        | some h => drawGlyphEvents base h.1 h.2

end Sys2Proof.Machine
end

