-- ==== Sys2Proof/Machine/DrawCharCommand.lean ====
section
/-! DEFINITION. DRAWCHAR: the dispatch on FONT_KIND (45_font_scalable.md R245). -/

namespace Sys2Proof.Machine

/-- What DRAWCHAR leaves (R245, R280). -/
def drawcharState (code : Half) (s : State) : State :=
  match s.text.fontKind with
  | .noFont => drawFixed code.toNat s
  | .fixedFont => drawFixed code.toNat s
  | .scalableFont => drawScalable code.toNat s

/-- The accesses of DRAWCHAR (R78). -/
def drawcharEvents (code : Half) (s : State) : List Event :=
  match s.text.fontKind with
  | .noFont => drawFixedEvents code.toNat s
  | .fixedFont => drawFixedEvents code.toNat s
  | .scalableFont => drawScalableEvents code.toNat s

/-- DRAWCHAR #code (R245, R280). -/
def execDrawchar (code : Half) (s : State) : Host.Outcome State Fault Refusal :=
  guarded (drawcharEvents code s) s (drawcharState code s)

end Sys2Proof.Machine
end

