-- ==== Sys2Proof/Machine/MirrorCommands.lean ====
section
/-! DEFINITION. The framebuffer mirror and the flush commands (43_framebuffer.md R210 to R219). -/

namespace Sys2Proof.Machine

/-- FBSETEXT @buf: attach an external buffer; a no-op when not capable or when a buffer is attached (R210). -/
def execFbsetext (buf : Word) (s : State) : Host.Outcome State Fault Refusal :=
  .next (if !s.params.fbCapable || s.fb.alloc then s
    else { s with fb := { s.fb with base := buf, alloc := true, int := false } })

/-- The last three lines of FBENABLE: `FB_EN <- 1`, the dirty rectangle to empty, `RESULT <- 1` (R211). -/
def enableMirror (s : State) : State :=
  { s with fb := { s.fb with en := true }, dirty := Dirty.empty, result := true }

/-- A successful allocation at block `b`: the buffer is attached as internal and holds arbitrary bytes (R82, R211). -/
def attachAllocated (b : BitVec 27) (size : Nat) (s : State) : State :=
  drawFresh (blockAddr b) size { s with fb := { s.fb with base := blockAddr b, alloc := true, int := true } }

/-- The first use of FBENABLE, with no buffer attached: ALLOC, and on FAIL `RESULT <- 0` and nothing else (R211). -/
def allocateMirror (s : State) : State :=
  let a := askAlloc (fbSize s) s
  match a.1 with
  | none => { a.2 with result := false }
  | some b => enableMirror (attachAllocated b (fbSize s) a.2)

/-- FBENABLE (R211). -/
def execFbenable (s : State) : Host.Outcome State Fault Refusal :=
  .next (if !s.params.fbCapable then { s with result := false }
    else if s.fb.alloc then enableMirror s
    else allocateMirror s)

/-- The transaction of FBENABLE (R211). -/
def fbenableEvents (s : State) : List Event :=
  if s.params.fbCapable && !s.fb.alloc then [.port (.alloc (fbSize s) 32 (askAlloc (fbSize s) s).1)] else []

/-- FBDISABLE: `FB_EN <- 0` and nothing else (R212). -/
def execFbdisable (s : State) : Host.Outcome State Fault Refusal :=
  .next { s with fb := { s.fb with en := false } }

/-- FBRELEASE: disabled, whatever is attached is detached, FREE for an internal buffer only (R213). -/
def execFbrelease (s : State) : Host.Outcome State Fault Refusal :=
  .next (if s.fb.alloc then
      { s with fb := { base := 0, en := false, alloc := false, int := false }
               trace := s.trace ++ (if s.fb.int then [.free s.fb.base] else []) }
    else { s with fb := { s.fb with en := false } })

/-- The transaction of FBRELEASE (R213). -/
def fbreleaseEvents (s : State) : List Event := if s.fb.alloc && s.fb.int then [.port (.free s.fb.base)] else []

/-- `StreamFB(x0, y0, x1, y1)`, corners inclusive: one session of the buffer's pixels (R215). -/
def streamFB (x0 y0 x1 y1 : Int) (s : State) : State :=
  emit (session x0 y0 x1 y1
    ((rectPoints x0 y0 (x1 + 1) (y1 + 1)).map fun p => fromFB s.params.depth (fbRead s p.1 p.2))) s

/-- Step 1 of FLUSH: an empty dirty rectangle streams the entire buffer, whatever the clip bounds (R214, C3). -/
def streamAll (s : State) : State :=
  if 0 < u16 s.canvas.width ∧ 0 < u16 s.canvas.height then
    streamFB 0 0 (u16 s.canvas.width - 1) (u16 s.canvas.height - 1) s
  else s

/-- Steps 2 and 3 of FLUSH: the dirty rectangle clipped against CLIP_*, streamed if anything is left (R214, C11, C12). -/
def streamDirty (s : State) : State :=
  let sx := max (s16 s.dirty.minX) (s16 s.canvas.clipX1)
  let ex := min (s16 s.dirty.maxX) (s16 s.canvas.clipX2 - 1)
  let sy := max (s16 s.dirty.minY) (s16 s.canvas.clipY1)
  let ey := min (s16 s.dirty.maxY) (s16 s.canvas.clipY2 - 1)
  if sx ≤ ex ∧ sy ≤ ey then streamFB sx sy ex ey s else s

/-- The accesses of StreamFB (R215). -/
def streamFBEvents (x0 y0 x1 y1 : Int) (s : State) : List Event :=
  sessionEvents x0 y0 x1 y1
    ((rectPoints x0 y0 (x1 + 1) (y1 + 1)).flatMap fun p =>
      [loadPixel s p.1 p.2, .port (.pixel (fromFB s.params.depth (fbRead s p.1 p.2)))])

/-- The accesses of FLUSH (R78, R214). -/
def flushEvents (s : State) : List Event :=
  if !s.fb.en then []
  else if dirtyEmpty s.dirty then
    if 0 < u16 s.canvas.width ∧ 0 < u16 s.canvas.height then
      streamFBEvents 0 0 (u16 s.canvas.width - 1) (u16 s.canvas.height - 1) s
    else []
  else
    let sx := max (s16 s.dirty.minX) (s16 s.canvas.clipX1)
    let ex := min (s16 s.dirty.maxX) (s16 s.canvas.clipX2 - 1)
    let sy := max (s16 s.dirty.minY) (s16 s.canvas.clipY1)
    let ey := min (s16 s.dirty.maxY) (s16 s.canvas.clipY2 - 1)
    if sx ≤ ex ∧ sy ≤ ey then streamFBEvents sx sy ex ey s else []

/-- FLUSH: nothing in direct mode; else stream, and the dirty rectangle is emptied in every case (R214, C4). -/
def execFlush (s : State) : Host.Outcome State Fault Refusal :=
  guarded (flushEvents s) s (if !s.fb.en then s
    else emptyDirty (if dirtyEmpty s.dirty then streamAll s else streamDirty s))

/-- The hand-over of the whole buffer to the sink: WRITERECT_ASYNC, after which a transfer is outstanding (R97, R98, R216). -/
def startTransfer (s : State) : State :=
  { s with trace := s.trace ++ [.writeRectAsync 0 0 s.canvas.width s.canvas.height s.fb.base s.params.depth]
           asyncBusy := true, dirty := Dirty.empty, result := true }

/-- FLUSHASYNC: refused when disabled (the sink is not asked) and while a transfer is active (R216). -/
def execFlushasync (s : State) : Host.Outcome State Fault Refusal :=
  .next (if !s.fb.en then { s with result := false }
    else
      let q := askActive s
      if q.1 then { q.2 with result := false } else startTransfer q.2)

/-- The query of WAITASYNC and POLLASYNC (R217, R218). -/
def askActiveEvents (s : State) : List Event := [.port (.asyncActive (askActive s).1)]

/-- The transactions of FLUSHASYNC (R216). -/
def flushasyncEvents (s : State) : List Event :=
  if !s.fb.en then []
  else
    askActiveEvents s ++
      if (askActive s).1 then []
      else [.port (.writeRectAsync 0 0 s.canvas.width s.canvas.height s.fb.base s.params.depth)]

/-- WAITASYNC, one query: complete on the answer 0; on the answer 1 it stays in execution and the next step asks again
(R217; entry 8). -/
def execWaitasync (s : State) : Host.Outcome State Fault Refusal :=
  .next { (askActive s).2 with waiting := (askActive s).1 }

/-- POLLASYNC: `RESULT <- ask ASYNC_ACTIVE()` (R218). -/
def execPollasync (s : State) : Host.Outcome State Fault Refusal :=
  .next { (askActive s).2 with result := (askActive s).1 }

end Sys2Proof.Machine
end

