-- ==== Sys2Proof/Machine/NbppCommand.lean ====
section
/-! DEFINITION. WRITERECTNBPP, the paletted bitmap blit (47_nbpp_blit.md R290 to R293). -/

namespace Sys2Proof.Machine

/-- The bit depths that draw: 1, 2, 4, 8 (R290). -/
def legalBpp (bpp : Nat) : Bool := bpp == 1 || bpp == 2 || bpp == 4 || bpp == 8

/-- "bytes-per-row": `(w + ppb - 1) div ppb` with `ppb = 8 div bpp` pixels per byte (R290). -/
def bytesPerRow (bpp w : Int) : Int := (w + 8 / bpp - 1) / (8 / bpp)

/-- The address of the bitmap byte that holds pixel `i` of row `r` (R290, R309). -/
def bitmapAddr (bpp w : Int) (src : Word) (i r : Int) : Word :=
  wrap32 ((src.toNat : Int) + r * bytesPerRow bpp w + i / (8 / bpp))

/-- The palette index of pixel `i` of row `r`, "shift+mask": the leftmost pixel is in the most significant bits (R290, R291). -/
def paletteIndex (bpp w : Int) (src : Word) (m : Memory) (i r : Int) : Nat :=
  ((Memory.read m (bitmapAddr bpp w src i r)).toNat >>> (8 - bpp - (i % (8 / bpp)) * bpp).toNat) % 2 ^ bpp.toNat

/-- The colour at a logical position: the palette entry of the pixel's index (R290). -/
def nbppColour (x y w bpp : Int) (src pal : Word) : Colour := fun m lx ly =>
  Memory.read16 m (wrap32 ((pal.toNat : Int) + 2 * paletteIndex bpp w src m (lx - x) (ly - y)))

/-- The reads for one pixel: "the bitmap byte is read, then the palette entry" (R290). -/
def nbppReads (x y w bpp : Int) (src pal : Word) : Reads := fun m lx ly =>
  [.load (bitmapAddr bpp w src (lx - x) (ly - y)) 1,
   .load (wrap32 ((pal.toNat : Int) + 2 * paletteIndex bpp w src m (lx - x) (ly - y))) 2]

/-- The accesses of WRITERECTNBPP (R78, R290). -/
def writerectnbppEvents (x y w h bpp : Half) (src pal : Word) (s : State) : List Event :=
  if legalBpp bpp.toNat then
    drawWindowEvents (s16 x) (s16 y) (s16 w) (s16 h) (nbppColour (s16 x) (s16 y) (s16 w) (u16 bpp) src pal)
      (nbppReads (s16 x) (s16 y) (s16 w) (u16 bpp) src pal) s
  else []

/-- WRITERECTNBPP x, y, w, h, #bpp, @src, @pal; another bpp than 1, 2, 4, 8 is a no-op (R290). -/
def execWriterectnbpp (x y w h bpp : Half) (src pal : Word) (s : State) : Host.Outcome State Fault Refusal :=
  guarded (writerectnbppEvents x y w h bpp src pal s) s (if legalBpp bpp.toNat then
      drawWindow (s16 x) (s16 y) (s16 w) (s16 h) (nbppColour (s16 x) (s16 y) (s16 w) (u16 bpp) src pal) s
    else s)

end Sys2Proof.Machine
end

