-- ==== Sys2Proof/Machine/TextCommands.lean ====
section
/-! DEFINITION. SETFONT, SETCURSOR, SETTEXTCOLOR, SETTEXTWRAP, SETTEXTSIZE, SETSCROLL (44_text_state.md R230 to R237). -/

namespace Sys2Proof.Machine

/-- F_BPP from the descriptor's `version` and `reserved` bytes (R232). -/
def derivedBpp (version reserved : Byte) : Nat := if version = 23#8 then (reserved &&& 3#8).toNat + 1 else 1

/-- F_ALPHAMX: `floor(31 / (2^F_BPP - 1))` (R38, R232). -/
def derivedAlphamx (bpp : Nat) : Nat := 31 / (2 ^ bpp - 1)

/-- F_OK: every field width within the legal range (R232). -/
def widthsOk (bidx bw bh bxo byo bdelta : Byte) : Bool :=
  decide (bw.toNat ≤ 16) && decide (bh.toNat ≤ 16) && decide (bxo.toNat ≤ 16) && decide (byo.toNat ≤ 16)
    && decide (bdelta.toNat ≤ 16) && decide (bidx.toNat ≤ 32)

/-- The font registers after SETFONT kind 2: the 26-byte descriptor at `hdr` latched (R231) and the derived latches (R232);
F_FIXED is kept (R230). -/
def loadDescriptor (m : Memory) (hdr : Word) (f : Font) : Font :=
  let byteAt (k : Nat) : Byte := Memory.read m (hdr + BitVec.ofNat 32 k)
  let bpp := derivedBpp (byteAt 0x0C) (byteAt 0x0D)
  { hdr := hdr
    fixed := f.fixed
    index := Memory.read32 m hdr
    unicode := Memory.read32 m (hdr + 4)
    data := Memory.read32 m (hdr + 8)
    version := byteAt 0x0C
    reserved := byteAt 0x0D
    i1f := byteAt 0x0E
    i1l := byteAt 0x0F
    i2f := byteAt 0x10
    i2l := byteAt 0x11
    bidx := byteAt 0x12
    bw := byteAt 0x13
    bh := byteAt 0x14
    bxo := byteAt 0x15
    byo := byteAt 0x16
    bdelta := byteAt 0x17
    lspace := byteAt 0x18
    caph := byteAt 0x19
    bpp := BitVec.ofNat 8 bpp
    alphamx := BitVec.ofNat 8 (derivedAlphamx bpp)
    ok := widthsOk (byteAt 0x12) (byteAt 0x13) (byteAt 0x14) (byteAt 0x15) (byteAt 0x16) (byteAt 0x17) }

/-- SETFONT's effect for a legal kind (R230). -/
def selectFont (k : FontKind) (addr : Word) (s : State) : State :=
  clearLast
    { s with
      text := { s.text with fontKind := k }
      font :=
        match k with
        | .noFont => s.font
        | .fixedFont => { s.font with fixed := addr }
        | .scalableFont => loadDescriptor s.mem addr s.font }

/-- The reads of SETFONT: kind 2 reads the 26 bytes of the descriptor in offset order, kinds 0 and 1 read nothing (R78, R230, R231). -/
def setfontEvents (kind : BitVec 2) (addr : Word) : List Event :=
  match fontKindOf kind with
  | some .scalableFont => [.load addr 26]
  | some .fixedFont => []
  | some .noFont => []
  | none => []

/-- SETFONT #kind, @addr (R230). No legal packet carries kind 3 (R134); the term that would is given the effect of the illegal
packet, `STATUS.ILL <- 1` and nothing else (entry 20). -/
def execSetfont (kind : BitVec 2) (addr : Word) (s : State) : Host.Outcome State Fault Refusal :=
  guarded (setfontEvents kind addr) s (match fontKindOf kind with
    | some k => selectFont k addr s
    | none => setIll s)

/-- SETCURSOR x, y: LAST_VALID is cleared always (R233, C5). -/
def execSetcursor (x y : Half) (s : State) : Host.Outcome State Fault Refusal :=
  .next (clearLast { s with text := { s.text with cursorX := x, cursorY := y } })

/-- SETTEXTCOLOR #fg, #bg (R234). -/
def execSettextcolor (fg bg : Half) (s : State) : Host.Outcome State Fault Refusal :=
  .next { s with text := { s.text with fg := fg, bg := bg } }

/-- SETTEXTWRAP #flag (R235). -/
def execSettextwrap (flag : Bool) (s : State) : Host.Outcome State Fault Refusal :=
  .next { s with text := { s.text with wrap := flag } }

/-- A text-size multiplier of 0 is stored as 1 (R236). -/
def storedSize (n : Byte) : Byte := if n = 0#8 then 1#8 else n

/-- SETTEXTSIZE #sx, #sy (R236). -/
def execSettextsize (sx sy : Byte) (s : State) : Host.Outcome State Fault Refusal :=
  .next { s with text := { s.text with tsizeX := storedSize sx, tsizeY := storedSize sy } }

/-- SETSCROLL x, y, w, h, #enable: stored as given (R237). -/
def execSetscroll (x y w h : Half) (enable : Bool) (s : State) : Host.Outcome State Fault Refusal :=
  .next { s with text := { s.text with scrollX := x, scrollY := y, scrollW := w, scrollH := h, scrollEn := enable } }

end Sys2Proof.Machine
end

