-- ==== Sys2Proof/Syntax.lean ====
section
/-! DEFINITION. The commands of the engine, one constructor per row of spec/opcode_table.json (30_encoding.md R132), with the
operands of R131. Coordinates, sizes and lengths are the 16-bit fields of the packet; a meaning reads them two's complement. -/

namespace Sys2Proof

inductive Instr where
  /-- NOP (41_config.md R180) -/
  | nop
  /-- SETCANVAS w, h (R181) -/
  | setcanvas (w h : Half)
  /-- SETORIGIN x, y (R182) -/
  | setorigin (x y : Half)
  /-- SETCLIP x, y, w, h (R183) -/
  | setclip (x y w h : Half)
  /-- SETPIXEL x, y, #color (42_pixel_backend.md R191) -/
  | setpixel (x y color : Half)
  /-- FASTVLINE x, y, h, #color (R192) -/
  | fastvline (x y h color : Half)
  /-- FASTHLINE x, y, w, #color (R193) -/
  | fasthline (x y w color : Half)
  /-- FILLRECT x, y, w, h, #color (R194) -/
  | fillrect (x y w h color : Half)
  /-- WRITERECT x, y, w, h, @src (R196) -/
  | writerect (x y w h : Half) (src : Word)
  /-- READRECT x, y, w, h, @dst (R197) -/
  | readrect (x y w h : Half) (dst : Word)
  /-- WRITERECTNBPP x, y, w, h, #bpp, @src, @pal (47_nbpp_blit.md R290) -/
  | writerectnbpp (x y w h bpp : Half) (src pal : Word)
  /-- FBSETEXT @buf (43_framebuffer.md R210) -/
  | fbsetext (buf : Word)
  /-- FBENABLE (R211) -/
  | fbenable
  /-- FBDISABLE (R212) -/
  | fbdisable
  /-- FBRELEASE (R213) -/
  | fbrelease
  /-- FLUSH (R214) -/
  | flush
  /-- FLUSHASYNC (R216) -/
  | flushasync
  /-- WAITASYNC (R217) -/
  | waitasync
  /-- POLLASYNC (R218) -/
  | pollasync
  /-- SETFONT #kind, @addr (44_text_state.md R230); kind 3 is an illegal packet (R134) -/
  | setfont (kind : BitVec 2) (addr : Word)
  /-- SETCURSOR x, y (R233) -/
  | setcursor (x y : Half)
  /-- SETTEXTCOLOR #fg, #bg (R234) -/
  | settextcolor (fg bg : Half)
  /-- SETTEXTWRAP #flag (R235) -/
  | settextwrap (flag : Bool)
  /-- SETTEXTSIZE #sx, #sy (R236) -/
  | settextsize (sx sy : Byte)
  /-- SETSCROLL x, y, w, h, #enable (R237) -/
  | setscroll (x y w h : Half) (enable : Bool)
  /-- DRAWCHAR #code (45_font_scalable.md R245) -/
  | drawchar (code : Half)
  deriving DecidableEq, Repr

end Sys2Proof
end

