-- ==== Sys2Proof/Machine/Dispatch.lean ====
section
/-! DEFINITION. One arm per command, each a direct call of its meaning. -/

namespace Sys2Proof.Machine

def exec (i : Instr) (s : State) : Host.Outcome State Fault Refusal :=
  match i with
  | .nop => Sys2Proof.Machine.execNop s
  | .setcanvas w h => Sys2Proof.Machine.execSetcanvas w h s
  | .setorigin x y => Sys2Proof.Machine.execSetorigin x y s
  | .setclip x y w h => Sys2Proof.Machine.execSetclip x y w h s
  | .setpixel x y color => Sys2Proof.Machine.execSetpixel x y color s
  | .fastvline x y h color => Sys2Proof.Machine.execFastvline x y h color s
  | .fasthline x y w color => Sys2Proof.Machine.execFasthline x y w color s
  | .fillrect x y w h color => Sys2Proof.Machine.execFillrect x y w h color s
  | .writerect x y w h src => Sys2Proof.Machine.execWriterect x y w h src s
  | .readrect x y w h dst => Sys2Proof.Machine.execReadrect x y w h dst s
  | .writerectnbpp x y w h bpp src pal => Sys2Proof.Machine.execWriterectnbpp x y w h bpp src pal s
  | .fbsetext buf => Sys2Proof.Machine.execFbsetext buf s
  | .fbenable => Sys2Proof.Machine.execFbenable s
  | .fbdisable => Sys2Proof.Machine.execFbdisable s
  | .fbrelease => Sys2Proof.Machine.execFbrelease s
  | .flush => Sys2Proof.Machine.execFlush s
  | .flushasync => Sys2Proof.Machine.execFlushasync s
  | .waitasync => Sys2Proof.Machine.execWaitasync s
  | .pollasync => Sys2Proof.Machine.execPollasync s
  | .setfont kind addr => Sys2Proof.Machine.execSetfont kind addr s
  | .setcursor x y => Sys2Proof.Machine.execSetcursor x y s
  | .settextcolor fg bg => Sys2Proof.Machine.execSettextcolor fg bg s
  | .settextwrap flag => Sys2Proof.Machine.execSettextwrap flag s
  | .settextsize sx sy => Sys2Proof.Machine.execSettextsize sx sy s
  | .setscroll x y w h enable => Sys2Proof.Machine.execSetscroll x y w h enable s
  | .drawchar code => Sys2Proof.Machine.execDrawchar code s

end Sys2Proof.Machine
end

