-- ==== Sys2Proof/WellFormed.lean ====
section
/-! DEFINITION. Which terms of `Instr` a legal packet stands for (30_encoding.md R134, R135). The operand types already
hold every other field to its range; the one field with an illegal value left is SETFONT's kind. -/

namespace Sys2Proof

/-- A term is well formed when some legal packet encodes it: "for SETFONT, `IMM16` is 3 or more" is the one illegal
operand value a term can carry (R134). R135: an operand that makes a command do nothing is not ill formed. -/
def Instr.wellFormed : Instr → Bool
  | .nop => true
  | .setcanvas _ _ => true
  | .setorigin _ _ => true
  | .setclip _ _ _ _ => true
  | .setpixel _ _ _ => true
  | .fastvline _ _ _ _ => true
  | .fasthline _ _ _ _ => true
  | .fillrect _ _ _ _ _ => true
  | .writerect _ _ _ _ _ => true
  | .readrect _ _ _ _ _ => true
  | .writerectnbpp _ _ _ _ _ _ _ => true
  | .fbsetext _ => true
  | .fbenable => true
  | .fbdisable => true
  | .fbrelease => true
  | .flush => true
  | .flushasync => true
  | .waitasync => true
  | .pollasync => true
  | .setfont kind _ => kind != 3#2
  | .setcursor _ _ => true
  | .settextcolor _ _ => true
  | .settextwrap _ => true
  | .settextsize _ _ => true
  | .setscroll _ _ _ _ _ => true
  | .drawchar _ => true

end Sys2Proof
end

