-- ==== Sys2Proof/Decode.lean ====
section
/-! DEFINITION. From packets to commands and back (30_encoding.md R120 to R137): the header's fields, the decoder, the
encoder written from the same tables, the packet's length, and the host's entry `decodeTableWord`. -/

namespace Sys2Proof

/-! ## Fields of a word -/

/-- OPC, header bits 7:0 (R121). -/
def opcField (h : Word) : Byte := h.extractLsb' 0 8

/-- NW, header bits 15:8: the number of operand words that follow (R121). -/
def nwField (h : Word) : Byte := h.extractLsb' 8 8

/-- IMM16, header bits 31:16 (R121). -/
def immField (h : Word) : Half := h.extractLsb' 16 16

/-- Bits 15:0 of an operand word: `x`, `w`, a length, `fg` (R124 to R130). -/
def loField (w : Word) : Half := w.extractLsb' 0 16

/-- Bits 31:16 of an operand word: `y`, `h`, `bg` (R124 to R130). -/
def hiField (w : Word) : Half := w.extractLsb' 16 16

/-- The header word `{imm, nw, opc}` (R121). -/
def mkHeader (imm : Half) (nw opc : Byte) : Word := imm ++ nw ++ opc

/-- The operand word `{hi, lo}` (R124). -/
def mkPair (hi lo : Half) : Word := hi ++ lo

/-! ## Decode -/

/-- Why a packet is illegal (R134), in the order the checks are made (60_exceptions.md R305). -/
inductive Illegal where
  /-- OPC is unassigned (R132, R134) -/
  | unassignedOpcode
  /-- NW is not the value the opcode fixes (R134) -/
  | wrongWordCount
  /-- a must-be-zero field is not zero, or SETFONT's kind is 3 (R134) -/
  | reservedField
  deriving DecidableEq, Repr

/-- The result `i` when the must-be-zero test `ok` holds (R133 step 3, R305). -/
def whenZero (ok : Bool) (i : Instr) : Except Illegal Instr :=
  if ok then .ok i else .error .reservedField

/-- Format Z: no operand words, IMM16 = 0 (R122). -/
def formatZ (imm : Half) (ops : List Word) (i : Instr) : Except Illegal Instr :=
  match ops with
  | [] => whenZero (imm == 0#16) i
  | _ => .error .wrongWordCount

/-- Format I: no operand words, IMM16 carries the operand, `ok` its must-be-zero test (R123). -/
def formatI (ops : List Word) (ok : Bool) (i : Instr) : Except Illegal Instr :=
  match ops with
  | [] => whenZero ok i
  | _ => .error .wrongWordCount

/-- One operand word: formats P, A and C (R124, R129, R130). -/
def format1 (ops : List Word) (ok : Bool) (f : Word → Instr) : Except Illegal Instr :=
  match ops with
  | [w1] => whenZero ok (f w1)
  | _ => .error .wrongWordCount

/-- Format L: `{y, x}`, then a length whose word has zero in bits 31:16 (R125). -/
def formatL (ops : List Word) (f : Half → Half → Half → Instr) : Except Illegal Instr :=
  match ops with
  | [w1, w2] => whenZero (hiField w2 == 0#16) (f (loField w1) (hiField w1) (loField w2))
  | _ => .error .wrongWordCount

/-- Format R: `{y, x}`, `{h, w}` (R126). -/
def formatR (ops : List Word) (ok : Bool) (f : Half → Half → Half → Half → Instr) : Except Illegal Instr :=
  match ops with
  | [w1, w2] => whenZero ok (f (loField w1) (hiField w1) (loField w2) (hiField w2))
  | _ => .error .wrongWordCount

/-- Format M: a rectangle and an address, IMM16 = 0 (R127). -/
def formatM (imm : Half) (ops : List Word) (f : Half → Half → Half → Half → Word → Instr) : Except Illegal Instr :=
  match ops with
  | [w1, w2, w3] => whenZero (imm == 0#16) (f (loField w1) (hiField w1) (loField w2) (hiField w2) w3)
  | _ => .error .wrongWordCount

/-- Format N: a rectangle and two addresses (R128). -/
def formatN (ops : List Word) (f : Half → Half → Half → Half → Word → Word → Instr) : Except Illegal Instr :=
  match ops with
  | [w1, w2, w3, w4] => .ok (f (loField w1) (hiField w1) (loField w2) (hiField w2) w3 w4)
  | _ => .error .wrongWordCount

/-- The decode procedure of R133 on a header and the operand words the port took for it: the opcode, then the number of
words, then the must-be-zero fields. -/
def decode (h : Word) (ops : List Word) : Except Illegal Instr :=
  let imm := immField h
  let z := imm == 0#16
  match opcField h with
  | 0x00#8 => formatZ imm ops .nop
  | 0x01#8 => format1 ops z fun w => .setcanvas (loField w) (hiField w)
  | 0x02#8 => format1 ops z fun w => .setorigin (loField w) (hiField w)
  | 0x03#8 => formatR ops z fun x y w h => .setclip x y w h
  | 0x10#8 => format1 ops true fun w => .setpixel (loField w) (hiField w) imm
  | 0x11#8 => formatL ops fun x y n => .fastvline x y n imm
  | 0x12#8 => formatL ops fun x y n => .fasthline x y n imm
  | 0x13#8 => formatR ops true fun x y w h => .fillrect x y w h imm
  | 0x14#8 => formatM imm ops fun x y w h a => .writerect x y w h a
  | 0x15#8 => formatM imm ops fun x y w h a => .readrect x y w h a
  | 0x16#8 => formatN ops fun x y w h a p => .writerectnbpp x y w h imm a p
  | 0x20#8 => format1 ops z fun w => .fbsetext w
  | 0x21#8 => formatZ imm ops .fbenable
  | 0x22#8 => formatZ imm ops .fbdisable
  | 0x23#8 => formatZ imm ops .fbrelease
  | 0x24#8 => formatZ imm ops .flush
  | 0x25#8 => formatZ imm ops .flushasync
  | 0x26#8 => formatZ imm ops .waitasync
  | 0x27#8 => formatZ imm ops .pollasync
  | 0x30#8 => format1 ops (decide (imm.toNat < 3)) fun w => .setfont (imm.extractLsb' 0 2) w
  | 0x31#8 => format1 ops z fun w => .setcursor (loField w) (hiField w)
  | 0x32#8 => format1 ops z fun w => .settextcolor (loField w) (hiField w)
  | 0x33#8 => formatI ops (decide (imm.toNat < 2)) (.settextwrap (imm.getLsbD 0))
  | 0x34#8 => formatI ops true (.settextsize (imm.extractLsb' 0 8) (imm.extractLsb' 8 8))
  | 0x35#8 => formatR ops (decide (imm.toNat < 2)) fun x y w h => .setscroll x y w h (imm.getLsbD 0)
  | 0x36#8 => formatI ops true (.drawchar imm)
  | _ => .error .unassignedOpcode

/-! ## The opcode map -/

/-- A row of the opcode map: "a header `H` selects the row iff `H & mask == match`" (R132). -/
structure OpcodeRow where
  mnemonic : String
  pattern : Word
  mask : Word
  deriving DecidableEq, Repr

/-- Whether a header selects a row (R132). -/
def OpcodeRow.selects (r : OpcodeRow) (h : Word) : Bool := h &&& r.mask == r.pattern

/-- The opcode map as the spec prints it (R132). `decode` does not use it; that the two agree is a statement. -/
def opcodeTable : List OpcodeRow :=
  [{ mnemonic := "NOP", pattern := 0x00000000#32, mask := 0xFFFFFFFF#32 },
   { mnemonic := "SETCANVAS", pattern := 0x00000101#32, mask := 0xFFFFFFFF#32 },
   { mnemonic := "SETORIGIN", pattern := 0x00000102#32, mask := 0xFFFFFFFF#32 },
   { mnemonic := "SETCLIP", pattern := 0x00000203#32, mask := 0xFFFFFFFF#32 },
   { mnemonic := "SETPIXEL", pattern := 0x00000110#32, mask := 0x0000FFFF#32 },
   { mnemonic := "FASTVLINE", pattern := 0x00000211#32, mask := 0x0000FFFF#32 },
   { mnemonic := "FASTHLINE", pattern := 0x00000212#32, mask := 0x0000FFFF#32 },
   { mnemonic := "FILLRECT", pattern := 0x00000213#32, mask := 0x0000FFFF#32 },
   { mnemonic := "WRITERECT", pattern := 0x00000314#32, mask := 0xFFFFFFFF#32 },
   { mnemonic := "READRECT", pattern := 0x00000315#32, mask := 0xFFFFFFFF#32 },
   { mnemonic := "WRITERECTNBPP", pattern := 0x00000416#32, mask := 0x0000FFFF#32 },
   { mnemonic := "FBSETEXT", pattern := 0x00000120#32, mask := 0xFFFFFFFF#32 },
   { mnemonic := "FBENABLE", pattern := 0x00000021#32, mask := 0xFFFFFFFF#32 },
   { mnemonic := "FBDISABLE", pattern := 0x00000022#32, mask := 0xFFFFFFFF#32 },
   { mnemonic := "FBRELEASE", pattern := 0x00000023#32, mask := 0xFFFFFFFF#32 },
   { mnemonic := "FLUSH", pattern := 0x00000024#32, mask := 0xFFFFFFFF#32 },
   { mnemonic := "FLUSHASYNC", pattern := 0x00000025#32, mask := 0xFFFFFFFF#32 },
   { mnemonic := "WAITASYNC", pattern := 0x00000026#32, mask := 0xFFFFFFFF#32 },
   { mnemonic := "POLLASYNC", pattern := 0x00000027#32, mask := 0xFFFFFFFF#32 },
   { mnemonic := "SETFONT", pattern := 0x00000130#32, mask := 0xFFFCFFFF#32 },
   { mnemonic := "SETCURSOR", pattern := 0x00000131#32, mask := 0xFFFFFFFF#32 },
   { mnemonic := "SETTEXTCOLOR", pattern := 0x00000132#32, mask := 0xFFFFFFFF#32 },
   { mnemonic := "SETTEXTWRAP", pattern := 0x00000033#32, mask := 0xFFFEFFFF#32 },
   { mnemonic := "SETTEXTSIZE", pattern := 0x00000034#32, mask := 0x0000FFFF#32 },
   { mnemonic := "SETSCROLL", pattern := 0x00000235#32, mask := 0xFFFEFFFF#32 },
   { mnemonic := "DRAWCHAR", pattern := 0x00000036#32, mask := 0x0000FFFF#32 }]

/-- A command's mnemonic in the opcode map (R132). -/
def Instr.mnemonic : Instr → String
  | .nop => "NOP"
  | .setcanvas _ _ => "SETCANVAS"
  | .setorigin _ _ => "SETORIGIN"
  | .setclip _ _ _ _ => "SETCLIP"
  | .setpixel _ _ _ => "SETPIXEL"
  | .fastvline _ _ _ _ => "FASTVLINE"
  | .fasthline _ _ _ _ => "FASTHLINE"
  | .fillrect _ _ _ _ _ => "FILLRECT"
  | .writerect _ _ _ _ _ => "WRITERECT"
  | .readrect _ _ _ _ _ => "READRECT"
  | .writerectnbpp _ _ _ _ _ _ _ => "WRITERECTNBPP"
  | .fbsetext _ => "FBSETEXT"
  | .fbenable => "FBENABLE"
  | .fbdisable => "FBDISABLE"
  | .fbrelease => "FBRELEASE"
  | .flush => "FLUSH"
  | .flushasync => "FLUSHASYNC"
  | .waitasync => "WAITASYNC"
  | .pollasync => "POLLASYNC"
  | .setfont _ _ => "SETFONT"
  | .setcursor _ _ => "SETCURSOR"
  | .settextcolor _ _ => "SETTEXTCOLOR"
  | .settextwrap _ => "SETTEXTWRAP"
  | .settextsize _ _ => "SETTEXTSIZE"
  | .setscroll _ _ _ _ _ => "SETSCROLL"
  | .drawchar _ => "DRAWCHAR"

/-! ## Encode -/

/-- A flag in IMM16[0] (R123, R126). -/
def flagImm (b : Bool) : Half := if b then 1#16 else 0#16

/-- The packet of a command: header word, then its operand words (R122 to R132). -/
def encode : Instr → List Word
  | .nop => [mkHeader 0 0 0x00]
  | .setcanvas w h => [mkHeader 0 1 0x01, mkPair h w]
  | .setorigin x y => [mkHeader 0 1 0x02, mkPair y x]
  | .setclip x y w h => [mkHeader 0 2 0x03, mkPair y x, mkPair h w]
  | .setpixel x y c => [mkHeader c 1 0x10, mkPair y x]
  | .fastvline x y h c => [mkHeader c 2 0x11, mkPair y x, mkPair 0 h]
  | .fasthline x y w c => [mkHeader c 2 0x12, mkPair y x, mkPair 0 w]
  | .fillrect x y w h c => [mkHeader c 2 0x13, mkPair y x, mkPair h w]
  | .writerect x y w h a => [mkHeader 0 3 0x14, mkPair y x, mkPair h w, a]
  | .readrect x y w h a => [mkHeader 0 3 0x15, mkPair y x, mkPair h w, a]
  | .writerectnbpp x y w h bpp a p => [mkHeader bpp 4 0x16, mkPair y x, mkPair h w, a, p]
  | .fbsetext a => [mkHeader 0 1 0x20, a]
  | .fbenable => [mkHeader 0 0 0x21]
  | .fbdisable => [mkHeader 0 0 0x22]
  | .fbrelease => [mkHeader 0 0 0x23]
  | .flush => [mkHeader 0 0 0x24]
  | .flushasync => [mkHeader 0 0 0x25]
  | .waitasync => [mkHeader 0 0 0x26]
  | .pollasync => [mkHeader 0 0 0x27]
  | .setfont k a => [mkHeader (k.setWidth 16) 1 0x30, a]
  | .setcursor x y => [mkHeader 0 1 0x31, mkPair y x]
  | .settextcolor fg bg => [mkHeader 0 1 0x32, mkPair bg fg]
  | .settextwrap b => [mkHeader (flagImm b) 0 0x33]
  | .settextsize sx sy => [mkHeader (sy ++ sx) 0 0x34]
  | .setscroll x y w h b => [mkHeader (flagImm b) 2 0x35, mkPair y x, mkPair h w]
  | .drawchar c => [mkHeader c 0 0x36]

/-! ## Packets in a stream of words -/

/-- One packet at the head of a stream: the header, the NW words after it whatever the opcode is, and the rest
(R133 steps 1 and 2, R137). `none` while words of the packet are still to come (R105). -/
def splitPacket : List Word → Option (Word × List Word × List Word)
  | [] => none
  | h :: rest =>
    if (nwField h).toNat ≤ rest.length then
      some (h, rest.take (nwField h).toNat, rest.drop (nwField h).toNat)
    else none

/-- A table word's packet: `nbits` bits of `w`, bit 0 the least significant bit of the header, every later bit zero, cut
into as many words as the header's NW asks for. -/
def tableWords (nbits w : Nat) : List Word :=
  let v := w % 2 ^ nbits
  let h := BitVec.ofNat 32 v
  h :: (List.range (nwField h).toNat).map fun k => BitVec.ofNat 32 (v >>> (32 * (k + 1)))

/-- The command the decoder reads from an instruction whose bits are `w` (the host's entry). -/
def decodeTableWord (nbits w : Nat) : Option Instr :=
  match splitPacket (tableWords nbits w) with
  | none => none
  | some (h, ops, _) => (decode h ops).toOption

end Sys2Proof
end

