-- ==== Sys2Proof/Machine/Sequencer.lean ====
section
/-! DEFINITION. The command port's side of a step: taking one packet from the words presented (20_memory.md R105, 30_encoding.md
R133, R137). -/

namespace Sys2Proof.Machine

/-- What stands at the head of the command port. -/
inductive Fetched where
  /-- no header, or a packet whose operand words have not all been presented: the engine waits (R105, R317) -/
  | idle
  /-- a whole packet that is illegal, and the words after it (R134) -/
  | illegal (why : Illegal) (rest : List Word)
  /-- a whole legal packet, and the words after it (R133) -/
  | packet (i : Instr) (rest : List Word)
  deriving DecidableEq, Repr

/-- The packet at the head of a stream of words, decoded (R133). -/
def fetchFrom (ws : List Word) : Fetched :=
  match splitPacket ws with
  | none => .idle
  | some (h, ops, rest) =>
    match decode h ops with
    | .ok i => .packet i rest
    | .error why => .illegal why rest

/-- The packet at the head of the command port. -/
def fetch (s : State) : Fetched := fetchFrom s.port

/-- The packet of a table word presented ahead of whatever the port holds. -/
def presentTableWord (s : State) (nbits w : Nat) : State :=
  withPort (tableWords nbits w ++ s.port) { s with waiting := false }

end Sys2Proof.Machine
end

