-- ==== Sys2Proof/Machine/Step.lean ====
section
/-! DEFINITION. One step of the machine: the next query of a WAITASYNC in execution, else one packet of the command port, else
idle. -/

namespace Sys2Proof.Machine

/-- While WAITASYNC is in execution the port is busy and the step is its next query (R217, R306). Else one packet is taken and
executed whole (R105, R110, R306), an illegal one discarded (R134), and with no whole packet presented the engine idles and
"idle keeps all state" (R317; entry 7). -/
def step (s : State) : Host.Outcome State Fault Refusal :=
  if s.waiting then exec .waitasync s
  else
    match fetch s with
    | .idle => .next s
    | .illegal _ rest => .next (discardPacket rest s)
    | .packet i rest => exec i (withPort rest s)

/-- `s` with the table word's packet presented at the head of the command port and no WAITASYNC in execution, so that the very
next step takes and runs it (entry 7). -/
def State.withFetchWord (s : State) (nbits w : Nat) : State := presentTableWord s nbits w

end Sys2Proof.Machine
end

