-- ==== Sys2Proof/Laws/Fields.lean ====
section
/-! SUPPORT. The fields of headers and operand words, taken apart and put together (30_encoding.md R121, R124, R126). -/

namespace Sys2Proof

/-! ## The fields of a header -/

@[simp] theorem immField_mkHeader (imm : Half) (nw opc : Byte) : immField (mkHeader imm nw opc) = imm := by
  apply BitVec.eq_of_toNat_eq
  simp only [immField, mkHeader, BitVec.extractLsb'_toNat, BitVec.toNat_append, Nat.shiftRight_eq_div_pow, Nat.shiftLeft_eq]
  have := imm.isLt; have := nw.isLt; have := opc.isLt
  rw [Nat.or_comm, ← Nat.shiftLeft_eq, ← Nat.shiftLeft_eq, Nat.or_comm, ← Nat.shiftLeft_add_eq_or_of_lt (by omega),
    ← Nat.shiftLeft_add_eq_or_of_lt (by omega), Nat.shiftLeft_eq, Nat.shiftLeft_eq]
  omega

@[simp] theorem nwField_mkHeader (imm : Half) (nw opc : Byte) : nwField (mkHeader imm nw opc) = nw := by
  apply BitVec.eq_of_toNat_eq
  simp only [nwField, mkHeader, BitVec.extractLsb'_toNat, BitVec.toNat_append, Nat.shiftRight_eq_div_pow]
  have := imm.isLt; have := nw.isLt; have := opc.isLt
  rw [← Nat.shiftLeft_add_eq_or_of_lt (by omega), ← Nat.shiftLeft_add_eq_or_of_lt (by omega), Nat.shiftLeft_eq, Nat.shiftLeft_eq]
  omega

@[simp] theorem opcField_mkHeader (imm : Half) (nw opc : Byte) : opcField (mkHeader imm nw opc) = opc := by
  apply BitVec.eq_of_toNat_eq
  simp only [opcField, mkHeader, BitVec.extractLsb'_toNat, BitVec.toNat_append, Nat.shiftRight_zero]
  have := imm.isLt; have := nw.isLt; have := opc.isLt
  rw [← Nat.shiftLeft_add_eq_or_of_lt (by omega), ← Nat.shiftLeft_add_eq_or_of_lt (by omega), Nat.shiftLeft_eq, Nat.shiftLeft_eq]
  omega

@[simp] theorem loField_mkPair (hi lo : Half) : loField (mkPair hi lo) = lo := by
  apply BitVec.eq_of_toNat_eq
  simp only [loField, mkPair, BitVec.extractLsb'_toNat, BitVec.toNat_append, Nat.shiftRight_zero]
  have := hi.isLt; have := lo.isLt
  rw [← Nat.shiftLeft_add_eq_or_of_lt (by omega), Nat.shiftLeft_eq]
  omega

@[simp] theorem hiField_mkPair (hi lo : Half) : hiField (mkPair hi lo) = hi := by
  apply BitVec.eq_of_toNat_eq
  simp only [hiField, mkPair, BitVec.extractLsb'_toNat, BitVec.toNat_append, Nat.shiftRight_eq_div_pow]
  have := hi.isLt; have := lo.isLt
  rw [← Nat.shiftLeft_add_eq_or_of_lt (by omega), Nat.shiftLeft_eq]
  omega

/-- A header is its three fields. -/
theorem mkHeader_fields (h : Word) : mkHeader (immField h) (nwField h) (opcField h) = h := by
  apply BitVec.eq_of_toNat_eq
  simp only [mkHeader, immField, nwField, opcField, BitVec.toNat_append, BitVec.extractLsb'_toNat, Nat.shiftRight_eq_div_pow]
  have := h.isLt
  rw [← Nat.shiftLeft_add_eq_or_of_lt (by omega), ← Nat.shiftLeft_add_eq_or_of_lt (by omega), Nat.shiftLeft_eq, Nat.shiftLeft_eq]
  omega

/-- An operand word is its two halves. -/
theorem mkPair_fields (w : Word) : mkPair (hiField w) (loField w) = w := by
  apply BitVec.eq_of_toNat_eq
  simp only [mkPair, hiField, loField, BitVec.toNat_append, BitVec.extractLsb'_toNat, Nat.shiftRight_eq_div_pow]
  have := w.isLt
  rw [← Nat.shiftLeft_add_eq_or_of_lt (by omega), Nat.shiftLeft_eq]
  omega

/-- Two headers with the same fields are one. -/
theorem header_ext_iff (h g : Word) :
    h = g ↔ immField h = immField g ∧ nwField h = nwField g ∧ opcField h = opcField g := by
  constructor
  · rintro rfl; exact ⟨rfl, rfl, rfl⟩
  · rintro ⟨h1, h2, h3⟩
    rw [← mkHeader_fields h, ← mkHeader_fields g, h1, h2, h3]

theorem immField_and (h g : Word) : immField (h &&& g) = immField h &&& immField g := BitVec.extractLsb'_and
theorem nwField_and (h g : Word) : nwField (h &&& g) = nwField h &&& nwField g := BitVec.extractLsb'_and
theorem opcField_and (h g : Word) : opcField (h &&& g) = opcField h &&& opcField g := BitVec.extractLsb'_and

/-- The low byte of an immediate of two (R123). -/
@[simp] theorem extractLsb'_lo_append (hi lo : Byte) : ((hi ++ lo : BitVec (8 + 8)) : Half).extractLsb' 0 8 = lo := by
  apply BitVec.eq_of_toNat_eq
  have h : ((hi ++ lo : BitVec (8 + 8)) : Half).toNat = hi.toNat * 256 + lo.toNat := by
    rw [BitVec.toNat_append, ← Nat.shiftLeft_add_eq_or_of_lt lo.isLt, Nat.shiftLeft_eq]
  rw [BitVec.extractLsb'_toNat, h, Nat.shiftRight_zero]
  have := lo.isLt
  omega

/-- The high byte of an immediate of two (R123). -/
@[simp] theorem extractLsb'_hi_append (hi lo : Byte) : ((hi ++ lo : BitVec (8 + 8)) : Half).extractLsb' 8 8 = hi := by
  apply BitVec.eq_of_toNat_eq
  have h : ((hi ++ lo : BitVec (8 + 8)) : Half).toNat = hi.toNat * 256 + lo.toNat := by
    rw [BitVec.toNat_append, ← Nat.shiftLeft_add_eq_or_of_lt lo.isLt, Nat.shiftLeft_eq]
  rw [BitVec.extractLsb'_toNat, h, Nat.shiftRight_eq_div_pow]
  have := lo.isLt; have := hi.isLt
  omega

end Sys2Proof
end

