-- ==== Sys2Proof/Laws/PerInstr.lean ====
section
/-! SUPPORT. The per-instruction family `HeaderSelectsRow`: the header of a well-formed command selects its own row of the opcode map
and no other, and names as many operand words as its packet has (30_encoding.md R121, R132, R137). -/

namespace Sys2Proof

namespace Laws.HeaderSelectsRow

/-- The mnemonics of the rows a header selects. -/
def selected (h : Word) : List String := (opcodeTable.filter fun r => r.selects h).map fun r => r.mnemonic

/-- The header of a well-formed command selects its row of the opcode map alone, and its NW is the number of operand words. -/
def Statement (i : Instr) : Prop :=
  i.wellFormed = true → ∃ h ops, encode i = h :: ops ∧ (nwField h).toNat = ops.length ∧ selected h = [i.mnemonic]

/-- A row selects a header field by field. -/
theorem selects_mkHeader (r : OpcodeRow) (imm : Half) (nw opc : Byte) : r.selects (mkHeader imm nw opc) =
    (decide (opc &&& opcField r.mask = opcField r.pattern) && decide (nw &&& nwField r.mask = nwField r.pattern) &&
      decide (imm &&& immField r.mask = immField r.pattern)) := by
  rw [Bool.eq_iff_iff]
  simp only [OpcodeRow.selects, beq_iff_eq, header_ext_iff, immField_and, nwField_and, opcField_and, immField_mkHeader,
    nwField_mkHeader, opcField_mkHeader, Bool.and_eq_true, decide_eq_true_eq]
  tauto

/-- The rows whose opcode and word count a header has, in the order of the map. -/
def candidates (nw opc : Byte) : List OpcodeRow := opcodeTable.filter fun r =>
  decide (opc &&& opcField r.mask = opcField r.pattern) && decide (nw &&& nwField r.mask = nwField r.pattern)

/-- The one row with the opcode and word count decides, by the immediate. -/
theorem selected_mkHeader {imm : Half} {nw opc : Byte} {r : OpcodeRow} (hc : candidates nw opc = [r])
    (hi : imm &&& immField r.mask = immField r.pattern) : selected (mkHeader imm nw opc) = [r.mnemonic] := by
  have h : (opcodeTable.filter fun q => q.selects (mkHeader imm nw opc)) =
      (candidates nw opc).filter fun q => decide (imm &&& immField q.mask = immField q.pattern) := by
    rw [candidates, List.filter_filter]
    congr 1
    funext q
    rw [selects_mkHeader, Bool.and_comm]
  rw [selected, h, hc]
  simp [hi]

/-- A header of a command with that one row. -/
theorem intro {i : Instr} {imm : Half} {nw opc : Byte} {ops : List Word} {r : OpcodeRow}
    (he : encode i = mkHeader imm nw opc :: ops) (hn : nw.toNat = ops.length) (hc : candidates nw opc = [r])
    (hm : r.mnemonic = i.mnemonic) (hi : i.wellFormed = true → imm &&& immField r.mask = immField r.pattern) : Statement i :=
  fun hw => ⟨_, _, he, by rw [nwField_mkHeader, hn], by rw [selected_mkHeader hc (hi hw), hm]⟩

/-- An immediate the row leaves free. -/
theorem free (imm : Half) : imm &&& 0#16 = 0#16 := BitVec.and_zero

theorem nop : Statement .nop := intro rfl rfl rfl rfl (fun _ => by decide)

theorem setcanvas (w : Half) (h : Half) : Statement (.setcanvas w h) := intro rfl rfl rfl rfl (fun _ => by decide)

theorem setorigin (x : Half) (y : Half) : Statement (.setorigin x y) := intro rfl rfl rfl rfl (fun _ => by decide)

theorem setclip (x : Half) (y : Half) (w : Half) (h : Half) : Statement (.setclip x y w h) := intro rfl rfl rfl rfl (fun _ => by decide)

theorem setpixel (x : Half) (y : Half) (color : Half) : Statement (.setpixel x y color) := intro rfl rfl rfl rfl (fun _ => free _)

theorem fastvline (x : Half) (y : Half) (h : Half) (color : Half) : Statement (.fastvline x y h color) := intro rfl rfl rfl rfl (fun _ => free _)

theorem fasthline (x : Half) (y : Half) (w : Half) (color : Half) : Statement (.fasthline x y w color) := intro rfl rfl rfl rfl (fun _ => free _)

theorem fillrect (x : Half) (y : Half) (w : Half) (h : Half) (color : Half) : Statement (.fillrect x y w h color) := intro rfl rfl rfl rfl (fun _ => free _)

theorem writerect (x : Half) (y : Half) (w : Half) (h : Half) (src : Word) : Statement (.writerect x y w h src) := intro rfl rfl rfl rfl (fun _ => by decide)

theorem readrect (x : Half) (y : Half) (w : Half) (h : Half) (dst : Word) : Statement (.readrect x y w h dst) := intro rfl rfl rfl rfl (fun _ => by decide)

theorem writerectnbpp (x : Half) (y : Half) (w : Half) (h : Half) (bpp : Half) (src : Word) (pal : Word) : Statement (.writerectnbpp x y w h bpp src pal) := intro rfl rfl rfl rfl (fun _ => free _)

theorem fbsetext (buf : Word) : Statement (.fbsetext buf) := intro rfl rfl rfl rfl (fun _ => by decide)

theorem fbenable : Statement .fbenable := intro rfl rfl rfl rfl (fun _ => by decide)

theorem fbdisable : Statement .fbdisable := intro rfl rfl rfl rfl (fun _ => by decide)

theorem fbrelease : Statement .fbrelease := intro rfl rfl rfl rfl (fun _ => by decide)

theorem flush : Statement .flush := intro rfl rfl rfl rfl (fun _ => by decide)

theorem flushasync : Statement .flushasync := intro rfl rfl rfl rfl (fun _ => by decide)

theorem waitasync : Statement .waitasync := intro rfl rfl rfl rfl (fun _ => by decide)

theorem pollasync : Statement .pollasync := intro rfl rfl rfl rfl (fun _ => by decide)

theorem setfont (kind : BitVec 2) (addr : Word) : Statement (.setfont kind addr) := intro rfl rfl rfl rfl (fun _ => (by decide : ∀ k : BitVec 2, k.setWidth 16 &&& 0xFFFC#16 = 0#16) kind)

theorem setcursor (x : Half) (y : Half) : Statement (.setcursor x y) := intro rfl rfl rfl rfl (fun _ => by decide)

theorem settextcolor (fg : Half) (bg : Half) : Statement (.settextcolor fg bg) := intro rfl rfl rfl rfl (fun _ => by decide)

theorem settextwrap (flag : Bool) : Statement (.settextwrap flag) := intro rfl rfl rfl rfl (fun _ => by cases flag <;> decide)

theorem settextsize (sx : Byte) (sy : Byte) : Statement (.settextsize sx sy) := intro rfl rfl rfl rfl (fun _ => free _)

theorem setscroll (x : Half) (y : Half) (w : Half) (h : Half) (enable : Bool) : Statement (.setscroll x y w h enable) := intro rfl rfl rfl rfl (fun _ => by cases enable <;> decide)

theorem drawchar (code : Half) : Statement (.drawchar code) := intro rfl rfl rfl rfl (fun _ => free _)

end Laws.HeaderSelectsRow

end Sys2Proof
end

