-- ==== Sys2Proof/Machine/CommandEvents.lean ====
section
/-! DEFINITION. The accesses of every command, and those of the command a step has in execution (20_memory.md R78, R111). -/

namespace Sys2Proof.Machine

/-- The accesses of a command, in order. -/
def commandEvents (i : Instr) (s : State) : List Event :=
  match i with
  | .nop => []
  | .setcanvas _ _ => []
  | .setorigin _ _ => []
  | .setclip _ _ _ _ => []
  | .setpixel x y color => drawPixelEvents (s16 x) (s16 y) color s
  | .fastvline x y h color => drawRectEvents (s16 x) (s16 y) 1 (s16 h) color s
  | .fasthline x y w color => drawRectEvents (s16 x) (s16 y) (s16 w) 1 color s
  | .fillrect x y w h color => drawRectEvents (s16 x) (s16 y) (s16 w) (s16 h) color s
  | .writerect x y w h src => writerectEvents x y w h src s
  | .readrect x y w h dst => readrectEvents x y w h dst s
  | .writerectnbpp x y w h bpp src pal => writerectnbppEvents x y w h bpp src pal s
  | .fbsetext _ => []
  | .fbenable => fbenableEvents s
  | .fbdisable => []
  | .fbrelease => fbreleaseEvents s
  | .flush => flushEvents s
  | .flushasync => flushasyncEvents s
  | .waitasync => askActiveEvents s
  | .pollasync => askActiveEvents s
  | .setfont kind addr => setfontEvents kind addr
  | .setcursor _ _ => []
  | .settextcolor _ _ => []
  | .settextwrap _ => []
  | .settextsize _ _ => []
  | .setscroll _ _ _ _ _ => []
  | .drawchar code => drawcharEvents code s

/-- The accesses of the next step: the next query of a WAITASYNC in execution, else those of the packet at the head of the port, none
when the engine is idle or the packet is illegal. -/
def stepEvents (s : State) : List Event :=
  if s.waiting then commandEvents .waitasync s
  else
    match fetch s with
    | .idle => []
    | .illegal _ _ => []
    | .packet i rest => commandEvents i (withPort rest s)

end Sys2Proof.Machine
end

