-- ==== Sys2Proof/Machine/HostPort.lean ====
section
/-! DEFINITION. What the host does to the engine from outside a command: the register read port (10_state.md R60, R61), the command
port (20_memory.md R105), host memory (R110), the reset input (70_reset_and_hazards.md R330). -/

namespace Sys2Proof.Machine

/-- A signed 16-bit register on the 32-bit read port (R60). -/
def signedReg (v : Half) : Word := v.signExtend 32

/-- The register read port: register number `n`, no side effect; a number not in the table reads 0 (R60, R61). -/
def readReg (s : State) (n : Byte) : Word :=
  match n with
  | 0x00#8 => statusWord s
  | 0x01#8 => (BitVec.ofBool s.result).setWidth 32
  | 0x02#8 => s.canvas.width.setWidth 32
  | 0x03#8 => s.canvas.height.setWidth 32
  | 0x04#8 => signedReg s.canvas.originX
  | 0x05#8 => signedReg s.canvas.originY
  | 0x06#8 => signedReg s.canvas.clipX1
  | 0x07#8 => signedReg s.canvas.clipY1
  | 0x08#8 => signedReg s.canvas.clipX2
  | 0x09#8 => signedReg s.canvas.clipY2
  | 0x0A#8 => s.fb.base
  | 0x0C#8 => signedReg s.dirty.minX
  | 0x0D#8 => signedReg s.dirty.minY
  | 0x0E#8 => signedReg s.dirty.maxX
  | 0x0F#8 => signedReg s.dirty.maxY
  | 0x10#8 => signedReg s.text.cursorX
  | 0x11#8 => signedReg s.text.cursorY
  | 0x12#8 => s.text.fg.setWidth 32
  | 0x13#8 => s.text.bg.setWidth 32
  | 0x14#8 => textctlWord s.text
  | 0x15#8 => (s.text.tsizeY ++ s.text.tsizeX).setWidth 32
  | 0x16#8 => signedReg s.text.scrollX
  | 0x17#8 => signedReg s.text.scrollY
  | 0x18#8 => signedReg s.text.scrollW
  | 0x19#8 => signedReg s.text.scrollH
  | 0x1A#8 => s.font.hdr
  | 0x1B#8 => s.font.fixed
  | 0x20#8 => s.font.index
  | 0x21#8 => s.font.unicode
  | 0x22#8 => s.font.data
  | 0x23#8 => s.font.i2l ++ s.font.i2f ++ s.font.i1l ++ s.font.i1f
  | 0x24#8 => s.font.bxo ++ s.font.bh ++ s.font.bw ++ s.font.bidx
  | 0x25#8 => s.font.caph ++ s.font.lspace ++ s.font.bdelta ++ s.font.byo
  | 0x26#8 => (BitVec.ofBool s.font.ok ++ s.font.alphamx ++ s.font.bpp).setWidth 32
  | 0x27#8 => (s.font.reserved ++ s.font.version).setWidth 32
  | 0x28#8 => signedReg s.last.cx
  | 0x29#8 => signedReg s.last.cy
  | 0x2A#8 => s.last.xr
  | 0x2B#8 => s.last.bg ++ s.last.fg
  | 0x2C#8 => (BitVec.ofBool s.last.valid).setWidth 32
  | _ => 0

/-- The host writes words to the command port (R105). -/
def present (ws : List Word) (s : State) : State := { s with port := s.port ++ ws }

/-- The host stores a byte; the next command sees it (R110). The engine does not guard the shadow buffer against it (R81). -/
def hostWriteByte (a : Word) (b : Byte) (s : State) : State := { s with mem := Memory.write s.mem a b }

/-- The host stores consecutive bytes (R110). -/
def hostWriteBytes (a : Word) (bs : List Byte) (s : State) : State := { s with mem := Memory.writeBytes s.mem a bs }

/-- The host reads a byte (R110). -/
def hostReadByte (s : State) (a : Word) : Byte := Memory.read s.mem a

/-- The reset input between two steps (R330): "every register takes the value in the "reset" column", the command port is emptied, a
WAITASYNC in execution is abandoned; `Mem`, the sink's transfer, the allocator, the parameters and the platform's map are not reached,
no FREE is emitted. -/
def assertReset (s : State) : State :=
  { State.reset with
    params := s.params, mem := s.mem, unmapped := s.unmapped, trace := s.trace, asyncBusy := s.asyncBusy, env := s.env }

/-- The reset input during the next step, after `k` of its accesses: "a command in execution is abandoned where it stands", which "leaves
the shadow buffer or a READRECT destination partly written", a session open, an answer used up (R330, entry 17). A command that gets no
step (R79) makes no access. -/
def assertResetDuring (k : Nat) (s : State) : State :=
  assertReset (if blocked (stepEvents s) s then s else replay ((stepEvents s).take k) s)

end Sys2Proof.Machine
end

