-- ==== Sys2Proof/Machine/RefSink.lean ====
section
/-! DEFINITION. The sink as the trace shows it: its window and its streaming session (10_state.md R42 (a)), the session
discipline (20_memory.md R99), and the reference sink of R100, "for test vectors only; not part of the engine". -/

namespace Sys2Proof.Machine

/-! ## Window, session, session discipline -/

/-- The sink's window: the corners of the last SETADDR (R42 (a), R91). -/
def sinkWindow (trace : List Transaction) : Option (Half × Half × Half × Half) :=
  trace.foldl (fun w t => match t with
    | .setAddr x0 y0 x1 y1 => some (x0, y0, x1, y1)
    | _ => w) none

/-- Whether a streaming session is open: a BEGIN with no END after it (R42 (a), R92, R94). -/
def sinkSession (trace : List Transaction) : Bool :=
  trace.foldl (fun o t => match t with
    | .begin => true
    | .finish => false
    | _ => o) false

/-- Where a reader of the trace stands with respect to R99. -/
inductive SessionPhase where
  /-- between sessions -/
  | closed
  /-- SETADDR seen, a window of `n` pixels; only BEGIN may follow -/
  | addressed (n : Nat)
  /-- BEGIN seen, `n` pixels still owed; END may follow when none is -/
  | streaming (n : Nat)
  /-- the discipline is broken -/
  | broken
  deriving DecidableEq, Repr

/-- Where SETADDR leads: only between sessions, and only with a window of the canvas's quadrant (R91, R99). -/
def openWindow (p : SessionPhase) (x0 y0 x1 y1 : Half) : SessionPhase :=
  match p with
  | .closed =>
    if 0 ≤ s16 x0 ∧ s16 x0 ≤ s16 x1 ∧ 0 ≤ s16 y0 ∧ s16 y0 ≤ s16 y1 then
      .addressed ((s16 x1 - s16 x0 + 1) * (s16 y1 - s16 y0 + 1)).toNat
    else .broken
  | _ => .broken

/-- Where BEGIN leads: only just after SETADDR (R99). -/
def beginSession (p : SessionPhase) : SessionPhase :=
  match p with
  | .addressed n => .streaming n
  | _ => .broken

/-- Where PIXEL leads: one pixel fewer is owed (R93, R99). -/
def streamPixel (p : SessionPhase) : SessionPhase :=
  match p with
  | .streaming (n + 1) => .streaming n
  | _ => .broken

/-- Where END leads: only when no pixel is owed (R94, R99). -/
def endSession (p : SessionPhase) : SessionPhase :=
  match p with
  | .streaming 0 => .closed
  | _ => .broken

/-- A transaction that belongs to no session: only between sessions (R99). -/
def betweenSessions (p : SessionPhase) : SessionPhase :=
  match p with
  | .closed => .closed
  | _ => .broken

/-- One transaction of the discipline "SETADDR; BEGIN; PIXEL × count; END with no other transaction between its parts" (R99). -/
def sessionStep (p : SessionPhase) (t : Transaction) : SessionPhase :=
  match t with
  | .setAddr x0 y0 x1 y1 => openWindow p x0 y0 x1 y1
  | .begin => beginSession p
  | .pixel _ => streamPixel p
  | .finish => endSession p
  | .writeRect _ _ _ _ _ => betweenSessions p
  | .readRect _ _ _ _ _ => betweenSessions p
  | .writeRectAsync _ _ _ _ _ _ => betweenSessions p
  | .asyncActive _ => betweenSessions p
  | .alloc _ _ _ => betweenSessions p
  | .free _ => betweenSessions p

/-- The phase after a trace. -/
def sessionPhase (trace : List Transaction) : SessionPhase := trace.foldl sessionStep .closed

/-! ## The reference sink (R100) -/

/-- A transfer handed over by WRITERECT_ASYNC (R97, R100). -/
structure AsyncJob where
  x : Nat
  y : Nat
  w : Nat
  h : Nat
  addr : Word
  depth : Depth
  deriving DecidableEq, Repr

/-- The state of the reference sink: `GRAM[y][x]` row-major, a window, the write index, `active`, a pending job (R100). -/
structure RefSink where
  sw : Nat
  sh : Nat
  gram : List Half
  x0 : Nat
  y0 : Nat
  x1 : Nat
  y1 : Nat
  k : Nat
  active : Bool
  job : Option AsyncJob
  deriving DecidableEq, Repr

/-- A reference sink of `sw` by `sh` pixels, all of one colour, with no window set. -/
def RefSink.fresh (sw sh : Nat) (c : Half) : RefSink :=
  { sw := sw, sh := sh, gram := List.replicate (sw * sh) c, x0 := 0, y0 := 0, x1 := 0, y1 := 0, k := 0, active := false,
    job := none }

/-- `GRAM[y][x]`. DESIGN CHOICE (entry 16): a position outside the display reads 0, in READRECT's answer too (R357 and U13 leave it
open). -/
def RefSink.gramAt (r : RefSink) (x y : Nat) : Half :=
  if x < r.sw ∧ y < r.sh then (r.gram[y * r.sw + x]?).getD 0#16 else 0#16

/-- `GRAM[y][x] <- c`; a pixel outside the display is dropped (R357 leaves it open, entry 16). -/
def RefSink.put (r : RefSink) (x y : Nat) (c : Half) : RefSink :=
  if x < r.sw ∧ y < r.sh then { r with gram := r.gram.set (y * r.sw + x) c } else r

/-- What a transaction does to the reference sink (R100). -/
def RefSink.accept (r : RefSink) (t : Transaction) : RefSink :=
  match t with
  | .setAddr x0 y0 x1 y1 => { r with x0 := x0.toNat, y0 := y0.toNat, x1 := x1.toNat, y1 := y1.toNat, k := 0 }
  | .pixel c =>
    let ww := r.x1 - r.x0 + 1
    { r.put (r.x0 + r.k % ww) (r.y0 + r.k / ww) c with k := r.k + 1 }
  | .writeRectAsync x y w h addr depth =>
    { r with active := true, job := some { x := x.toNat, y := y.toNat, w := w.toNat, h := h.toNat, addr := addr, depth := depth } }
  | .begin => r
  | .finish => r
  | .writeRect _ _ _ _ _ => r
  | .readRect _ _ _ _ _ => r
  | .asyncActive _ => r
  | .alloc _ _ _ => r
  | .free _ => r

/-- The answer to `READRECT(x, y, w, h)`: `GRAM[y+j][x+i]`, row-major (R100). -/
def RefSink.readAnswer (r : RefSink) (x y w h : Nat) : List Half :=
  (List.range h).flatMap fun j => (List.range w).map fun i => r.gramAt (x + i) (y + j)

/-- Whether the answer a transaction carries is the one the reference sink gives (R100). -/
def RefSink.agrees (r : RefSink) (t : Transaction) : Bool :=
  match t with
  | .readRect x y w h answer => answer == r.readAnswer x.toNat y.toNat w.toNat h.toNat
  | .asyncActive b => b == r.active
  | _ => true

/-- The reference sink after a trace, if every answer in it is its own (R100). -/
def RefSink.follow (r : RefSink) : List Transaction → Option RefSink
  | [] => some r
  | t :: ts => if r.agrees t then RefSink.follow (r.accept t) ts else none

/-- Element `n` of a handed-over region, as the display takes it (R100). -/
def jobPixel (m : Memory) (j : AsyncJob) (n : Nat) : Half :=
  match j.depth with
  | .d16 => Memory.read16 m (j.addr + BitVec.ofNat 32 (2 * n))
  | .d32 => quant565 (Memory.read32 m (j.addr + BitVec.ofNat 32 (4 * n)))

/-- The sink's completion of the pending job, at a moment when host memory is `m`: the region is copied to the display and
`active <- 0` (R100, R101). -/
def RefSink.complete (r : RefSink) (m : Memory) : RefSink :=
  match r.job with
  | none => { r with active := false }
  | some j =>
    { (List.range (j.w * j.h)).foldl (fun q n => q.put (j.x + n % j.w) (j.y + n / j.w) (jobPixel m j n)) r with
      active := false, job := none }

end Sys2Proof.Machine
end

