-- ==== Sys2Proof/Safety.lean ====
section
/-! DEFINITION. What counts as a legal state (the invariants the spec states), as a run without error (60_exceptions.md R303), and
as a broken host contract (70_reset_and_hazards.md section 3). -/

namespace Sys2Proof.Machine

/-! ## Legal states -/

/-- R23 and R25: sizes 0 to 32767, "clip bounds ⊆ [0,width)×[0,height) at all times". -/
abbrev CanvasOk (c : Canvas) : Prop :=
  c.width.toNat < 32768 ∧ c.height.toNat < 32768 ∧
  0 ≤ s16 c.clipX1 ∧ s16 c.clipX1 ≤ s16 c.clipX2 ∧ s16 c.clipX2 ≤ u16 c.width ∧
  0 ≤ s16 c.clipY1 ∧ s16 c.clipY1 ≤ s16 c.clipY2 ∧ s16 c.clipY2 ≤ u16 c.height

/-- R27 and R219: the reachable combinations of FB_EN, FB_ALLOC, FB_INT; no buffer without FB_CAPABLE (R210, R211); FB_BASE is 0
while none is attached (R213) and a multiple of 32 when it is the allocator's (R103). -/
abbrev MirrorOk (p : Params) (f : Mirror) : Prop :=
  (f.en = true → f.alloc = true) ∧ (f.int = true → f.alloc = true) ∧ (f.alloc = true → p.fbCapable = true) ∧
  (f.alloc = false → f.base = 0#32) ∧ (f.int = true → f.base.toNat % 32 = 0)

/-- R29 and R160: the empty value, or a rectangle inside the canvas. -/
abbrev DirtyOk (c : Canvas) (d : Dirty) : Prop :=
  d = Dirty.empty ∨
  (0 ≤ s16 d.minX ∧ s16 d.minX ≤ s16 d.maxX ∧ s16 d.maxX < u16 c.width ∧
   0 ≤ s16 d.minY ∧ s16 d.minY ≤ s16 d.maxY ∧ s16 d.maxY < u16 c.height)

/-- R34: the text size multipliers are 1 to 255. -/
abbrev TextOk (t : Text) : Prop := t.tsizeX ≠ 0#8 ∧ t.tsizeY ≠ 0#8

/-- R38, R232: F_OK says that the field widths are legal, and when a scalable font has been loaded F_BPP is 1 to 4 with its
F_ALPHAMX; the latches of a font never loaded are all 0. -/
abbrev FontOk (k : FontKind) (f : Font) : Prop :=
  (f.ok = true → f.bw.toNat ≤ 16 ∧ f.bh.toNat ≤ 16 ∧ f.bxo.toNat ≤ 16 ∧ f.byo.toNat ≤ 16 ∧ f.bdelta.toNat ≤ 16 ∧
    f.bidx.toNat ≤ 32) ∧
  (k = .scalableFont → f.bpp ≠ 0#8) ∧
  ((f.bpp = 0#8 ∧ f.alphamx = 0#8 ∧ f.ok = false) ∨ (f.bpp = 1#8 ∧ f.alphamx = 31#8) ∨ (f.bpp = 2#8 ∧ f.alphamx = 10#8) ∨
    (f.bpp = 3#8 ∧ f.alphamx = 4#8) ∨ (f.bpp = 4#8 ∧ f.alphamx = 2#8))

/-- The invariant of the registers and of memory between commands: R23, R25, R27, R29, R34, R38, R219, and the canonical form of
the memory list. The dirty rectangle is read only while FB_EN = 1 (R181), so only then is it held to the canvas. -/
abbrev LegalState (s : State) : Prop :=
  CanvasOk s.canvas ∧ MirrorOk s.params s.fb ∧ (s.fb.en = true → DirtyOk s.canvas s.dirty) ∧ TextOk s.text ∧
  FontOk s.text.fontKind s.font ∧ Memory.wf s.mem = true

/-- R99: the trace is made of whole sessions, and none is open. -/
abbrev SessionsOk (s : State) : Prop := sessionPhase s.trace = .closed

/-- R40, R41: the hidden state is dead between commands (entry 12). -/
abbrev HiddenDead (s : State) : Prop := s.bitcur = 0#32 ∧ s.linebuf = []

/-- An ALLOC that was answered with an address (R103). -/
def Transaction.allocates (t : Transaction) : Bool :=
  match t with
  | .alloc _ _ answer => answer.isSome
  | .setAddr _ _ _ _ => false
  | .begin => false
  | .pixel _ => false
  | .finish => false
  | .writeRect _ _ _ _ _ => false
  | .readRect _ _ _ _ _ => false
  | .writeRectAsync _ _ _ _ _ _ => false
  | .asyncActive _ => false
  | .free _ => false

/-- A FREE (R103). -/
def Transaction.frees (t : Transaction) : Bool :=
  match t with
  | .free _ => true
  | .setAddr _ _ _ _ => false
  | .begin => false
  | .pixel _ => false
  | .finish => false
  | .writeRect _ _ _ _ _ => false
  | .readRect _ _ _ _ _ => false
  | .writeRectAsync _ _ _ _ _ _ => false
  | .asyncActive _ => false
  | .alloc _ _ _ => false

/-- Successful ALLOCs of a trace (R103). -/
def allocCount (trace : List Transaction) : Nat := trace.countP Transaction.allocates

/-- FREEs of a trace (R103). -/
def freeCount (trace : List Transaction) : Nat := trace.countP Transaction.frees

/-- R103, R213: "allocated once, freed once"; every successful ALLOC but that of the buffer attached now has had its FREE. -/
abbrev AllocBalanced (s : State) : Prop := allocCount s.trace = freeCount s.trace + (if s.fb.int then 1 else 0)

/-! ## Regions of memory -/

/-- The shadow buffer's region (R80). -/
def bufferRegion (s : State) : Region := (s.fb.base, fbSize s)

/-! ## The terms the statements use -/

/-- A pixel of the canvas, canvas coordinates (R80). -/
abbrev OnCanvas (c : Canvas) (px py : Int) : Prop := 0 ≤ px ∧ px < u16 c.width ∧ 0 ≤ py ∧ py < u16 c.height

/-- Inside the clip bounds, right and bottom exclusive (R25, R153 (b)). -/
abbrev InClip (c : Canvas) (px py : Int) : Prop :=
  s16 c.clipX1 ≤ px ∧ px < s16 c.clipX2 ∧ s16 c.clipY1 ≤ py ∧ py < s16 c.clipY2

/-- A canvas pixel of the logical rectangle `(x, y, w, h)` that is inside the clip bounds (R13, R151). -/
abbrev Visible (c : Canvas) (x y w h px py : Int) : Prop :=
  x + s16 c.originX ≤ px ∧ px < x + s16 c.originX + w ∧ y + s16 c.originY ≤ py ∧ py < y + s16 c.originY + h ∧ InClip c px py

/-- Inside the dirty rectangle, corners inclusive (R29). -/
abbrev InDirty (d : Dirty) (px py : Int) : Prop :=
  s16 d.minX ≤ px ∧ px ≤ s16 d.maxX ∧ s16 d.minY ≤ py ∧ py ≤ s16 d.maxY

/-- `a` is one of the bytes of the shadow pixel `(px, py)` (R80). -/
abbrev PixelByte (s : State) (px py : Int) (a : Word) : Prop := (a - fbAddr s px py).toNat < bytesPerPixel s.params.depth

/-- `a` is a byte of the region (addresses modulo 2^32). -/
abbrev InRegion (r : Region) (a : Word) : Prop := (a - r.1).toNat < r.2

/-- What shadow-mode drawing does to memory: the touched pixels take the raw value `raw`, every other pixel of the canvas and every
byte that belongs to no touched pixel keeps its value. -/
def ShadowEffect (s t : State) (touched : Int → Int → Prop) (raw : Int → Int → Word) : Prop :=
  (∀ px py, OnCanvas s.canvas px py → touched px py → fbRead t px py = raw px py) ∧
  (∀ px py, OnCanvas s.canvas px py → ¬ touched px py → fbRead t px py = fbRead s px py) ∧
  (∀ a, (∀ px py, OnCanvas s.canvas px py → touched px py → ¬ PixelByte s px py a) →
    Memory.read t.mem a = Memory.read s.mem a)

/-- The transactions of one streaming session over the pixels of a window, right and bottom exclusive, the colour of the canvas
pixel `(px, py)` being `colour px py` (R99, R158). -/
def IsSession (ts : List Transaction) (vx0 vy0 vx1 vy1 : Int) (colour : Int → Int → Half) : Prop :=
  ∃ pixels : List Half,
    ts = session vx0 vy0 (vx1 - 1) (vy1 - 1) pixels ∧
    (pixels.length : Int) = (vx1 - vx0) * (vy1 - vy0) ∧
    ∀ i j : Nat, (i : Int) < vx1 - vx0 → (j : Int) < vy1 - vy0 →
      pixels[j * (vx1 - vx0).toNat + i]? = some (colour (vx0 + i) (vy0 + j))

/-- One drawing of the logical rectangle `(x, y, w, h)`, `colour lx ly` the colour at a logical position: in shadow mode the visible
pixels are stored and united into the dirty rectangle, in direct mode one session is sent; nothing at all when nothing is visible;
and no other state changes (R158, R159, R160, R190). Said of a command it is R162 (a): the pixels that change are those of the rectangle
inside the clip bounds, and no other. -/
def Draws (s t : State) (x y w h : Int) (colour : Int → Int → Half) : Prop :=
  match clip s.canvas x y w h with
  | none => t = s
  | some v =>
    if s.fb.en then
      t = { s with mem := t.mem, dirty := t.dirty } ∧
      ShadowEffect s t (fun px py => Visible s.canvas x y w h px py)
        (fun px py => toFB s.params.depth (colour (px - s16 s.canvas.originX) (py - s16 s.canvas.originY))) ∧
      s16 t.dirty.minX = min (s16 s.dirty.minX) v.vx0 ∧ s16 t.dirty.minY = min (s16 s.dirty.minY) v.vy0 ∧
      s16 t.dirty.maxX = max (s16 s.dirty.maxX) (v.vx1 - 1) ∧ s16 t.dirty.maxY = max (s16 s.dirty.maxY) (v.vy1 - 1)
    else
      ∃ ts, t = { s with trace := s.trace ++ ts } ∧
        IsSession ts v.vx0 v.vy0 v.vx1 v.vy1
          (fun px py => colour (px - s16 s.canvas.originX) (py - s16 s.canvas.originY))

/-- The rectangle and the colour of a solid primitive (R191 to R194). -/
def solidRequest (i : Instr) : Option (Int × Int × Int × Int × Half) :=
  match i with
  | .setpixel x y c => some (s16 x, s16 y, 1, 1, c)
  | .fastvline x y h c => some (s16 x, s16 y, 1, s16 h, c)
  | .fasthline x y w c => some (s16 x, s16 y, s16 w, 1, c)
  | .fillrect x y w h c => some (s16 x, s16 y, s16 w, s16 h, c)
  | _ => none

/-! ## A run in error -/

/-- "A model should treat a run in which ILL becomes 1 as faulted" (R303, U15). -/
abbrev faultFree (s : State) : Prop := s.ill = false

/-! ## Host contracts -/

/-- A host contract that a command breaks in a state. The engine executes the command by its rule all the same (D46). -/
inductive Hazard where
  /-- drawing into the shadow buffer while a transfer is outstanding (R350, U1) -/
  | mutateDuringTransfer
  /-- FBRELEASE while a transfer is outstanding (R351, U2) -/
  | releaseDuringTransfer
  /-- an operand region over the shadow buffer (R352, U5) -/
  | operandOverlap
  /-- a synchronous sink transaction while a transfer is outstanding (R353, U3) -/
  | sinkDuringTransfer
  deriving DecidableEq, Repr

/-- The drawing commands of R350. -/
def drawsPixels (i : Instr) : Bool :=
  match i with
  | .setpixel _ _ _ => true
  | .fastvline _ _ _ _ => true
  | .fasthline _ _ _ _ => true
  | .fillrect _ _ _ _ _ => true
  | .writerect _ _ _ _ _ => true
  | .writerectnbpp _ _ _ _ _ _ _ => true
  | .drawchar _ => true
  | _ => false

/-- The glyph record a scalable DRAWCHAR decodes, as far as its decode cursor goes, and the index table (R352). -/
def glyphRegions (code : Nat) (s : State) : List Region :=
  let entries := (s.font.i1l.toNat + 1 - s.font.i1f.toNat) + (s.font.i2l.toNat + 1 - s.font.i2f.toNat)
  (s.font.index, (entries * s.font.bidx.toNat + 7) / 8) ::
    match glyphAddr s.font s.mem code with
    | none => []
    | some base =>
      match takeHeader base s with
      | none => [(base, 1)]
      | some h => [(base, ((takePixels base h.1 h.2).2.bitcur.toNat + 7) / 8)]

/-- The operand regions of a command that R352 keeps off the shadow buffer. -/
def operandRegions (i : Instr) (s : State) : List Region :=
  match i with
  | .writerect _ _ w h src => [(src, 2 * (s16 w).toNat * (s16 h).toNat)]
  | .readrect _ _ w h dst => [(dst, 2 * (s16 w).toNat * (s16 h).toNat)]
  | .writerectnbpp _ _ w h bpp src pal =>
    if legalBpp bpp.toNat then
      [(src, (s16 h).toNat * (bytesPerRow (u16 bpp) (s16 w)).toNat), (pal, 2 * 2 ^ bpp.toNat)]
    else []
  | .setfont kind addr => if kind = 2#2 then [(addr, 26)] else if kind = 1#2 then [(addr, 1280)] else []
  | .drawchar code =>
    match s.text.fontKind with
    | .noFont => []
    | .fixedFont => [(s.font.fixed, 1280)]
    | .scalableFont => glyphRegions code.toNat s
  | _ => []

/-- Whether a command may open a sink session or ask READRECT (R353). -/
def usesSink (i : Instr) (s : State) : Bool :=
  match i with
  | .flush => true
  | .flushasync => true
  | .readrect _ _ _ _ _ => !s.fb.en
  | _ => drawsPixels i && !s.fb.en

/-- The host contracts that presenting `i` in state `s` breaks; the host keeps this list empty (R350 to R353). -/
def hazards (i : Instr) (s : State) : List Hazard :=
  (if s.asyncBusy && s.fb.en && drawsPixels i then [Hazard.mutateDuringTransfer] else [])
  ++ (if s.asyncBusy && (i == .fbrelease) then [Hazard.releaseDuringTransfer] else [])
  ++ (if s.fb.alloc && (operandRegions i s).any (regionsMeet (bufferRegion s)) then [Hazard.operandOverlap] else [])
  ++ (if s.asyncBusy && usesSink i s then [Hazard.sinkDuringTransfer] else [])

/-! ## Where a command may store, and what the dirty rectangle covers -/

/-- The regions of `Mem` a command may store to (R78, R82): the shadow buffer for a drawing command in shadow mode, READRECT's
destination array, the region the allocator has just answered with. -/
def writtenRegions (i : Instr) (s : State) : List Region :=
  match i with
  | .readrect _ _ w h dst => [(dst, 2 * (s16 w).toNat * (s16 h).toNat)]
  | .fbenable =>
    if s.params.fbCapable && !s.fb.alloc then
      match s.env.nextAlloc.1 with
      | none => []
      | some b => [(blockAddr b, fbSize s)]
    else []
  | _ => if drawsPixels i && s.fb.en then [bufferRegion s] else []

/-- Every pixel of the canvas that differs from what it was in the memory `m0` is inside the dirty rectangle (R30, R162 (d)). -/
def DirtyCovers (m0 : Memory) (s : State) : Prop :=
  ∀ px py, OnCanvas s.canvas px py → fbReadIn s m0 px py ≠ fbRead s px py → InDirty s.dirty px py

/-! ## Single accesses -/

/-- No access of the command goes to an address with nothing behind it (R79). -/
abbrev Mapped (i : Instr) (s : State) : Prop := blocked (commandEvents i s) s = false

/-- Two states that agree outside the registers: `Mem`, the trace, the answers to come, the outstanding transfer. -/
abbrev SameOutside (s t : State) : Prop := s.mem = t.mem ∧ s.trace = t.trace ∧ s.env = t.env ∧ s.asyncBusy = t.asyncBusy

/-! ## Runs, and the reference sink beside the canvas -/

/-- `n` steps; none where a step does not answer a next state. -/
def stepTimes (n : Nat) (s : State) : Option State :=
  match n with
  | 0 => some s
  | n + 1 =>
    match step s with
    | .next t => stepTimes n t
    | .fault _ => none
    | .refused _ => none

/-- A reference sink whose display has the size of the canvas (R100, R357). -/
abbrev SinkFits (c : Canvas) (r : RefSink) : Prop :=
  r.sw = c.width.toNat ∧ r.sh = c.height.toNat ∧ r.gram.length = r.sw * r.sh

/-- What direct-mode drawing does to a display: a reference sink of the canvas's size that follows the transactions shows `colour` at the
touched pixels and what it showed before at every other; `Mem`, the dirty rectangle and the answers to come are left (R83, R100). -/
def SinkEffect (s t : State) (touched : Int → Int → Prop) (colour : Int → Int → Half) : Prop :=
  t.mem = s.mem ∧ t.dirty = s.dirty ∧ t.env = s.env ∧
  ∃ ts, t.trace = s.trace ++ ts ∧
    ∀ r, SinkFits s.canvas r → ∃ r', r.follow ts = some r' ∧ SinkFits s.canvas r' ∧
      ∀ px py : Nat, OnCanvas s.canvas px py →
        (touched px py → r'.gramAt px py = colour px py) ∧ (¬ touched px py → r'.gramAt px py = r.gramAt px py)

/-- Drawing in either mode: the touched pixels take the colour, in the shadow buffer or on the display, and nothing else changes
there (R158). -/
def PaintsPixels (s t : State) (touched : Int → Int → Prop) (colour : Int → Int → Half) : Prop :=
  (s.fb.en = true → ShadowEffect s t touched fun px py => toFB s.params.depth (colour px py)) ∧
  (s.fb.en = false → SinkEffect s t touched colour)

/-! ## What a character is drawn from -/

/-- Where a fixed character stands after wrap and scroll, and the state it is drawn in (R282). -/
def fixedPlacement (s : State) : Pen × State :=
  placePen s (s16 s.text.cursorX + 6 * (s.text.tsizeX.toNat : Int)) (8 * (s.text.tsizeY.toNat : Int))

/-- The bit of a fixed character under a logical position, the cell's corner at `(cx, cy)` (R281, R284). -/
def fixedBitAt (s : State) (code : Nat) (cx cy lx ly : Int) : Bool :=
  decide (cx ≤ lx ∧ lx < cx + 5 * (s.text.tsizeX.toNat : Int) ∧ cy ≤ ly ∧ ly < cy + 8 * (s.text.tsizeY.toNat : Int)) &&
    (fixedColumn s code ((lx - cx) / (s.text.tsizeX.toNat : Int)).toNat).getLsbD ((ly - cy) / (s.text.tsizeY.toNat : Int)).toNat

/-- Everything a scalable character is composed of: the placed cursor, the state after wrap and scroll, the glyph's pixels (R245, R248
to R252). -/
structure GlyphScene where
  g : GlyphHeader
  pen : Pen
  before : State
  pixels : GlyphPixels
  deriving DecidableEq, Repr

/-- The scene of a scalable character, none for a skip (R246, R247, R269). -/
def glyphScene (code : Nat) (s : State) : Option GlyphScene :=
  match glyphAddr s.font s.mem code with
  | none => none
  | some base =>
    match takeHeader base s with
    | none => none
    | some h =>
      let placed := placePen h.2 (s16 s.text.cursorX + h.1.xo + h.1.gw) s.font.lspace.toNat
      some { g := h.1, pen := placed.1, before := placed.2, pixels := (takePixels base h.1 placed.2).1 }

/-- The left column of the glyph's bitmap, logical (R248). -/
def GlyphScene.ox (q : GlyphScene) : Int := q.pen.cx + q.g.xo

/-- The top row of the glyph's bitmap, logical (R250). -/
def GlyphScene.oy (q : GlyphScene) (f : Font) : Int := q.pen.cy + f.caph.toNat - q.g.gh - q.g.yo

end Sys2Proof.Machine
end

