-- ==== Sys2Proof/Certificates/Slice0/Obligations.lean ====
section
/-! DEFINITION. The statements for the provers. `LegalState`, `Draws`, `ShadowEffect` and the other terms are those of Sys2Proof/Safety.lean.
A clause that rests on a choice of the model names the entry of notes/assumptions. -/

open Sys2Proof Sys2Proof.Machine

/-! ## Packets -/

/-- R121 to R132: the packet of a well-formed command decodes to that command, with every operand at every value. -/
def Obligations.DecodeOfEncode : Prop :=
  ∀ i : Instr, i.wellFormed = true →
    ∃ h ops, encode i = h :: ops ∧ ops.length = (nwField h).toNat ∧ decode h ops = .ok i

/-- R121 to R135: a legal packet is the encoding of the command it decodes to: no bit of it is ignored. -/
def Obligations.EncodeOfDecode : Prop :=
  ∀ (h : Word) (ops : List Word) (i : Instr), ops.length = (nwField h).toNat → decode h ops = .ok i →
    i.wellFormed = true ∧ encode i = h :: ops

/-- R132, R134: a packet with the NW words its header names is illegal exactly when its header selects no row of the opcode map, or it
is a SETFONT of kind 3, or a line whose length word has a bit above 15 set; else its header selects the command's own row. -/
def Obligations.IllegalPacketCauses : Prop :=
  ∀ (h : Word) (ops : List Word), ops.length = (nwField h).toNat →
    ((∃ why, decode h ops = .error why) ↔
      (∀ r ∈ opcodeTable, r.selects h = false) ∨ (opcField h = 0x30#8 ∧ immField h = 3#16) ∨
      ((opcField h = 0x11#8 ∨ opcField h = 0x12#8) ∧ ∃ w1 w2, ops = [w1, w2] ∧ hiField w2 ≠ 0#16)) ∧
    ∀ i, decode h ops = .ok i → Laws.HeaderSelectsRow.selected h = [i.mnemonic]

/-- R105, R133, R137 and the encodings R121 to R132: a packet's length is 1 + NW whatever the opcode is, and the words after it are left.
That a packet with words still to come is not begun, so that it is taken whole or not at all, is the model's choice (entry 7). -/
def Obligations.PacketLength : Prop :=
  (∀ (h : Word) (ws : List Word),
    (fetchFrom (h :: ws) = .idle ↔ ws.length < (nwField h).toNat) ∧
    (∀ i rest, fetchFrom (h :: ws) = .packet i rest → rest = ws.drop (nwField h).toNat) ∧
    (∀ why rest, fetchFrom (h :: ws) = .illegal why rest → rest = ws.drop (nwField h).toNat)) ∧
  ∀ (i : Instr) (rest : List Word), i.wellFormed = true → fetchFrom (encode i ++ rest) = .packet i rest

/-- Words the spec prints (R136, R182, R191 to R194, R196, R210, R230, R236, R237, R245, R293, P2 of 95_test_vectors.md) decode to the
commands it prints beside them. -/
def Obligations.DecodeSpecWords : Prop :=
  decode 0xF8000110#32 [0x00040003#32] = .ok (.setpixel 3#16 4#16 0xF800#16) ∧
  decode 0x07E00211#32 [0xFFFD0002#32, 0x0000000A#32] = .ok (.fastvline 2#16 0xFFFD#16 10#16 0x07E0#16) ∧
  decode 0x001F0212#32 [0x0000005F#32, 0x0000000A#32] = .ok (.fasthline 95#16 0#16 10#16 0x001F#16) ∧
  decode 0xFFFF0213#32 [0xFFFBFFFB#32, 0x00140014#32] = .ok (.fillrect 0xFFFB#16 0xFFFB#16 20#16 20#16 0xFFFF#16) ∧
  decode 0x00000102#32 [0xFFFD000A#32] = .ok (.setorigin 10#16 0xFFFD#16) ∧
  decode 0x00000314#32 [0xFFFFFFFF#32, 0x00040004#32, 0x00002000#32] =
    .ok (.writerect 0xFFFF#16 0xFFFF#16 4#16 4#16 0x2000#32) ∧
  decode 0x00000315#32 [0x00010000#32, 0x00020003#32, 0x00003000#32] = .ok (.readrect 0#16 1#16 3#16 2#16 0x3000#32) ∧
  decode 0x00020416#32 [0x0000FFFE#32, 0x00020005#32, 0x00005000#32, 0x00005100#32] =
    .ok (.writerectnbpp 0xFFFE#16 0#16 5#16 2#16 2#16 0x5000#32 0x5100#32) ∧
  decode 0x00000120#32 [0x20000000#32] = .ok (.fbsetext 0x20000000#32) ∧
  decode 0x00020130#32 [0x00001000#32] = .ok (.setfont 2#2 0x1000#32) ∧
  decode 0x03020034#32 [] = .ok (.settextsize 2#8 3#8) ∧
  decode 0x00010235#32 [0x00320000#32, 0x00320064#32] = .ok (.setscroll 0#16 50#16 100#16 50#16 true) ∧
  decode 0x00410036#32 [] = .ok (.drawchar 65#16)

/-! ## Steps -/

/-- R105, R133: when the words at the port decode to `i` and no WAITASYNC is in execution, the step is `exec i` on the state whose port
holds the words after the packet. -/
def Obligations.StepRunsDecoded : Prop :=
  ∀ (s : State) (h : Word) (ops rest : List Word) (i : Instr), s.waiting = false → s.port = h :: (ops ++ rest) →
    ops.length = (nwField h).toNat → decode h ops = .ok i → step s = exec i { s with port := rest }

/-- R134: an illegal packet's words are consumed, ILL is set, and nothing else changes. -/
def Obligations.StepDiscardsIllegal : Prop :=
  ∀ (s : State) (h : Word) (ops rest : List Word) (why : Illegal), s.waiting = false → s.port = h :: (ops ++ rest) →
    ops.length = (nwField h).toNat → decode h ops = .error why → step s = .next { s with port := rest, ill := true }

/-- R317, R105: with no header at the port the engine idles and "idle keeps all state". That it idles in the same way while operand words
of a packet are still to come is the model's choice (entry 7). -/
def Obligations.StepIdleKeepsState : Prop :=
  ∀ s : State, s.waiting = false →
    (s.port = [] ∨ ∃ h ws, s.port = h :: ws ∧ ws.length < (nwField h).toNat) → step s = .next s

/-- R217, R306: a WAITASYNC in execution against a sink that answers 1 `n` times and then 0 asks n + 1 times, holds the port and every
register until then, and then is complete. One query a step is the model's choice (entry 8). -/
def Obligations.WaitAsyncTerminates : Prop :=
  ∀ (s : State) (n : Nat) (later : List Bool), s.waiting = true → s.asyncBusy = true →
    s.env.active = List.replicate n true ++ false :: later →
    stepTimes (n + 1) s = some { s with
      waiting := false
      asyncBusy := false
      env := { s.env with active := later }
      trace := s.trace ++ List.replicate n (.asyncActive true) ++ [.asyncActive false] } ∧
    ∀ k, 0 < k → k ≤ n → stepTimes k s = some { s with
      env := { s.env with active := List.replicate (n - k) true ++ false :: later }
      trace := s.trace ++ List.replicate k (.asyncActive true) }

/-! ## Reset and the read port -/

/-- R60, R62, R332: what the register read port shows right after reset. -/
def Obligations.ResetRegisterValues : Prop :=
  ∀ n : Byte, readReg State.reset n =
    if n = 0x0C#8 ∨ n = 0x0D#8 then 32767#32
    else if n = 0x0E#8 ∨ n = 0x0F#8 then 0xFFFFFFFF#32
    else if n = 0x12#8 ∨ n = 0x13#8 then 0xFFFF#32
    else if n = 0x14#8 then 1#32
    else if n = 0x15#8 then 0x0101#32
    else 0#32

/-- R25, R27, R29, R34, R38, R99, R103: the state after reset satisfies every invariant stated below. That the trace is empty is
the model's choice (entry 19). -/
def Obligations.ResetIsLegal : Prop :=
  LegalState State.reset ∧ SessionsOk State.reset ∧ AllocBalanced State.reset

/-- R330: the reset input, between two steps or after `k` accesses of the step in flight, puts every register to its reset value, empties
the command port and abandons the command; the parameters and the platform's map stay, no FREE is emitted, and `Mem`, the trace and the
sink's transfer are those the accesses already made have left. That a reset inside a command lands after some number `k` of the step's
single accesses, and leaves what that prefix of them leaves, is the model's deduction from R330's "abandoned where it stands" (entry 17). -/
def Obligations.ResetInput : Prop :=
  ∀ (s : State) (k : Nat),
    (∀ n, readReg (assertResetDuring k s) n = readReg State.reset n) ∧
    (assertResetDuring k s).port = [] ∧ (assertResetDuring k s).waiting = false ∧
    (assertResetDuring k s).params = s.params ∧ (assertResetDuring k s).unmapped = s.unmapped ∧
    (blocked (stepEvents s) s = false → SameOutside (assertResetDuring k s) (replay ((stepEvents s).take k) s)) ∧
    assertResetDuring 0 s = assertReset s ∧ SameOutside (assertReset s) s

/-- R60, R61: what each number of the read port shows in every state: a 16-bit signed register sign-extended, every other register
zero-extended, the fields of a packed word at their bits and its unused bits 0; a number not in the table of R60 reads 0. (A read is a
function of the state: it changes nothing and sets no ILL.) -/
def Obligations.ReadPortUnassigned : Prop :=
  ∀ s : State,
    (∀ n : Byte, n = 0x0B#8 ∨ (0x1C#8 ≤ n ∧ n ≤ 0x1F#8) ∨ 0x2D#8 ≤ n → readReg s n = 0#32) ∧
    (∀ p ∈ ([(0x04, s.canvas.originX), (0x05, s.canvas.originY), (0x06, s.canvas.clipX1), (0x07, s.canvas.clipY1),
        (0x08, s.canvas.clipX2), (0x09, s.canvas.clipY2), (0x0C, s.dirty.minX), (0x0D, s.dirty.minY), (0x0E, s.dirty.maxX),
        (0x0F, s.dirty.maxY), (0x10, s.text.cursorX), (0x11, s.text.cursorY), (0x16, s.text.scrollX), (0x17, s.text.scrollY),
        (0x18, s.text.scrollW), (0x19, s.text.scrollH), (0x28, s.last.cx), (0x29, s.last.cy)] : List (Byte × Half)),
      (readReg s p.1).toInt = p.2.toInt) ∧
    (∀ p ∈ ([(0x02, s.canvas.width), (0x03, s.canvas.height), (0x12, s.text.fg), (0x13, s.text.bg)] : List (Byte × Half)),
      (readReg s p.1).toNat = p.2.toNat) ∧
    (∀ p ∈ ([(0x0A, s.fb.base), (0x1A, s.font.hdr), (0x1B, s.font.fixed), (0x20, s.font.index), (0x21, s.font.unicode),
        (0x22, s.font.data), (0x2A, s.last.xr)] : List (Byte × Word)), readReg s p.1 = p.2) ∧
    (∀ b : Nat, (readReg s 0x00#8).getLsbD b =
      if b = 0 then s.fb.en else if b = 1 then s.fb.alloc else if b = 2 then s.fb.int else if b = 3 then s.ill else false) ∧
    (∀ b : Nat, (readReg s 0x01#8).getLsbD b = (b == 0 && s.result)) ∧
    ((readReg s 0x14#8).getLsbD 0 = s.text.wrap ∧ (readReg s 0x14#8).getLsbD 1 = s.text.scrollEn ∧
      (readReg s 0x14#8).extractLsb' 2 2 = 0#2 ∧
      (readReg s 0x14#8).extractLsb' 4 2 =
        (match s.text.fontKind with | .noFont => 0#2 | .fixedFont => 1#2 | .scalableFont => 2#2) ∧
      (readReg s 0x14#8).extractLsb' 6 26 = 0#26) ∧
    ((readReg s 0x15#8).extractLsb' 0 8 = s.text.tsizeX ∧ (readReg s 0x15#8).extractLsb' 8 8 = s.text.tsizeY ∧
      (readReg s 0x15#8).extractLsb' 16 16 = 0#16) ∧
    ((readReg s 0x23#8).extractLsb' 0 8 = s.font.i1f ∧ (readReg s 0x23#8).extractLsb' 8 8 = s.font.i1l ∧
      (readReg s 0x23#8).extractLsb' 16 8 = s.font.i2f ∧ (readReg s 0x23#8).extractLsb' 24 8 = s.font.i2l) ∧
    ((readReg s 0x24#8).extractLsb' 0 8 = s.font.bidx ∧ (readReg s 0x24#8).extractLsb' 8 8 = s.font.bw ∧
      (readReg s 0x24#8).extractLsb' 16 8 = s.font.bh ∧ (readReg s 0x24#8).extractLsb' 24 8 = s.font.bxo) ∧
    ((readReg s 0x25#8).extractLsb' 0 8 = s.font.byo ∧ (readReg s 0x25#8).extractLsb' 8 8 = s.font.bdelta ∧
      (readReg s 0x25#8).extractLsb' 16 8 = s.font.lspace ∧ (readReg s 0x25#8).extractLsb' 24 8 = s.font.caph) ∧
    ((readReg s 0x26#8).extractLsb' 0 8 = s.font.bpp ∧ (readReg s 0x26#8).extractLsb' 8 8 = s.font.alphamx ∧
      (readReg s 0x26#8).getLsbD 16 = s.font.ok ∧ (readReg s 0x26#8).extractLsb' 17 15 = 0#15) ∧
    ((readReg s 0x27#8).extractLsb' 0 8 = s.font.version ∧ (readReg s 0x27#8).extractLsb' 8 8 = s.font.reserved ∧
      (readReg s 0x27#8).extractLsb' 16 16 = 0#16) ∧
    ((readReg s 0x2B#8).extractLsb' 0 16 = s.last.fg ∧ (readReg s 0x2B#8).extractLsb' 16 16 = s.last.bg) ∧
    ∀ b : Nat, (readReg s 0x2C#8).getLsbD b = (b == 0 && s.last.valid)

/-! ## Invariants of every step -/

/-- R23, R25, R27, R29, R34, R38, R219 and the canonical form of memory: a legal state steps to a legal state. -/
def Obligations.StepKeepsInv : Prop := ∀ s t : State, LegalState s → step s = .next t → LegalState t

/-- R99: every step leaves the sink port between whole sessions, each with as many pixels as its window. -/
def Obligations.StepKeepsSessions : Prop :=
  ∀ s t : State, LegalState s → SessionsOk s → step s = .next t → SessionsOk t

/-- R103, R213: successful ALLOCs and FREEs stay in step with FB_INT, so that a buffer is freed at most once. -/
def Obligations.StepKeepsAllocBalance : Prop :=
  ∀ s t : State, LegalState s → AllocBalanced s → step s = .next t → AllocBalanced t

/-- R7, R11, R79, R95, R300: a step whose accesses all have something behind them answers a next state, appends to the trace, never a
WRITERECT, and never changes a parameter or the platform's map; a step with an access to an address that has nothing behind it gets no
step. That the whole step is refused is the model's choice (entry 18). -/
def Obligations.StepExtendsTrace : Prop :=
  ∀ s : State,
    (blocked (stepEvents s) s = true → step s = .refused .unmappedAddress) ∧
    (blocked (stepEvents s) s = false → ∃ t, step s = .next t ∧ t.params = s.params ∧ t.unmapped = s.unmapped ∧
      ∃ ts, t.trace = s.trace ++ ts ∧ ∀ x y w h pixels, Transaction.writeRect x y w h pixels ∉ ts)

/-- R303: ILL is set by an illegal packet, by nothing else, and no step clears it. -/
def Obligations.IllIsSticky : Prop :=
  ∀ s t : State, step s = .next t →
    (s.ill = true → t.ill = true) ∧
    (s.ill = false → t.ill = true → s.waiting = false ∧ ∃ why rest, fetchFrom s.port = .illegal why rest)

/-- R303, R37, R246: ILL is read by no command and F_UNICODE is latched and never used: other values of them change nothing else in
what a command does. -/
def Obligations.IllAndUnicodeAreNeverRead : Prop :=
  ∀ (i : Instr) (s t : State) (b : Bool) (a : Word), i.wellFormed = true → exec i s = .next t →
    ∃ u, exec i { s with ill := b, font := { s.font with unicode := a } } = .next u ∧
      u = { t with ill := b, font := { t.font with unicode := u.font.unicode } } ∧
      (u.font.unicode = a ∨ u.font.unicode = t.font.unicode)

/-- R23 to R39: which commands write which registers; every other command leaves them as they are. -/
def Obligations.RegisterWriters : Prop :=
  ∀ (i : Instr) (s t : State), exec i s = .next t →
    (i.mnemonic ≠ "SETCANVAS" → t.canvas.width = s.canvas.width ∧ t.canvas.height = s.canvas.height) ∧
    (i.mnemonic ≠ "SETORIGIN" → t.canvas.originX = s.canvas.originX ∧ t.canvas.originY = s.canvas.originY) ∧
    (i.mnemonic ∉ ["SETCANVAS", "SETCLIP"] → t.canvas.clipX1 = s.canvas.clipX1 ∧ t.canvas.clipY1 = s.canvas.clipY1 ∧
      t.canvas.clipX2 = s.canvas.clipX2 ∧ t.canvas.clipY2 = s.canvas.clipY2) ∧
    (i.mnemonic ∉ ["FBSETEXT", "FBENABLE", "FBDISABLE", "FBRELEASE"] → t.fb = s.fb) ∧
    (i.mnemonic ∉ ["FBENABLE", "FLUSHASYNC", "POLLASYNC"] → t.result = s.result) ∧
    (i.mnemonic ∉ ["SETCURSOR", "DRAWCHAR"] → t.text.cursorX = s.text.cursorX ∧ t.text.cursorY = s.text.cursorY) ∧
    (i.mnemonic ≠ "SETTEXTCOLOR" → t.text.fg = s.text.fg ∧ t.text.bg = s.text.bg) ∧
    (i.mnemonic ≠ "SETTEXTWRAP" → t.text.wrap = s.text.wrap) ∧
    (i.mnemonic ≠ "SETTEXTSIZE" → t.text.tsizeX = s.text.tsizeX ∧ t.text.tsizeY = s.text.tsizeY) ∧
    (i.mnemonic ≠ "SETSCROLL" → t.text.scrollX = s.text.scrollX ∧ t.text.scrollY = s.text.scrollY ∧
      t.text.scrollW = s.text.scrollW ∧ t.text.scrollH = s.text.scrollH ∧ t.text.scrollEn = s.text.scrollEn) ∧
    (i.mnemonic ≠ "SETFONT" → t.text.fontKind = s.text.fontKind ∧ t.font = s.font) ∧
    (i.mnemonic ∉ ["SETCANVAS", "SETORIGIN", "SETFONT", "SETCURSOR", "DRAWCHAR"] → t.last = s.last)

/-- R78, R161, R309: a command changes no byte of `Mem` outside the regions the spec lets it store to: the shadow buffer for drawing
in shadow mode, READRECT's destination, the buffer FBENABLE has just been given. -/
def Obligations.StoresStayInRegions : Prop :=
  ∀ (i : Instr) (s t : State) (a : Word), LegalState s → exec i s = .next t → (∀ r ∈ writtenRegions i s, ¬ InRegion r a) →
    Memory.read t.mem a = Memory.read s.mem a

/-- R158, R83: drawing in shadow mode sends and asks nothing; drawing in direct mode leaves `Mem` and the dirty rectangle alone. -/
def Obligations.DrawingUsesOneMode : Prop :=
  ∀ (i : Instr) (s t : State), drawsPixels i = true → exec i s = .next t →
    (s.fb.en = true → t.trace = s.trace ∧ t.env = s.env) ∧ (s.fb.en = false → t.mem = s.mem ∧ t.dirty = s.dirty)

/-- R30, R162 (d): the dirty rectangle covers every pixel that differs from what it was when the rectangle was last emptied; a command
keeps that, or empties the rectangle without changing memory. A READRECT destination over the buffer is the one exception (R352). -/
def Obligations.DirtyRectangleSound : Prop :=
  ∀ (m0 : Memory) (i : Instr) (s t : State), LegalState s → s.fb.en = true →
    (i.mnemonic = "READRECT" → Hazard.operandOverlap ∉ hazards i s) → DirtyCovers m0 s → exec i s = .next t →
    t.fb.en = true → DirtyCovers m0 t ∨ (t.dirty = Dirty.empty ∧ t.mem = s.mem)

/-! ## Clipping, colours, bit fields, bytes -/

/-- R151 to R153, R162 (a): Clip answers NONE exactly when no pixel of the request is inside the clip bounds, else the translated corner
and a non-empty rectangle that is the intersection. On a legal canvas its pixels are pixels of the canvas, and their element numbers
are different numbers of the w by h array. -/
def Obligations.ClipIsIntersection : Prop :=
  ∀ (c : Canvas) (x y w h : Int),
    match clip c x y w h with
    | none => ∀ px py, ¬ Visible c x y w h px py
    | some v => v.X = x + s16 c.originX ∧ v.Y = y + s16 c.originY ∧ v.vx0 < v.vx1 ∧ v.vy0 < v.vy1 ∧
      (∀ px py, (v.vx0 ≤ px ∧ px < v.vx1 ∧ v.vy0 ≤ py ∧ py < v.vy1) ↔ Visible c x y w h px py) ∧
      (CanvasOk c → ∀ px py, Visible c x y w h px py →
        OnCanvas c px py ∧ 0 ≤ srcIndex v w px py ∧ srcIndex v w px py < w * h ∧
        ∀ qx qy, Visible c x y w h qx qy → srcIndex v w qx qy = srcIndex v w px py → qx = px ∧ qy = py)

/-- R155, R156: `Quant565(Expand888(c)) = c` for every colour, so that a colour comes back from a shadow buffer of either depth. -/
def Obligations.ColourRoundTrip : Prop :=
  (∀ c : Half, quant565 (expand888 c) = c) ∧ ∀ (d : Depth) (c : Half), fromFB d (toFB d c) = c

/-- R157: every channel of the blend is `floor((fg * a + bg * (32 - a)) / 32)`, which is `bg + floor((fg - bg) * a / 32)` for every
sign of the difference; so `Blend(fg, bg, 0) = bg` and `Blend(fg, fg, a) = fg`, and `Blend(fg, bg, 31)` need not be `fg`. -/
def Obligations.BlendChannels : Prop :=
  (∀ fg bg : Half, blend fg bg 0 = bg) ∧ (∀ (fg : Half) (a : Int), blend fg fg a = fg) ∧ blend 0xFFFF#16 0x0000#16 31 = 0xF7BE#16 ∧
  ∀ (fg bg : Half) (a : Int), 0 ≤ a → a < 32 →
    (∀ f b : Int, (f * a + b * (32 - a)) / 32 = b + (f - b) * a / 32) ∧
    ((red5 (blend fg bg a)).toNat : Int) = ((red5 fg).toNat * a + (red5 bg).toNat * (32 - a)) / 32 ∧
    ((green6 (blend fg bg a)).toNat : Int) = ((green6 fg).toNat * a + (green6 bg).toNat * (32 - a)) / 32 ∧
    ((blue5 (blend fg bg a)).toNat : Int) = ((blue5 fg).toNat * a + (blue5 bg).toNat * (32 - a)) / 32

/-- R166: the blend in packed lanes is the blend. -/
def Obligations.PackedBlendIsBlend : Prop :=
  ∀ (fg bg : Half) (a : Nat), a < 32 → packedBlend fg bg a = blend fg bg a

/-- R165: a bit, a field, its signed reading and `AlignUp8` are given by R165's formulas, at the offsets `k ≥ 0` and widths `n ≤ 32` the
rule speaks of; only the bytes that hold bits `k .. k+n-1` are read; and the worked example. -/
def Obligations.BitFields : Prop :=
  (∀ (m : Memory) (b : Word) (k : Nat),
    fetchBit m b k = (Memory.read m (b + BitVec.ofNat 32 (k / 8))).getLsbD (7 - k % 8)) ∧
  (∀ (m : Memory) (b : Word) (k n : Nat), n ≤ 32 →
    fetchU m b k n = ((List.range n).map fun i : Nat => (fetchBit m b (k + i : Nat)).toNat * 2 ^ (n - 1 - i)).sum ∧
    fetchU m b k n < 2 ^ n ∧ fetchS m b k n = (BitVec.ofNat n (fetchU m b k n)).toInt ∧
    ∀ m' : Memory, (∀ j, k ≤ j → j < k + n →
      Memory.read m' (b + BitVec.ofNat 32 (j / 8)) = Memory.read m (b + BitVec.ofNat 32 (j / 8))) → fetchU m' b k n = fetchU m b k n) ∧
  (∀ k : Nat, alignUp8 k = (k + 7) / 8 * 8 ∧ alignUp8 k % 8 = 0 ∧ k ≤ alignUp8 k ∧ alignUp8 k < k + 8) ∧
  ∀ (m : Memory) (b : Word), Memory.read m b = 0b10110010#8 → Memory.read m (b + 1#32) = 0b01000000#8 →
    fetchU m b 0 3 = 5 ∧ fetchU m b 3 4 = 9 ∧ fetchS m b 3 4 = -7 ∧ fetchU m b 6 4 = 9

/-- R73, R290, R291: the palette index of pixel `i` of row `r` is the bpp-bit field at bit `i * bpp` of the row's bytes, leftmost pixel
in the most significant bits; rows are `bytesPerRow` bytes apart, enough for `w` pixels and less than a byte more. -/
def Obligations.PaletteIndexIsBitField : Prop :=
  ∀ (m : Memory) (src : Word) (bpp : Nat) (w i r : Int), legalBpp bpp = true → 0 < w → 0 ≤ i → 0 ≤ r →
    paletteIndex bpp w src m i r = fetchU m src (8 * (r * bytesPerRow bpp w) + i * bpp) bpp ∧
    w * bpp ≤ 8 * bytesPerRow bpp w ∧ 8 * bytesPerRow bpp w < w * bpp + 8

/-- R71, R72, R74: little-endian 16-bit and 32-bit stores at any address, byte by byte, read back, nothing else changed. -/
def Obligations.ByteOrder : Prop :=
  (∀ (m : Memory) (a : Word) (v : Half),
    Memory.read (Memory.write16 m a v) a = v.extractLsb' 0 8 ∧ Memory.read (Memory.write16 m a v) (a + 1) = v.extractLsb' 8 8 ∧
    Memory.read16 (Memory.write16 m a v) a = v ∧
    ∀ a', ¬ InRegion (a, 2) a' → Memory.read (Memory.write16 m a v) a' = Memory.read m a') ∧
  ∀ (m : Memory) (a : Word) (v : Word),
    Memory.read (Memory.write32 m a v) a = v.extractLsb' 0 8 ∧ Memory.read (Memory.write32 m a v) (a + 1) = v.extractLsb' 8 8 ∧
    Memory.read (Memory.write32 m a v) (a + 2) = v.extractLsb' 16 8 ∧
    Memory.read (Memory.write32 m a v) (a + 3) = v.extractLsb' 24 8 ∧ Memory.read32 (Memory.write32 m a v) a = v ∧
    ∀ a', ¬ InRegion (a, 4) a' → Memory.read (Memory.write32 m a v) a' = Memory.read m a'

/-! ## Canvas configuration -/

/-- R180 to R182, with their encodings: NOP does nothing. SETCANVAS sets the size and opens the clip, or is ignored: a negative size, or a buffer attached.
SETORIGIN writes the origin and does not move the clip bounds. Both setters clear LAST_VALID when they act; nothing else is written. -/
def Obligations.CanvasSettersResult : Prop :=
  ∀ (x y : Half) (s : State),
    (encode .nop = [0#32] ∧ encode (.setcanvas x y) = [0x00000101#32, y ++ x] ∧
      encode (.setorigin x y) = [0x00000102#32, y ++ x]) ∧
    exec .nop s = .next s ∧
    exec (.setcanvas x y) s =
      (if s16 x < 0 ∨ s16 y < 0 ∨ s.fb.alloc = true then .next s
      else .next { s with
        canvas := { s.canvas with width := x, height := y, clipX1 := 0#16, clipY1 := 0#16, clipX2 := x, clipY2 := y }
        last := { s.last with valid := false } }) ∧
    exec (.setorigin x y) s = .next { s with
      canvas := { s.canvas with originX := x, originY := y }
      last := { s.last with valid := false } }

/-- R183, with its encoding: SETCLIP clamps the rectangle to the canvas, the far bounds never before the near ones, `x + w` exact; nothing else is
written. -/
def Obligations.SetclipResult : Prop :=
  ∀ (x y w h : Half) (s : State), CanvasOk s.canvas →
    encode (.setclip x y w h) = [0x00000203#32, y ++ x, h ++ w] ∧
    ∃ t, exec (.setclip x y w h) s = .next t ∧
      t = { s with canvas := { s.canvas with
        clipX1 := t.canvas.clipX1, clipY1 := t.canvas.clipY1, clipX2 := t.canvas.clipX2, clipY2 := t.canvas.clipY2 } } ∧
      s16 t.canvas.clipX1 = clamp (s16 x) 0 (u16 s.canvas.width) ∧
      s16 t.canvas.clipY1 = clamp (s16 y) 0 (u16 s.canvas.height) ∧
      s16 t.canvas.clipX2 = max (s16 t.canvas.clipX1) (clamp (s16 x + s16 w) 0 (u16 s.canvas.width)) ∧
      s16 t.canvas.clipY2 = max (s16 t.canvas.clipY1) (clamp (s16 y + s16 h) 0 (u16 s.canvas.height))

/-! ## Pixel backend and paletted blit -/

/-- R191 to R194, R158 to R160, R190, R162 (a), with their encodings: SETPIXEL, FASTVLINE, FASTHLINE and FILLRECT each complete as one drawing
of their rectangle in their colour, in either mode; a request that is not visible changes nothing. -/
def Obligations.SolidPrimitivesDraw : Prop :=
  (∀ x y w h c : Half,
    encode (.setpixel x y c) = [c ++ 0x0110#16, y ++ x] ∧
    encode (.fastvline x y h c) = [c ++ 0x0211#16, y ++ x, 0#16 ++ h] ∧
    encode (.fasthline x y w c) = [c ++ 0x0212#16, y ++ x, 0#16 ++ w] ∧
    encode (.fillrect x y w h c) = [c ++ 0x0213#16, y ++ x, h ++ w]) ∧
  ∀ (i : Instr) (x y w h : Int) (c : Half) (s : State), solidRequest i = some (x, y, w, h, c) → CanvasOk s.canvas → Mapped i s →
    ∃ t, exec i s = .next t ∧ Draws s t x y w h fun _ _ => c

/-- R162 (b), R195: drawing the same thing twice leaves the state of drawing it once; in direct mode the second draw repeats the
trace. -/
def Obligations.SolidDrawTwice : Prop :=
  ∀ (i : Instr) (x y w h : Int) (c : Half) (s t u : State), solidRequest i = some (x, y, w, h, c) → LegalState s →
    exec i s = .next t → exec i t = .next u →
    (s.fb.en = true → u = t) ∧
    (s.fb.en = false → ∃ ts, t = { s with trace := s.trace ++ ts } ∧ u = { s with trace := s.trace ++ ts ++ ts })

/-- R196, with its encoding: WRITERECT draws the array's elements, element `(ly - y) * w + (lx - x)` at the logical position (lx, ly); the
array does not overlap the shadow buffer (R352). -/
def Obligations.WriterectDraws : Prop :=
  ∀ (x y w h : Half) (src : Word) (s : State),
    encode (.writerect x y w h src) = [0x00000314#32, y ++ x, h ++ w, src] ∧
    (LegalState s → Hazard.operandOverlap ∉ hazards (.writerect x y w h src) s → Mapped (.writerect x y w h src) s →
      ∃ t, exec (.writerect x y w h src) s = .next t ∧
        Draws s t (s16 x) (s16 y) (s16 w) (s16 h) fun lx ly =>
          Memory.read16 s.mem (wrap32 ((src.toNat : Int) + 2 * ((ly - s16 y) * s16 w + (lx - s16 x)))))

/-- R290, with its encoding: WRITERECTNBPP draws the palette entry of each pixel's index; a bpp other than 1, 2, 4, 8 is a no-op. The bitmap
and the palette do not overlap the shadow buffer (R352). -/
def Obligations.WriterectnbppDraws : Prop :=
  ∀ (x y w h bpp : Half) (src pal : Word) (s : State),
    encode (.writerectnbpp x y w h bpp src pal) = [bpp ++ 0x0416#16, y ++ x, h ++ w, src, pal] ∧
    (LegalState s → Hazard.operandOverlap ∉ hazards (.writerectnbpp x y w h bpp src pal) s →
      Mapped (.writerectnbpp x y w h bpp src pal) s →
      ∃ t, exec (.writerectnbpp x y w h bpp src pal) s = .next t ∧
        (legalBpp bpp.toNat = false → t = s) ∧
        (legalBpp bpp.toNat = true → Draws s t (s16 x) (s16 y) (s16 w) (s16 h) fun lx ly =>
          Memory.read16 s.mem (wrap32 ((pal.toNat : Int) +
            2 * paletteIndex bpp.toNat (s16 w) src s.mem (lx - s16 x) (ly - s16 y)))))

/-- R197, with its encoding: READRECT in shadow mode stores the colour of every visible pixel to its element of the destination array and
changes nothing else; the array does not overlap the shadow buffer (R352). -/
def Obligations.ReadrectFromBuffer : Prop :=
  ∀ (x y w h : Half) (dst : Word) (s : State),
    encode (.readrect x y w h dst) = [0x00000315#32, y ++ x, h ++ w, dst] ∧
    (LegalState s → s.fb.en = true → Hazard.operandOverlap ∉ hazards (.readrect x y w h dst) s → Mapped (.readrect x y w h dst) s →
      ∃ t, exec (.readrect x y w h dst) s = .next t ∧
        match clip s.canvas (s16 x) (s16 y) (s16 w) (s16 h) with
        | none => t = s
        | some v => t = { s with mem := t.mem } ∧
          (∀ px py, Visible s.canvas (s16 x) (s16 y) (s16 w) (s16 h) px py →
            Memory.read16 t.mem (elementAddr dst (srcIndex v (s16 w) px py)) = fromFB s.params.depth (fbRead s px py)) ∧
          ∀ a, (∀ px py, Visible s.canvas (s16 x) (s16 y) (s16 w) (s16 h) px py →
            ¬ InRegion (elementAddr dst (srcIndex v (s16 w) px py), 2) a) → Memory.read t.mem a = Memory.read s.mem a)

/-- R197, R96: READRECT in direct mode asks the sink once for the visible rectangle and stores the answer, row-major, to the visible
pixels' elements; the scripted answers come first, and nothing rests on the free ones (entry 4). -/
def Obligations.ReadrectFromSink : Prop :=
  ∀ (x y w h : Half) (dst : Word) (s : State), LegalState s → s.fb.en = false → Mapped (.readrect x y w h dst) s →
    ∃ t, exec (.readrect x y w h dst) s = .next t ∧
      match clip s.canvas (s16 x) (s16 y) (s16 w) (s16 h) with
      | none => t = s
      | some v => ∃ answer : List Half,
        (answer.length : Int) = (v.vx1 - v.vx0) * (v.vy1 - v.vy0) ∧
        (∀ k : Nat, k < answer.length → k < s.env.pixels.length → answer[k]? = s.env.pixels[k]?) ∧
        t = { s with mem := t.mem, env := t.env, trace := s.trace ++
          [.readRect (wrap16 v.vx0) (wrap16 v.vy0) (wrap16 (v.vx1 - v.vx0)) (wrap16 (v.vy1 - v.vy0)) answer] } ∧
        (∀ i j : Nat, (i : Int) < v.vx1 - v.vx0 → (j : Int) < v.vy1 - v.vy0 →
          some (Memory.read16 t.mem (elementAddr dst (srcIndex v (s16 w) (v.vx0 + i) (v.vy0 + j)))) =
            answer[j * (v.vx1 - v.vx0).toNat + i]?) ∧
        ∀ a, (∀ px py, Visible s.canvas (s16 x) (s16 y) (s16 w) (s16 h) px py →
          ¬ InRegion (elementAddr dst (srcIndex v (s16 w) px py), 2) a) → Memory.read t.mem a = Memory.read s.mem a

/-- R155, R196, R197: in shadow mode READRECT brings back the very elements WRITERECT drew, in either depth. -/
def Obligations.WriteReadRoundTrip : Prop :=
  ∀ (x y w h : Half) (src dst : Word) (s t u : State), LegalState s → s.fb.en = true →
    Hazard.operandOverlap ∉ hazards (.writerect x y w h src) s → exec (.writerect x y w h src) s = .next t →
    Hazard.operandOverlap ∉ hazards (.readrect x y w h dst) t → exec (.readrect x y w h dst) t = .next u →
    ∀ v, clip s.canvas (s16 x) (s16 y) (s16 w) (s16 h) = some v →
      ∀ px py, Visible s.canvas (s16 x) (s16 y) (s16 w) (s16 h) px py →
        Memory.read16 u.mem (elementAddr dst (srcIndex v (s16 w) px py)) =
          Memory.read16 s.mem (elementAddr src (srcIndex v (s16 w) px py))

/-- R162 (c), R198: blitting an array that is clipped has the same effect as cropping it first, in memory or on the sink port. -/
def Obligations.WriterectCrops : Prop :=
  ∀ (x y w h x' y' w' h' : Half) (src src' : Word) (s : State) (v : Vis), LegalState s →
    clip s.canvas (s16 x) (s16 y) (s16 w) (s16 h) = some v →
    s16 x' = v.vx0 - s16 s.canvas.originX → s16 y' = v.vy0 - s16 s.canvas.originY →
    s16 w' = v.vx1 - v.vx0 → s16 h' = v.vy1 - v.vy0 →
    (∀ i j : Nat, (i : Int) < v.vx1 - v.vx0 → (j : Int) < v.vy1 - v.vy0 →
      Memory.read16 s.mem (elementAddr src' (j * (v.vx1 - v.vx0) + i)) =
        Memory.read16 s.mem (elementAddr src (srcIndex v (s16 w) (v.vx0 + i) (v.vy0 + j)))) →
    Hazard.operandOverlap ∉ hazards (.writerect x y w h src) s →
    Hazard.operandOverlap ∉ hazards (.writerect x' y' w' h' src') s →
    Mapped (.writerect x y w h src) s → Mapped (.writerect x' y' w' h' src') s →
    exec (.writerect x' y' w' h' src') s = exec (.writerect x y w h src) s

/-! ## Framebuffer mirror -/

/-- R211, with its encoding: FBENABLE's four outcomes. An allocated buffer is 32-byte aligned, its size is exact, its bytes are the environment's (R82,
entry 3), and no byte outside it changes. -/
def Obligations.FbenableResult : Prop :=
  encode .fbenable = [0x00000021#32] ∧ ∀ s : State, CanvasOk s.canvas →
    (s.params.fbCapable = false → exec .fbenable s = .next { s with result := false }) ∧
    (s.params.fbCapable = true → s.fb.alloc = true → exec .fbenable s =
      .next { s with fb := { s.fb with en := true }, dirty := Dirty.empty, result := true }) ∧
    (s.params.fbCapable = true → s.fb.alloc = false →
      let size := s.canvas.width.toNat * s.canvas.height.toNat * bytesPerPixel s.params.depth
      match s.env.nextAlloc.1 with
      | none => exec .fbenable s = .next { s with
          result := false, env := s.env.nextAlloc.2, trace := s.trace ++ [.alloc size 32 none] }
      | some b => ∃ t, exec .fbenable s = .next t ∧
          t = { s with
            fb := { base := blockAddr b, en := true, alloc := true, int := true }
            dirty := Dirty.empty, result := true, mem := t.mem, env := t.env
            trace := s.trace ++ [.alloc size 32 (some b)] } ∧
          t.fb.base.toNat % 32 = 0 ∧
          (∀ a, ¬ InRegion (blockAddr b, size) a → Memory.read t.mem a = Memory.read s.mem a) ∧
          ∀ (k : Nat) (byte : Byte), k < size → s.env.bytes[k]? = some byte →
            Memory.read t.mem (blockAddr b + BitVec.ofNat 32 k) = byte)

/-- R210, R212, R213, with their encodings: FBSETEXT attaches an external buffer, or is a no-op when not capable or when a buffer is attached. FBDISABLE writes
FB_EN only. FBRELEASE disables and detaches, with FREE for an internal buffer only. -/
def Obligations.BufferAttachRelease : Prop :=
  ∀ (buf : Word) (s : State),
    (encode (.fbsetext buf) = [0x00000120#32, buf] ∧ encode .fbdisable = [0x00000022#32] ∧ encode .fbrelease = [0x00000023#32]) ∧
    exec (.fbsetext buf) s =
      (if s.params.fbCapable = false ∨ s.fb.alloc = true then .next s
      else .next { s with fb := { s.fb with base := buf, alloc := true, int := false } }) ∧
    exec .fbdisable s = .next { s with fb := { s.fb with en := false } } ∧
    (s.fb.alloc = false → exec .fbrelease s = .next { s with fb := { s.fb with en := false } }) ∧
    (s.fb.alloc = true → exec .fbrelease s = .next { s with
      fb := { base := 0#32, en := false, alloc := false, int := false }
      trace := if s.fb.int = true then s.trace ++ [.free s.fb.base] else s.trace })

/-- R214, R215, with FLUSH's encoding: FLUSH does nothing in direct mode; else it streams the whole buffer when nothing is dirty, or the dirty rectangle
clipped to the clip bounds, as one session of the buffer's colours, and empties the dirty rectangle in every case. -/
def Obligations.FlushResult : Prop :=
  ∀ s : State,
    encode .flush = [0x00000024#32] ∧
    (s.fb.en = false → exec .flush s = .next s) ∧
    (s.fb.en = true → Mapped .flush s → dirtyEmpty s.dirty = true →
      if 0 < u16 s.canvas.width ∧ 0 < u16 s.canvas.height then
        ∃ ts, exec .flush s = .next { s with dirty := Dirty.empty, trace := s.trace ++ ts } ∧
          IsSession ts 0 0 (u16 s.canvas.width) (u16 s.canvas.height) fun px py => fromFB s.params.depth (fbRead s px py)
      else exec .flush s = .next { s with dirty := Dirty.empty }) ∧
    (s.fb.en = true → Mapped .flush s → dirtyEmpty s.dirty = false →
      let sx := max (s16 s.dirty.minX) (s16 s.canvas.clipX1)
      let ex := min (s16 s.dirty.maxX) (s16 s.canvas.clipX2 - 1)
      let sy := max (s16 s.dirty.minY) (s16 s.canvas.clipY1)
      let ey := min (s16 s.dirty.maxY) (s16 s.canvas.clipY2 - 1)
      if sx ≤ ex ∧ sy ≤ ey then
        ∃ ts, exec .flush s = .next { s with dirty := Dirty.empty, trace := s.trace ++ ts } ∧
          IsSession ts sx sy (ex + 1) (ey + 1) fun px py => fromFB s.params.depth (fbRead s px py)
      else exec .flush s = .next { s with dirty := Dirty.empty })

/-- R100, R214: a reference sink that follows what FLUSH sends shows the shadow buffer exactly in the flushed rectangle, and what it
showed before everywhere else. -/
def Obligations.FlushReachesSink : Prop :=
  ∀ (s t : State) (r : RefSink), LegalState s → s.fb.en = true → SinkFits s.canvas r → exec .flush s = .next t →
    ∃ ts r', t.trace = s.trace ++ ts ∧ r.follow ts = some r' ∧ SinkFits s.canvas r' ∧
      ∀ px py : Nat, OnCanvas s.canvas px py →
        ((dirtyEmpty s.dirty = true ∨ (InDirty s.dirty px py ∧ InClip s.canvas px py)) →
          r'.gramAt px py = fromFB s.params.depth (fbRead s px py)) ∧
        (¬ (dirtyEmpty s.dirty = true ∨ (InDirty s.dirty px py ∧ InClip s.canvas px py)) →
          r'.gramAt px py = r.gramAt px py)

/-- R100, R156, R158, R190: a sink that shows the shadow buffer and follows a drawing command given in direct mode ends showing what
the same command in shadow mode leaves in the buffer. DRAWCHAR, which may read rows back, is not covered. -/
def Obligations.DirectMatchesShadow : Prop :=
  ∀ (i : Instr) (s t t' : State) (r : RefSink), LegalState s → s.fb.en = true → drawsPixels i = true → i.mnemonic ≠ "DRAWCHAR" →
    Hazard.operandOverlap ∉ hazards i s → SinkFits s.canvas r →
    (∀ px py : Nat, OnCanvas s.canvas px py → r.gramAt px py = fromFB s.params.depth (fbRead s px py)) →
    exec i s = .next t → exec i { s with fb := { s.fb with en := false } } = .next t' →
    ∃ ts r', t'.trace = s.trace ++ ts ∧ r.follow ts = some r' ∧
      ∀ px py : Nat, OnCanvas s.canvas px py → r'.gramAt px py = fromFB s.params.depth (fbRead t px py)

/-- R216 to R218, with their encodings: FLUSHASYNC is refused when disabled (the sink is not asked) or when the sink answers active; else the whole buffer is
handed over, the dirty rectangle is emptied and RESULT is 1. POLLASYNC puts the sink's answer to one query in RESULT. WAITASYNC makes a
query, is complete on the answer 0, and writes no register. That an idle sink answers 0 is U11 (entry 6); one query a step is entry 8. -/
def Obligations.AsyncCommandsResult : Prop :=
  (encode .flushasync = [0x00000025#32] ∧ encode .waitasync = [0x00000026#32] ∧ encode .pollasync = [0x00000027#32]) ∧
  ∀ s : State,
    (s.fb.en = false → exec .flushasync s = .next { s with result := false }) ∧
    (s.asyncBusy = false →
      (s.fb.en = true → exec .flushasync s = .next { s with
        trace := s.trace ++ [.asyncActive false,
          .writeRectAsync 0#16 0#16 s.canvas.width s.canvas.height s.fb.base s.params.depth]
        asyncBusy := true, dirty := Dirty.empty, result := true }) ∧
      exec .pollasync s = .next { s with result := false, trace := s.trace ++ [.asyncActive false] } ∧
      exec .waitasync s = .next { s with waiting := false, trace := s.trace ++ [.asyncActive false] }) ∧
    (s.asyncBusy = true →
      (s.fb.en = true → s.env.nextActive.1 = true → exec .flushasync s = .next { s with
        trace := s.trace ++ [.asyncActive true], env := s.env.nextActive.2, result := false }) ∧
      (s.fb.en = true → s.env.nextActive.1 = false → exec .flushasync s = .next { s with
        trace := s.trace ++ [.asyncActive false,
          .writeRectAsync 0#16 0#16 s.canvas.width s.canvas.height s.fb.base s.params.depth]
        env := s.env.nextActive.2, dirty := Dirty.empty, result := true }) ∧
      exec .pollasync s = .next { s with
        result := s.env.nextActive.1, asyncBusy := s.env.nextActive.1, env := s.env.nextActive.2
        trace := s.trace ++ [.asyncActive s.env.nextActive.1] } ∧
      exec .waitasync s = .next { s with
        waiting := s.env.nextActive.1, asyncBusy := s.env.nextActive.1, env := s.env.nextActive.2
        trace := s.trace ++ [.asyncActive s.env.nextActive.1] })

/-! ## Text state -/

/-- R230 to R232, with the encoding: SETFONT of kinds 0 and 1 keeps the scalable latches; kind 2 latches the 26 bytes of the descriptor at their offsets
and derives F_BPP, F_ALPHAMX and F_OK. TSIZE, the cursor and the colours are kept. -/
def Obligations.SetfontResult : Prop :=
  ∀ (addr : Word) (s : State),
    (encode (.setfont 0#2 addr) = [0x00000130#32, addr] ∧ encode (.setfont 1#2 addr) = [0x00010130#32, addr] ∧
      encode (.setfont 2#2 addr) = [0x00020130#32, addr]) ∧
    exec (.setfont 0#2 addr) s = .next { s with
      text := { s.text with fontKind := .noFont }, last := { s.last with valid := false } } ∧
    exec (.setfont 1#2 addr) s = .next { s with
      text := { s.text with fontKind := .fixedFont }, font := { s.font with fixed := addr }
      last := { s.last with valid := false } } ∧
    ∃ f : Font,
      (Mapped (.setfont 2#2 addr) s → exec (.setfont 2#2 addr) s = .next { s with
        text := { s.text with fontKind := .scalableFont }, font := f, last := { s.last with valid := false } }) ∧
      f.hdr = addr ∧ f.fixed = s.font.fixed ∧
      f.index = Memory.read32 s.mem addr ∧ f.unicode = Memory.read32 s.mem (addr + 4#32) ∧
      f.data = Memory.read32 s.mem (addr + 8#32) ∧
      [f.version, f.reserved, f.i1f, f.i1l, f.i2f, f.i2l, f.bidx, f.bw, f.bh, f.bxo, f.byo, f.bdelta, f.lspace, f.caph] =
        (List.range 14).map (fun k => Memory.read s.mem (addr + BitVec.ofNat 32 (0x0C + k))) ∧
      f.bpp.toNat = (if f.version = 23#8 then f.reserved.toNat % 4 + 1 else 1) ∧
      f.alphamx.toNat = 31 / (2 ^ f.bpp.toNat - 1) ∧
      (f.ok = true ↔ f.bw.toNat ≤ 16 ∧ f.bh.toNat ≤ 16 ∧ f.bxo.toNat ≤ 16 ∧ f.byo.toNat ≤ 16 ∧ f.bdelta.toNat ≤ 16 ∧
        f.bidx.toNat ≤ 32)

/-- R233 to R237, with their encodings: the text setters write their registers as given (a size of 0 is stored as 1) and nothing else; only SETCURSOR clears
LAST_VALID. -/
def Obligations.TextSettersResult : Prop :=
  ∀ (x y w h : Half) (sx sy : Byte) (b : Bool) (s : State),
    (encode (.setcursor x y) = [0x00000131#32, y ++ x] ∧ encode (.settextcolor x y) = [0x00000132#32, y ++ x] ∧
      encode (.settextwrap b) = [if b then 0x00010033#32 else 0x00000033#32] ∧
      encode (.settextsize sx sy) = [sy ++ sx ++ 0x0034#16] ∧
      encode (.setscroll x y w h b) = [if b then 0x00010235#32 else 0x00000235#32, y ++ x, h ++ w]) ∧
    exec (.setcursor x y) s = .next { s with
      text := { s.text with cursorX := x, cursorY := y }, last := { s.last with valid := false } } ∧
    exec (.settextcolor x y) s = .next { s with text := { s.text with fg := x, bg := y } } ∧
    exec (.settextwrap b) s = .next { s with text := { s.text with wrap := b } } ∧
    exec (.settextsize sx sy) s = .next { s with text := { s.text with
      tsizeX := if sx = 0#8 then 1#8 else sx, tsizeY := if sy = 0#8 then 1#8 else sy } } ∧
    exec (.setscroll x y w h b) s = .next { s with text := { s.text with
      scrollX := x, scrollY := y, scrollW := w, scrollH := h, scrollEn := b } }

/-! ## Characters -/

/-- R245, R246, R247, R269, R287, with DRAWCHAR's encoding: the skips change nothing at all: a code above 255 with a fixed font; with a scalable font an unusable
descriptor, a code in neither range, a tag that is not 0. -/
def Obligations.DrawcharSkips : Prop :=
  ∀ (code : Half) (s : State),
    encode (.drawchar code) = [code ++ 0x0036#16] ∧
    (s.text.fontKind ≠ .scalableFont → 255 < code.toNat → exec (.drawchar code) s = .next s) ∧
    (s.text.fontKind = .scalableFont → s.font.ok = false → exec (.drawchar code) s = .next s) ∧
    (s.text.fontKind = .scalableFont →
      ¬ (s.font.i1f.toNat ≤ code.toNat ∧ code.toNat ≤ s.font.i1l.toNat) →
      ¬ (s.font.i2f.toNat ≤ code.toNat ∧ code.toNat ≤ s.font.i2l.toNat) → exec (.drawchar code) s = .next s) ∧
    ∀ base, s.text.fontKind = .scalableFont → glyphAddr s.font s.mem code.toNat = some base → fetchU s.mem base 0 3 ≠ 0 →
      Mapped (.drawchar code) s → exec (.drawchar code) s = .next s

/-- R246, R247, R40: range `index1` first, then `index2` after it; the record is at F_DATA plus the entry of F_BIDX bits; a record whose tag
is not 0 is not read on; the header's fields follow one another from bit 3, and BITCUR ends after them. -/
def Obligations.GlyphLookupAndHeader : Prop :=
  (∀ (f : Font) (m : Memory) (code : Nat), f.ok = true →
    (f.i1f.toNat ≤ code ∧ code ≤ f.i1l.toNat → glyphAddr f m code =
      some (f.data + BitVec.ofNat 32 (fetchU m f.index ((code - f.i1f.toNat) * f.bidx.toNat : Nat) f.bidx.toNat))) ∧
    (¬ (f.i1f.toNat ≤ code ∧ code ≤ f.i1l.toNat) → f.i2f.toNat ≤ code ∧ code ≤ f.i2l.toNat → f.i1f.toNat ≤ f.i1l.toNat + 1 →
      glyphAddr f m code = some (f.data + BitVec.ofNat 32
        (fetchU m f.index ((code - f.i2f.toNat + (f.i1l.toNat + 1 - f.i1f.toNat)) * f.bidx.toNat : Nat) f.bidx.toNat)))) ∧
  ∀ (base : Word) (s : State), LegalState s → s.font.ok = true →
    (fetchU s.mem base 0 3 ≠ 0 → takeHeader base s = none) ∧
    (fetchU s.mem base 0 3 = 0 →
      let f := s.font
      takeHeader base s = some
        ({ gw := fetchU s.mem base 3 f.bw.toNat
           gh := fetchU s.mem base (3 + f.bw.toNat : Nat) f.bh.toNat
           xo := fetchS s.mem base (3 + f.bw.toNat + f.bh.toNat : Nat) f.bxo.toNat
           yo := fetchS s.mem base (3 + f.bw.toNat + f.bh.toNat + f.bxo.toNat : Nat) f.byo.toNat
           adv := fetchU s.mem base (3 + f.bw.toNat + f.bh.toNat + f.bxo.toNat + f.byo.toNat : Nat) f.bdelta.toNat },
         { s with
           bitcur := BitVec.ofNat 32 (3 + f.bw.toNat + f.bh.toNat + f.bxo.toNat + f.byo.toNat + f.bdelta.toNat) }))

/-- R251: each row group of a 1-bit glyph is what the stream says at the group's cursor: a prefix bit 0 gives one row, a prefix bit 1 a
3-bit field plus 2, never past the glyph's height; then the pattern's bits; the next group's cursor follows them. The groups follow one
another from row 0 and cover exactly `gh` rows, and they are the groups a 1-bit glyph is drawn from, decoded from BITCUR (R40). -/
def Obligations.RowGroupsCoverGlyph : Prop :=
  (∀ (m : Memory) (base : Word) (gw gh k : Nat),
    let d := decodeGroups m base gw gh gh 0 k
    (∀ g ∈ d.1, 1 ≤ g.cnt ∧ g.cnt ≤ 9 ∧ g.pat.length = gw) ∧
    (∀ n (hn : n < d.1.length), d.1[n].r0 = ((d.1.take n).map fun g => g.cnt).sum) ∧
    (d.1.map fun g => g.cnt).sum = gh ∧ k ≤ d.2 ∧ (0 < gh → k < d.2) ∧
    ∃ cursor : Nat → Nat, cursor 0 = k ∧ cursor d.1.length = d.2 ∧
      ∀ n (hn : n < d.1.length),
        let repeated := fetchBit m base (cursor n)
        let start := cursor n + (if repeated = true then 4 else 1)
        d.1[n].cnt = min (if repeated = true then fetchU m base (cursor n + 1 : Nat) 3 + 2 else 1) (gh - d.1[n].r0) ∧
        d.1[n].pat = (List.range gw).map (fun i => fetchBit m base (start + i : Nat)) ∧
        cursor (n + 1) = start + gw) ∧
  ∀ (base : Word) (g : GlyphHeader) (s : State), s.font.bpp = 1#8 →
    let d := decodeGroups s.mem base g.gw g.gh g.gh 0 s.bitcur.toNat
    (takePixels base g s).1.groups = d.1 ∧
    ∃ u, (takePixels base g s).2 = { s with bitcur := u } ∧ (d.2 < 2 ^ 32 → u.toNat = d.2)

/-- R251, R252: the levels of a glyph. One bit deep: the pattern of the row's group. Deeper: the N-bit field of the pixel, rows without
padding after one byte alignment. Outside the glyph: 0. -/
def Obligations.GlyphLevels : Prop :=
  ∀ (base : Word) (g : GlyphHeader) (s : State),
    let p := (takePixels base g s).1
    (∀ i r : Int, ¬ (0 ≤ i ∧ i < g.gw ∧ 0 ≤ r ∧ r < g.gh) → level p i r = 0) ∧
    (s.font.bpp = 1#8 → ∀ q ∈ p.groups, ∀ i r : Nat, i < g.gw → q.r0 ≤ r → r < q.r0 + q.cnt →
      level p i r = (q.pat[i]?.getD false).toNat) ∧
    (s.font.bpp ≠ 1#8 → ∀ i r : Nat, i < g.gw → r < g.gh → level p i r =
      fetchU s.mem base ((alignUp8 s.bitcur.toNat + (r * g.gw + i) * s.font.bpp.toNat : Nat) : Int) s.font.bpp.toNat)

/-- R262, R41: ScrollUp in shadow mode moves the raw pixels of every row of the region up by `n` where both ends are visible, fills the
revealed band with BG, and changes nothing else. That the moved pixels stay raw at DEPTH 32 too, although R156 names ScrollUp among the
ways by which a pixel passes FromFB, is the model's deduction from R262's "raw pixels, no conversion" and R41 (entry 27). In direct mode each such row is asked of the sink and sent, as answered, in one session to the row `n` above,
rows ascending, and then the band is drawn in BG; the scripted answers come first (entry 4). -/
def Obligations.ScrollUpMovesRows : Prop :=
  ∀ (n : Int) (s : State), LegalState s →
    let sx := s16 s.text.scrollX + s16 s.canvas.originX
    let sy := s16 s.text.scrollY + s16 s.canvas.originY
    let sw := s16 s.text.scrollW
    let sh := s16 s.text.scrollH
    let x0 := max sx (s16 s.canvas.clipX1)
    let x1 := min (sx + sw) (s16 s.canvas.clipX2)
    let rows := (intRange (sy + n) (sy + sh)).filter fun y =>
      decide (x0 < x1 ∧ InClip s.canvas x0 y ∧ InClip s.canvas x0 (y - n))
    (n ≤ 0 → scrollUp n s = s) ∧
    (0 < n → s.fb.en = true →
      scrollUp n s =
        { s with mem := (scrollUp n s).mem, dirty := (scrollUp n s).dirty, linebuf := (scrollUp n s).linebuf } ∧
      ShadowEffect s (scrollUp n s)
        (fun px py => sx ≤ px ∧ px < sx + sw ∧ sy ≤ py ∧ py < sy + sh ∧ InClip s.canvas px py ∧
          (py + n < sy + sh → InClip s.canvas px (py + n)))
        (fun px py => if py + n < sy + sh then fbRead s px (py + n)
          else toFB s.params.depth s.text.bg)) ∧
    (0 < n → s.fb.en = false →
      ∃ answers : List (List Half), answers.length = rows.length ∧
        (∀ a ∈ answers, (a.length : Int) = x1 - x0) ∧
        (∀ k, k < answers.flatten.length → k < s.env.pixels.length → answers.flatten[k]? = s.env.pixels[k]?) ∧
        ∃ u, u = { s with
            trace := s.trace ++ (rows.zip answers).flatMap fun p =>
              .readRect (wrap16 x0) (wrap16 p.1) (wrap16 (x1 - x0)) 1#16 p.2 ::
                session x0 (p.1 - n) (x1 - 1) (p.1 - n) p.2
            env := u.env, linebuf := u.linebuf } ∧
          Draws u (scrollUp n s) (s16 s.text.scrollX) (s16 s.text.scrollY + max (sh - n) 0) sw (min n sh)
            fun _ _ => s.text.bg)

/-- R263, R282, R285: where a fixed character stands after at most one wrap and one scroll, the scroll being ScrollUp of the cell's height;
where it leaves the cursor, and what else it writes: pixels, and LAST_VALID cleared. That the hidden state is shown as 0 and empty is the model's choice (entry 12). -/
def Obligations.FixedCharacterCursor : Prop :=
  ∀ (code : Half) (s : State), s.text.fontKind ≠ .scalableFont → code.toNat ≤ 255 → Mapped (.drawchar code) s →
    let cw : Int := 6 * s.text.tsizeX.toNat
    let ch : Int := 8 * s.text.tsizeY.toNat
    let limit : Int := if s.text.scrollEn then s16 s.text.scrollX + s16 s.text.scrollW else s.canvas.width.toNat
    let wraps := s.text.wrap = true ∧ limit < s16 s.text.cursorX + cw
    let x1 := if wraps then (if s.text.scrollEn then s16 s.text.scrollX else 0) else s16 s.text.cursorX
    let y1 := if wraps then s16 s.text.cursorY + ch else s16 s.text.cursorY
    let scrolls := s.text.scrollEn = true ∧ s16 s.text.scrollY + s16 s.text.scrollH < y1 + ch
    let cx := if scrolls then s16 s.text.scrollX else x1
    let cy := if scrolls then y1 - ch else y1
    (fixedPlacement s).1 = { cx := cx, cy := cy, moved := decide (wraps ∨ scrolls) } ∧
    (fixedPlacement s).2 = (if scrolls then scrollUp ch s else s) ∧
    ∃ t, exec (.drawchar code) s = .next t ∧
      t = { s with
        mem := t.mem, dirty := t.dirty, trace := t.trace, env := t.env, bitcur := 0#32, linebuf := []
        last := { s.last with valid := false }
        text := { s.text with cursorX := wrap16 (cx + cw), cursorY := wrap16 cy } }

/-- R281, R284: a fixed character drawn opaque is one drawing of its 6 by 8 cell, FG where a bit is set and BG elsewhere, on the state
after wrap and scroll; the column bytes are those fetched before. -/
def Obligations.FixedCharacterOpaque : Prop :=
  ∀ (code : Half) (s : State), LegalState s → s.text.fontKind ≠ .scalableFont → code.toNat ≤ 255 → s.text.fg ≠ s.text.bg →
    Mapped (.drawchar code) s →
    let p := fixedPlacement s
    ∃ t u, exec (.drawchar code) s = .next t ∧
      Draws p.2 u p.1.cx p.1.cy (6 * (s.text.tsizeX.toNat : Int)) (8 * (s.text.tsizeY.toNat : Int))
        (fun lx ly => if fixedBitAt s code.toNat p.1.cx p.1.cy lx ly then s.text.fg else s.text.bg) ∧
      t.mem = u.mem ∧ t.dirty = u.dirty ∧ t.trace = u.trace ∧ t.env = u.env

/-- R281, R283: a fixed character drawn transparent paints FG on exactly the visible pixels under a set bit, on the state after wrap and
scroll, in the shadow buffer or on the display. -/
def Obligations.FixedCharacterTransparent : Prop :=
  ∀ (code : Half) (s : State), LegalState s → s.text.fontKind ≠ .scalableFont → code.toNat ≤ 255 →
    s.text.fg = s.text.bg → Mapped (.drawchar code) s →
    let p := fixedPlacement s
    ∃ t, exec (.drawchar code) s = .next t ∧
      PaintsPixels p.2 t
        (fun px py => InClip s.canvas px py ∧
          fixedBitAt s code.toNat p.1.cx p.1.cy (px - s16 s.canvas.originX) (py - s16 s.canvas.originY) = true)
        (fun _ _ => s.text.fg)

/-- R245 to R249, R263, R268: a glyph is the record looked up, its header read, placed by at most one wrap and one scroll, the scroll being
ScrollUp of the line height, its pixels decoded after that; where it leaves the cursor, the overlap bookkeeping it records (opaque) or
clears (transparent), and that it writes nothing else but pixels (entry 12 for the hidden state). -/
def Obligations.GlyphCursorAndBookkeeping : Prop :=
  ∀ (code : Half) (s : State) (q : GlyphScene), s.text.fontKind = .scalableFont → glyphScene code.toNat s = some q →
    Mapped (.drawchar code) s →
    let line : Int := s.font.lspace.toNat
    let limit : Int := if s.text.scrollEn then s16 s.text.scrollX + s16 s.text.scrollW else s.canvas.width.toNat
    let wraps := s.text.wrap = true ∧ limit < s16 s.text.cursorX + q.g.xo + q.g.gw
    let x1 := if wraps then (if s.text.scrollEn then s16 s.text.scrollX else 0) else s16 s.text.cursorX
    let y1 := if wraps then s16 s.text.cursorY + line else s16 s.text.cursorY
    let scrolls := s.text.scrollEn = true ∧ s16 s.text.scrollY + s16 s.text.scrollH < y1 + line
    let cx := if scrolls then s16 s.text.scrollX else x1
    let cy := if scrolls then y1 - line else y1
    let read := { s with bitcur := q.before.bitcur }
    (∃ base, glyphAddr s.font s.mem code.toNat = some base ∧ takeHeader base s = some (q.g, read) ∧
      q.pixels = (takePixels base q.g q.before).1) ∧
    q.pen = { cx := cx, cy := cy, moved := decide (wraps ∨ scrolls) } ∧
    q.before = (if scrolls then scrollUp line read else read) ∧
    ∃ t, exec (.drawchar code) s = .next t ∧
      t = { s with
        mem := t.mem, dirty := t.dirty, trace := t.trace, env := t.env, bitcur := 0#32, linebuf := []
        text := { s.text with cursorX := wrap16 (cx + q.g.adv), cursorY := wrap16 cy }
        last :=
          if s.text.fg = s.text.bg then { s.last with valid := false }
          else { valid := true, cx := wrap16 (cx + q.g.adv), cy := wrap16 cy, fg := s.text.fg, bg := s.text.bg
                 xr := wrap32 (max (cx + q.g.adv) (cx + q.g.xo + q.g.gw) - 1) } }

/-- R259 to R261: a glyph drawn opaque paints its box, in the shadow buffer or on the display: FG and BG, or the blend by level, and BG
outside the bitmap; in the columns the previous glyph painted (same cursor, same colours, no wrap or scroll) only its own inked pixels.
Where no column is shared the box is one drawing. That the levels are those decoded before anything of the glyph is drawn, which tells
only where glyph data lie over the shadow buffer, is the model's choice (entry 13). -/
def Obligations.GlyphOpaque : Prop :=
  ∀ (code : Half) (s : State) (q : GlyphScene), LegalState s → s.text.fontKind = .scalableFont →
    glyphScene code.toNat s = some q → s.text.fg ≠ s.text.bg → Mapped (.drawchar code) s →
    let ox := q.ox
    let oy := q.oy s.font
    let x0 := min ox q.pen.cx
    let x1 := max (q.pen.cx + q.g.adv) (ox + q.g.gw)
    let y0 := min oy q.pen.cy
    let y1 := max (q.pen.cy + s.font.lspace.toNat) (oy + q.g.gh)
    let overlap := s.last.valid = true ∧ s.last.cx = s.text.cursorX ∧ s.last.cy = s.text.cursorY ∧ s.last.fg = s.text.fg ∧
      s.last.bg = s.text.bg ∧ q.pen.moved = false
    let colour := fun lx ly : Int =>
      if 0 ≤ lx - ox ∧ lx - ox < q.g.gw ∧ 0 ≤ ly - oy ∧ ly - oy < q.g.gh then
        if s.font.bpp = 1#8 then (if level q.pixels (lx - ox) (ly - oy) = 1 then s.text.fg else s.text.bg)
        else blend s.text.fg s.text.bg (level q.pixels (lx - ox) (ly - oy) * s.font.alphamx.toNat)
      else s.text.bg
    ∃ t, exec (.drawchar code) s = .next t ∧
      PaintsPixels q.before t
        (fun px py =>
          let lx := px - s16 s.canvas.originX
          let ly := py - s16 s.canvas.originY
          InClip s.canvas px py ∧ x0 ≤ lx ∧ lx < x1 ∧ y0 ≤ ly ∧ ly < y1 ∧
          (overlap → lx ≤ s.last.xr.toInt → level q.pixels (lx - ox) (ly - oy) ≠ 0))
        (fun px py => colour (px - s16 s.canvas.originX) (py - s16 s.canvas.originY)) ∧
      (¬ (overlap ∧ x0 ≤ s.last.xr.toInt) → ∃ u, Draws q.before u x0 y0 (x1 - x0) (y1 - y0) colour ∧
        t.mem = u.mem ∧ t.dirty = u.dirty ∧ t.trace = u.trace ∧ t.env = u.env)

/-- R257, R258: a glyph drawn transparent paints FG on exactly the visible pixels that are set (1 bit), or whose level reaches
AA_THRESHOLD, in the shadow buffer or on the display. That the levels are those decoded before anything of the glyph is drawn, which
tells only where glyph data lie over the shadow buffer, is the model's choice (entry 13). -/
def Obligations.GlyphTransparent : Prop :=
  ∀ (code : Half) (s : State) (q : GlyphScene), LegalState s → s.text.fontKind = .scalableFont →
    glyphScene code.toNat s = some q → s.text.fg = s.text.bg → Mapped (.drawchar code) s →
    ∃ t, exec (.drawchar code) s = .next t ∧
      PaintsPixels q.before t
        (fun px py => InClip s.canvas px py ∧
          (if s.font.bpp = 1#8 then 1 else aaThreshold s.params s.font.bpp.toNat) ≤
            level q.pixels (px - s16 s.canvas.originX - q.ox) (py - s16 s.canvas.originY - q.oy s.font))
        (fun _ _ => s.text.fg)

/-! ## Single accesses -/

/-- R78, R111, R330: the accesses listed for a command, replayed one after another, leave `Mem`, the trace, the answers and the transfer as
the command leaves them; so a reset after the last access of a step is a reset after the step. The lists of accesses, and that a reset
lands between two of them, are the model's deduction (entry 17). -/
def Obligations.EventsReplayCommand : Prop :=
  (∀ (i : Instr) (s t : State), exec i s = .next t → SameOutside (replay (commandEvents i s) s) t) ∧
  ∀ (s t : State) (k : Nat), step s = .next t → (stepEvents s).length ≤ k → assertResetDuring k s = assertReset t
end

