-- ==== Sys2Proof/Laws/Geometry.lean ====
section
/-! SUPPORT. Laws of the integer notation, of index ranges and of the clip engine (00_scope.md R9, R14; 40_clip_and_common.md R151
to R153). -/

namespace Sys2Proof.Machine

/-! ## Fields and registers -/

theorem s16_bounds (v : Half) : -32768 ≤ s16 v ∧ s16 v ≤ 32767 := by
  unfold s16
  have := BitVec.toInt_lt (x := v)
  have := BitVec.le_toInt v
  constructor <;> omega

theorem u16_bounds (v : Half) : 0 ≤ u16 v ∧ u16 v < 65536 := by
  unfold u16
  have := v.isLt
  omega

/-- A value in the signed range is read back as it was stored. -/
theorem s16_wrap16 {n : Int} (h0 : -32768 ≤ n) (h1 : n ≤ 32767) : s16 (wrap16 n) = n := by
  simp only [s16, wrap16, BitVec.toInt_ofInt, Int.bmod]
  split <;> omega

@[simp] theorem wrap16_s16 (v : Half) : wrap16 (s16 v) = v := by simp [wrap16, s16]

theorem s16_eq_u16 {v : Half} (h : v.toNat < 32768) : s16 v = u16 v := by
  simp only [s16, u16, BitVec.toInt]; split <;> omega

theorem s16_inj {v w : Half} (h : s16 v = s16 w) : v = w := BitVec.eq_of_toInt_eq h

/-- Two 32-bit addresses apart by `a - b`, modulo 2^32. -/
theorem toNat_wrap32_sub (a b : Int) : ((wrap32 a - wrap32 b).toNat : Int) = (a - b) % 2 ^ 32 := by
  simp only [wrap32, BitVec.toNat_sub, BitVec.toNat_ofInt]
  omega

theorem wrap32_add (a b : Int) : wrap32 (a + b) = wrap32 a + wrap32 b := by simp [wrap32, BitVec.ofInt_add]

@[simp] theorem wrap32_toNat (w : Word) : wrap32 (w.toNat : Int) = w := by simp [wrap32]

/-! ## Ranges and rectangles -/

@[simp] theorem mem_intRange (a b n : Int) : n ∈ intRange a b ↔ a ≤ n ∧ n < b := by
  simp only [intRange, List.mem_map, List.mem_range]
  constructor
  · rintro ⟨k, hk, rfl⟩; omega
  · rintro ⟨h1, h2⟩; exact ⟨(n - a).toNat, by omega, by omega⟩

@[simp] theorem length_intRange (a b : Int) : (intRange a b).length = (b - a).toNat := by simp [intRange]

theorem getElem?_intRange {a b : Int} {k : Nat} (h : k < (b - a).toNat) : (intRange a b)[k]? = some (a + k) := by
  simp [intRange, List.getElem?_range h]

theorem intRange_nodup (a b : Int) : (intRange a b).Nodup := by
  simp only [intRange]
  exact List.nodup_range.map fun i j h => by simpa using h

/-- Row-major enumeration meets exactly the points of the rectangle. -/
@[simp] theorem mem_rectPoints (x0 y0 x1 y1 : Int) (p : Int × Int) :
    p ∈ rectPoints x0 y0 x1 y1 ↔ x0 ≤ p.1 ∧ p.1 < x1 ∧ y0 ≤ p.2 ∧ p.2 < y1 := by
  obtain ⟨x, y⟩ := p
  simp only [rectPoints, List.mem_flatMap, List.mem_map, mem_intRange, Prod.mk.injEq]
  constructor
  · rintro ⟨b, hb, a, ha, rfl, rfl⟩; exact ⟨ha.1, ha.2, hb.1, hb.2⟩
  · rintro ⟨h1, h2, h3, h4⟩; exact ⟨y, ⟨h3, h4⟩, x, ⟨h1, h2⟩, rfl, rfl⟩

/-- A list of rows, all of one length, flattened. -/
theorem getElem?_flatMap_rows {α β : Type} (f : α → List β) (n : Nat) :
    ∀ (l : List α), (∀ a ∈ l, (f a).length = n) → ∀ i j : Nat, i < n →
      (l.flatMap f)[j * n + i]? = (l[j]?).bind fun a => (f a)[i]?
  | [], _, i, j, _ => by simp
  | a :: l, h, i, 0, hi => by
      have ha : (f a).length = n := h a (by simp)
      simp [List.getElem?_append_left, ha, hi]
  | a :: l, h, i, j + 1, hi => by
      have ha : (f a).length = n := h a (by simp)
      have := getElem?_flatMap_rows f n l (fun b hb => h b (by simp [hb])) i j hi
      rw [List.flatMap_cons, List.getElem?_append_right (by rw [ha]; nlinarith)]
      rw [ha, show (j + 1) * n + i - n = j * n + i by rw [Nat.succ_mul]; omega, this]
      simp

theorem length_flatMap_rows {α β : Type} (f : α → List β) (n : Nat) (l : List α) (h : ∀ a ∈ l, (f a).length = n) :
    (l.flatMap f).length = l.length * n := by
  induction l with
  | nil => simp
  | cons a l ih => simp [h a (by simp), ih fun b hb => h b (by simp [hb]), Nat.succ_mul]; omega

theorem length_rectPoints (x0 y0 x1 y1 : Int) :
    (rectPoints x0 y0 x1 y1).length = (y1 - y0).toNat * (x1 - x0).toNat := by
  rw [rectPoints, length_flatMap_rows _ (x1 - x0).toNat _ (by simp)]
  simp

/-- The point of column `i`, row `j` stands at position `j * width + i`. -/
theorem getElem?_rectPoints {x0 y0 x1 y1 : Int} {i j : Nat} (hi : (i : Int) < x1 - x0) (hj : (j : Int) < y1 - y0) :
    (rectPoints x0 y0 x1 y1)[j * (x1 - x0).toNat + i]? = some (x0 + i, y0 + j) := by
  rw [rectPoints, getElem?_flatMap_rows _ (x1 - x0).toNat _ (by simp) i j (by omega),
    getElem?_intRange (by omega)]
  simp [getElem?_intRange (show i < (x1 - x0).toNat by omega)]

/-! ## The clip engine -/

/-- What a visible rectangle is (R151). -/
theorem clip_some {c : Canvas} {x y w h : Int} {v : Vis} (hv : clip c x y w h = some v) :
    0 < w ∧ 0 < h ∧ v.X = x + s16 c.originX ∧ v.Y = y + s16 c.originY ∧
    v.vx0 = max v.X (s16 c.clipX1) ∧ v.vx1 = min (v.X + w) (s16 c.clipX2) ∧
    v.vy0 = max v.Y (s16 c.clipY1) ∧ v.vy1 = min (v.Y + h) (s16 c.clipY2) ∧ v.vx0 < v.vx1 ∧ v.vy0 < v.vy1 := by
  unfold clip at hv
  dsimp only at hv
  split at hv
  · cases hv
  · split at hv
    · cases hv
    · simp only [Option.some.injEq] at hv
      subst hv
      simp only [true_and]
      omega

/-- The points of the visible rectangle are the visible points (R162 (a)). -/
theorem clip_some_iff_visible {c : Canvas} {x y w h : Int} {v : Vis} (hv : clip c x y w h = some v) (px py : Int) :
    (v.vx0 ≤ px ∧ px < v.vx1 ∧ v.vy0 ≤ py ∧ py < v.vy1) ↔ Visible c x y w h px py := by
  obtain ⟨-, -, h1, h2, h3, h4, h5, h6, -, -⟩ := clip_some hv
  rw [h3, h4, h5, h6, h1, h2]
  simp only [Visible, InClip]
  omega

/-- NONE is answered exactly when no point is visible (R151, R153 (a)). -/
theorem clip_none {c : Canvas} {x y w h : Int} (hv : clip c x y w h = none) (px py : Int) : ¬ Visible c x y w h px py := by
  unfold clip at hv
  dsimp only at hv
  split at hv
  · simp only [Visible]; omega
  · split at hv
    · rename_i h1 h2
      simp only [Visible, InClip]
      omega
    · cases hv

/-- A point inside the clip bounds is on the canvas (R153 (c)). -/
theorem onCanvas_of_inClip {c : Canvas} (hc : CanvasOk c) {px py : Int} (h : InClip c px py) : OnCanvas c px py := by
  obtain ⟨-, -, h1, h2, h3, h4, h5, h6⟩ := hc
  obtain ⟨h7, h8, h9, h10⟩ := h
  exact ⟨by omega, by omega, by omega, by omega⟩

theorem onCanvas_of_visible {c : Canvas} (hc : CanvasOk c) {x y w h px py : Int} (hv : Visible c x y w h px py) :
    OnCanvas c px py :=
  onCanvas_of_inClip hc hv.2.2.2.2

/-- The corners of a visible rectangle are on the canvas and fit a signed 16-bit register (R91, R153 (c)). -/
theorem clip_corners {c : Canvas} (hc : CanvasOk c) {x y w h : Int} {v : Vis} (hv : clip c x y w h = some v) :
    0 ≤ v.vx0 ∧ v.vx0 < v.vx1 ∧ v.vx1 ≤ u16 c.width ∧ 0 ≤ v.vy0 ∧ v.vy0 < v.vy1 ∧ v.vy1 ≤ u16 c.height ∧
    u16 c.width < 32768 ∧ u16 c.height < 32768 := by
  obtain ⟨-, -, -, -, h3, h4, h5, h6, h7, h8⟩ := clip_some hv
  obtain ⟨g0, g00, g1, g2, g3, g4, g5, g6⟩ := hc
  simp only [u16] at *
  omega

/-- The element number of a visible pixel lies inside the pre-clip array (R151, R152). -/
theorem srcIndex_bounds {c : Canvas} {x y w h : Int} {v : Vis} (hv : clip c x y w h = some v) {px py : Int}
    (hx : v.vx0 ≤ px ∧ px < v.vx1) (hy : v.vy0 ≤ py ∧ py < v.vy1) : 0 ≤ srcIndex v w px py ∧ srcIndex v w px py < w * h := by
  obtain ⟨hw, hh, -, -, h3, h4, h5, h6, -, -⟩ := clip_some hv
  have h1 : v.X ≤ px ∧ px < v.X + w := by omega
  have h2 : v.Y ≤ py ∧ py < v.Y + h := by omega
  unfold srcIndex
  constructor
  · have := Int.mul_nonneg (show 0 ≤ py - v.Y by omega) (le_of_lt hw); omega
  · have := Int.mul_le_mul_of_nonneg_right (show py - v.Y ≤ h - 1 by omega) (le_of_lt hw)
    have : (h - 1) * w = w * h - w := by ring
    omega

/-- Different pixels have different element numbers. -/
theorem srcIndex_inj {c : Canvas} {x y w h : Int} {v : Vis} (hv : clip c x y w h = some v) {px py qx qy : Int}
    (hx : v.vx0 ≤ px ∧ px < v.vx1) (hx' : v.vx0 ≤ qx ∧ qx < v.vx1)
    (he : srcIndex v w px py = srcIndex v w qx qy) : px = qx ∧ py = qy := by
  obtain ⟨hw, hh, -, -, h3, h4, h5, h6, -, -⟩ := clip_some hv
  unfold srcIndex at he
  have h1 : 0 ≤ px - v.X ∧ px - v.X < w := by omega
  have h2 : 0 ≤ qx - v.X ∧ qx - v.X < w := by omega
  have hy : py = qy := by
    by_contra hne
    rcases lt_or_gt_of_ne hne with hlt | hlt
    · have := Int.mul_le_mul_of_nonneg_right (show py - v.Y + 1 ≤ qy - v.Y by omega) (le_of_lt hw)
      rw [Int.add_mul] at this; omega
    · have := Int.mul_le_mul_of_nonneg_right (show qy - v.Y + 1 ≤ py - v.Y by omega) (le_of_lt hw)
      rw [Int.add_mul] at this; omega
  subst hy
  omega

end Sys2Proof.Machine
end

