-- ==== Sys2Proof/Laws/Memory.lean ====
section
/-! SUPPORT. The laws of host memory: a read after a write, a write elsewhere, the canonical form (20_memory.md R71, R72, R80). -/

namespace Sys2Proof.Machine

/-! ## Insertion into the list -/

theorem Memory.find_insert_self (m : Memory) (a : Nat) (b : Byte) : Memory.find (Memory.insert m a b) a = some b := by
  induction m with
  | nil => simp [Memory.insert, Memory.find]
  | cons c rest ih =>
    unfold Memory.insert
    split
    · simp [Memory.find]
    · split
      · simp [Memory.find]
      · rename_i h; simp [Memory.find, ih, Ne.symm h]

theorem Memory.find_insert_of_ne (m : Memory) {a a' : Nat} (b : Byte) (h : a' ≠ a) :
    Memory.find (Memory.insert m a b) a' = Memory.find m a' := by
  induction m with
  | nil => simp [Memory.insert, Memory.find, Ne.symm h]
  | cons c rest ih =>
    unfold Memory.insert
    split
    · simp [Memory.find, Ne.symm h]
    · split
      · rename_i h2; subst h2; simp [Memory.find, Ne.symm h]
      · simp [Memory.find, ih]

/-- Writing the byte that the list already holds leaves the list as it is, when it is in canonical form. -/
theorem Memory.insert_insert (m : Memory) (a : Nat) (b b' : Byte) :
    Memory.insert (Memory.insert m a b) a b' = Memory.insert m a b' := by
  induction m with
  | nil => simp [Memory.insert]
  | cons c rest ih =>
    by_cases h1 : a < c.1
    · simp [Memory.insert, h1]
    · by_cases h2 : a = c.1
      · simp [Memory.insert, h2]
      · simp [Memory.insert, h1, h2, ih]

theorem Memory.insert_of_find (m : Memory) (hm : Memory.wf m = true) {a : Nat} {b : Byte} (h : Memory.find m a = some b) :
    Memory.insert m a b = m := by
  induction m with
  | nil => simp [Memory.find] at h
  | cons c rest ih =>
    by_cases hc : c.1 = a
    · subst hc
      simp only [Memory.find, if_true, Option.some.injEq] at h
      simp [Memory.insert, ← h]
    · simp only [Memory.find, if_neg hc] at h
      have hw : Memory.wf rest = true := by
        cases rest with
        | nil => rfl
        | cons d r => simp only [Memory.wf, Bool.and_eq_true] at hm; exact hm.2
      have hlt : ¬ a < c.1 := by
        intro hlt
        have : ∀ (l : Memory) (c : Host.Cell), Memory.wf (c :: l) = true → a < c.1 → Memory.find l a = none := by
          intro l
          induction l with
          | nil => intros; rfl
          | cons d r ihl =>
            intro c hw hl
            simp only [Memory.wf, Bool.and_eq_true, decide_eq_true_eq] at hw
            have : d.1 ≠ a := by omega
            simp only [Memory.find, if_neg this]
            exact ihl d hw.2 (by omega)
        rw [this rest c hm hlt] at h
        cases h
      simp [Memory.insert, hlt, Ne.symm hc, ih hw h]

/-! ## The canonical form -/

theorem Memory.wf_cons_iff (c : Host.Cell) (rest : Memory) :
    Memory.wf (c :: rest) = true ↔ c.1 < 2 ^ 32 ∧ (∀ d ∈ rest, c.1 < d.1) ∧ Memory.wf rest = true := by
  induction rest generalizing c with
  | nil => simp [Memory.wf]
  | cons d r ih =>
    simp only [Memory.wf, Bool.and_eq_true, decide_eq_true_eq, List.mem_cons, forall_eq_or_imp]
    constructor
    · rintro ⟨h1, h2⟩
      have h3 := (ih d).1 h2
      refine ⟨by omega, ⟨h1, fun e he => ?_⟩, h2⟩
      have := h3.2.1 e he
      omega
    · rintro ⟨-, ⟨h1, -⟩, h2⟩
      exact ⟨h1, h2⟩

theorem Memory.mem_insert {m : Memory} {a : Nat} {b : Byte} {d : Host.Cell} (h : d ∈ Memory.insert m a b) :
    d.1 = a ∨ d ∈ m := by
  induction m with
  | nil => simp [Memory.insert] at h; exact .inl (by rw [h])
  | cons c rest ih =>
    unfold Memory.insert at h
    split at h
    · rcases List.mem_cons.1 h with h | h
      · exact .inl (by rw [h])
      · exact .inr h
    · split at h
      · rcases List.mem_cons.1 h with h | h
        · exact .inl (by rw [h])
        · exact .inr (List.mem_cons_of_mem _ h)
      · rcases List.mem_cons.1 h with h | h
        · exact .inr (h ▸ List.mem_cons_self)
        · rcases ih h with h | h
          · exact .inl h
          · exact .inr (List.mem_cons_of_mem _ h)

theorem Memory.wf_insert {m : Memory} (hm : Memory.wf m = true) {a : Nat} (ha : a < 2 ^ 32) (b : Byte) :
    Memory.wf (Memory.insert m a b) = true := by
  induction m with
  | nil => simpa [Memory.insert, Memory.wf] using ha
  | cons c rest ih =>
    have hc := (Memory.wf_cons_iff c rest).1 hm
    unfold Memory.insert
    split
    · rename_i h
      refine (Memory.wf_cons_iff _ _).2 ⟨ha, fun d hd => ?_, hm⟩
      rcases List.mem_cons.1 hd with hd | hd
      · simpa [hd] using h
      · have := hc.2.1 d hd
        simp only; omega
    · split
      · rename_i h
        exact (Memory.wf_cons_iff _ _).2 ⟨ha, fun d hd => by simpa [h] using hc.2.1 d hd, hc.2.2⟩
      · refine (Memory.wf_cons_iff _ _).2 ⟨hc.1, fun d hd => ?_, ih hc.2.2⟩
        rcases Memory.mem_insert hd with hd | hd
        · omega
        · exact hc.2.1 d hd

/-- Every write keeps the canonical form. -/
theorem Memory.wf_write {m : Memory} (hm : Memory.wf m = true) (a : Word) (b : Byte) : Memory.wf (Memory.write m a b) = true :=
  Memory.wf_insert hm a.isLt b

theorem Memory.wf_write16 {m : Memory} (hm : Memory.wf m = true) (a : Word) (v : Half) :
    Memory.wf (Memory.write16 m a v) = true :=
  Memory.wf_write (Memory.wf_write hm _ _) _ _

theorem Memory.wf_write32 {m : Memory} (hm : Memory.wf m = true) (a : Word) (v : Word) :
    Memory.wf (Memory.write32 m a v) = true :=
  Memory.wf_write (Memory.wf_write (Memory.wf_write (Memory.wf_write hm _ _) _ _) _ _) _ _

theorem Memory.wf_writePixelAt {m : Memory} (hm : Memory.wf m = true) (d : Depth) (a : Word) (v : Word) :
    Memory.wf (writePixelAt d m a v) = true := by
  cases d
  · exact Memory.wf_write16 hm _ _
  · exact Memory.wf_write32 hm _ _

theorem Memory.wf_writeBytes (bs : List Byte) {m : Memory} (hm : Memory.wf m = true) (a : Word) :
    Memory.wf (Memory.writeBytes m a bs) = true := by
  induction bs generalizing m a with
  | nil => exact hm
  | cons b bs ih => exact ih (Memory.wf_write hm a b) _

/-! ## A value and its bytes -/

theorem halves_append (v : Half) : v.extractLsb' 8 8 ++ v.extractLsb' 0 8 = v := by
  ext i hi
  simp only [BitVec.getElem_append, BitVec.getElem_extractLsb']
  split <;> rw [← BitVec.getLsbD_eq_getElem] <;> congr 1 <;> omega

theorem quarters_append (v : Word) :
    v.extractLsb' 24 8 ++ v.extractLsb' 16 8 ++ v.extractLsb' 8 8 ++ v.extractLsb' 0 8 = v := by
  ext i hi
  simp only [BitVec.getElem_append, BitVec.getElem_extractLsb']
  split
  · rw [← BitVec.getLsbD_eq_getElem]; congr 1; omega
  · split
    · rw [← BitVec.getLsbD_eq_getElem]; congr 1; omega
    · split <;> rw [← BitVec.getLsbD_eq_getElem] <;> congr 1 <;> omega

/-! ## Reads after writes -/

@[simp] theorem Memory.read_write_self (m : Memory) (a : Word) (b : Byte) : Memory.read (Memory.write m a b) a = b := by
  simp [Memory.read, Memory.write, Memory.find_insert_self]

theorem Memory.read_write_of_ne (m : Memory) {a a' : Word} (b : Byte) (h : a' ≠ a) :
    Memory.read (Memory.write m a b) a' = Memory.read m a' := by
  have : a'.toNat ≠ a.toNat := fun e => h (BitVec.eq_of_toNat_eq e)
  simp [Memory.read, Memory.write, Memory.find_insert_of_ne _ _ this]

theorem Memory.read_write (m : Memory) (a a' : Word) (b : Byte) :
    Memory.read (Memory.write m a b) a' = if a' = a then b else Memory.read m a' := by
  split
  · rename_i h; subst h; exact Memory.read_write_self _ _ _
  · rename_i h; exact Memory.read_write_of_ne _ _ h

/-- A byte outside the two stored bytes is unchanged. -/
theorem Memory.read_write16_of_out (m : Memory) {a a' : Word} (v : Half) (h : 2 ≤ (a' - a).toNat) :
    Memory.read (Memory.write16 m a v) a' = Memory.read m a' := by
  have h0 : a' ≠ a := by rintro rfl; simp at h
  have h1 : a' ≠ a + 1 := by rintro rfl; simp at h
  simp only [Memory.write16, Memory.read_write, if_neg h0, if_neg h1]

theorem Memory.read_write32_of_out (m : Memory) {a a' : Word} (v : Word) (h : 4 ≤ (a' - a).toNat) :
    Memory.read (Memory.write32 m a v) a' = Memory.read m a' := by
  have h0 : a' ≠ a := by rintro rfl; simp at h
  have h1 : a' ≠ a + 1 := by rintro rfl; simp at h
  have h2 : a' ≠ a + 2 := by rintro rfl; simp at h
  have h3 : a' ≠ a + 3 := by rintro rfl; simp at h
  simp only [Memory.write32, Memory.read_write, if_neg h0, if_neg h1, if_neg h2, if_neg h3]

theorem Memory.read16_write16_self (m : Memory) (a : Word) (v : Half) : Memory.read16 (Memory.write16 m a v) a = v := by
  have h : a ≠ a + 1 := by
    intro h; have := congrArg (· - a) h; simp at this
  simp only [Memory.read16, Memory.write16, Memory.read_write_self, Memory.read_write, if_neg h]
  exact halves_append v

theorem Memory.read32_write32_self (m : Memory) (a : Word) (v : Word) : Memory.read32 (Memory.write32 m a v) a = v := by
  have h1 : a ≠ a + 1 := by intro h; have := congrArg (· - a) h; simp at this
  have h2 : a ≠ a + 2 := by intro h; have := congrArg (· - a) h; simp at this
  have h3 : a ≠ a + 3 := by intro h; have := congrArg (· - a) h; simp at this
  have h12 : a + 1 ≠ a + 2 := by intro h; have := congrArg (· - a) h; simp at this
  have h13 : a + 1 ≠ a + 3 := by intro h; have := congrArg (· - a) h; simp at this
  have h23 : a + 2 ≠ a + 3 := by intro h; have := congrArg (· - a) h; simp at this
  simp only [Memory.read32, Memory.write32, Memory.read_write, if_neg h1, if_neg h2, if_neg h3, if_neg h12, if_neg h13,
    if_neg h23, if_true]
  exact quarters_append v

/-- A pixel read back where it was written gives the low bits that were stored (R80). -/
theorem readPixelAt_writePixelAt_self (d : Depth) (m : Memory) (a v : Word) :
    readPixelAt d (writePixelAt d m a v) a = match d with
      | .d16 => (v.setWidth 16).setWidth 32
      | .d32 => v := by
  cases d
  · simp [readPixelAt, writePixelAt, Memory.read16_write16_self]
  · simp [readPixelAt, writePixelAt, Memory.read32_write32_self]

/-- A byte outside the pixel is unchanged. -/
theorem read_writePixelAt_of_out (d : Depth) (m : Memory) {a a' : Word} (v : Word)
    (h : bytesPerPixel d ≤ (a' - a).toNat) : Memory.read (writePixelAt d m a v) a' = Memory.read m a' := by
  cases d
  · exact Memory.read_write16_of_out _ _ h
  · exact Memory.read_write32_of_out _ _ h

/-- A 16-bit read depends only on its two bytes. -/
theorem Memory.read16_congr {m m' : Memory} {a : Word} (h : ∀ k < 2, Memory.read m (a + BitVec.ofNat 32 k) = Memory.read m' (a + BitVec.ofNat 32 k)) :
    Memory.read16 m a = Memory.read16 m' a := by
  have h0 := h 0 (by omega)
  have h1 := h 1 (by omega)
  simp only [BitVec.add_zero] at h0 h1
  simp only [Memory.read16, h0, h1, BitVec.ofNat_eq_ofNat]

/-- A pixel read depends only on its bytes. -/
theorem readPixelAt_congr {d : Depth} {m m' : Memory} {a : Word}
    (h : ∀ k < bytesPerPixel d, Memory.read m (a + BitVec.ofNat 32 k) = Memory.read m' (a + BitVec.ofNat 32 k)) :
    readPixelAt d m a = readPixelAt d m' a := by
  cases d
  · simp only [readPixelAt]; rw [Memory.read16_congr h]
  · have h0 := h 0 (by decide)
    have h1 := h 1 (by decide)
    have h2 := h 2 (by decide)
    have h3 := h 3 (by decide)
    simp only [BitVec.add_zero] at h0 h1 h2 h3
    simp only [readPixelAt, Memory.read32, h0, h1, h2, h3, BitVec.ofNat_eq_ofNat]

end Sys2Proof.Machine
end

