-- ==== Sys2Proof/Laws/Pixels.lean ====
section
/-! SUPPORT. Laws of the shadow buffer: its pixels share no byte and lie in its region (20_memory.md R80), and what the shadow-mode loop
of PutWindow stores (40_clip_and_common.md R158). -/

namespace Sys2Proof.Machine

/-! ## Addresses -/

theorem bytesPerPixel_cases (d : Depth) : bytesPerPixel d = 2 ∨ bytesPerPixel d = 4 := by cases d <;> simp [bytesPerPixel]

/-- The distance of an address from a wrapped one. -/
theorem toNat_sub_wrap32 (a : Word) (n : Int) : ((a - wrap32 n).toNat : Int) = (a.toNat - n) % 2 ^ 32 := by
  have := toNat_wrap32_sub a.toNat n
  rwa [wrap32_toNat] at this

/-- The index of a pixel of the canvas is below the number of pixels. -/
theorem pixelIndex_bounds {c : Canvas} {px py : Int} (h : OnCanvas c px py) :
    0 ≤ py * u16 c.width + px ∧ py * u16 c.width + px < u16 c.width * u16 c.height := by
  obtain ⟨h1, h2, h3, h4⟩ := h
  constructor
  · have := Int.mul_nonneg h3 (show 0 ≤ u16 c.width by omega); omega
  · have := Int.mul_le_mul_of_nonneg_right (show py ≤ u16 c.height - 1 by omega) (show 0 ≤ u16 c.width by omega)
    have : (u16 c.height - 1) * u16 c.width = u16 c.width * u16 c.height - u16 c.width := by ring
    omega

theorem pixelIndex_inj {c : Canvas} {px py qx qy : Int} (h : OnCanvas c px py) (h' : OnCanvas c qx qy)
    (he : py * u16 c.width + px = qy * u16 c.width + qx) : px = qx ∧ py = qy := by
  obtain ⟨h1, h2, h3, h4⟩ := h
  obtain ⟨g1, g2, g3, g4⟩ := h'
  have hy : py = qy := by
    by_contra hne
    rcases lt_or_gt_of_ne hne with hlt | hlt
    · have := Int.mul_le_mul_of_nonneg_right (show py + 1 ≤ qy by omega) (show 0 ≤ u16 c.width by omega)
      rw [Int.add_mul] at this; omega
    · have := Int.mul_le_mul_of_nonneg_right (show qy + 1 ≤ py by omega) (show 0 ≤ u16 c.width by omega)
      rw [Int.add_mul] at this; omega
  subst hy
  omega

/-- The number of pixels of a legal canvas. -/
theorem canvas_area {c : Canvas} (hc : CanvasOk c) : 0 ≤ u16 c.width * u16 c.height ∧ u16 c.width * u16 c.height ≤ 1073676289 := by
  obtain ⟨h1, h2, -⟩ := hc
  have hw : 0 ≤ u16 c.width ∧ u16 c.width ≤ 32767 := by simp only [u16]; omega
  have hh : 0 ≤ u16 c.height ∧ u16 c.height ≤ 32767 := by simp only [u16]; omega
  exact ⟨Int.mul_nonneg hw.1 hh.1, by nlinarith⟩

theorem fbSize_eq (s : State) : (fbSize s : Int) = u16 s.canvas.width * u16 s.canvas.height * bytesPerPixel s.params.depth := by
  simp [fbSize, u16]

/-- The shadow buffer is smaller than the address space (R211: "up to 32767*32767*4 < 2^32"). -/
theorem fbSize_lt {s : State} (hc : CanvasOk s.canvas) : fbSize s < 2 ^ 32 - 4 := by
  have h1 := canvas_area hc
  have h2 := fbSize_eq s
  rcases bytesPerPixel_cases s.params.depth with h | h <;> rw [h] at h2 <;> omega

/-- A pixel's bytes lie in the buffer's region. -/
theorem inRegion_of_pixelByte {s : State} (hc : CanvasOk s.canvas) {px py : Int} (hp : OnCanvas s.canvas px py) {a : Word}
    (ha : PixelByte s px py a) : InRegion (bufferRegion s) a := by
  have hi := pixelIndex_bounds hp
  have hn := canvas_area hc
  have hs := fbSize_eq s
  simp only [PixelByte, fbAddr] at ha
  simp only [InRegion, bufferRegion]
  have h1 := toNat_sub_wrap32 a (s.fb.base.toNat + (py * u16 s.canvas.width + px) * bytesPerPixel s.params.depth)
  have h2 := toNat_sub_wrap32 a s.fb.base.toNat
  rw [wrap32_toNat] at h2
  generalize u16 s.canvas.width * u16 s.canvas.height = n at *
  generalize py * u16 s.canvas.width + px = i at *
  rcases bytesPerPixel_cases s.params.depth with h | h <;> rw [h] at h1 ha hs <;> push_cast at * <;> omega

/-- Two pixels of the canvas share no byte. -/
theorem pixelByte_unique {s : State} (hc : CanvasOk s.canvas) {px py qx qy : Int} (hp : OnCanvas s.canvas px py)
    (hq : OnCanvas s.canvas qx qy) {a : Word} (ha : PixelByte s px py a) (ha' : PixelByte s qx qy a) : px = qx ∧ py = qy := by
  apply pixelIndex_inj hp hq
  have hi := pixelIndex_bounds hp
  have hj := pixelIndex_bounds hq
  have hn := canvas_area hc
  simp only [PixelByte, fbAddr] at ha ha'
  have h1 := toNat_sub_wrap32 a (s.fb.base.toNat + (py * u16 s.canvas.width + px) * bytesPerPixel s.params.depth)
  have h2 := toNat_sub_wrap32 a (s.fb.base.toNat + (qy * u16 s.canvas.width + qx) * bytesPerPixel s.params.depth)
  generalize u16 s.canvas.width * u16 s.canvas.height = n at *
  generalize py * u16 s.canvas.width + px = i at *
  generalize qy * u16 s.canvas.width + qx = j at *
  rcases bytesPerPixel_cases s.params.depth with h | h <;> rw [h] at h1 ha h2 ha' <;> push_cast at * <;> omega

/-- Byte `k` of a pixel is one of its bytes. -/
theorem pixelByte_add (s : State) (px py : Int) {k : Nat} (hk : k < bytesPerPixel s.params.depth) :
    PixelByte s px py (fbAddr s px py + BitVec.ofNat 32 k) := by
  have : k < 4 := by rcases bytesPerPixel_cases s.params.depth with h | h <;> omega
  simp only [PixelByte]
  rw [BitVec.add_comm, BitVec.add_sub_cancel, BitVec.toNat_ofNat]
  omega

/-! ## One pixel -/

/-- The value a stored pixel has: the low bits of what was stored (R80). -/
def storedPixel (d : Depth) (v : Word) : Word :=
  match d with
  | .d16 => (v.setWidth 16).setWidth 32
  | .d32 => v

theorem readPixelAt_writePixelAt (d : Depth) (m : Memory) (a v : Word) : readPixelAt d (writePixelAt d m a v) a = storedPixel d v := by
  rw [readPixelAt_writePixelAt_self]; cases d <;> rfl

@[simp] theorem storedPixel_toFB (d : Depth) (c : Half) : storedPixel d (toFB d c) = toFB d c := by
  cases d
  · simp only [storedPixel, toFB]; ext i hi; simp
  · rfl

@[simp] theorem storedPixel_readPixelAt (d : Depth) (m : Memory) (a : Word) : storedPixel d (readPixelAt d m a) = readPixelAt d m a := by
  cases d
  · simp only [storedPixel, readPixelAt]; ext i hi; simp
  · rfl

@[simp] theorem storedPixel_fbRead (s : State) (x y : Int) : storedPixel s.params.depth (fbRead s x y) = fbRead s x y :=
  storedPixel_readPixelAt _ _ _

/-- A stored pixel is read back, and the other pixels of the canvas keep their values. -/
theorem fbReadIn_fbWriteIn {s : State} (hc : CanvasOk s.canvas) (m : Memory) {px py qx qy : Int} (hp : OnCanvas s.canvas px py)
    (hq : OnCanvas s.canvas qx qy) (v : Word) :
    fbReadIn s (fbWriteIn s m px py v) qx qy = if px = qx ∧ py = qy then storedPixel s.params.depth v else fbReadIn s m qx qy := by
  split
  · rename_i h
    obtain ⟨rfl, rfl⟩ := h
    exact readPixelAt_writePixelAt _ _ _ _
  · rename_i h
    apply readPixelAt_congr
    intro k hk
    apply read_writePixelAt_of_out
    by_contra hlt
    exact h (pixelByte_unique hc hp hq (Nat.lt_of_not_le hlt) (pixelByte_add s qx qy hk))

/-- A byte of no other pixel is unchanged. -/
theorem read_fbWriteIn_of_out {s : State} (m : Memory) {px py : Int} (v : Word) {a : Word} (h : ¬ PixelByte s px py a) :
    Memory.read (fbWriteIn s m px py v) a = Memory.read m a :=
  read_writePixelAt_of_out _ _ _ (Nat.le_of_not_lt h)

theorem wf_fbWriteIn {s : State} {m : Memory} (hm : Memory.wf m = true) (x y : Int) (v : Word) :
    Memory.wf (fbWriteIn s m x y v) = true := Memory.wf_writePixelAt hm _ _ _

/-! ## PutWindow's shadow loop -/

/-- Two memories that agree on every byte outside the shadow buffer. -/
def AgreeOutside (s : State) (m m' : Memory) : Prop :=
  ∀ a, ¬ InRegion (bufferRegion s) a → Memory.read m' a = Memory.read m a

/-- A colour that a write into the shadow buffer does not change. -/
def Colour.Stable (s : State) (m : Memory) (f : Colour) : Prop :=
  ∀ m', AgreeOutside s m m' → ∀ px py, OnCanvas s.canvas px py → f m' px py = f m px py

theorem AgreeOutside.refl (s : State) (m : Memory) : AgreeOutside s m m := fun _ _ => rfl

theorem AgreeOutside.fbWriteIn {s : State} (hc : CanvasOk s.canvas) {m m' : Memory} (h : AgreeOutside s m m') {px py : Int}
    (hp : OnCanvas s.canvas px py) (v : Word) : AgreeOutside s m (fbWriteIn s m' px py v) := by
  intro a ha
  rw [read_fbWriteIn_of_out _ _ fun hb => ha (inRegion_of_pixelByte hc hp hb)]
  exact h a ha

/-- Every byte that belongs to none of the painted pixels is unchanged. -/
theorem read_paint_of_out {s : State} {f : Colour} {a : Word} :
    ∀ (ps : List (Int × Int)) (m : Memory), (∀ p ∈ ps, ¬ PixelByte s p.1 p.2 a) →
      Memory.read (paint s f m ps) a = Memory.read m a
  | [], _, _ => rfl
  | p :: ps, m, h => by
    rw [paint, read_paint_of_out ps _ fun q hq => h q (by simp [hq])]
    exact read_fbWriteIn_of_out _ _ (h p (by simp))

/-- Painted pixels take their colours, the others keep their values (R158). -/
theorem fbReadIn_paint {s : State} (hc : CanvasOk s.canvas) {f : Colour} {m0 : Memory} (hf : f.Stable s m0) {qx qy : Int}
    (hq : OnCanvas s.canvas qx qy) :
    ∀ (ps : List (Int × Int)) (m : Memory), (∀ p ∈ ps, OnCanvas s.canvas p.1 p.2) → AgreeOutside s m0 m →
      fbReadIn s (paint s f m ps) qx qy =
        if (qx, qy) ∈ ps then toFB s.params.depth (f m0 qx qy) else fbReadIn s m qx qy
  | [], _, _, _ => by simp [paint]
  | p :: ps, m, hp, hm => by
    have hp0 := hp p (by simp)
    rw [paint, fbReadIn_paint hc hf hq ps _ (fun r hr => hp r (by simp [hr])) (hm.fbWriteIn hc hp0 _),
      fbReadIn_fbWriteIn hc _ hp0 hq]
    by_cases h1 : (qx, qy) ∈ ps
    · simp [h1]
    · by_cases h2 : p.1 = qx ∧ p.2 = qy
      · obtain ⟨h2, h3⟩ := h2
        have : (qx, qy) ∈ p :: ps := by simp [← h2, ← h3]
        rw [if_neg h1, if_pos this, if_pos ⟨h2, h3⟩, storedPixel_toFB, hf m hm _ _ hp0, h2, h3]
      · have : (qx, qy) ∉ p :: ps := by
          simp only [List.mem_cons, h1, or_false]
          rintro rfl; exact h2 ⟨rfl, rfl⟩
        rw [if_neg h1, if_neg this, if_neg h2]

theorem wf_paint {s : State} {f : Colour} : ∀ (ps : List (Int × Int)) (m : Memory), Memory.wf m = true →
    Memory.wf (paint s f m ps) = true
  | [], _, h => h
  | _ :: ps, _, h => wf_paint ps _ (wf_fbWriteIn h _ _ _)

end Sys2Proof.Machine
end

