-- ==== Sys2Proof/Laws/State.lean ====
section
/-! SUPPORT. The simp set of the state: for each named update, what each field of the result is. Each is true by `rfl`, so that no
later proof unfolds a record update. -/

namespace Sys2Proof.Machine

variable (s : State)

/-! ## emit -/

@[simp] theorem emit_params (ts : List Transaction) : (emit ts s).params = s.params := rfl
@[simp] theorem emit_canvas (ts : List Transaction) : (emit ts s).canvas = s.canvas := rfl
@[simp] theorem emit_fb (ts : List Transaction) : (emit ts s).fb = s.fb := rfl
@[simp] theorem emit_ill (ts : List Transaction) : (emit ts s).ill = s.ill := rfl
@[simp] theorem emit_result (ts : List Transaction) : (emit ts s).result = s.result := rfl
@[simp] theorem emit_dirty (ts : List Transaction) : (emit ts s).dirty = s.dirty := rfl
@[simp] theorem emit_text (ts : List Transaction) : (emit ts s).text = s.text := rfl
@[simp] theorem emit_font (ts : List Transaction) : (emit ts s).font = s.font := rfl
@[simp] theorem emit_last (ts : List Transaction) : (emit ts s).last = s.last := rfl
@[simp] theorem emit_bitcur (ts : List Transaction) : (emit ts s).bitcur = s.bitcur := rfl
@[simp] theorem emit_linebuf (ts : List Transaction) : (emit ts s).linebuf = s.linebuf := rfl
@[simp] theorem emit_mem (ts : List Transaction) : (emit ts s).mem = s.mem := rfl
@[simp] theorem emit_trace (ts : List Transaction) : (emit ts s).trace = s.trace ++ ts := rfl
@[simp] theorem emit_port (ts : List Transaction) : (emit ts s).port = s.port := rfl
@[simp] theorem emit_unmapped (ts : List Transaction) : (emit ts s).unmapped = s.unmapped := rfl
@[simp] theorem emit_waiting (ts : List Transaction) : (emit ts s).waiting = s.waiting := rfl
@[simp] theorem emit_asyncBusy (ts : List Transaction) : (emit ts s).asyncBusy = s.asyncBusy := rfl
@[simp] theorem emit_env (ts : List Transaction) : (emit ts s).env = s.env := rfl

/-! ## setIll -/

@[simp] theorem setIll_params : (setIll s).params = s.params := rfl
@[simp] theorem setIll_canvas : (setIll s).canvas = s.canvas := rfl
@[simp] theorem setIll_fb : (setIll s).fb = s.fb := rfl
@[simp] theorem setIll_ill : (setIll s).ill = true := rfl
@[simp] theorem setIll_result : (setIll s).result = s.result := rfl
@[simp] theorem setIll_dirty : (setIll s).dirty = s.dirty := rfl
@[simp] theorem setIll_text : (setIll s).text = s.text := rfl
@[simp] theorem setIll_font : (setIll s).font = s.font := rfl
@[simp] theorem setIll_last : (setIll s).last = s.last := rfl
@[simp] theorem setIll_bitcur : (setIll s).bitcur = s.bitcur := rfl
@[simp] theorem setIll_linebuf : (setIll s).linebuf = s.linebuf := rfl
@[simp] theorem setIll_mem : (setIll s).mem = s.mem := rfl
@[simp] theorem setIll_trace : (setIll s).trace = s.trace := rfl
@[simp] theorem setIll_port : (setIll s).port = s.port := rfl
@[simp] theorem setIll_unmapped : (setIll s).unmapped = s.unmapped := rfl
@[simp] theorem setIll_waiting : (setIll s).waiting = s.waiting := rfl
@[simp] theorem setIll_asyncBusy : (setIll s).asyncBusy = s.asyncBusy := rfl
@[simp] theorem setIll_env : (setIll s).env = s.env := rfl

/-! ## clearLast -/

@[simp] theorem clearLast_params : (clearLast s).params = s.params := rfl
@[simp] theorem clearLast_canvas : (clearLast s).canvas = s.canvas := rfl
@[simp] theorem clearLast_fb : (clearLast s).fb = s.fb := rfl
@[simp] theorem clearLast_ill : (clearLast s).ill = s.ill := rfl
@[simp] theorem clearLast_result : (clearLast s).result = s.result := rfl
@[simp] theorem clearLast_dirty : (clearLast s).dirty = s.dirty := rfl
@[simp] theorem clearLast_text : (clearLast s).text = s.text := rfl
@[simp] theorem clearLast_font : (clearLast s).font = s.font := rfl
@[simp] theorem clearLast_last : (clearLast s).last = { s.last with valid := false } := rfl
@[simp] theorem clearLast_bitcur : (clearLast s).bitcur = s.bitcur := rfl
@[simp] theorem clearLast_linebuf : (clearLast s).linebuf = s.linebuf := rfl
@[simp] theorem clearLast_mem : (clearLast s).mem = s.mem := rfl
@[simp] theorem clearLast_trace : (clearLast s).trace = s.trace := rfl
@[simp] theorem clearLast_port : (clearLast s).port = s.port := rfl
@[simp] theorem clearLast_unmapped : (clearLast s).unmapped = s.unmapped := rfl
@[simp] theorem clearLast_waiting : (clearLast s).waiting = s.waiting := rfl
@[simp] theorem clearLast_asyncBusy : (clearLast s).asyncBusy = s.asyncBusy := rfl
@[simp] theorem clearLast_env : (clearLast s).env = s.env := rfl

/-! ## retireHidden -/

@[simp] theorem retireHidden_params : (retireHidden s).params = s.params := rfl
@[simp] theorem retireHidden_canvas : (retireHidden s).canvas = s.canvas := rfl
@[simp] theorem retireHidden_fb : (retireHidden s).fb = s.fb := rfl
@[simp] theorem retireHidden_ill : (retireHidden s).ill = s.ill := rfl
@[simp] theorem retireHidden_result : (retireHidden s).result = s.result := rfl
@[simp] theorem retireHidden_dirty : (retireHidden s).dirty = s.dirty := rfl
@[simp] theorem retireHidden_text : (retireHidden s).text = s.text := rfl
@[simp] theorem retireHidden_font : (retireHidden s).font = s.font := rfl
@[simp] theorem retireHidden_last : (retireHidden s).last = s.last := rfl
@[simp] theorem retireHidden_bitcur : (retireHidden s).bitcur = 0 := rfl
@[simp] theorem retireHidden_linebuf : (retireHidden s).linebuf = [] := rfl
@[simp] theorem retireHidden_mem : (retireHidden s).mem = s.mem := rfl
@[simp] theorem retireHidden_trace : (retireHidden s).trace = s.trace := rfl
@[simp] theorem retireHidden_port : (retireHidden s).port = s.port := rfl
@[simp] theorem retireHidden_unmapped : (retireHidden s).unmapped = s.unmapped := rfl
@[simp] theorem retireHidden_waiting : (retireHidden s).waiting = s.waiting := rfl
@[simp] theorem retireHidden_asyncBusy : (retireHidden s).asyncBusy = s.asyncBusy := rfl
@[simp] theorem retireHidden_env : (retireHidden s).env = s.env := rfl

/-! ## emptyDirty -/

@[simp] theorem emptyDirty_params : (emptyDirty s).params = s.params := rfl
@[simp] theorem emptyDirty_canvas : (emptyDirty s).canvas = s.canvas := rfl
@[simp] theorem emptyDirty_fb : (emptyDirty s).fb = s.fb := rfl
@[simp] theorem emptyDirty_ill : (emptyDirty s).ill = s.ill := rfl
@[simp] theorem emptyDirty_result : (emptyDirty s).result = s.result := rfl
@[simp] theorem emptyDirty_dirty : (emptyDirty s).dirty = Dirty.empty := rfl
@[simp] theorem emptyDirty_text : (emptyDirty s).text = s.text := rfl
@[simp] theorem emptyDirty_font : (emptyDirty s).font = s.font := rfl
@[simp] theorem emptyDirty_last : (emptyDirty s).last = s.last := rfl
@[simp] theorem emptyDirty_bitcur : (emptyDirty s).bitcur = s.bitcur := rfl
@[simp] theorem emptyDirty_linebuf : (emptyDirty s).linebuf = s.linebuf := rfl
@[simp] theorem emptyDirty_mem : (emptyDirty s).mem = s.mem := rfl
@[simp] theorem emptyDirty_trace : (emptyDirty s).trace = s.trace := rfl
@[simp] theorem emptyDirty_port : (emptyDirty s).port = s.port := rfl
@[simp] theorem emptyDirty_unmapped : (emptyDirty s).unmapped = s.unmapped := rfl
@[simp] theorem emptyDirty_waiting : (emptyDirty s).waiting = s.waiting := rfl
@[simp] theorem emptyDirty_asyncBusy : (emptyDirty s).asyncBusy = s.asyncBusy := rfl
@[simp] theorem emptyDirty_env : (emptyDirty s).env = s.env := rfl

/-! ## withPort -/

@[simp] theorem withPort_params (ws : List Word) : (withPort ws s).params = s.params := rfl
@[simp] theorem withPort_canvas (ws : List Word) : (withPort ws s).canvas = s.canvas := rfl
@[simp] theorem withPort_fb (ws : List Word) : (withPort ws s).fb = s.fb := rfl
@[simp] theorem withPort_ill (ws : List Word) : (withPort ws s).ill = s.ill := rfl
@[simp] theorem withPort_result (ws : List Word) : (withPort ws s).result = s.result := rfl
@[simp] theorem withPort_dirty (ws : List Word) : (withPort ws s).dirty = s.dirty := rfl
@[simp] theorem withPort_text (ws : List Word) : (withPort ws s).text = s.text := rfl
@[simp] theorem withPort_font (ws : List Word) : (withPort ws s).font = s.font := rfl
@[simp] theorem withPort_last (ws : List Word) : (withPort ws s).last = s.last := rfl
@[simp] theorem withPort_bitcur (ws : List Word) : (withPort ws s).bitcur = s.bitcur := rfl
@[simp] theorem withPort_linebuf (ws : List Word) : (withPort ws s).linebuf = s.linebuf := rfl
@[simp] theorem withPort_mem (ws : List Word) : (withPort ws s).mem = s.mem := rfl
@[simp] theorem withPort_trace (ws : List Word) : (withPort ws s).trace = s.trace := rfl
@[simp] theorem withPort_port (ws : List Word) : (withPort ws s).port = ws := rfl
@[simp] theorem withPort_unmapped (ws : List Word) : (withPort ws s).unmapped = s.unmapped := rfl
@[simp] theorem withPort_waiting (ws : List Word) : (withPort ws s).waiting = s.waiting := rfl
@[simp] theorem withPort_asyncBusy (ws : List Word) : (withPort ws s).asyncBusy = s.asyncBusy := rfl
@[simp] theorem withPort_env (ws : List Word) : (withPort ws s).env = s.env := rfl

/-! ## discardPacket -/

@[simp] theorem discardPacket_params (ws : List Word) : (discardPacket ws s).params = s.params := rfl
@[simp] theorem discardPacket_canvas (ws : List Word) : (discardPacket ws s).canvas = s.canvas := rfl
@[simp] theorem discardPacket_fb (ws : List Word) : (discardPacket ws s).fb = s.fb := rfl
@[simp] theorem discardPacket_ill (ws : List Word) : (discardPacket ws s).ill = true := rfl
@[simp] theorem discardPacket_result (ws : List Word) : (discardPacket ws s).result = s.result := rfl
@[simp] theorem discardPacket_dirty (ws : List Word) : (discardPacket ws s).dirty = s.dirty := rfl
@[simp] theorem discardPacket_text (ws : List Word) : (discardPacket ws s).text = s.text := rfl
@[simp] theorem discardPacket_font (ws : List Word) : (discardPacket ws s).font = s.font := rfl
@[simp] theorem discardPacket_last (ws : List Word) : (discardPacket ws s).last = s.last := rfl
@[simp] theorem discardPacket_bitcur (ws : List Word) : (discardPacket ws s).bitcur = s.bitcur := rfl
@[simp] theorem discardPacket_linebuf (ws : List Word) : (discardPacket ws s).linebuf = s.linebuf := rfl
@[simp] theorem discardPacket_mem (ws : List Word) : (discardPacket ws s).mem = s.mem := rfl
@[simp] theorem discardPacket_trace (ws : List Word) : (discardPacket ws s).trace = s.trace := rfl
@[simp] theorem discardPacket_port (ws : List Word) : (discardPacket ws s).port = ws := rfl
@[simp] theorem discardPacket_unmapped (ws : List Word) : (discardPacket ws s).unmapped = s.unmapped := rfl
@[simp] theorem discardPacket_waiting (ws : List Word) : (discardPacket ws s).waiting = s.waiting := rfl
@[simp] theorem discardPacket_asyncBusy (ws : List Word) : (discardPacket ws s).asyncBusy = s.asyncBusy := rfl
@[simp] theorem discardPacket_env (ws : List Word) : (discardPacket ws s).env = s.env := rfl

/-! ## moveCursor -/

@[simp] theorem moveCursor_params (x y : Int) : (moveCursor x y s).params = s.params := rfl
@[simp] theorem moveCursor_canvas (x y : Int) : (moveCursor x y s).canvas = s.canvas := rfl
@[simp] theorem moveCursor_fb (x y : Int) : (moveCursor x y s).fb = s.fb := rfl
@[simp] theorem moveCursor_ill (x y : Int) : (moveCursor x y s).ill = s.ill := rfl
@[simp] theorem moveCursor_result (x y : Int) : (moveCursor x y s).result = s.result := rfl
@[simp] theorem moveCursor_dirty (x y : Int) : (moveCursor x y s).dirty = s.dirty := rfl
@[simp] theorem moveCursor_text (x y : Int) : (moveCursor x y s).text = { s.text with cursorX := wrap16 x, cursorY := wrap16 y } := rfl
@[simp] theorem moveCursor_font (x y : Int) : (moveCursor x y s).font = s.font := rfl
@[simp] theorem moveCursor_last (x y : Int) : (moveCursor x y s).last = s.last := rfl
@[simp] theorem moveCursor_bitcur (x y : Int) : (moveCursor x y s).bitcur = s.bitcur := rfl
@[simp] theorem moveCursor_linebuf (x y : Int) : (moveCursor x y s).linebuf = s.linebuf := rfl
@[simp] theorem moveCursor_mem (x y : Int) : (moveCursor x y s).mem = s.mem := rfl
@[simp] theorem moveCursor_trace (x y : Int) : (moveCursor x y s).trace = s.trace := rfl
@[simp] theorem moveCursor_port (x y : Int) : (moveCursor x y s).port = s.port := rfl
@[simp] theorem moveCursor_unmapped (x y : Int) : (moveCursor x y s).unmapped = s.unmapped := rfl
@[simp] theorem moveCursor_waiting (x y : Int) : (moveCursor x y s).waiting = s.waiting := rfl
@[simp] theorem moveCursor_asyncBusy (x y : Int) : (moveCursor x y s).asyncBusy = s.asyncBusy := rfl
@[simp] theorem moveCursor_env (x y : Int) : (moveCursor x y s).env = s.env := rfl

/-! ## recordLast -/

@[simp] theorem recordLast_params (b : Box) : (recordLast b s).params = s.params := rfl
@[simp] theorem recordLast_canvas (b : Box) : (recordLast b s).canvas = s.canvas := rfl
@[simp] theorem recordLast_fb (b : Box) : (recordLast b s).fb = s.fb := rfl
@[simp] theorem recordLast_ill (b : Box) : (recordLast b s).ill = s.ill := rfl
@[simp] theorem recordLast_result (b : Box) : (recordLast b s).result = s.result := rfl
@[simp] theorem recordLast_dirty (b : Box) : (recordLast b s).dirty = s.dirty := rfl
@[simp] theorem recordLast_text (b : Box) : (recordLast b s).text = s.text := rfl
@[simp] theorem recordLast_font (b : Box) : (recordLast b s).font = s.font := rfl
@[simp] theorem recordLast_last (b : Box) : (recordLast b s).last = { valid := true, cx := s.text.cursorX, cy := s.text.cursorY, xr := wrap32 (b.x1 - 1), fg := s.text.fg, bg := s.text.bg } := rfl
@[simp] theorem recordLast_bitcur (b : Box) : (recordLast b s).bitcur = s.bitcur := rfl
@[simp] theorem recordLast_linebuf (b : Box) : (recordLast b s).linebuf = s.linebuf := rfl
@[simp] theorem recordLast_mem (b : Box) : (recordLast b s).mem = s.mem := rfl
@[simp] theorem recordLast_trace (b : Box) : (recordLast b s).trace = s.trace := rfl
@[simp] theorem recordLast_port (b : Box) : (recordLast b s).port = s.port := rfl
@[simp] theorem recordLast_unmapped (b : Box) : (recordLast b s).unmapped = s.unmapped := rfl
@[simp] theorem recordLast_waiting (b : Box) : (recordLast b s).waiting = s.waiting := rfl
@[simp] theorem recordLast_asyncBusy (b : Box) : (recordLast b s).asyncBusy = s.asyncBusy := rfl
@[simp] theorem recordLast_env (b : Box) : (recordLast b s).env = s.env := rfl

/-! ## enableMirror -/

@[simp] theorem enableMirror_params : (enableMirror s).params = s.params := rfl
@[simp] theorem enableMirror_canvas : (enableMirror s).canvas = s.canvas := rfl
@[simp] theorem enableMirror_fb : (enableMirror s).fb = { s.fb with en := true } := rfl
@[simp] theorem enableMirror_ill : (enableMirror s).ill = s.ill := rfl
@[simp] theorem enableMirror_result : (enableMirror s).result = true := rfl
@[simp] theorem enableMirror_dirty : (enableMirror s).dirty = Dirty.empty := rfl
@[simp] theorem enableMirror_text : (enableMirror s).text = s.text := rfl
@[simp] theorem enableMirror_font : (enableMirror s).font = s.font := rfl
@[simp] theorem enableMirror_last : (enableMirror s).last = s.last := rfl
@[simp] theorem enableMirror_bitcur : (enableMirror s).bitcur = s.bitcur := rfl
@[simp] theorem enableMirror_linebuf : (enableMirror s).linebuf = s.linebuf := rfl
@[simp] theorem enableMirror_mem : (enableMirror s).mem = s.mem := rfl
@[simp] theorem enableMirror_trace : (enableMirror s).trace = s.trace := rfl
@[simp] theorem enableMirror_port : (enableMirror s).port = s.port := rfl
@[simp] theorem enableMirror_unmapped : (enableMirror s).unmapped = s.unmapped := rfl
@[simp] theorem enableMirror_waiting : (enableMirror s).waiting = s.waiting := rfl
@[simp] theorem enableMirror_asyncBusy : (enableMirror s).asyncBusy = s.asyncBusy := rfl
@[simp] theorem enableMirror_env : (enableMirror s).env = s.env := rfl

/-! ## startTransfer -/

@[simp] theorem startTransfer_params : (startTransfer s).params = s.params := rfl
@[simp] theorem startTransfer_canvas : (startTransfer s).canvas = s.canvas := rfl
@[simp] theorem startTransfer_fb : (startTransfer s).fb = s.fb := rfl
@[simp] theorem startTransfer_ill : (startTransfer s).ill = s.ill := rfl
@[simp] theorem startTransfer_result : (startTransfer s).result = true := rfl
@[simp] theorem startTransfer_dirty : (startTransfer s).dirty = Dirty.empty := rfl
@[simp] theorem startTransfer_text : (startTransfer s).text = s.text := rfl
@[simp] theorem startTransfer_font : (startTransfer s).font = s.font := rfl
@[simp] theorem startTransfer_last : (startTransfer s).last = s.last := rfl
@[simp] theorem startTransfer_bitcur : (startTransfer s).bitcur = s.bitcur := rfl
@[simp] theorem startTransfer_linebuf : (startTransfer s).linebuf = s.linebuf := rfl
@[simp] theorem startTransfer_mem : (startTransfer s).mem = s.mem := rfl
@[simp] theorem startTransfer_trace : (startTransfer s).trace = s.trace ++ [.writeRectAsync 0 0 s.canvas.width s.canvas.height s.fb.base s.params.depth] := rfl
@[simp] theorem startTransfer_port : (startTransfer s).port = s.port := rfl
@[simp] theorem startTransfer_unmapped : (startTransfer s).unmapped = s.unmapped := rfl
@[simp] theorem startTransfer_waiting : (startTransfer s).waiting = s.waiting := rfl
@[simp] theorem startTransfer_asyncBusy : (startTransfer s).asyncBusy = true := rfl
@[simp] theorem startTransfer_env : (startTransfer s).env = s.env := rfl

/-! ## drawFresh -/

@[simp] theorem drawFresh_params (a : Word) (n : Nat) : (drawFresh a n s).params = s.params := rfl
@[simp] theorem drawFresh_canvas (a : Word) (n : Nat) : (drawFresh a n s).canvas = s.canvas := rfl
@[simp] theorem drawFresh_fb (a : Word) (n : Nat) : (drawFresh a n s).fb = s.fb := rfl
@[simp] theorem drawFresh_ill (a : Word) (n : Nat) : (drawFresh a n s).ill = s.ill := rfl
@[simp] theorem drawFresh_result (a : Word) (n : Nat) : (drawFresh a n s).result = s.result := rfl
@[simp] theorem drawFresh_dirty (a : Word) (n : Nat) : (drawFresh a n s).dirty = s.dirty := rfl
@[simp] theorem drawFresh_text (a : Word) (n : Nat) : (drawFresh a n s).text = s.text := rfl
@[simp] theorem drawFresh_font (a : Word) (n : Nat) : (drawFresh a n s).font = s.font := rfl
@[simp] theorem drawFresh_last (a : Word) (n : Nat) : (drawFresh a n s).last = s.last := rfl
@[simp] theorem drawFresh_bitcur (a : Word) (n : Nat) : (drawFresh a n s).bitcur = s.bitcur := rfl
@[simp] theorem drawFresh_linebuf (a : Word) (n : Nat) : (drawFresh a n s).linebuf = s.linebuf := rfl
@[simp] theorem drawFresh_mem (a : Word) (n : Nat) : (drawFresh a n s).mem = Memory.writeBytes s.mem a (s.env.nextBytes n).1 := rfl
@[simp] theorem drawFresh_trace (a : Word) (n : Nat) : (drawFresh a n s).trace = s.trace := rfl
@[simp] theorem drawFresh_port (a : Word) (n : Nat) : (drawFresh a n s).port = s.port := rfl
@[simp] theorem drawFresh_unmapped (a : Word) (n : Nat) : (drawFresh a n s).unmapped = s.unmapped := rfl
@[simp] theorem drawFresh_waiting (a : Word) (n : Nat) : (drawFresh a n s).waiting = s.waiting := rfl
@[simp] theorem drawFresh_asyncBusy (a : Word) (n : Nat) : (drawFresh a n s).asyncBusy = s.asyncBusy := rfl
@[simp] theorem drawFresh_env (a : Word) (n : Nat) : (drawFresh a n s).env = (s.env.nextBytes n).2 := rfl

/-! ## askAlloc -/

@[simp] theorem askAlloc_params (n : Nat) : (askAlloc n s).2.params = s.params := rfl
@[simp] theorem askAlloc_canvas (n : Nat) : (askAlloc n s).2.canvas = s.canvas := rfl
@[simp] theorem askAlloc_fb (n : Nat) : (askAlloc n s).2.fb = s.fb := rfl
@[simp] theorem askAlloc_ill (n : Nat) : (askAlloc n s).2.ill = s.ill := rfl
@[simp] theorem askAlloc_result (n : Nat) : (askAlloc n s).2.result = s.result := rfl
@[simp] theorem askAlloc_dirty (n : Nat) : (askAlloc n s).2.dirty = s.dirty := rfl
@[simp] theorem askAlloc_text (n : Nat) : (askAlloc n s).2.text = s.text := rfl
@[simp] theorem askAlloc_font (n : Nat) : (askAlloc n s).2.font = s.font := rfl
@[simp] theorem askAlloc_last (n : Nat) : (askAlloc n s).2.last = s.last := rfl
@[simp] theorem askAlloc_bitcur (n : Nat) : (askAlloc n s).2.bitcur = s.bitcur := rfl
@[simp] theorem askAlloc_linebuf (n : Nat) : (askAlloc n s).2.linebuf = s.linebuf := rfl
@[simp] theorem askAlloc_mem (n : Nat) : (askAlloc n s).2.mem = s.mem := rfl
@[simp] theorem askAlloc_trace (n : Nat) : (askAlloc n s).2.trace = s.trace ++ [.alloc n 32 (askAlloc n s).1] := rfl
@[simp] theorem askAlloc_port (n : Nat) : (askAlloc n s).2.port = s.port := rfl
@[simp] theorem askAlloc_unmapped (n : Nat) : (askAlloc n s).2.unmapped = s.unmapped := rfl
@[simp] theorem askAlloc_waiting (n : Nat) : (askAlloc n s).2.waiting = s.waiting := rfl
@[simp] theorem askAlloc_asyncBusy (n : Nat) : (askAlloc n s).2.asyncBusy = s.asyncBusy := rfl
@[simp] theorem askAlloc_env (n : Nat) : (askAlloc n s).2.env = s.env.nextAlloc.2 := rfl

/-! ## askRead -/

@[simp] theorem askRead_params (x y w h : Int) : (askRead x y w h s).2.params = s.params := rfl
@[simp] theorem askRead_canvas (x y w h : Int) : (askRead x y w h s).2.canvas = s.canvas := rfl
@[simp] theorem askRead_fb (x y w h : Int) : (askRead x y w h s).2.fb = s.fb := rfl
@[simp] theorem askRead_ill (x y w h : Int) : (askRead x y w h s).2.ill = s.ill := rfl
@[simp] theorem askRead_result (x y w h : Int) : (askRead x y w h s).2.result = s.result := rfl
@[simp] theorem askRead_dirty (x y w h : Int) : (askRead x y w h s).2.dirty = s.dirty := rfl
@[simp] theorem askRead_text (x y w h : Int) : (askRead x y w h s).2.text = s.text := rfl
@[simp] theorem askRead_font (x y w h : Int) : (askRead x y w h s).2.font = s.font := rfl
@[simp] theorem askRead_last (x y w h : Int) : (askRead x y w h s).2.last = s.last := rfl
@[simp] theorem askRead_bitcur (x y w h : Int) : (askRead x y w h s).2.bitcur = s.bitcur := rfl
@[simp] theorem askRead_linebuf (x y w h : Int) : (askRead x y w h s).2.linebuf = s.linebuf := rfl
@[simp] theorem askRead_mem (x y w h : Int) : (askRead x y w h s).2.mem = s.mem := rfl
@[simp] theorem askRead_trace (x y w h : Int) : (askRead x y w h s).2.trace = s.trace ++ [.readRect (wrap16 x) (wrap16 y) (wrap16 w) (wrap16 h) (askRead x y w h s).1] := rfl
@[simp] theorem askRead_port (x y w h : Int) : (askRead x y w h s).2.port = s.port := rfl
@[simp] theorem askRead_unmapped (x y w h : Int) : (askRead x y w h s).2.unmapped = s.unmapped := rfl
@[simp] theorem askRead_waiting (x y w h : Int) : (askRead x y w h s).2.waiting = s.waiting := rfl
@[simp] theorem askRead_asyncBusy (x y w h : Int) : (askRead x y w h s).2.asyncBusy = s.asyncBusy := rfl
@[simp] theorem askRead_env (x y w h : Int) : (askRead x y w h s).2.env = (s.env.nextPixels (w * h).toNat).2 := rfl

/-! ## takeU -/

@[simp] theorem takeU_params (a : Word) (n : Nat) : (takeU a n s).2.params = s.params := rfl
@[simp] theorem takeU_canvas (a : Word) (n : Nat) : (takeU a n s).2.canvas = s.canvas := rfl
@[simp] theorem takeU_fb (a : Word) (n : Nat) : (takeU a n s).2.fb = s.fb := rfl
@[simp] theorem takeU_ill (a : Word) (n : Nat) : (takeU a n s).2.ill = s.ill := rfl
@[simp] theorem takeU_result (a : Word) (n : Nat) : (takeU a n s).2.result = s.result := rfl
@[simp] theorem takeU_dirty (a : Word) (n : Nat) : (takeU a n s).2.dirty = s.dirty := rfl
@[simp] theorem takeU_text (a : Word) (n : Nat) : (takeU a n s).2.text = s.text := rfl
@[simp] theorem takeU_font (a : Word) (n : Nat) : (takeU a n s).2.font = s.font := rfl
@[simp] theorem takeU_last (a : Word) (n : Nat) : (takeU a n s).2.last = s.last := rfl
@[simp] theorem takeU_bitcur (a : Word) (n : Nat) : (takeU a n s).2.bitcur = s.bitcur + BitVec.ofNat 32 n := rfl
@[simp] theorem takeU_linebuf (a : Word) (n : Nat) : (takeU a n s).2.linebuf = s.linebuf := rfl
@[simp] theorem takeU_mem (a : Word) (n : Nat) : (takeU a n s).2.mem = s.mem := rfl
@[simp] theorem takeU_trace (a : Word) (n : Nat) : (takeU a n s).2.trace = s.trace := rfl
@[simp] theorem takeU_port (a : Word) (n : Nat) : (takeU a n s).2.port = s.port := rfl
@[simp] theorem takeU_unmapped (a : Word) (n : Nat) : (takeU a n s).2.unmapped = s.unmapped := rfl
@[simp] theorem takeU_waiting (a : Word) (n : Nat) : (takeU a n s).2.waiting = s.waiting := rfl
@[simp] theorem takeU_asyncBusy (a : Word) (n : Nat) : (takeU a n s).2.asyncBusy = s.asyncBusy := rfl
@[simp] theorem takeU_env (a : Word) (n : Nat) : (takeU a n s).2.env = s.env := rfl

/-! ## takeS -/

@[simp] theorem takeS_params (a : Word) (n : Nat) : (takeS a n s).2.params = s.params := rfl
@[simp] theorem takeS_canvas (a : Word) (n : Nat) : (takeS a n s).2.canvas = s.canvas := rfl
@[simp] theorem takeS_fb (a : Word) (n : Nat) : (takeS a n s).2.fb = s.fb := rfl
@[simp] theorem takeS_ill (a : Word) (n : Nat) : (takeS a n s).2.ill = s.ill := rfl
@[simp] theorem takeS_result (a : Word) (n : Nat) : (takeS a n s).2.result = s.result := rfl
@[simp] theorem takeS_dirty (a : Word) (n : Nat) : (takeS a n s).2.dirty = s.dirty := rfl
@[simp] theorem takeS_text (a : Word) (n : Nat) : (takeS a n s).2.text = s.text := rfl
@[simp] theorem takeS_font (a : Word) (n : Nat) : (takeS a n s).2.font = s.font := rfl
@[simp] theorem takeS_last (a : Word) (n : Nat) : (takeS a n s).2.last = s.last := rfl
@[simp] theorem takeS_bitcur (a : Word) (n : Nat) : (takeS a n s).2.bitcur = s.bitcur + BitVec.ofNat 32 n := rfl
@[simp] theorem takeS_linebuf (a : Word) (n : Nat) : (takeS a n s).2.linebuf = s.linebuf := rfl
@[simp] theorem takeS_mem (a : Word) (n : Nat) : (takeS a n s).2.mem = s.mem := rfl
@[simp] theorem takeS_trace (a : Word) (n : Nat) : (takeS a n s).2.trace = s.trace := rfl
@[simp] theorem takeS_port (a : Word) (n : Nat) : (takeS a n s).2.port = s.port := rfl
@[simp] theorem takeS_unmapped (a : Word) (n : Nat) : (takeS a n s).2.unmapped = s.unmapped := rfl
@[simp] theorem takeS_waiting (a : Word) (n : Nat) : (takeS a n s).2.waiting = s.waiting := rfl
@[simp] theorem takeS_asyncBusy (a : Word) (n : Nat) : (takeS a n s).2.asyncBusy = s.asyncBusy := rfl
@[simp] theorem takeS_env (a : Word) (n : Nat) : (takeS a n s).2.env = s.env := rfl

/-! ## hostWriteByte -/

@[simp] theorem hostWriteByte_params (a : Word) (b : Byte) : (hostWriteByte a b s).params = s.params := rfl
@[simp] theorem hostWriteByte_canvas (a : Word) (b : Byte) : (hostWriteByte a b s).canvas = s.canvas := rfl
@[simp] theorem hostWriteByte_fb (a : Word) (b : Byte) : (hostWriteByte a b s).fb = s.fb := rfl
@[simp] theorem hostWriteByte_ill (a : Word) (b : Byte) : (hostWriteByte a b s).ill = s.ill := rfl
@[simp] theorem hostWriteByte_result (a : Word) (b : Byte) : (hostWriteByte a b s).result = s.result := rfl
@[simp] theorem hostWriteByte_dirty (a : Word) (b : Byte) : (hostWriteByte a b s).dirty = s.dirty := rfl
@[simp] theorem hostWriteByte_text (a : Word) (b : Byte) : (hostWriteByte a b s).text = s.text := rfl
@[simp] theorem hostWriteByte_font (a : Word) (b : Byte) : (hostWriteByte a b s).font = s.font := rfl
@[simp] theorem hostWriteByte_last (a : Word) (b : Byte) : (hostWriteByte a b s).last = s.last := rfl
@[simp] theorem hostWriteByte_bitcur (a : Word) (b : Byte) : (hostWriteByte a b s).bitcur = s.bitcur := rfl
@[simp] theorem hostWriteByte_linebuf (a : Word) (b : Byte) : (hostWriteByte a b s).linebuf = s.linebuf := rfl
@[simp] theorem hostWriteByte_mem (a : Word) (b : Byte) : (hostWriteByte a b s).mem = Memory.write s.mem a b := rfl
@[simp] theorem hostWriteByte_trace (a : Word) (b : Byte) : (hostWriteByte a b s).trace = s.trace := rfl
@[simp] theorem hostWriteByte_port (a : Word) (b : Byte) : (hostWriteByte a b s).port = s.port := rfl
@[simp] theorem hostWriteByte_unmapped (a : Word) (b : Byte) : (hostWriteByte a b s).unmapped = s.unmapped := rfl
@[simp] theorem hostWriteByte_waiting (a : Word) (b : Byte) : (hostWriteByte a b s).waiting = s.waiting := rfl
@[simp] theorem hostWriteByte_asyncBusy (a : Word) (b : Byte) : (hostWriteByte a b s).asyncBusy = s.asyncBusy := rfl
@[simp] theorem hostWriteByte_env (a : Word) (b : Byte) : (hostWriteByte a b s).env = s.env := rfl

/-! ## present -/

@[simp] theorem present_params (ws : List Word) : (present ws s).params = s.params := rfl
@[simp] theorem present_canvas (ws : List Word) : (present ws s).canvas = s.canvas := rfl
@[simp] theorem present_fb (ws : List Word) : (present ws s).fb = s.fb := rfl
@[simp] theorem present_ill (ws : List Word) : (present ws s).ill = s.ill := rfl
@[simp] theorem present_result (ws : List Word) : (present ws s).result = s.result := rfl
@[simp] theorem present_dirty (ws : List Word) : (present ws s).dirty = s.dirty := rfl
@[simp] theorem present_text (ws : List Word) : (present ws s).text = s.text := rfl
@[simp] theorem present_font (ws : List Word) : (present ws s).font = s.font := rfl
@[simp] theorem present_last (ws : List Word) : (present ws s).last = s.last := rfl
@[simp] theorem present_bitcur (ws : List Word) : (present ws s).bitcur = s.bitcur := rfl
@[simp] theorem present_linebuf (ws : List Word) : (present ws s).linebuf = s.linebuf := rfl
@[simp] theorem present_mem (ws : List Word) : (present ws s).mem = s.mem := rfl
@[simp] theorem present_trace (ws : List Word) : (present ws s).trace = s.trace := rfl
@[simp] theorem present_port (ws : List Word) : (present ws s).port = s.port ++ ws := rfl
@[simp] theorem present_unmapped (ws : List Word) : (present ws s).unmapped = s.unmapped := rfl
@[simp] theorem present_waiting (ws : List Word) : (present ws s).waiting = s.waiting := rfl
@[simp] theorem present_asyncBusy (ws : List Word) : (present ws s).asyncBusy = s.asyncBusy := rfl
@[simp] theorem present_env (ws : List Word) : (present ws s).env = s.env := rfl

end Sys2Proof.Machine
end

