-- ==== Sys2Proof/Laws/Draw.lean ====
section
/-! SUPPORT. What the drawing wrappers do, said once (40_clip_and_common.md R158 to R160), and what they leave unchanged. -/

namespace Sys2Proof.Machine

/-! ## Frames -/

/-- PutWindow changes memory, the dirty rectangle and the trace only. -/
theorem putWindow_frame (vx0 vy0 vx1 vy1 : Int) (f : Colour) (s : State) :
    putWindow vx0 vy0 vx1 vy1 f s = { s with
      mem := (putWindow vx0 vy0 vx1 vy1 f s).mem
      dirty := (putWindow vx0 vy0 vx1 vy1 f s).dirty
      trace := (putWindow vx0 vy0 vx1 vy1 f s).trace } := by
  unfold putWindow emit
  split <;> rfl

/-- DrawWindow changes memory, the dirty rectangle and the trace only. -/
theorem drawWindow_frame (x y w h : Int) (g : Colour) (s : State) :
    drawWindow x y w h g s = { s with
      mem := (drawWindow x y w h g s).mem
      dirty := (drawWindow x y w h g s).dirty
      trace := (drawWindow x y w h g s).trace } := by
  unfold drawWindow
  split
  · rfl
  · exact putWindow_frame _ _ _ _ _ _

section fields
variable (x y w h : Int) (g : Colour) (s : State)
@[simp] theorem drawWindow_params : (drawWindow x y w h g s).params = s.params := by rw [drawWindow_frame]
@[simp] theorem drawWindow_canvas : (drawWindow x y w h g s).canvas = s.canvas := by rw [drawWindow_frame]
@[simp] theorem drawWindow_fb : (drawWindow x y w h g s).fb = s.fb := by rw [drawWindow_frame]
@[simp] theorem drawWindow_ill : (drawWindow x y w h g s).ill = s.ill := by rw [drawWindow_frame]
@[simp] theorem drawWindow_result : (drawWindow x y w h g s).result = s.result := by rw [drawWindow_frame]
@[simp] theorem drawWindow_text : (drawWindow x y w h g s).text = s.text := by rw [drawWindow_frame]
@[simp] theorem drawWindow_font : (drawWindow x y w h g s).font = s.font := by rw [drawWindow_frame]
@[simp] theorem drawWindow_last : (drawWindow x y w h g s).last = s.last := by rw [drawWindow_frame]
@[simp] theorem drawWindow_bitcur : (drawWindow x y w h g s).bitcur = s.bitcur := by rw [drawWindow_frame]
@[simp] theorem drawWindow_linebuf : (drawWindow x y w h g s).linebuf = s.linebuf := by rw [drawWindow_frame]
@[simp] theorem drawWindow_port : (drawWindow x y w h g s).port = s.port := by rw [drawWindow_frame]
@[simp] theorem drawWindow_unmapped : (drawWindow x y w h g s).unmapped = s.unmapped := by rw [drawWindow_frame]
@[simp] theorem drawWindow_waiting : (drawWindow x y w h g s).waiting = s.waiting := by rw [drawWindow_frame]
@[simp] theorem drawWindow_asyncBusy : (drawWindow x y w h g s).asyncBusy = s.asyncBusy := by rw [drawWindow_frame]
@[simp] theorem drawWindow_env : (drawWindow x y w h g s).env = s.env := by rw [drawWindow_frame]
end fields

/-! ## The dirty rectangle -/

/-- DirtyUnion of corners on a canvas is exact: the register wrap loses nothing (R160). -/
theorem dirtyUnion_exact {x0 y0 x1 y1 : Int} (d : Dirty) (hx : 0 ≤ x0 ∧ x0 ≤ 32767) (hy : 0 ≤ y0 ∧ y0 ≤ 32767)
    (hx' : 0 ≤ x1 ∧ x1 ≤ 32767) (hy' : 0 ≤ y1 ∧ y1 ≤ 32767) :
    s16 (dirtyUnion x0 y0 x1 y1 d).minX = min (s16 d.minX) x0 ∧ s16 (dirtyUnion x0 y0 x1 y1 d).minY = min (s16 d.minY) y0 ∧
    s16 (dirtyUnion x0 y0 x1 y1 d).maxX = max (s16 d.maxX) x1 ∧ s16 (dirtyUnion x0 y0 x1 y1 d).maxY = max (s16 d.maxY) y1 := by
  have h1 := s16_bounds d.minX
  have h2 := s16_bounds d.minY
  have h3 := s16_bounds d.maxX
  have h4 := s16_bounds d.maxY
  simp only [dirtyUnion]
  refine ⟨s16_wrap16 ?_ ?_, s16_wrap16 ?_ ?_, s16_wrap16 ?_ ?_, s16_wrap16 ?_ ?_⟩ <;> omega

/-! ## Sessions -/

/-- The pixels of a window, row-major (R99). -/
theorem isSession_map {vx0 vy0 vx1 vy1 : Int} (hx : vx0 < vx1) (hy : vy0 < vy1) (f : Int × Int → Half) :
    IsSession (session vx0 vy0 (vx1 - 1) (vy1 - 1) ((rectPoints vx0 vy0 vx1 vy1).map f)) vx0 vy0 vx1 vy1
      fun px py => f (px, py) := by
  refine ⟨_, rfl, ?_, fun i j hi hj => ?_⟩
  · rw [List.length_map, length_rectPoints]
    push_cast
    rw [Int.toNat_of_nonneg (by omega), Int.toNat_of_nonneg (by omega), mul_comm]
  · rw [List.getElem?_map, getElem?_rectPoints hi hj]
    rfl

/-! ## The effect -/

/-- What DrawWindow does: one drawing of its rectangle, for a colour that does not read the shadow buffer (R158, R159, R352). -/
theorem drawWindow_draws {s : State} (hc : CanvasOk s.canvas) (x y w h : Int) {g : Colour}
    (hg : s.fb.en = true → ∀ m', AgreeOutside s s.mem m' → ∀ px py, Visible s.canvas x y w h px py →
      g m' (px - s16 s.canvas.originX) (py - s16 s.canvas.originY) =
        g s.mem (px - s16 s.canvas.originX) (py - s16 s.canvas.originY)) :
    Draws s (drawWindow x y w h g s) x y w h (g s.mem) := by
  unfold Draws
  split
  · rename_i hv; simp [drawWindow, hv]
  · rename_i v hv
    have hcor := clip_corners hc hv
    have hvis := clip_some_iff_visible hv
    simp only [drawWindow, hv, putWindow]
    split
    · rename_i hen
      -- the colour, restricted to the visible points
      let f : Colour := fun m vx vy =>
        if Visible s.canvas x y w h vx vy then g m (vx - s16 s.canvas.originX) (vy - s16 s.canvas.originY) else 0
      have hfg : ∀ (ps : List (Int × Int)) (m : Memory), (∀ p ∈ ps, Visible s.canvas x y w h p.1 p.2) →
          paint s (fun m vx vy => g m (vx - s16 s.canvas.originX) (vy - s16 s.canvas.originY)) m ps = paint s f m ps := by
        intro ps
        induction ps with
        | nil => intros; rfl
        | cons p ps ih =>
          intro m hp
          simp only [paint]
          rw [ih _ fun q hq => hp q (by simp [hq])]
          simp only [f, if_pos (hp p (by simp))]
      have hf : f.Stable s s.mem := by
        intro m' hm' px py _
        simp only [f]
        split
        · rename_i hp; exact hg hen m' hm' px py hp
        · rfl
      have hps : ∀ p ∈ rectPoints v.vx0 v.vy0 v.vx1 v.vy1, Visible s.canvas x y w h p.1 p.2 := fun p hp =>
        (hvis p.1 p.2).1 ((mem_rectPoints _ _ _ _ p).1 hp)
      have hd := dirtyUnion_exact (x0 := v.vx0) (y0 := v.vy0) (x1 := v.vx1 - 1) (y1 := v.vy1 - 1) s.dirty (by omega) (by omega)
        (by omega) (by omega)
      refine ⟨rfl, ⟨fun px py hq hp => ?_, fun px py hq hp => ?_, fun a ha => ?_⟩, hd⟩
      · show fbReadIn s (paint s _ s.mem _) px py = _
        rw [hfg _ _ hps, fbReadIn_paint hc hf hq _ _ (fun p hp => onCanvas_of_visible hc (hps p hp)) (.refl _ _),
          if_pos ((mem_rectPoints _ _ _ _ (px, py)).2 ((hvis px py).2 hp))]
        simp only [f, if_pos hp]
      · show fbReadIn s (paint s _ s.mem _) px py = _
        rw [hfg _ _ hps, fbReadIn_paint hc hf hq _ _ (fun p hp => onCanvas_of_visible hc (hps p hp)) (.refl _ _),
          if_neg fun hm => hp (hps _ hm)]
        rfl
      · show Memory.read (paint s _ s.mem _) a = _
        exact read_paint_of_out _ _ fun p hp => ha p.1 p.2 (onCanvas_of_visible hc (hps p hp)) (hps p hp)
    · exact ⟨_, rfl, isSession_map hcor.2.1 hcor.2.2.2.2.1 _⟩

/-- What DrawRect does (R159). -/
theorem drawRect_draws {s : State} (hc : CanvasOk s.canvas) (x y w h : Int) (c : Half) :
    Draws s (drawRect x y w h c s) x y w h fun _ _ => c :=
  drawWindow_draws hc x y w h fun _ _ _ _ _ _ => rfl

end Sys2Proof.Machine
end

