-- ==== Sys2Proof/Laws/Frames.lean ====
section
/-! SUPPORT. What a character draw can change before it writes the cursor and the bookkeeping: memory, the dirty rectangle, the trace, the
environment's answers, and the hidden state (45_font_scalable.md R245, 46_font_fixed.md R280). -/

namespace Sys2Proof.Machine

/-- `t` differs from `s` in memory, dirty rectangle, trace, environment and hidden state only. -/
def DrawFrame (s t : State) : Prop :=
  t = { s with mem := t.mem, dirty := t.dirty, trace := t.trace, env := t.env, linebuf := t.linebuf, bitcur := t.bitcur }

theorem DrawFrame.refl (s : State) : DrawFrame s s := rfl

theorem DrawFrame.trans {s t u : State} (h1 : DrawFrame s t) (h2 : DrawFrame t u) : DrawFrame s u := by
  unfold DrawFrame at *
  rw [h2, h1]

/-- A loop of draws is a draw. -/
theorem DrawFrame.foldl {α : Type} {f : State → α → State} (h : ∀ s a, DrawFrame s (f s a)) :
    ∀ (l : List α) (s : State), DrawFrame s (l.foldl f s)
  | [], s => .refl s
  | a :: l, s => (h s a).trans (DrawFrame.foldl h l (f s a))

namespace DrawFrame
variable {s t : State} (h : DrawFrame s t)
include h
theorem params : t.params = s.params := by rw [h]
theorem canvas : t.canvas = s.canvas := by rw [h]
theorem fb : t.fb = s.fb := by rw [h]
theorem ill : t.ill = s.ill := by rw [h]
theorem result : t.result = s.result := by rw [h]
theorem text : t.text = s.text := by rw [h]
theorem font : t.font = s.font := by rw [h]
theorem last : t.last = s.last := by rw [h]
theorem port : t.port = s.port := by rw [h]
theorem unmapped : t.unmapped = s.unmapped := by rw [h]
theorem waiting : t.waiting = s.waiting := by rw [h]
theorem asyncBusy : t.asyncBusy = s.asyncBusy := by rw [h]
end DrawFrame

theorem drawFrame_drawWindow (x y w h : Int) (g : Colour) (s : State) : DrawFrame s (drawWindow x y w h g s) := by
  unfold DrawFrame
  rw [drawWindow_frame]

theorem drawFrame_drawRect (x y w h : Int) (c : Half) (s : State) : DrawFrame s (drawRect x y w h c s) :=
  drawFrame_drawWindow _ _ _ _ _ _

theorem drawFrame_drawPixel (x y : Int) (c : Half) (s : State) : DrawFrame s (drawPixel x y c s) :=
  drawFrame_drawRect _ _ 1 1 _ _

theorem drawFrame_moveRow (n y : Int) (s : State) : DrawFrame s (moveRow n y s) := by
  unfold moveRow
  split
  · split
    · exact rfl
    · exact rfl
  · exact .refl s

/-- ScrollUp changes no register but the dirty rectangle (R262). -/
theorem drawFrame_scrollUp (n : Int) (s : State) : DrawFrame s (scrollUp n s) := by
  unfold scrollUp
  split
  · exact .refl s
  · exact (DrawFrame.foldl (fun t y => drawFrame_moveRow n y t) _ s).trans (drawFrame_drawRect _ _ _ _ _ _)

theorem drawFrame_placePen (s : State) (right lineh : Int) : DrawFrame s (placePen s right lineh).2 := by
  unfold placePen
  dsimp only
  split
  · exact drawFrame_scrollUp _ _
  · exact .refl s

theorem drawFrame_drawFixedRow (b : List Byte) (cx cy sx sy : Int) (fg : Half) (s : State) (row : Nat) :
    DrawFrame s (drawFixedRow b cx cy sx sy fg s row) := DrawFrame.foldl (fun _ _ => drawFrame_drawRect _ _ _ _ _ _) _ s

theorem drawFrame_drawFixedTransparent (b : List Byte) (cx cy sx sy : Int) (s : State) :
    DrawFrame s (drawFixedTransparent b cx cy sx sy s) := DrawFrame.foldl (drawFrame_drawFixedRow b cx cy sx sy _) _ s

theorem drawFrame_drawFixedOpaque (b : List Byte) (cx cy sx sy : Int) (s : State) :
    DrawFrame s (drawFixedOpaque b cx cy sx sy s) := drawFrame_drawWindow _ _ _ _ _ _

theorem drawFrame_drawGroup (ox oy : Int) (fg : Half) (s : State) (g : RowGroup) : DrawFrame s (drawGroup ox oy fg s g) :=
  DrawFrame.foldl (fun _ _ => drawFrame_drawRect _ _ _ _ _ _) _ s

theorem drawFrame_drawGroups (p : GlyphPixels) (ox oy : Int) (fg : Half) (s : State) : DrawFrame s (drawGroups p ox oy fg s) :=
  DrawFrame.foldl (drawFrame_drawGroup ox oy fg) _ s

theorem drawFrame_drawLevel (p : GlyphPixels) (threshold : Nat) (ox oy : Int) (fg : Half) (s : State) (c : Int × Int) :
    DrawFrame s (drawLevel p threshold ox oy fg s c) := by
  unfold drawLevel
  split
  · exact drawFrame_drawPixel _ _ _ _
  · exact .refl _

theorem drawFrame_drawInked (col : Int → Int → Half) (ink : Int → Int → Bool) (s : State) (p : Int × Int) :
    DrawFrame s (drawInked col ink s p) := by
  unfold drawInked
  split
  · exact drawFrame_drawPixel _ _ _ _
  · exact .refl _

theorem drawFrame_drawLevels (p : GlyphPixels) (gw gh threshold : Nat) (ox oy : Int) (fg : Half) (s : State) :
    DrawFrame s (drawLevels p gw gh threshold ox oy fg s) := DrawFrame.foldl (drawFrame_drawLevel p threshold ox oy fg) _ s

theorem drawFrame_drawOpaque (col : Int → Int → Half) (ink : Int → Int → Bool) (b : Box) (active : Bool) (lastXr : Int) (s : State) :
    DrawFrame s (drawOpaque col ink b active lastXr s) := by
  unfold drawOpaque
  dsimp only
  split
  · exact (DrawFrame.foldl (drawFrame_drawInked col ink) _ s).trans (drawFrame_drawWindow _ _ _ _ _ _)
  · exact drawFrame_drawWindow _ _ _ _ _ _

theorem drawFrame_takePixels (base : Word) (g : GlyphHeader) (s : State) : DrawFrame s (takePixels base g s).2 := by
  unfold takePixels
  dsimp only
  split <;> exact rfl

/-- Reading a glyph header moves the decode cursor and nothing else (R40, R247). -/
theorem takeHeader_frame {base : Word} {s : State} {h : GlyphHeader × State} (hh : takeHeader base s = some h) :
    h.2 = { s with bitcur := h.2.bitcur } := by
  unfold takeHeader at hh
  dsimp only at hh
  split at hh
  · cases hh
  · simp only [Option.some.injEq] at hh
    rw [← hh]
    simp only [takeS, takeU]

theorem drawFrame_takeHeader {base : Word} {s : State} {h : GlyphHeader × State} (hh : takeHeader base s = some h) :
    DrawFrame s h.2 := by
  unfold DrawFrame
  rw [takeHeader_frame hh]

/-! ## The two font machines -/

/-- What a fixed-font character changes besides pixels: the cursor, and LAST_VALID is cleared; the hidden state is dead again
(R280, R285, R287). -/
theorem drawFixed_frame (code : Nat) (s : State) : drawFixed code s = s ∨
    ∃ t x y, DrawFrame s t ∧ drawFixed code s = retireHidden (clearLast (moveCursor x y t)) := by
  unfold drawFixed
  split
  · exact .inl rfl
  · refine .inr ⟨_, _, _, ?_, rfl⟩
    refine (drawFrame_placePen s (s16 s.text.cursorX + 6 * (s.text.tsizeX.toNat : Int)) (8 * (s.text.tsizeY.toNat : Int))).trans ?_
    split
    · exact drawFrame_drawFixedTransparent _ _ _ _ _ _
    · exact drawFrame_drawFixedOpaque _ _ _ _ _ _

/-- What a glyph changes besides pixels: the cursor and the overlap bookkeeping; the hidden state is dead again (R245, R263, R268). -/
theorem drawGlyph_frame (base : Word) (g : GlyphHeader) (s : State) :
    ∃ t x y, DrawFrame s t ∧ (drawGlyph base g s = retireHidden (clearLast (moveCursor x y t)) ∨
      ∃ b, drawGlyph base g s = retireHidden (recordLast b (moveCursor x y t))) := by
  unfold drawGlyph
  dsimp only
  have hd := (drawFrame_placePen s (s16 s.text.cursorX + g.xo + g.gw) s.font.lspace.toNat).trans
    (drawFrame_takePixels base g _)
  split
  · refine ⟨_, _, _, ?_, .inl rfl⟩
    refine hd.trans ?_
    split
    · exact drawFrame_drawGroups _ _ _ _ _
    · exact drawFrame_drawLevels _ _ _ _ _ _ _ _
  · exact ⟨_, _, _, hd.trans (drawFrame_drawOpaque _ _ _ _ _ _), .inr ⟨_, rfl⟩⟩

/-- A scalable character is a skip, or a glyph at the state its header was read in (R269). -/
theorem drawScalable_frame (code : Nat) (s : State) : drawScalable code s = s ∨
    ∃ t x y, DrawFrame s t ∧ (drawScalable code s = retireHidden (clearLast (moveCursor x y t)) ∨
      ∃ b, drawScalable code s = retireHidden (recordLast b (moveCursor x y t))) := by
  unfold drawScalable
  split
  · exact .inl rfl
  · split
    · exact .inl rfl
    · rename_i hh
      obtain ⟨t, x, y, h1, h2⟩ := drawGlyph_frame _ _ _
      exact .inr ⟨t, x, y, (drawFrame_takeHeader hh).trans h1, h2⟩

/-- Everything DRAWCHAR can leave: a skip, or a drawing followed by the cursor, the bookkeeping and the retirement of the hidden state. -/
theorem drawcharState_cases (code : Half) (s : State) : drawcharState code s = s ∨
    ∃ t x y, DrawFrame s t ∧ (drawcharState code s = retireHidden (clearLast (moveCursor x y t)) ∨
      ∃ b, drawcharState code s = retireHidden (recordLast b (moveCursor x y t))) := by
  have fixed : ∀ n, drawFixed n s = s ∨ ∃ t x y, DrawFrame s t ∧ (drawFixed n s = retireHidden (clearLast (moveCursor x y t)) ∨
      ∃ b, drawFixed n s = retireHidden (recordLast b (moveCursor x y t))) := fun n =>
    (drawFixed_frame n s).imp_right fun ⟨t, x, y, h1, h2⟩ => ⟨t, x, y, h1, .inl h2⟩
  unfold drawcharState
  split
  · exact fixed _
  · exact fixed _
  · exact drawScalable_frame _ _

end Sys2Proof.Machine
end

