-- ==== Sys2Proof/Laws/Events.lean ====
section
/-! SUPPORT. What the lists of accesses do: when one stops a command (20_memory.md R79), and that replaying them leaves outside the registers
what the operation leaves (R111, 70_reset_and_hazards.md R330). -/

namespace Sys2Proof.Machine

/-! ## The guard -/

/-- A guarded command completes exactly when none of its accesses goes to an address with nothing behind it. -/
@[simp] theorem guarded_eq_next {evs : List Event} {s t u : State} : guarded evs s t = .next u ↔ blocked evs s = false ∧ t = u := by
  unfold guarded
  cases blocked evs s <;> simp

/-- Else it gets no step. -/
@[simp] theorem guarded_eq_refused {evs : List Event} {s t : State} {r : Refusal} :
    guarded evs s t = .refused r ↔ blocked evs s = true ∧ r = .unmappedAddress := by
  unfold guarded
  cases blocked evs s <;> simp [eq_comm]

theorem guarded_of_mapped {evs : List Event} {s t : State} (h : blocked evs s = false) : guarded evs s t = .next t := by
  simp [h]

@[simp] theorem blocked_nil (s : State) : blocked [] s = false := by simp [blocked]

@[simp] theorem blocked_cons (e : Event) (evs : List Event) (s : State) :
    blocked (e :: evs) s = (blocked [e] s || blocked evs s) := by
  simp only [blocked, List.any_cons, List.any_nil, Bool.or_false]
  induction s.unmapped with
  | nil => rfl
  | cons r rs ih => simp only [List.any_cons, ih]; cases e.touches r <;> cases evs.any (Event.touches r) <;> simp

@[simp] theorem blocked_append (as bs : List Event) (s : State) : blocked (as ++ bs) s = (blocked as s || blocked bs s) := by
  induction as with
  | nil => simp
  | cons a as ih => rw [List.cons_append, blocked_cons, ih, blocked_cons a as, Bool.or_assoc]

@[simp] theorem blocked_port (t : Transaction) (s : State) : blocked [.port t] s = false := by
  simp [blocked, Event.touches]

/-- With nothing unmapped no command is stopped. -/
theorem blocked_of_all_mapped {s : State} (h : s.unmapped = []) (evs : List Event) : blocked evs s = false := by
  simp [blocked, h]

/-! ## Replaying -/

@[simp] theorem replay_nil (s : State) : replay [] s = s := rfl

@[simp] theorem replay_cons (e : Event) (evs : List Event) (s : State) : replay (e :: evs) s = replay evs (applyEvent s e) := rfl

@[simp] theorem replay_append (as bs : List Event) (s : State) : replay (as ++ bs) s = replay bs (replay as s) :=
  List.foldl_append ..

theorem SameOutside.refl (s : State) : SameOutside s s := ⟨rfl, rfl, rfl, rfl⟩

theorem SameOutside.trans {s t u : State} (h1 : SameOutside s t) (h2 : SameOutside t u) : SameOutside s u :=
  ⟨h1.1.trans h2.1, h1.2.1.trans h2.2.1, h1.2.2.1.trans h2.2.2.1, h1.2.2.2.trans h2.2.2.2⟩

/-- What an access leaves outside the registers depends on nothing but what was there. -/
theorem sameOutside_applyEvent {s t : State} (h : SameOutside s t) (e : Event) : SameOutside (applyEvent s e) (applyEvent t e) := by
  obtain ⟨hm, ht, he, ha⟩ := h
  cases e with
  | load a n => exact ⟨hm, ht, he, ha⟩
  | store a b => exact ⟨by simp [applyEvent, hm], ht, he, ha⟩
  | port t =>
    cases t with
    | alloc size align answer =>
      cases answer <;> exact ⟨by simp [applyEvent, applyTransaction, hm, he], by simp [applyEvent, applyTransaction, ht],
        by simp [applyEvent, applyTransaction, he], by simp [applyEvent, applyTransaction, ha]⟩
    | _ => exact ⟨by simp [applyEvent, applyTransaction, hm], by simp [applyEvent, applyTransaction, ht],
        by simp [applyEvent, applyTransaction, he, ha], by simp [applyEvent, applyTransaction, ha]⟩

theorem sameOutside_replay {s t : State} (h : SameOutside s t) : ∀ evs, SameOutside (replay evs s) (replay evs t)
  | [] => h
  | e :: evs => sameOutside_replay (sameOutside_applyEvent h e) evs

/-- The accesses `evs`, from `s`, leave outside the registers what `t` has there. -/
def Replays (evs : List Event) (s t : State) : Prop := SameOutside (replay evs s) t

theorem Replays.refl (s : State) : Replays [] s s := SameOutside.refl s

theorem Replays.append {as bs : List Event} {s t u : State} (h1 : Replays as s t) (h2 : Replays bs t u) : Replays (as ++ bs) s u := by
  unfold Replays
  rw [replay_append]
  exact (sameOutside_replay h1 bs).trans h2

/-- The registers play no part. -/
theorem Replays.congr {evs : List Event} {s s' t t' : State} (hs : SameOutside s' s) (ht : SameOutside t t') (h : Replays evs s t) :
    Replays evs s' t' := ((sameOutside_replay hs evs).trans h).trans ht

/-- A transaction without an answer is its entry in the trace. -/
theorem replays_pixel (c : Half) (s : State) : Replays [.port (.pixel c)] s (emit [.pixel c] s) := ⟨rfl, rfl, rfl, rfl⟩

theorem replays_finish (s : State) : Replays [.port .finish] s (emit [.finish] s) := ⟨rfl, rfl, rfl, rfl⟩

theorem Replays.to {evs : List Event} {s t t' : State} (h : Replays evs s t) (ht : SameOutside t t') : Replays evs s t' :=
  SameOutside.trans h ht

/-- Reads leave everything. -/
theorem replays_loads {evs : List Event} (h : ∀ e ∈ evs, ∃ a n, e = .load a n) (s : State) : Replays evs s s := by
  induction evs with
  | nil => exact .refl s
  | cons e evs ih =>
    obtain ⟨a, n, rfl⟩ := h e (by simp)
    exact ih fun e he => h e (by simp [he])

/-- A loop replays if every turn does. -/
theorem Replays.loop {α : Type} {body : State → α → State} {events : State → α → List Event}
    (h : ∀ s a, Replays (events s a) s (body s a)) : ∀ (l : List α) (s : State), Replays (loopEvents body events l s) s (l.foldl body s)
  | [], s => .refl s
  | a :: l, s => (h s a).append (Replays.loop h l (body s a))

/-! ## The shared operations -/

theorem replay_storeHalf (a : Word) (v : Half) (s : State) :
    replay (storeHalf a v) s = { s with mem := Memory.write16 s.mem a v } := rfl

theorem replay_storePixel (s t : State) (x y : Int) (v : Word) :
    replay (storePixel s x y v) t = { t with mem := fbWriteIn s t.mem x y v } := by
  unfold storePixel fbWriteIn writePixelAt
  cases s.params.depth <;> rfl

theorem replays_paintEvents (s : State) (f : Colour) {reads : Reads} (hr : ∀ m x y, ∀ e ∈ reads m x y, ∃ a n, e = .load a n) :
    ∀ (ps : List (Int × Int)) (t : State), Replays (paintEvents s f reads t.mem ps) t { t with mem := paint s f t.mem ps }
  | [], t => .refl t
  | p :: ps, t => by
    refine ((replays_loads (hr _ _ _) t).append (?_ : Replays _ t { t with mem := _ })).append (replays_paintEvents s f hr ps _)
    unfold Replays
    rw [replay_storePixel]
    exact .refl _

/-- Reads and PIXELs append the PIXELs. -/
theorem replays_pixels {α : Type} (l : List α) {loads : α → List Event} {colour : α → Half}
    (h : ∀ a, ∀ e ∈ loads a, ∃ b n, e = .load b n) (s : State) :
    Replays (l.flatMap fun a => loads a ++ [.port (.pixel (colour a))]) s (emit (l.map fun a => .pixel (colour a)) s) := by
  induction l generalizing s with
  | nil => exact ⟨rfl, by simp, rfl, rfl⟩
  | cons a l ih =>
    rw [List.flatMap_cons]
    refine ((replays_loads (h a) s).append (replays_pixel (colour a) s)).append ((ih _).congr (.refl _) ?_)
    exact ⟨rfl, by simp, rfl, rfl⟩

/-- A session replays as its transactions. -/
theorem replays_session (x0 y0 x1 y1 : Int) {evs : List Event} {pixels : List Half}
    (h : ∀ s, Replays evs s (emit (pixels.map Transaction.pixel) s)) (s : State) :
    Replays (sessionEvents x0 y0 x1 y1 evs) s (emit (session x0 y0 x1 y1 pixels) s) := by
  have h1 : Replays [.port (.setAddr (wrap16 x0) (wrap16 y0) (wrap16 x1) (wrap16 y1)), .port .begin] s
      (emit [.setAddr (wrap16 x0) (wrap16 y0) (wrap16 x1) (wrap16 y1), .begin] s) := ⟨rfl, by simp [applyEvent, applyTransaction], rfl, rfl⟩
  have h2 := h1.append ((h _).append (replays_finish _))
  exact Replays.to h2 ⟨rfl, by simp [session], rfl, rfl⟩

theorem replays_putWindow (vx0 vy0 vx1 vy1 : Int) (f : Colour) {reads : Reads} (hr : ∀ m x y, ∀ e ∈ reads m x y, ∃ a n, e = .load a n)
    (s : State) : Replays (putWindowEvents vx0 vy0 vx1 vy1 f reads s) s (putWindow vx0 vy0 vx1 vy1 f s) := by
  unfold putWindowEvents putWindow
  split
  · exact (replays_paintEvents s f hr _ s).congr (.refl s) ⟨rfl, rfl, rfl, rfl⟩
  · refine replays_session _ _ _ _ (fun t => ?_) s
    rw [List.map_map]
    exact replays_pixels _ (fun p => hr _ _ _) t

/-- Replaying a window's accesses leaves what the window leaves. -/
theorem replays_drawWindow (x y w h : Int) (g : Colour) {reads : Reads} (hr : ∀ m x y, ∀ e ∈ reads m x y, ∃ a n, e = .load a n) (s : State) :
    Replays (drawWindowEvents x y w h g reads s) s (drawWindow x y w h g s) := by
  unfold drawWindowEvents drawWindow
  cases clip s.canvas x y w h with
  | none => exact .refl s
  | some v => exact replays_putWindow _ _ _ _ _ (fun _ _ _ => hr _ _ _) s

theorem replays_drawRect (x y w h : Int) (c : Half) (s : State) : Replays (drawRectEvents x y w h c s) s (drawRect x y w h c s) :=
  replays_drawWindow _ _ _ _ _ (by simp [noReads]) s

theorem replays_drawPixel (x y : Int) (c : Half) (s : State) : Replays (drawPixelEvents x y c s) s (drawPixel x y c s) :=
  replays_drawRect _ _ 1 1 _ _

theorem loadField_loads (b : Word) (k : Int) (n : Nat) : ∀ e ∈ loadField b k n, ∃ a m, e = .load a m := by
  unfold loadField
  split <;> simp

/-! ## READRECT -/

theorem replays_copyOut (s : State) (v : Vis) (w : Int) (dst : Word) : ∀ (ps : List (Int × Int)) (t : State),
    Replays (copyOutEvents s v w dst t.mem ps) t { t with mem := copyOut s v w dst t.mem ps }
  | [], t => .refl t
  | _ :: ps, t => replays_copyOut s v w dst ps { t with mem := _ }

theorem replays_storeAnswer (v : Vis) (w : Int) (dst : Word) : ∀ (ps : List (Int × Int)) (cs : List Half) (t : State),
    Replays (storeAnswerEvents v w dst ps cs) t { t with mem := storeAnswer v w dst t.mem ps cs }
  | [], cs, t => by cases cs <;> exact .refl t
  | _ :: _, [], t => .refl t
  | p :: ps, c :: cs, t => replays_storeAnswer v w dst ps cs { t with mem := _ }

theorem replays_askRead (x y w h : Int) (s : State) : Replays [askReadEvent x y w h s] s (askRead x y w h s).2 := by
  refine ⟨rfl, rfl, ?_, rfl⟩
  simp [askReadEvent, askRead, applyEvent, applyTransaction, Env.nextPixels]

/-! ## ScrollUp -/

theorem replays_moveRowShadow (x0 x1 sy dy : Int) (s : State) :
    Replays (moveRowShadowEvents x0 x1 sy dy s) s (moveRowShadow x0 x1 sy dy s) := by
  have hw : ∀ (l : List (Int × Word)) (t : State), Replays (l.flatMap fun c => storePixel s c.1 dy c.2) t
      { t with mem := l.foldl (fun m c => fbWriteIn s m c.1 dy c.2) t.mem } := by
    intro l
    induction l with
    | nil => exact fun t => .refl t
    | cons c l ih =>
      intro t
      refine Replays.append (t := { t with mem := fbWriteIn s t.mem c.1 dy c.2 }) ?_ (ih _)
      unfold Replays
      rw [replay_storePixel]
      exact .refl _
  refine Replays.to ((replays_loads ?_ s).append (hw _ s)) ⟨rfl, rfl, rfl, rfl⟩
  intro e he
  obtain ⟨x, -, rfl⟩ := List.mem_map.mp he
  exact ⟨_, _, rfl⟩

theorem replays_moveRowDirect (x0 x1 sy dy : Int) (s : State) :
    Replays (moveRowDirectEvents x0 x1 sy dy s) s (moveRowDirect x0 x1 sy dy s) := by
  have hp : ∀ t, Replays ((askRead x0 sy (x1 - x0) 1 s).1.map fun c => .port (.pixel c)) t
      (emit ((askRead x0 sy (x1 - x0) 1 s).1.map Transaction.pixel) t) := by
    intro t
    simpa [← List.map_eq_flatMap] using
      replays_pixels (askRead x0 sy (x1 - x0) 1 s).1 (loads := fun _ => []) (colour := id) (by simp) t
  refine Replays.to ((replays_askRead x0 sy (x1 - x0) 1 s).append (replays_session x0 dy (x1 - 1) dy hp _)) ⟨rfl, ?_, rfl, rfl⟩
  have hc : ∀ c : Half, (c.setWidth 32).setWidth 16 = c := fun c => by simp
  simp [moveRowDirect, Function.comp_def, hc]

theorem replays_moveRow (n y : Int) (s : State) : Replays (moveRowEvents n y s) s (moveRow n y s) := by
  unfold moveRowEvents moveRow
  split
  · split
    · exact replays_moveRowShadow _ _ _ _ _
    · exact replays_moveRowDirect _ _ _ _ _
  · exact .refl s

/-- Replaying ScrollUp's accesses leaves what ScrollUp leaves. -/
theorem replays_scrollUp (n : Int) (s : State) : Replays (scrollUpEvents n s) s (scrollUp n s) := by
  unfold scrollUpEvents scrollUp
  split
  · exact .refl s
  · refine (Replays.loop (fun t y => replays_moveRow n y t) _ s).append ?_
    exact replays_drawRect _ _ _ _ _ _

theorem replays_placePen (s : State) (right lineh : Int) : Replays (placePenEvents s right lineh) s (placePen s right lineh).2 := by
  unfold placePenEvents placePen
  dsimp only
  split
  · exact replays_scrollUp _ _
  · exact .refl s

end Sys2Proof.Machine
end

