-- ==== Sys2Proof/Laws/Scroll.lean ====
section
/-! SUPPORT. One row of ScrollUp in shadow mode (45_font_scalable.md R262): the row's raw pixels through LINEBUF to the row above. -/

namespace Sys2Proof.Machine

theorem zip_map_self {α β : Type} (f : α → β) : ∀ l : List α, l.zip (l.map f) = l.map fun a => (a, f a)
  | [] => rfl
  | a :: l => by simp [zip_map_self f l]

/-- Raw values stored along a row are read back, and the rest of the canvas keeps its values. -/
theorem fbReadIn_foldl_row {s : State} (hc : CanvasOk s.canvas) {dy : Int} (g : Int → Word) {qx qy : Int}
    (hq : OnCanvas s.canvas qx qy) : ∀ (l : List Int) (m : Memory), (∀ x ∈ l, OnCanvas s.canvas x dy) →
      fbReadIn s ((l.map fun x => (x, g x)).foldl (fun m c => fbWriteIn s m c.1 dy c.2) m) qx qy =
        if qx ∈ l ∧ qy = dy then storedPixel s.params.depth (g qx) else fbReadIn s m qx qy
  | [], _, _ => by simp
  | x :: l, m, hl => by
    rw [List.map_cons, List.foldl_cons, fbReadIn_foldl_row hc g hq l _ fun y hy => hl y (by simp [hy]),
      fbReadIn_fbWriteIn hc _ (hl x (by simp)) hq]
    by_cases h1 : qx ∈ l ∧ qy = dy
    · rw [if_pos h1, if_pos ⟨by simp [h1.1], h1.2⟩]
    · rw [if_neg h1]
      by_cases h2 : x = qx ∧ dy = qy
      · obtain ⟨h2, h3⟩ := h2
        rw [if_pos ⟨h2, h3⟩, if_pos ⟨by simp [h2], h3.symm⟩, h2]
      · rw [if_neg h2, if_neg]
        rintro ⟨h3, h4⟩
        rcases List.mem_cons.1 h3 with h3 | h3
        · exact h2 ⟨h3.symm, h4.symm⟩
        · exact h1 ⟨h3, h4⟩

theorem read_foldl_row_of_out {s : State} {dy : Int} (g : Int → Word) {a : Word} : ∀ (l : List Int) (m : Memory),
    (∀ x ∈ l, ¬ PixelByte s x dy a) →
      Memory.read ((l.map fun x => (x, g x)).foldl (fun m c => fbWriteIn s m c.1 dy c.2) m) a = Memory.read m a
  | [], _, _ => rfl
  | x :: l, m, hl => by
    rw [List.map_cons, List.foldl_cons, read_foldl_row_of_out g l _ fun y hy => hl y (by simp [hy])]
    exact read_fbWriteIn_of_out _ _ (hl x (by simp))

/-- What one moved row does: row `dy` of the columns takes the raw pixels row `sy` had. -/
theorem moveRowShadow_effect {s : State} (hc : CanvasOk s.canvas) {x0 x1 sy dy : Int}
    (hd : ∀ x, x0 ≤ x → x < x1 → OnCanvas s.canvas x dy) :
    ShadowEffect s (moveRowShadow x0 x1 sy dy s) (fun px py => (x0 ≤ px ∧ px < x1) ∧ py = dy) fun px _ => fbRead s px sy := by
  have hm : (moveRowShadow x0 x1 sy dy s).mem =
      ((intRange x0 x1).map fun x => (x, fbRead s x sy)).foldl (fun m c => fbWriteIn s m c.1 dy c.2) s.mem := by
    simp only [moveRowShadow]
    rw [zip_map_self]
    rfl
  have hl : ∀ x ∈ intRange x0 x1, OnCanvas s.canvas x dy := fun x hx =>
    hd x ((mem_intRange _ _ _).1 hx).1 ((mem_intRange _ _ _).1 hx).2
  refine ⟨fun px py hq hp => ?_, fun px py hq hp => ?_, fun a ha => ?_⟩
  · show fbReadIn s (moveRowShadow x0 x1 sy dy s).mem px py = _
    rw [hm, fbReadIn_foldl_row hc _ hq _ _ hl, if_pos ⟨by simpa using hp.1, hp.2⟩, storedPixel_fbRead]
  · show fbReadIn s (moveRowShadow x0 x1 sy dy s).mem px py = _
    rw [hm, fbReadIn_foldl_row hc _ hq _ _ hl, if_neg (by simpa using hp)]
    rfl
  · rw [hm]
    exact read_foldl_row_of_out _ _ _ fun x hx => ha x dy (hl x hx) ⟨(mem_intRange _ _ _).1 hx, rfl⟩

/-! ## Effects one after the other -/

/-- A draw leaves what `fbRead` depends on: two states that agree on canvas, mirror and parameters read a memory alike. -/
theorem fbReadIn_congr {s t : State} (hp : t.params = s.params) (hc : t.canvas = s.canvas) (hf : t.fb = s.fb) (m : Memory) (x y : Int) :
    fbReadIn t m x y = fbReadIn s m x y := by
  simp only [fbReadIn, fbAddr, hp, hc, hf]

theorem pixelByte_congr {s t : State} (hp : t.params = s.params) (hc : t.canvas = s.canvas) (hf : t.fb = s.fb) (x y : Int) (a : Word) :
    PixelByte t x y a ↔ PixelByte s x y a := by
  simp only [PixelByte, fbAddr, hp, hc, hf]

/-- Two effects in a row are one: the later value where both touch. -/
theorem ShadowEffect.trans {s t u : State} (hf : DrawFrame s t) {A B : Int → Int → Prop} {f g : Int → Int → Word}
    (h1 : ShadowEffect s t A f) (h2 : ShadowEffect t u B g) {C : Int → Int → Prop} {k : Int → Int → Word}
    (hC : ∀ px py, C px py ↔ A px py ∨ B px py) (hB : ∀ px py, B px py → k px py = g px py)
    (hA : ∀ px py, A px py → ¬ B px py → k px py = f px py) : ShadowEffect s u C k := by
  have hcan := hf.canvas
  obtain ⟨a1, a2, a3⟩ := h1
  obtain ⟨b1, b2, b3⟩ := h2
  rw [hcan] at b1 b2 b3
  refine ⟨fun px py ho hp => ?_, fun px py ho hp => ?_, fun a ha => ?_⟩
  · by_cases hb : B px py
    · rw [b1 px py ho hb, hB px py hb]
    · have haa : A px py := ((hC px py).1 hp).resolve_right hb
      rw [b2 px py ho hb, a1 px py ho haa, hA px py haa hb]
  · have := mt (hC px py).2 hp
    rw [b2 px py ho fun h => this (.inr h), a2 px py ho fun h => this (.inl h)]
  · rw [b3 a fun px py ho hb => ?_, a3 a fun px py ho hp => ha px py ho ((hC px py).2 (.inl hp))]
    rw [pixelByte_congr hf.params hf.canvas hf.fb]
    exact ha px py ho ((hC px py).2 (.inr hb))

/-- Nothing touched. -/
theorem ShadowEffect.refl (s : State) {A : Int → Int → Prop} (hA : ∀ px py, ¬ A px py) (f : Int → Int → Word) : ShadowEffect s s A f :=
  ⟨fun px py _ h => absurd h (hA px py), fun _ _ _ _ => rfl, fun _ _ => rfl⟩

theorem ShadowEffect.congr {s t : State} {A B : Int → Int → Prop} {f g : Int → Int → Word} (h : ShadowEffect s t A f)
    (hA : ∀ px py, B px py ↔ A px py) (hf : ∀ px py, B px py → g px py = f px py) : ShadowEffect s t B g :=
  ⟨fun px py ho hp => by rw [h.1 px py ho ((hA px py).1 hp), hf px py hp],
   fun px py ho hp => h.2.1 px py ho fun h' => hp ((hA px py).2 h'),
   fun a ha => h.2.2 a fun px py ho hp => ha px py ho ((hA px py).2 hp)⟩

/-- What DrawWindow does to memory in shadow mode, visible or not. -/
theorem drawWindow_shadow {s : State} (hc : CanvasOk s.canvas) (hen : s.fb.en = true) (x y w h : Int) {g : Colour}
    (hg : ∀ m' lx ly, g m' lx ly = g s.mem lx ly) :
    ShadowEffect s (drawWindow x y w h g s) (fun px py => Visible s.canvas x y w h px py)
      (fun px py => toFB s.params.depth (g s.mem (px - s16 s.canvas.originX) (py - s16 s.canvas.originY))) := by
  have h := drawWindow_draws hc x y w h (g := g) fun _ m' _ px py _ => hg m' _ _
  unfold Draws at h
  split at h
  · rename_i hv
    rw [h]
    exact .refl s (clip_none hv) _
  · rw [if_pos hen] at h
    exact h.2.1

end Sys2Proof.Machine
end

