-- ==== Sys2Proof/Laws/Glyphs.lean ====
section
/-! SUPPORT. What the two font machines are built from: maximal runs of a row (45_font_scalable.md R257, 46_font_fixed.md R283), loops of
rectangles in one colour, the row groups of a 1-bit glyph (R251) and the levels of a glyph (R252). -/

namespace Sys2Proof.Machine

/-! ## Maximal runs -/

/-- The runs found from a position on, with a run open: they cover the open run and the set positions of what is left. -/
theorem mem_runsFrom (i : Nat) : ∀ (row : List Bool) (pos : Nat) (run : Option (Nat × Nat)),
    (∀ r ∈ run, r.1 + r.2 = pos) →
    ((∃ r ∈ runsFrom pos run row, r.1 ≤ i ∧ i < r.1 + r.2) ↔
      (∃ r ∈ run, r.1 ≤ i ∧ i < r.1 + r.2) ∨ (pos ≤ i ∧ row[i - pos]? = some true))
  | [], pos, run, _ => by cases run <;> simp [runsFrom]
  | true :: rest, pos, none, _ => by
    rw [runsFrom, mem_runsFrom i rest (pos + 1) (some (pos, 1)) (by simp)]
    simp only [Option.mem_def, Option.some.injEq, exists_eq_left', reduceCtorEq, false_and, exists_false, false_or]
    constructor
    · rintro (h | ⟨h1, h2⟩)
      · have : i = pos := by omega
        simp [this]
      · refine ⟨by omega, ?_⟩
        rwa [show i - pos = (i - (pos + 1)) + 1 by omega, List.getElem?_cons_succ]
    · rintro ⟨h1, h2⟩
      by_cases h : i = pos
      · left; omega
      · right
        refine ⟨by omega, ?_⟩
        rwa [show i - pos = (i - (pos + 1)) + 1 by omega, List.getElem?_cons_succ] at h2
  | true :: rest, pos, some (a, n), hr => by
    have ha : a + n = pos := hr (a, n) rfl
    rw [runsFrom, mem_runsFrom i rest (pos + 1) (some (a, n + 1)) (by simp; omega)]
    simp only [Option.mem_def, Option.some.injEq, exists_eq_left']
    constructor
    · rintro (h | ⟨h1, h2⟩)
      · by_cases h' : i = pos
        · right; simp [h']
        · left; omega
      · right
        refine ⟨by omega, ?_⟩
        rwa [show i - pos = (i - (pos + 1)) + 1 by omega, List.getElem?_cons_succ]
    · rintro (h | ⟨h1, h2⟩)
      · left; omega
      · by_cases h : i = pos
        · left; omega
        · right
          refine ⟨by omega, ?_⟩
          rwa [show i - pos = (i - (pos + 1)) + 1 by omega, List.getElem?_cons_succ] at h2
  | false :: rest, pos, run, hr => by
    rw [runsFrom]
    simp only [List.mem_append, or_and_right, exists_or, Option.mem_toList]
    rw [mem_runsFrom i rest (pos + 1) none (by simp)]
    simp only [Option.mem_def, reduceCtorEq, false_and, exists_false, false_or]
    apply or_congr Iff.rfl
    constructor
    · rintro ⟨h1, h2⟩
      refine ⟨by omega, ?_⟩
      rwa [show i - pos = (i - (pos + 1)) + 1 by omega, List.getElem?_cons_succ]
    · rintro ⟨h1, h2⟩
      have : i ≠ pos := by rintro rfl; simp at h2
      refine ⟨by omega, ?_⟩
      rwa [show i - pos = (i - (pos + 1)) + 1 by omega, List.getElem?_cons_succ] at h2

/-- The maximal runs of a row cover exactly its set positions. -/
theorem mem_maximalRuns (row : List Bool) (i : Nat) :
    (∃ r ∈ maximalRuns row, r.1 ≤ i ∧ i < r.1 + r.2) ↔ row[i]? = some true := by
  rw [maximalRuns, mem_runsFrom i row 0 none (by simp)]
  simp

/-! ## Loops of draws in one colour -/

/-- A loop of draws touches what its turns touch, when every turn stores the same values. -/
theorem ShadowEffect.foldl {α : Type} {s0 : State} {f : State → α → State} {T : α → Int → Int → Prop} {raw : Int → Int → Word}
    (hf : ∀ t a, DrawFrame t (f t a)) (h : ∀ t a, DrawFrame s0 t → ShadowEffect t (f t a) (T a) raw) :
    ∀ (l : List α) (t : State), DrawFrame s0 t → ShadowEffect t (l.foldl f t) (fun px py => ∃ a ∈ l, T a px py) raw
  | [], t, _ => .refl t (by simp) _
  | a :: l, t, ht =>
    (h t a ht).trans (hf t a) (ShadowEffect.foldl hf h l (f t a) (ht.trans (hf t a))) (fun px py => by simp)
      (fun _ _ _ => rfl) fun _ _ _ _ => rfl

/-- One rectangle of a loop. -/
theorem drawRect_effect {s0 t : State} (hc : CanvasOk s0.canvas) (hen : s0.fb.en = true) (hf : DrawFrame s0 t) (x y w h : Int) (c : Half) :
    ShadowEffect t (drawRect x y w h c t) (fun px py => Visible s0.canvas x y w h px py) fun _ _ => toFB s0.params.depth c := by
  have := drawWindow_shadow (s := t) (by rw [hf.canvas]; exact hc) (by rw [hf.fb]; exact hen) x y w h (g := fun _ _ _ => c)
    fun _ _ _ => rfl
  rwa [hf.canvas, hf.params] at this

/-! ## Row groups -/

/-- A 3-bit field is below 8. -/
theorem fetchU_three_lt (m : Memory) (b : Word) (k : Int) : fetchU m b k 3 < 8 := by
  simp only [fetchU, List.range_succ, List.range_zero, List.nil_append, List.cons_append, List.foldl_cons, List.foldl_nil]
  have h0 := (fetchBit m b (k + (0 : Nat))).toNat_lt
  have h1 := (fetchBit m b (k + (1 : Nat))).toNat_lt
  have h2 := (fetchBit m b (k + (2 : Nat))).toNat_lt
  omega

/-- One row group: 1 to 9 rows, never past the glyph's height, and the cursor moves on (R251). -/
theorem decodeGroups_succ {m : Memory} {base : Word} {gw gh fuel r k : Nat} (hr : r < gh) :
    ∃ cnt k1 pat, 1 ≤ cnt ∧ cnt ≤ 9 ∧ cnt ≤ gh - r ∧ k < k1 ∧ pat.length = gw ∧
      decodeGroups m base gw gh (fuel + 1) r k =
        ({ r0 := r, cnt := cnt, pat := pat } :: (decodeGroups m base gw gh fuel (r + cnt) k1).1,
         (decodeGroups m base gw gh fuel (r + cnt) k1).2) := by
  have h8 := fetchU_three_lt m base ((k : Int) + 1)
  refine ⟨_, _, _, ?_, ?_, ?_, ?_, ?_, by rw [decodeGroups, if_pos hr]⟩
  · split <;> omega
  · split <;> omega
  · exact min_le_right _ _
  · split <;> omega
  · simp

/-- The groups of a 1-bit glyph from row `r` on: each has 1 to 9 rows of `gw` bits, they follow one another from `r`, and with fuel
enough they end at row `gh`; the cursor never goes back (R40, R251). -/
theorem decodeGroups_spec (m : Memory) (base : Word) (gw gh : Nat) : ∀ (fuel r k : Nat), gh ≤ r + fuel → r ≤ gh →
    ∀ d, decodeGroups m base gw gh fuel r k = d →
    (∀ g ∈ d.1, 1 ≤ g.cnt ∧ g.cnt ≤ 9 ∧ g.pat.length = gw) ∧
    (∀ n (hn : n < d.1.length), d.1[n].r0 = r + ((d.1.take n).map fun g => g.cnt).sum) ∧
    r + (d.1.map fun g => g.cnt).sum = gh ∧ k ≤ d.2 ∧ (r < gh → k < d.2)
  | 0, r, k, h1, h2, d, hd => by
    have : r = gh := by omega
    subst hd
    simp [decodeGroups, this]
  | fuel + 1, r, k, h1, h2, d, hd => by
    by_cases hr : r < gh
    · obtain ⟨cnt, k1, pat, c1, c2, c3, c4, c5, he⟩ := decodeGroups_succ (m := m) (base := base) (gw := gw) (fuel := fuel)
        (k := k) hr
      obtain ⟨g1, g2, g3, g4, g5⟩ := decodeGroups_spec m base gw gh fuel (r + cnt) k1 (by omega) (by omega) _ rfl
      rw [he] at hd
      subst hd
      refine ⟨?_, ?_, ?_, by omega, fun _ => by omega⟩
      · intro g hg
        rcases List.mem_cons.1 hg with rfl | hg
        · exact ⟨c1, c2, c5⟩
        · exact g1 g hg
      · intro n hn
        cases n with
        | zero => simp
        | succ n =>
          simp only [List.getElem_cons_succ, List.take_succ_cons, List.map_cons, List.sum_cons]
          rw [g2 n (by simpa using hn)]
          omega
      · simp only [List.map_cons, List.sum_cons]
        omega
    · have : r = gh := by omega
      subst hd
      simp [decodeGroups, this]

/-- Row `r` of the rows that groups in sequence stand for is the pattern of the group that holds it. -/
theorem getElem?_groupRows : ∀ (gs : List RowGroup) (start : Nat),
    (∀ n (hn : n < gs.length), gs[n].r0 = start + ((gs.take n).map fun g => g.cnt).sum) →
    ∀ g ∈ gs, ∀ r, g.r0 ≤ r → r < g.r0 + g.cnt → (groupRows gs)[r - start]? = some (g.pat.map Bool.toNat)
  | [], _, _, _, hg, _, _, _ => by cases hg
  | q :: gs, start, h, g, hg, r, h1, h2 => by
    have hq : q.r0 = start := h 0 (by simp)
    have hstep : ∀ n (hn : n < gs.length), gs[n].r0 = (start + q.cnt) + ((gs.take n).map fun g => g.cnt).sum := by
      intro n hn
      have := h (n + 1) (by simpa using hn)
      simp only [List.getElem_cons_succ, List.take_succ_cons, List.map_cons, List.sum_cons] at this
      omega
    rw [groupRows, List.flatMap_cons]
    rcases List.mem_cons.1 hg with rfl | hg
    · rw [List.getElem?_append_left (by simp; omega), List.getElem?_replicate, if_pos (by omega)]
    · have hge : start + q.cnt ≤ g.r0 := by
        obtain ⟨n, hn, rfl⟩ := List.mem_iff_getElem.1 hg
        rw [hstep n hn]; omega
      rw [List.getElem?_append_right (by simp; omega), List.length_replicate]
      have := getElem?_groupRows gs (start + q.cnt) hstep g hg r h1 h2
      rw [groupRows] at this
      rw [← this]
      congr 1
      omega

theorem length_groupRows (gs : List RowGroup) : (groupRows gs).length = (gs.map fun g => g.cnt).sum := by
  induction gs with
  | nil => rfl
  | cons g gs ih => rw [groupRows] at *; simp [ih]

end Sys2Proof.Machine
end

