-- ==== Sys2Proof/Laws/Loops.lean ====
section
/-! SUPPORT. One induction for everything DRAWCHAR does: a property kept by one window, one moved row, the decode cursor, the text cursor
and the bookkeeping is kept by a whole character (45_font_scalable.md, 46_font_fixed.md). -/

namespace Sys2Proof.Machine

/-- A property of states that the parts of a character draw keep. -/
structure KeptByDraws (P : State → Prop) : Prop where
  window : ∀ x y w h g s, P s → P (drawWindow x y w h g s)
  row : ∀ n y s, P s → P (moveRow n y s)
  bits : ∀ k s, P s → P { s with bitcur := k }

/-- A property that the whole of DRAWCHAR keeps. -/
structure KeptByCharacters (P : State → Prop) : Prop extends KeptByDraws P where
  cursor : ∀ x y s, P s → P (moveCursor x y s)
  forget : ∀ s, P s → P (clearLast s)
  record : ∀ b s, P s → P (recordLast b s)
  retire : ∀ s, P s → P (retireHidden s)

/-- A loop keeps what its body keeps. -/
theorem foldl_keeps {α : Type} {P : State → Prop} {f : State → α → State} (h : ∀ s a, P s → P (f s a)) :
    ∀ (l : List α) (s : State), P s → P (l.foldl f s)
  | [], _, hs => hs
  | a :: l, s, hs => foldl_keeps h l (f s a) (h s a hs)

namespace KeptByDraws
variable {P : State → Prop} (k : KeptByDraws P)
include k

theorem rect (x y w h : Int) (c : Half) (s : State) (hs : P s) : P (drawRect x y w h c s) := k.window _ _ _ _ _ _ hs

theorem pixel (x y : Int) (c : Half) (s : State) (hs : P s) : P (drawPixel x y c s) := k.rect _ _ _ _ _ _ hs

theorem scroll (n : Int) (s : State) (hs : P s) : P (scrollUp n s) := by
  unfold scrollUp
  split
  · exact hs
  · exact k.rect _ _ _ _ _ _ (foldl_keeps (fun t y ht => k.row n y t ht) _ s hs)

theorem place (s : State) (right lineh : Int) (hs : P s) : P (placePen s right lineh).2 := by
  unfold placePen
  dsimp only
  split
  · exact k.scroll _ _ hs
  · exact hs

theorem pixels (base : Word) (g : GlyphHeader) (s : State) (hs : P s) : P (takePixels base g s).2 := by
  unfold takePixels
  dsimp only
  split <;> exact k.bits _ _ hs

theorem header {base : Word} {s : State} {h : GlyphHeader × State} (hh : takeHeader base s = some h) (hs : P s) : P h.2 := by
  rw [takeHeader_frame hh]
  exact k.bits _ _ hs

theorem fixedTransparent (b : List Byte) (cx cy sx sy : Int) (s : State) (hs : P s) :
    P (drawFixedTransparent b cx cy sx sy s) :=
  foldl_keeps (fun _ _ ht => foldl_keeps (fun _ _ hu => k.rect _ _ _ _ _ _ hu) _ _ ht) _ s hs

theorem level (p : GlyphPixels) (threshold : Nat) (ox oy : Int) (fg : Half) (s : State) (c : Int × Int) (hs : P s) :
    P (drawLevel p threshold ox oy fg s c) := by
  unfold drawLevel
  split
  · exact k.pixel _ _ _ _ hs
  · exact hs

theorem inked (col : Int → Int → Half) (ink : Int → Int → Bool) (s : State) (p : Int × Int) (hs : P s) : P (drawInked col ink s p) := by
  unfold drawInked
  split
  · exact k.pixel _ _ _ _ hs
  · exact hs

theorem groups (p : GlyphPixels) (ox oy : Int) (fg : Half) (s : State) (hs : P s) : P (drawGroups p ox oy fg s) :=
  foldl_keeps (fun _ _ ht => foldl_keeps (fun _ _ hu => k.rect _ _ _ _ _ _ hu) _ _ ht) _ s hs

theorem levels (p : GlyphPixels) (gw gh threshold : Nat) (ox oy : Int) (fg : Half) (s : State) (hs : P s) :
    P (drawLevels p gw gh threshold ox oy fg s) := foldl_keeps (fun t c ht => k.level p threshold ox oy fg t c ht) _ s hs

theorem boxed (col : Int → Int → Half) (ink : Int → Int → Bool) (b : Box) (active : Bool) (lastXr : Int) (s : State)
    (hs : P s) : P (drawOpaque col ink b active lastXr s) := by
  unfold drawOpaque
  dsimp only
  split
  · exact k.window _ _ _ _ _ _ (foldl_keeps (fun t p ht => k.inked col ink t p ht) _ s hs)
  · exact k.window _ _ _ _ _ _ hs

end KeptByDraws

namespace KeptByCharacters
variable {P : State → Prop} (k : KeptByCharacters P)
include k

theorem fixed (code : Nat) (s : State) (hs : P s) : P (drawFixed code s) := by
  unfold drawFixed
  split
  · exact hs
  · have hp := k.place s (s16 s.text.cursorX + 6 * (s.text.tsizeX.toNat : Int)) (8 * (s.text.tsizeY.toNat : Int)) hs
    refine k.retire _ (k.forget _ (k.cursor _ _ _ ?_))
    split
    · exact k.fixedTransparent _ _ _ _ _ _ hp
    · exact k.window _ _ _ _ _ _ hp

theorem glyph (base : Word) (g : GlyphHeader) (s : State) (hs : P s) : P (drawGlyph base g s) := by
  unfold drawGlyph
  dsimp only
  have hp := k.pixels base g _ (k.place s (s16 s.text.cursorX + g.xo + g.gw) s.font.lspace.toNat hs)
  split
  · refine k.retire _ (k.forget _ (k.cursor _ _ _ ?_))
    split
    · exact k.groups _ _ _ _ _ hp
    · exact k.levels _ _ _ _ _ _ _ _ hp
  · exact k.retire _ (k.record _ _ (k.cursor _ _ _ (k.boxed _ _ _ _ _ _ hp)))

theorem scalable (code : Nat) (s : State) (hs : P s) : P (drawScalable code s) := by
  unfold drawScalable
  split
  · exact hs
  · split
    · exact hs
    · rename_i hh
      exact k.glyph _ _ _ (k.header hh hs)

/-- DRAWCHAR leaves a state that has the property. -/
theorem drawchar (code : Half) (s : State) (hs : P s) : P (drawcharState code s) := by
  unfold drawcharState
  split
  · exact k.fixed _ _ hs
  · exact k.fixed _ _ hs
  · exact k.scalable _ _ hs

end KeptByCharacters

end Sys2Proof.Machine
end

