-- ==== Sys2Proof/Laws/Ports.lean ====
section
/-! SUPPORT. The trace: what a session does to the session discipline (20_memory.md R99), and what each operation appends. -/

namespace Sys2Proof.Machine

/-! ## The session discipline -/

theorem sessionPhase_append (a b : List Transaction) : sessionPhase (a ++ b) = b.foldl sessionStep (sessionPhase a) :=
  List.foldl_append

/-- Exactly the owed pixels bring a streaming session to where END may follow. -/
theorem foldl_sessionStep_pixels (ps : List Half) : (ps.map Transaction.pixel).foldl sessionStep (.streaming ps.length) =
    .streaming 0 := by
  induction ps with
  | nil => rfl
  | cons p ps ih =>
    rw [List.map_cons, List.foldl_cons]
    exact ih

/-- A session over a window of the canvas, with as many pixels as the window has, leaves the port between sessions. -/
theorem sessionPhase_session {trace : List Transaction} (h : sessionPhase trace = .closed) {x0 y0 x1 y1 : Int} {ps : List Half}
    (hx : 0 ≤ x0 ∧ x0 ≤ x1 ∧ x1 ≤ 32767) (hy : 0 ≤ y0 ∧ y0 ≤ y1 ∧ y1 ≤ 32767)
    (hn : ps.length = ((x1 - x0 + 1) * (y1 - y0 + 1)).toNat) : sessionPhase (trace ++ session x0 y0 x1 y1 ps) = .closed := by
  rw [sessionPhase_append, h, session]
  simp only [List.foldl_cons, List.foldl_append, List.foldl_nil, sessionStep, openWindow]
  rw [s16_wrap16, s16_wrap16, s16_wrap16, s16_wrap16, if_pos, ← hn] <;> try omega
  simp only [beginSession, foldl_sessionStep_pixels, endSession]

/-! ## What the drawing operations append -/

/-- A transaction of the sink port that streams or reads: not the allocator's, not the asynchronous transfer's, not WRITERECT. -/
def Transaction.streams (t : Transaction) : Bool :=
  match t with
  | .setAddr _ _ _ _ => true
  | .begin => true
  | .pixel _ => true
  | .finish => true
  | .readRect _ _ _ _ _ => true
  | .writeRect _ _ _ _ _ => false
  | .writeRectAsync _ _ _ _ _ _ => false
  | .asyncActive _ => false
  | .alloc _ _ _ => false
  | .free _ => false

theorem session_streams (x0 y0 x1 y1 : Int) (ps : List Half) : ∀ t ∈ session x0 y0 x1 y1 ps, t.streams = true := by
  intro t ht
  simp only [session, List.mem_cons, List.mem_append, List.mem_map, List.not_mem_nil, or_false] at ht
  rcases ht with rfl | rfl | ⟨c, -, rfl⟩ | rfl <;> rfl

/-- `t`'s trace is `s`'s with streaming transactions appended. -/
def Streams (s t : State) : Prop := ∃ ts, t.trace = s.trace ++ ts ∧ ∀ u ∈ ts, u.streams = true

theorem Streams.refl (s : State) : Streams s s := ⟨[], by simp, by simp⟩

theorem Streams.append {s t : State} (h : Streams s t) {u : State} {ts : List Transaction} (hu : u.trace = t.trace ++ ts)
    (hts : ∀ v ∈ ts, v.streams = true) : Streams s u := by
  obtain ⟨us, h1, h2⟩ := h
  refine ⟨us ++ ts, by rw [hu, h1, List.append_assoc], fun v hv => ?_⟩
  rcases List.mem_append.1 hv with hv | hv
  · exact h2 v hv
  · exact hts v hv

theorem streams_drawWindow (x y w h : Int) (g : Colour) (s : State) : Streams s (drawWindow x y w h g s) := by
  unfold drawWindow
  split
  · exact .refl s
  · unfold putWindow
    split
    · exact .refl s
    · exact (Streams.refl s).append rfl (session_streams _ _ _ _ _)

theorem streams_moveRow (n y : Int) (s : State) : Streams s (moveRow n y s) := by
  unfold moveRow
  split
  · split
    · exact .refl s
    · exact (Streams.append (t := (askRead _ _ _ _ s).2) ((Streams.refl s).append rfl (by simp [Transaction.streams])) rfl
        (session_streams _ _ _ _ _))
  · exact .refl s

theorem Streams.trans {s t u : State} (h1 : Streams s t) (h2 : Streams t u) : Streams s u := by
  obtain ⟨ts, h3, h4⟩ := h2
  exact h1.append h3 h4

/-- A whole character only streams and reads. -/
theorem streams_characters (s0 : State) : KeptByCharacters (Streams s0) where
  window _ _ _ _ _ _ h := h.trans (streams_drawWindow _ _ _ _ _ _)
  row _ _ _ h := h.trans (streams_moveRow _ _ _)
  bits _ _ h := h
  cursor _ _ _ h := h
  forget _ h := h
  record _ _ h := h
  retire _ h := h

/-! ## Whole sessions -/

theorem sessionsOk_drawWindow (x y w h : Int) (g : Colour) {s : State} (hc : CanvasOk s.canvas) (hs : SessionsOk s) :
    SessionsOk (drawWindow x y w h g s) := by
  unfold drawWindow
  split
  · exact hs
  · rename_i v hv
    have hcor := clip_corners hc hv
    unfold putWindow
    split
    · exact hs
    · refine sessionPhase_session hs (by omega) (by omega) ?_
      rw [List.length_map, length_rectPoints, mul_comm, Int.toNat_mul (by omega) (by omega)]
      congr 2 <;> omega

theorem sessionsOk_moveRow (n y : Int) {s : State} (hc : CanvasOk s.canvas) (hs : SessionsOk s) : SessionsOk (moveRow n y s) := by
  unfold moveRow
  split
  · rename_i v w hv hw
    have h1 := clip_corners hc hv
    have h2 := clip_corners hc hw
    split
    · exact hs
    · have hask : sessionPhase (askRead v.vx0 v.vy0 (v.vx1 - v.vx0) 1 s).2.trace = .closed := by
        simp only [askRead, sessionPhase_append]
        rw [show sessionPhase s.trace = .closed from hs]
        rfl
      refine sessionPhase_session hask (by omega) (by omega) ?_
      simp only [List.length_map, askRead, Env.nextPixels, List.length_range]
      congr 1
      ring
  · exact hs

/-- Whole sessions are kept by a whole character, the canvas being legal. -/
theorem sessionsOk_characters : KeptByCharacters fun s => CanvasOk s.canvas ∧ SessionsOk s where
  window _ _ _ _ _ _ h := ⟨by simpa using h.1, sessionsOk_drawWindow _ _ _ _ _ h.1 h.2⟩
  row n y s h := ⟨by rw [(drawFrame_moveRow n y s).canvas]; exact h.1, sessionsOk_moveRow _ _ h.1 h.2⟩
  bits _ _ h := h
  cursor _ _ _ h := h
  forget _ h := h
  record _ _ h := h
  retire _ h := h

/-! ## The allocator's transactions -/

theorem allocCount_append (a b : List Transaction) : allocCount (a ++ b) = allocCount a + allocCount b := List.countP_append

theorem freeCount_append (a b : List Transaction) : freeCount (a ++ b) = freeCount a + freeCount b := List.countP_append

theorem allocCount_streams {ts : List Transaction} (h : ∀ u ∈ ts, u.streams = true) : allocCount ts = 0 := by
  refine List.countP_eq_zero.2 fun u hu => ?_
  have := h u hu
  cases u <;> simp_all [Transaction.streams, Transaction.allocates]

theorem freeCount_streams {ts : List Transaction} (h : ∀ u ∈ ts, u.streams = true) : freeCount ts = 0 := by
  refine List.countP_eq_zero.2 fun u hu => ?_
  have := h u hu
  cases u <;> simp_all [Transaction.streams, Transaction.frees]

end Sys2Proof.Machine
end

