-- ==== Sys2Proof/Laws/Invariants.lean ====
section
/-! SUPPORT. The legal-state invariant under the shared operations (Safety.lean; 10_state.md R25, R27, R29). -/

namespace Sys2Proof.Machine

/-- The union of a legal dirty rectangle with a rectangle of the canvas is legal (R160). -/
theorem dirtyOk_dirtyUnion {c : Canvas} (hc : CanvasOk c) {d : Dirty} (hd : DirtyOk c d) {x0 y0 x1 y1 : Int}
    (hx : 0 ≤ x0 ∧ x0 ≤ x1 ∧ x1 < u16 c.width) (hy : 0 ≤ y0 ∧ y0 ≤ y1 ∧ y1 < u16 c.height) :
    DirtyOk c (dirtyUnion x0 y0 x1 y1 d) := by
  have hw : u16 c.width < 32768 := by have := hc.1; simp only [u16]; omega
  have hh : u16 c.height < 32768 := by have := hc.2.1; simp only [u16]; omega
  obtain ⟨h1, h2, h3, h4⟩ := dirtyUnion_exact (x0 := x0) (y0 := y0) (x1 := x1) (y1 := y1) d (by omega) (by omega) (by omega)
    (by omega)
  right
  rw [h1, h2, h3, h4]
  rcases hd with rfl | hd
  · have e1 : s16 Dirty.empty.minX = 32767 := by decide
    have e2 : s16 Dirty.empty.minY = 32767 := by decide
    have e3 : s16 Dirty.empty.maxX = -1 := by decide
    have e4 : s16 Dirty.empty.maxY = -1 := by decide
    rw [e1, e2, e3, e4]
    omega
  · omega

/-- Stored pixels keep the canonical form. -/
theorem wf_foldl_fbWriteIn {s : State} {y : Int} :
    ∀ (l : List (Int × Word)) (m : Memory), Memory.wf m = true →
      Memory.wf (l.foldl (fun m c => fbWriteIn s m c.1 y c.2) m) = true
  | [], _, h => h
  | _ :: l, _, h => wf_foldl_fbWriteIn l _ (wf_fbWriteIn h _ _ _)

theorem inv_drawWindow (x y w h : Int) (g : Colour) (s : State) (hs : LegalState s) : LegalState (drawWindow x y w h g s) := by
  obtain ⟨h1, h2, h3, h4, h5, h6⟩ := hs
  unfold drawWindow
  split
  · exact ⟨h1, h2, h3, h4, h5, h6⟩
  · rename_i v hv
    have hcor := clip_corners h1 hv
    unfold putWindow
    split
    · rename_i hen
      exact ⟨h1, h2, fun _ => dirtyOk_dirtyUnion h1 (h3 hen) (by omega) (by omega), h4, h5, wf_paint _ _ h6⟩
    · exact ⟨h1, h2, h3, h4, h5, h6⟩

theorem inv_moveRow (n y : Int) (s : State) (hs : LegalState s) : LegalState (moveRow n y s) := by
  obtain ⟨h1, h2, h3, h4, h5, h6⟩ := hs
  unfold moveRow
  split
  · rename_i v w hv hw
    have g1 := clip_corners h1 hv
    have g2 := clip_corners h1 hw
    split
    · rename_i hen
      exact ⟨h1, h2, fun _ => dirtyOk_dirtyUnion h1 (h3 hen) (by omega) (by omega), h4, h5, wf_foldl_fbWriteIn _ _ h6⟩
    · exact ⟨h1, h2, h3, h4, h5, h6⟩
  · exact ⟨h1, h2, h3, h4, h5, h6⟩

/-- A legal state stays legal through a whole character. -/
theorem inv_characters : KeptByCharacters LegalState where
  window := inv_drawWindow
  row := inv_moveRow
  bits _ _ h := h
  cursor _ _ _ h := h
  forget _ h := h
  record _ _ h := h
  retire _ h := h

/-! ## READRECT's loops -/

theorem wf_copyOut {s : State} {v : Vis} {w : Int} {dst : Word} : ∀ (ps : List (Int × Int)) (m : Memory),
    Memory.wf m = true → Memory.wf (copyOut s v w dst m ps) = true
  | [], _, h => h
  | _ :: ps, _, h => wf_copyOut ps _ (Memory.wf_write16 h _ _)

theorem wf_storeAnswer {v : Vis} {w : Int} {dst : Word} : ∀ (ps : List (Int × Int)) (cs : List Half) (m : Memory),
    Memory.wf m = true → Memory.wf (storeAnswer v w dst m ps cs) = true
  | [], _, _, h => by simpa [storeAnswer] using h
  | _ :: _, [], _, h => by simpa [storeAnswer] using h
  | _ :: ps, _ :: cs, _, h => wf_storeAnswer ps cs _ (Memory.wf_write16 h _ _)

theorem inv_readVisible (v : Vis) (w : Int) (dst : Word) (s : State) (hs : LegalState s) : LegalState (readVisible v w dst s) := by
  obtain ⟨h1, h2, h3, h4, h5, h6⟩ := hs
  unfold readVisible
  dsimp only
  split
  · exact ⟨h1, h2, h3, h4, h5, wf_copyOut _ _ h6⟩
  · exact ⟨h1, h2, h3, h4, h5, wf_storeAnswer _ _ _ h6⟩

/-! ## The setters that compute -/

/-- SETCLIP keeps the clip bounds inside the canvas for every operand value (R183). -/
theorem canvasOk_clippedCanvas {c : Canvas} (hc : CanvasOk c) (x y w h : Int) : CanvasOk (clippedCanvas x y w h c) := by
  obtain ⟨h1, h2, -⟩ := hc
  have hw : 0 ≤ u16 c.width ∧ u16 c.width ≤ 32767 := by simp only [u16]; omega
  have hh : 0 ≤ u16 c.height ∧ u16 c.height ≤ 32767 := by simp only [u16]; omega
  have cl : ∀ {lim : Int}, 0 ≤ lim → ∀ v, 0 ≤ clamp v 0 lim ∧ clamp v 0 lim ≤ lim := by
    intro lim hl v; unfold clamp; omega
  have a1 := cl hw.1 x
  have a2 := cl hw.1 (x + w)
  have b1 := cl hh.1 y
  have b2 := cl hh.1 (y + h)
  refine ⟨h1, h2, ?_⟩
  simp only [clippedCanvas]
  rw [s16_wrap16 (by omega) (by omega), s16_wrap16 (by omega) (by omega), s16_wrap16 (by omega) (by omega),
    s16_wrap16 (by omega) (by omega)]
  omega

/-- An accepted SETCANVAS leaves a legal canvas (R181). -/
theorem canvasOk_sizedCanvas {w h : Half} (hw : ¬ s16 w < 0) (hh : ¬ s16 h < 0) (c : Canvas) : CanvasOk (sizedCanvas w h c) := by
  have g : ∀ v : Half, ¬ s16 v < 0 → v.toNat < 32768 ∧ s16 v = u16 v := by
    intro v hv
    have : v.toNat < 32768 := by simp only [s16, BitVec.toInt] at hv; omega
    exact ⟨this, s16_eq_u16 this⟩
  have h1 := g w hw
  have h2 := g h hh
  have z : s16 (0 : Half) = 0 := by decide
  refine ⟨h1.1, h2.1, ?_⟩
  simp only [sizedCanvas, h1.2, h2.2]
  rw [z]
  simp only [u16]
  omega

/-- The derived latches of any descriptor are legal (R232). -/
theorem fontOk_loadDescriptor (m : Memory) (hdr : Word) (f : Font) (k : FontKind) : FontOk k (loadDescriptor m hdr f) := by
  have hb : ∀ v r : Byte, derivedBpp v r = 1 ∨ derivedBpp v r = 2 ∨ derivedBpp v r = 3 ∨ derivedBpp v r = 4 := by
    intro v r
    unfold derivedBpp
    split
    · have : (r &&& 3#8).toNat ≤ 3 := by rw [BitVec.toNat_and]; exact Nat.and_le_right
      omega
    · exact .inl rfl
  refine ⟨fun hok => ?_, fun _ => ?_, .inr ?_⟩
  · simp only [loadDescriptor, widthsOk, Bool.and_eq_true, decide_eq_true_eq] at hok ⊢
    omega
  · simp only [loadDescriptor]
    rcases hb (Memory.read m (hdr + BitVec.ofNat 32 0x0C)) (Memory.read m (hdr + BitVec.ofNat 32 0x0D)) with h | h | h | h <;>
      rw [h] <;> decide
  · simp only [loadDescriptor]
    rcases hb (Memory.read m (hdr + BitVec.ofNat 32 0x0C)) (Memory.read m (hdr + BitVec.ofNat 32 0x0D)) with h | h | h | h <;>
      rw [h] <;> decide

end Sys2Proof.Machine
end

