-- ==== Sys2Proof/Laws/Transfers.lean ====
section
/-! SUPPORT. The loops that store to other memory than the shadow buffer: READRECT's two loops (42_pixel_backend.md R197) and the bytes
of a fresh buffer (20_memory.md R82). -/

namespace Sys2Proof.Machine

/-! ## Regions -/

/-- Two regions that do not meet share no byte. -/
theorem not_both_of_regionsMeet {r q : Region} (h : regionsMeet r q = false) (a : Word) : ¬ (InRegion r a ∧ InRegion q a) := by
  rintro ⟨h1, h2⟩
  simp only [InRegion] at h1 h2
  simp only [regionsMeet, decide_eq_false_iff_not] at h
  apply h
  refine ⟨by omega, by omega, ?_⟩
  have e1 : (a - r.1).toNat = (2 ^ 32 - r.1.toNat + a.toNat) % 2 ^ 32 := BitVec.toNat_sub _ _
  have e2 : (a - q.1).toNat = (2 ^ 32 - q.1.toNat + a.toNat) % 2 ^ 32 := BitVec.toNat_sub _ _
  have e3 : (q.1 - r.1).toNat = (2 ^ 32 - r.1.toNat + q.1.toNat) % 2 ^ 32 := BitVec.toNat_sub _ _
  have e4 : (r.1 - q.1).toNat = (2 ^ 32 - q.1.toNat + r.1.toNat) % 2 ^ 32 := BitVec.toNat_sub _ _
  have := r.1.isLt
  have := q.1.isLt
  have := a.isLt
  omega

/-- An element of an array lies inside it. -/
theorem inRegion_of_element {base a : Word} {k : Int} {n : Nat} (hk : 0 ≤ k) (hn : k < n) (_ : 2 * n ≤ 2 ^ 32)
    (h : InRegion (elementAddr base k, 2) a) : InRegion (base, 2 * n) a := by
  simp only [InRegion, elementAddr] at *
  have h1 := toNat_sub_wrap32 a ((base.toNat : Int) + 2 * k)
  have h3 := toNat_sub_wrap32 a (base.toNat : Int)
  rw [wrap32_toNat] at h3
  omega

/-- Two elements of an array that share a byte are one. -/
theorem element_unique {base a : Word} {j k : Int} {n : Nat} (hj : 0 ≤ j ∧ j < n) (hk : 0 ≤ k ∧ k < n) (h2 : 2 * n ≤ 2 ^ 32)
    (h : InRegion (elementAddr base j, 2) a) (h' : InRegion (elementAddr base k, 2) a) : j = k := by
  simp only [InRegion, elementAddr] at *
  have h1 := toNat_sub_wrap32 a ((base.toNat : Int) + 2 * j)
  have h3 := toNat_sub_wrap32 a ((base.toNat : Int) + 2 * k)
  omega

/-- The size in elements of a rectangle that two packet fields give. -/
theorem elements_bound {w h : Half} (hw : 0 < s16 w) (hh : 0 < s16 h) :
    s16 w * s16 h = ((s16 w).toNat * (s16 h).toNat : Nat) ∧ 2 * ((s16 w).toNat * (s16 h).toNat) ≤ 2 ^ 32 := by
  have h1 := s16_bounds w
  have h2 := s16_bounds h
  constructor
  · push_cast
    rw [Int.toNat_of_nonneg (by omega), Int.toNat_of_nonneg (by omega)]
  · have a : (s16 w).toNat ≤ 32767 := by omega
    have b : (s16 h).toNat ≤ 32767 := by omega
    have := Nat.mul_le_mul a b
    omega

/-- A visible element lies inside the operand array. -/
theorem inRegion_of_visible {c : Canvas} {x y : Int} {w h : Half} {v : Vis} (hv : clip c x y (s16 w) (s16 h) = some v)
    {px py : Int} (hx : v.vx0 ≤ px ∧ px < v.vx1) (hy : v.vy0 ≤ py ∧ py < v.vy1) {base a : Word}
    (ha : InRegion (elementAddr base (srcIndex v (s16 w) px py), 2) a) :
    InRegion (base, 2 * (s16 w).toNat * (s16 h).toNat) a := by
  obtain ⟨hw, hh, -⟩ := clip_some hv
  have hb := elements_bound hw hh
  have hs := srcIndex_bounds hv hx hy
  rw [hb.1] at hs
  rw [Nat.mul_assoc]
  exact inRegion_of_element hs.1 hs.2 hb.2 ha

/-! ## 16-bit elements -/

/-- A 16-bit read is unchanged by a store that shares no byte with it. -/
theorem read16_congr_out {m m' : Memory} {a : Word} (h : ∀ b, InRegion (a, 2) b → Memory.read m' b = Memory.read m b) :
    Memory.read16 m' a = Memory.read16 m a := by
  refine Memory.read16_congr fun k hk => h _ ?_
  simp only [InRegion]
  rw [BitVec.add_comm, BitVec.add_sub_cancel, BitVec.toNat_ofNat]
  omega

theorem read_write16_out {m : Memory} {a b : Word} {v : Half} (h : ¬ InRegion (a, 2) b) :
    Memory.read (Memory.write16 m a v) b = Memory.read m b :=
  Memory.read_write16_of_out m v (Nat.le_of_not_lt h)

/-! ## READRECT from the shadow buffer -/

/-- Every byte of no stored element is unchanged. -/
theorem read_copyOut_of_out {s : State} {v : Vis} {w : Int} {dst a : Word} : ∀ (ps : List (Int × Int)) (m : Memory),
    (∀ p ∈ ps, ¬ InRegion (elementAddr dst (srcIndex v w p.1 p.2), 2) a) →
      Memory.read (copyOut s v w dst m ps) a = Memory.read m a
  | [], _, _ => rfl
  | p :: ps, m, h => by
    rw [copyOut, read_copyOut_of_out ps _ fun q hq => h q (by simp [hq])]
    exact read_write16_out (h p (by simp))

/-- Each stored element holds the colour its pixel has in the memory the loop began with, when the stores stay off the buffer. -/
theorem read16_copyOut {s : State} {c : Canvas} (hc : c = s.canvas) (hok : CanvasOk c) {x y : Int} {w h : Half} {v : Vis}
    (hv : clip c x y (s16 w) (s16 h) = some v) {dst : Word} {m0 : Memory}
    (hoff : ∀ a, InRegion (dst, 2 * (s16 w).toNat * (s16 h).toNat) a → ¬ InRegion (bufferRegion s) a) {q : Int × Int} :
    ∀ (ps : List (Int × Int)) (m : Memory),
      (∀ p ∈ ps, (v.vx0 ≤ p.1 ∧ p.1 < v.vx1) ∧ v.vy0 ≤ p.2 ∧ p.2 < v.vy1) →
      (v.vx0 ≤ q.1 ∧ q.1 < v.vx1) ∧ v.vy0 ≤ q.2 ∧ q.2 < v.vy1 →
      (∀ a, InRegion (bufferRegion s) a → Memory.read m a = Memory.read m0 a) →
      Memory.read16 (copyOut s v (s16 w) dst m ps) (elementAddr dst (srcIndex v (s16 w) q.1 q.2)) =
        if q ∈ ps then fromFB s.params.depth (fbReadIn s m0 q.1 q.2)
        else Memory.read16 m (elementAddr dst (srcIndex v (s16 w) q.1 q.2))
  | [], _, _, _, _ => by simp [copyOut]
  | p :: ps, m, hp, hq, hm => by
    have hp0 := hp p (by simp)
    have hcan : OnCanvas s.canvas p.1 p.2 := by
      subst hc
      exact onCanvas_of_visible hok ((clip_some_iff_visible hv p.1 p.2).1 ⟨hp0.1.1, hp0.1.2, hp0.2.1, hp0.2.2⟩)
    have hread : fbReadIn s m p.1 p.2 = fbReadIn s m0 p.1 p.2 := readPixelAt_congr fun k hk =>
      hm _ (inRegion_of_pixelByte (hc ▸ hok) hcan (pixelByte_add s _ _ hk))
    have hb := elements_bound (clip_some hv).1 (clip_some hv).2.1
    rw [copyOut, read16_copyOut (m0 := m0) hc hok hv hoff ps _ (fun r hr => hp r (by simp [hr])) hq]
    · by_cases h1 : q ∈ ps
      · simp [h1]
      · by_cases h2 : p = q
        · subst h2
          rw [if_neg h1, if_pos (by simp), Memory.read16_write16_self, hread]
        · rw [if_neg h1, if_neg (by simp [h1, Ne.symm h2])]
          refine read16_congr_out fun b hb' => read_write16_out fun hb'' => h2 ?_
          have hs := srcIndex_bounds hv hp0.1 hp0.2
          have hs' := srcIndex_bounds hv hq.1 hq.2
          rw [hb.1] at hs hs'
          have := srcIndex_inj hv hp0.1 hq.1 (element_unique hs hs' hb.2 hb'' hb')
          exact Prod.ext this.1 this.2
    · intro a ha
      rw [read_write16_out fun hb' => hoff a (inRegion_of_visible hv hp0.1 hp0.2 hb') ha]
      exact hm a ha

/-! ## READRECT from the sink -/

/-- Every byte of no stored element is unchanged. -/
theorem read_storeAnswer_of_out {v : Vis} {w : Int} {dst a : Word} : ∀ (ps : List (Int × Int)) (cs : List Half) (m : Memory),
    (∀ p ∈ ps, ¬ InRegion (elementAddr dst (srcIndex v w p.1 p.2), 2) a) →
      Memory.read (storeAnswer v w dst m ps cs) a = Memory.read m a
  | [], _, _, _ => by simp [storeAnswer]
  | _ :: _, [], _, _ => by simp [storeAnswer]
  | p :: ps, c :: cs, m, h => by
    rw [storeAnswer, read_storeAnswer_of_out ps cs _ fun q hq => h q (by simp [hq])]
    exact read_write16_out (h p (by simp))

/-- The answer's pixels stand in the elements of the points, in order, when the points are distinct. -/
theorem read16_storeAnswer {c : Canvas} {x y : Int} {w h : Half} {v : Vis} (hv : clip c x y (s16 w) (s16 h) = some v) {dst : Word} :
    ∀ (ps : List (Int × Int)) (cs : List Half) (m : Memory), ps.Nodup → ps.length ≤ cs.length →
      (∀ p ∈ ps, (v.vx0 ≤ p.1 ∧ p.1 < v.vx1) ∧ v.vy0 ≤ p.2 ∧ p.2 < v.vy1) →
      ∀ (n : Nat) (hn : n < ps.length), some (Memory.read16 (storeAnswer v (s16 w) dst m ps cs)
        (elementAddr dst (srcIndex v (s16 w) ps[n].1 ps[n].2))) = cs[n]?
  | [], _, _, _, _, _, n, hn => by simp at hn
  | _ :: _, [], _, _, hl, _, _, _ => by simp at hl
  | p :: ps, c' :: cs, m, hd, hl, hp, n, hn => by
    have hb := elements_bound (clip_some hv).1 (clip_some hv).2.1
    have hp0 := hp p (by simp)
    rw [storeAnswer]
    cases n with
    | zero =>
      simp only [List.getElem_cons_zero, List.getElem?_cons_zero, Option.some.injEq]
      rw [read16_congr_out (m := Memory.write16 m (elementAddr dst (srcIndex v (s16 w) p.1 p.2)) c')]
      · exact Memory.read16_write16_self _ _ _
      · intro b hb'
        refine read_storeAnswer_of_out _ _ _ fun q hq hq' => ?_
        have hq0 := hp q (by simp [hq])
        have hs := srcIndex_bounds hv hp0.1 hp0.2
        have hs' := srcIndex_bounds hv hq0.1 hq0.2
        rw [hb.1] at hs hs'
        have := srcIndex_inj hv hp0.1 hq0.1 (element_unique hs hs' hb.2 hb' hq')
        exact (List.nodup_cons.1 hd).1 (by rw [Prod.ext this.1 this.2]; exact hq)
    | succ n =>
      simp only [List.getElem_cons_succ, List.getElem?_cons_succ]
      exact read16_storeAnswer hv ps cs _ (List.nodup_cons.1 hd).2 (by simpa using hl) (fun q hq => hp q (by simp [hq])) n
        (by simpa using hn)

theorem rectPoints_nodup (x0 y0 x1 y1 : Int) : (rectPoints x0 y0 x1 y1).Nodup := by
  rw [rectPoints, List.nodup_flatMap]
  refine ⟨fun y _ => (intRange_nodup x0 x1).map fun a b h => by simpa using h, ?_⟩
  refine (intRange_nodup y0 y1).imp fun {a b} hab => ?_
  intro p hp hp'
  simp only [List.mem_map] at hp hp'
  obtain ⟨_, -, rfl⟩ := hp
  obtain ⟨_, -, h⟩ := hp'
  exact hab (by simpa using (congrArg Prod.snd h).symm)

/-! ## A fresh buffer -/

/-- Bytes stored upwards from a base leave every byte outside them alone. -/
theorem read_writeBytes_of_out : ∀ (bs : List Byte) (m : Memory) (base a : Word), bs.length ≤ 2 ^ 32 →
    ¬ InRegion (base, bs.length) a → Memory.read (Memory.writeBytes m base bs) a = Memory.read m a
  | [], _, _, _, _, _ => rfl
  | b :: bs, m, base, a, hl, h => by
    simp only [InRegion, List.length_cons] at h hl
    have h1 : a ≠ base := by rintro rfl; simp at h
    have e : (a - (base + 1)).toNat = ((a - base).toNat + (2 ^ 32 - 1)) % 2 ^ 32 := by
      have := BitVec.toNat_sub a (base + 1)
      have := BitVec.toNat_sub a base
      have := BitVec.toNat_add base 1
      have := a.isLt
      have := base.isLt
      have h1 : (1 : Word).toNat = 1 := rfl
      omega
    have h0 : (a - base).toNat ≠ 0 := by
      intro h0
      have := BitVec.toNat_sub a base
      have := a.isLt
      have := base.isLt
      exact h1 (BitVec.eq_of_toNat_eq (by omega))
    have := (a - base).isLt
    rw [Memory.writeBytes, read_writeBytes_of_out bs _ _ _ (by omega) (by simp only [InRegion]; omega)]
    exact Memory.read_write_of_ne _ _ h1

/-- Byte `k` of what was stored stands at `base + k`. -/
theorem read_writeBytes : ∀ (bs : List Byte) (m : Memory) (base : Word) (k : Nat), bs.length ≤ 2 ^ 32 → (hk : k < bs.length) →
    Memory.read (Memory.writeBytes m base bs) (base + BitVec.ofNat 32 k) = bs[k]
  | [], _, _, _, _, hk => by simp at hk
  | b :: bs, m, base, 0, hl, _ => by
    simp only [List.length_cons] at hl
    rw [Memory.writeBytes, read_writeBytes_of_out _ _ _ _ (by omega)]
    · simp
    · simp only [InRegion, BitVec.ofNat_eq_ofNat, BitVec.add_zero]
      have : (base - (base + 1)).toNat = 2 ^ 32 - 1 := by
        have := BitVec.toNat_sub base (base + 1)
        have := BitVec.toNat_add base 1
        have := base.isLt
        have h1 : (1 : Word).toNat = 1 := rfl
        omega
      rw [show (1#32 : Word) = 1 from rfl, this]
      omega
  | b :: bs, m, base, k + 1, hl, hk => by
    simp only [List.length_cons] at hl hk
    rw [Memory.writeBytes]
    have e : base + BitVec.ofNat 32 (k + 1) = base + 1 + BitVec.ofNat 32 k := by
      apply BitVec.eq_of_toNat_eq
      have h1 : (1 : Word).toNat = 1 := rfl
      simp only [BitVec.toNat_add, BitVec.toNat_ofNat, h1]
      omega
    rw [e, read_writeBytes bs _ _ k (by omega) (by omega)]
    rfl

end Sys2Proof.Machine
end

