-- ==== Sys2Proof/Tests/Slice0.lean ====
section
/-! SUPPORT. The model's own tests. Expected values are the spec's: the words and vectors V1 to V73 of 95_test_vectors.md, and the
worked examples of R116 to R293; each theorem names its source. The last part is the witnesses: for each statement with hypotheses, a concrete
state and operands that meet them together. -/

namespace Sys2Proof.Tests.Slice0

-- a conjunction of many decidable facts needs a larger instance than the default allows; kernel evaluations one after another
set_option Elab.async false
set_option synthInstance.maxSize 4096
set_option synthInstance.maxHeartbeats 200000

open Sys2Proof Sys2Proof.Machine

/-! ## Small states -/

/-- The parameters of 95_test_vectors.md: DEPTH = 16, FB_CAPABLE = 1, AA_THRESHOLD(N) = 1; an empty built-in font. -/
def params16 : Params :=
  { depth := .d16, fbCapable := true, glcdfont := Vector.replicate 1280 0#8, aa2 := 0, aa3 := 0, aa4 := 0 }

/-- The same with DEPTH = 32. -/
def params32 : Params := { params16 with depth := .d32 }

/-- A canvas, the clip open, origin (0, 0). -/
def canvasOf (w h : Half) : Canvas := { Canvas.reset with width := w, height := h, clipX2 := w, clipY2 := h }

/-- Direct mode, a canvas, memory `m`. -/
def direct (w h : Half) (m : Memory) : State := { State.reset with params := params16, canvas := canvasOf w h, mem := m }

/-- `n` bytes 0x00 from address `a`. -/
def zeroed (a : Word) (n : Nat) : Memory := Memory.writeBytes [] a (List.replicate n 0#8)

/-- Shadow mode, an external buffer at 0x8000 with all bytes 0, DEPTH = 16. -/
def shadow (w h : Half) : State :=
  { direct w h (zeroed 0x8000#32 (w.toNat * h.toNat * 2)) with fb := { base := 0x8000#32, en := true, alloc := true, int := false } }

/-- Shadow mode over an internal buffer, its ALLOC in the trace. -/
def internalBuffer : State :=
  { shadow 2 2 with
    fb := { base := 0x8000#32, en := true, alloc := true, int := true }
    trace := [.alloc 8 32 (some 0x400#27)] }

/-- The state of a next outcome. -/
def nextOf (o : Host.Outcome State Fault Refusal) (s : State) : State :=
  match o with
  | .next t => t
  | .fault _ => s
  | .refused _ => s

/-- The state after a command. -/
def after (i : Instr) (s : State) : State := nextOf (exec i s) s

/-- The state after a step. -/
def afterStep (s : State) : State := nextOf (step s) s

/-- `SETADDR(x0,y0,x1,y1); BEGIN; PIXEL(c) …; END` as the vectors write it. -/
def win (x0 y0 x1 y1 : Half) (pixels : List Half) : List Transaction :=
  [.setAddr x0 y0 x1 y1, .begin] ++ pixels.map Transaction.pixel ++ [.finish]

/-- 16-bit elements stored little-endian from `a`. -/
def elements (a : Word) (es : List Half) (m : Memory) : Memory :=
  Memory.writeBytes m a (es.flatMap fun e => [e.extractLsb' 0 8, e.extractLsb' 8 8])

/-- The bytes of font T1 (R270). -/
def fontT1 : Memory :=
  Memory.writeBytes (Memory.writeBytes (Memory.writeBytes [] 0x1000#32
    [0x20, 0x10, 0, 0, 0, 0, 0, 0, 0x40, 0x10, 0, 0, 1, 0, 0x41, 0x42, 0x30, 0x31, 8, 4, 4, 3, 3, 4, 8, 6])
    0x1020#32 [0x00, 0x05, 0x0B, 0x0F])
    0x1040#32 [0x06, 0xA0, 0x21, 0x2B, 0xC5, 0x06, 0xBC, 0x23, 0x2B, 0x2B, 0x00, 0x04, 0x47, 0xA4, 0x60, 0x24, 0x40, 0x24, 0x60]

/-- The bytes of font T2 (95_test_vectors.md 2.6). -/
def fontT2 : Memory :=
  Memory.writeBytes (Memory.writeBytes (Memory.writeBytes [] 0x1800#32
    [0x20, 0x18, 0, 0, 0, 0, 0, 0, 0x40, 0x18, 0, 0, 0x17, 1, 0x61, 0x61, 1, 0, 8, 4, 4, 3, 3, 4, 4, 2])
    0x1820#32 [0x00]) 0x1840#32 [0x04, 0x40, 0x18, 0xD2]

/-- Font T1 selected, canvas 20 by 12, direct mode. -/
def withT1 : State := after (.setfont 2#2 0x1000#32) (direct 20 12 fontT1)

/-- Font T2 selected, canvas 10 by 6, direct mode. -/
def withT2 : State := after (.setfont 2#2 0x1800#32) (direct 10 6 fontT2)

/-- Colours and cursor set by their commands. -/
def pen (fg bg x y : Half) (s : State) : State := after (.setcursor x y) (after (.settextcolor fg bg) s)

/-- The table of R288 at 0x4000, entry 65 only, canvas 20 by 20, WRAP = 0. -/
def withTable : State :=
  after (.settextwrap false) (after (.setfont 1#2 0x4000#32)
    (direct 20 20 (Memory.writeBytes [] 0x4145#32 [0x7C, 0x12, 0x11, 0x12, 0x7C])))

/-- The built-in font on a shadow buffer of 12 by 8 pixels. -/
def builtIn : State := { shadow 12 8 with text := { Text.reset with bg := 0#16 } }

/-! ## Decoding: the words of 30_encoding.md R121 to R132, written out for every constructor -/

theorem test_decode_nop : fetchFrom [0x00000000#32] = .packet .nop [] := by decide
theorem test_decode_setcanvas : fetchFrom [0x00000101#32, 0x00640064#32] = .packet (.setcanvas 100 100) [] := by decide
theorem test_decode_setorigin : fetchFrom [0x00000102#32, 0xFFFD000A#32] = .packet (.setorigin 10 0xFFFD) [] := by decide
theorem test_decode_setclip :
    fetchFrom [0x00000203#32, 0xFFF6005A#32, 0x001E0032#32] = .packet (.setclip 90 0xFFF6 50 30) [] := by decide
theorem test_decode_setpixel : fetchFrom [0xF8000110#32, 0x00040003#32] = .packet (.setpixel 3 4 0xF800) [] := by decide
theorem test_decode_fastvline :
    fetchFrom [0x07E00211#32, 0xFFFD0002#32, 0x0000000A#32] = .packet (.fastvline 2 0xFFFD 10 0x07E0) [] := by decide
theorem test_decode_fasthline :
    fetchFrom [0x001F0212#32, 0x0000005F#32, 0x0000000A#32] = .packet (.fasthline 95 0 10 0x001F) [] := by decide
theorem test_decode_fillrect :
    fetchFrom [0xFFFF0213#32, 0xFFFBFFFB#32, 0x00140014#32] = .packet (.fillrect 0xFFFB 0xFFFB 20 20 0xFFFF) [] := by decide
theorem test_decode_writerect : fetchFrom [0x00000314#32, 0x00090009#32, 0x00040005#32, 0x00002000#32] =
    .packet (.writerect 9 9 5 4 0x2000) [] := by decide
theorem test_decode_readrect : fetchFrom [0x00000315#32, 0x00620062#32, 0x00040004#32, 0x00003000#32] =
    .packet (.readrect 98 98 4 4 0x3000) [] := by decide
theorem test_decode_writerectnbpp :
    fetchFrom [0x00020416#32, 0x0000FFFE#32, 0x00020005#32, 0x00005000#32, 0x00005100#32] =
      .packet (.writerectnbpp 0xFFFE 0 5 2 2 0x5000 0x5100) [] := by decide
theorem test_decode_fbsetext : fetchFrom [0x00000120#32, 0x20000000#32] = .packet (.fbsetext 0x20000000) [] := by decide
theorem test_decode_fbenable : fetchFrom [0x00000021#32] = .packet .fbenable [] := by decide
theorem test_decode_fbdisable : fetchFrom [0x00000022#32] = .packet .fbdisable [] := by decide
theorem test_decode_fbrelease : fetchFrom [0x00000023#32] = .packet .fbrelease [] := by decide
theorem test_decode_flush : fetchFrom [0x00000024#32] = .packet .flush [] := by decide
theorem test_decode_flushasync : fetchFrom [0x00000025#32] = .packet .flushasync [] := by decide
theorem test_decode_waitasync : fetchFrom [0x00000026#32] = .packet .waitasync [] := by decide
theorem test_decode_pollasync : fetchFrom [0x00000027#32] = .packet .pollasync [] := by decide
theorem test_decode_setfont : fetchFrom [0x00020130#32, 0x00001000#32] = .packet (.setfont 2 0x1000) [] := by decide
theorem test_decode_setcursor : fetchFrom [0x00000131#32, 0x0014000A#32] = .packet (.setcursor 10 20) [] := by decide
theorem test_decode_settextcolor : fetchFrom [0x00000132#32, 0x0000FFFF#32] = .packet (.settextcolor 0xFFFF 0) [] := by decide
theorem test_decode_settextwrap : fetchFrom [0x00000033#32] = .packet (.settextwrap false) [] := by decide
theorem test_decode_settextsize : fetchFrom [0x03020034#32] = .packet (.settextsize 2 3) [] := by decide
theorem test_decode_setscroll :
    fetchFrom [0x00010235#32, 0x00320000#32, 0x00320064#32] = .packet (.setscroll 0 50 100 50 true) [] := by decide
theorem test_decode_drawchar : fetchFrom [0x00410036#32] = .packet (.drawchar 65) [] := by decide

/-- The words of FILLRECT as one number, the first word lowest. -/
theorem test_decodeTableWord : decodeTableWord 96 0x00140014FFFBFFFBFFFF0213 = some (.fillrect 0xFFFB 0xFFFB 20 20 0xFFFF) := by
  decide

/-- R134: SETFONT of kind 3 is no command; the one check of `wellFormed` refuses its term. -/
theorem test_wellFormed_refuses_kind3 : (Instr.setfont 3 0).wellFormed = false ∧ (Instr.setfont 2 0).wellFormed = true := by decide

/-- R134: an unassigned opcode, a wrong word count, a field that must be 0, kind 3; the words after the packet are left. -/
theorem test_illegal_packets :
    fetchFrom [0x0000017F#32, 5#32, 0#32] = .illegal .unassignedOpcode [0#32] ∧
    fetchFrom [0x00000210#32, 5#32, 5#32, 0#32] = .illegal .wrongWordCount [0#32] ∧
    fetchFrom [0x00010021#32, 0#32] = .illegal .reservedField [0#32] ∧
    fetchFrom [0x00030130#32, 5#32, 0#32] = .illegal .reservedField [0#32] := by decide

/-! ## Functions of the rules -/

/-- V2, V6, V8 (R154). -/
theorem test_expand888 : expand888 0xFFFF = 0x00FFFFFF#32 ∧ expand888 0x0821 = 0x000F070F#32 ∧ expand888 0x8410 = 0x00878387#32 ∧
    expand888 0x1234 = 0x001747A7#32 := by decide

/-- V9 (R155). -/
theorem test_quant565 : quant565 0xFF123456 = 0x11AA#16 ∧ quant565 0x00F8FCF8 = 0xFFFF#16 ∧ quant565 0x00070307 = 0#16 := by decide

/-- V10, V11, V16, V17, V19 (R157): the rounding is toward minus infinity. -/
theorem test_blend : blend 0xF800 0x001F 10 = 0x4815#16 ∧ blend 0xFFFF 0 31 = 0xF7BE#16 ∧ blend 0 0xFFFF 16 = 0x7BEF#16 ∧
    blend 0 0xFFFF 31 = 0x0020#16 ∧ blend 0x07E0 0xF81F 1 = 0xF03E#16 := by decide

/-- V20, V21, V23, V26 (R151). -/
theorem test_clip : clip (canvasOf 100 100) (-5) (-5) 20 20 = some ⟨-5, -5, 0, 0, 15, 15⟩ ∧
    clip (canvasOf 100 100) 90 90 20 20 = some ⟨90, 90, 90, 90, 100, 100⟩ ∧ clip (canvasOf 100 100) 100 0 1 1 = none ∧
    clip (canvasOf 100 100) (-32768) (-32768) 32767 32767 = none := by decide

/-! ## One step of each command -/

/-- R180. -/
theorem test_nop : after .nop (direct 4 4 []) = direct 4 4 [] := rfl

/-- R181: the clip opens on the whole canvas; a negative size is ignored. -/
theorem test_setcanvas : (after (.setcanvas 100 50) (direct 4 4 [])).canvas = canvasOf 100 50 ∧
    (after (.setcanvas 0xFFFF 50) (direct 4 4 [])).canvas = canvasOf 4 4 := by decide

/-- V57's last sentences: ignored while a buffer is attached. -/
theorem test_setcanvas_attached : (after (.setcanvas 10 10) (shadow 2 2)).canvas = canvasOf 2 2 := by decide

/-- R182: the clip bounds do not move. -/
theorem test_setorigin : (after (.setorigin 10 0xFFFD) (direct 4 4 [])).canvas =
    { canvasOf 4 4 with originX := 10, originY := 0xFFFD } := by decide

/-- V34. -/
theorem test_setclip_v34 : (after (.setclip 90 0xFFF6 50 30) (direct 100 100 [])).canvas =
    { canvasOf 100 100 with clipX1 := 90, clipY1 := 0, clipX2 := 100, clipY2 := 20 } := by decide

/-- V39: `x + w` is not wrapped. -/
theorem test_setclip_v39 : (after (.setclip 30000 30000 30000 30000) (direct 100 100 [])).canvas =
    { canvasOf 100 100 with clipX1 := 100, clipY1 := 100, clipX2 := 100, clipY2 := 100 } := by decide

/-- V43, V44. -/
theorem test_setpixel : (after (.setpixel 3 4 0xF800) (direct 100 100 [])).trace = win 3 4 3 4 [0xF800] ∧
    (after (.setpixel 100 4 0xF800) (direct 100 100 [])).trace = [] := by decide

/-- After V49, DEPTH = 32: SETPIXEL of 0x0821 writes `0F 07 0F 00`. -/
theorem test_setpixel_depth32 :
    (after (.setpixel 1 0 0x0821) { shadow 2 2 with params := params32 }).mem.drop 4 =
      [(0x8004, 0x0F), (0x8005, 0x07), (0x8006, 0x0F), (0x8007, 0x00)] := by decide +kernel

/-- V46, V49. -/
theorem test_fastvline : (after (.fastvline 2 0xFFFD 10 0x07E0) (direct 100 100 [])).trace = win 2 0 2 6 (List.replicate 7 0x07E0) ∧
    (after (.fastvline 5 5 0xFFFC 1) (direct 100 100 [])).trace = [] := by decide

/-- V47, V48. -/
theorem test_fasthline : (after (.fasthline 95 0 10 0x001F) (direct 100 100 [])).trace = win 95 0 99 0 (List.replicate 5 0x001F) ∧
    (after (.fasthline 5 5 0 0x001F) (direct 100 100 [])).trace = [] := by decide

/-- V52: `Mem[0x8010 .. 0x801F]` and the dirty rectangle. -/
theorem test_fillrect_v52 : (after (.fillrect 2 1 3 2 0xF800) (shadow 8 4)).dirty = { minX := 2, minY := 1, maxX := 4, maxY := 2 } ∧
    (((after (.fillrect 2 1 3 2 0xF800) (shadow 8 4)).mem.drop 16).take 16).map (fun c => c.2) =
      [0, 0, 0, 0, 0, 0xF8, 0, 0xF8, 0, 0xF8, 0, 0, 0, 0, 0, 0] := by decide +kernel

/-- V27 in direct mode. -/
theorem test_fillrect_v27 : (after (.fillrect 98 98 5 5 0xAAAA) (direct 100 100 [])).trace =
    win 98 98 99 99 (List.replicate 4 0xAAAA) := by decide

/-- The source array of V41 and its crop of V42. -/
def v41 : State :=
  { direct 100 100 (elements 0x2100 [0x0A06, 0x0A07, 0x0A08, 0x0A0B, 0x0A0C, 0x0A0D]
      (elements 0x2000 ((List.range 20).map fun k => 0x0A00 + BitVec.ofNat 16 k) [])) with
    canvas := { canvasOf 100 100 with clipX1 := 10, clipY1 := 10, clipX2 := 13, clipY2 := 12 } }

/-- V41: clipped on all four sides. -/
theorem test_writerect_v41 : (after (.writerect 9 9 5 4 0x2000) v41).trace =
    win 10 10 12 11 [0x0A06, 0x0A07, 0x0A08, 0x0A0B, 0x0A0C, 0x0A0D] := by decide +kernel

/-- V42: the cropped array. -/
theorem test_writerect_v42 : (after (.writerect 10 10 3 2 0x2100) v41).trace =
    win 10 10 12 11 [0x0A06, 0x0A07, 0x0A08, 0x0A0B, 0x0A0C, 0x0A0D] := by decide +kernel

/-- V59: the query, and the elements of the visible pixels only. -/
theorem test_readrect_v59 :
    let s := { direct 100 100 (elements 0x3000 (List.replicate 8 0xEEEE) []) with
      env := { Env.reset with pixels := [0x6262, 0x6263, 0x6362, 0x6363] } }
    (after (.readrect 98 98 4 4 0x3000) s).trace = [.readRect 98 98 2 2 [0x6262, 0x6263, 0x6362, 0x6363]] ∧
    (after (.readrect 98 98 4 4 0x3000) s).mem =
      elements 0x3000 [0x6262, 0x6263, 0xEEEE, 0xEEEE, 0x6362, 0x6363, 0xEEEE, 0xEEEE] [] := by decide +kernel

/-- After V49: READRECT from a buffer of DEPTH = 32 brings 0x0821 back as `21 08`; no query. -/
theorem test_readrect_depth32 :
    let s := after (.setpixel 1 0 0x0821) { shadow 2 2 with params := params32 }
    Memory.read16 (after (.readrect 1 0 1 1 0x3000) s).mem 0x3000 = 0x0821 ∧
    (after (.readrect 1 0 1 1 0x3000) s).trace = [] := by decide +kernel

/-- R293 (a): 2 bits, the left edge mid-byte. -/
theorem test_nbpp_a :
    let s := direct 10 10 (Memory.writeBytes (Memory.writeBytes [] 0x5000 [0x1B, 0x00, 0xE4, 0xC0])
      0x5100 [0x00, 0x00, 0x00, 0xF8, 0xE0, 0x07, 0x1F, 0x00])
    (after (.writerectnbpp 0xFFFE 0 5 2 2 0x5000 0x5100) s).trace =
      win 0 0 2 1 [0x07E0, 0x001F, 0x0000, 0xF800, 0x0000, 0x001F] := by decide +kernel

/-- R293 (b): 1 bit, x = -3; (e): another depth does nothing. -/
theorem test_nbpp_b :
    let s := direct 10 10 (elements 0x5300 [0x1111, 0x2222] (Memory.writeBytes [] 0x5200 [0xA5, 0xC0]))
    (after (.writerectnbpp 0xFFFD 1 10 1 1 0x5200 0x5300) s).trace =
      win 0 1 6 1 [0x1111, 0x1111, 0x2222, 0x1111, 0x2222, 0x2222, 0x2222] ∧
    (after (.writerectnbpp 0xFFFD 1 10 1 3 0x5200 0x5300) s).trace = [] := by decide +kernel

/-- After V57: an external buffer, STATUS = 0x2. -/
theorem test_fbsetext : (after (.fbsetext 0x9000) (direct 8 4 [])).fb = { base := 0x9000, en := false, alloc := true, int := false } ∧
    statusWord (after (.fbsetext 0x9000) (direct 8 4 [])) = 2#32 := by decide

/-- The environment of V50: the allocator answers 0x8000, bytes 0. -/
def v50 : State := { direct 8 4 [] with env := { Env.reset with alloc := [some 0x400], bytes := List.replicate 64 0 } }

/-- V50. -/
theorem test_fbenable_v50 : (after .fbenable v50).trace = [.alloc 64 32 (some 0x400)] ∧ statusWord (after .fbenable v50) = 7#32 ∧
    (after .fbenable v50).fb.base = 0x8000 ∧ (after .fbenable v50).result = true := by decide +kernel

/-- After V57: FAIL gives RESULT = 0 and STATUS = 0. -/
theorem test_fbenable_fail :
    let s := { direct 8 4 [] with env := { Env.reset with alloc := [none] }, result := true }
    (after .fbenable s).result = false ∧ statusWord (after .fbenable s) = 0#32 := by decide

/-- V56: STATUS = 0x6. -/
theorem test_fbdisable : statusWord (after .fbdisable internalBuffer) = 6#32 := by decide

/-- V57: one FREE, STATUS = 0, FB_BASE = 0. -/
theorem test_fbrelease : (after .fbrelease internalBuffer).trace = [.alloc 8 32 (some 0x400), .free 0x8000] ∧
    (after .fbrelease internalBuffer).fb = Mirror.reset := by decide

/-- V51: an empty dirty rectangle streams everything. -/
theorem test_flush_v51 : (after .flush (shadow 8 4)).trace = win 0 0 7 3 (List.replicate 32 0) := by decide +kernel

/-- V54: the dirty rectangle clipped to (4, 2, 7, 3). -/
theorem test_flush_v54 :
    let s := after (.setclip 4 2 4 2) (after (.setpixel 7 3 0x2222) (after (.setpixel 0 0 0x1111) (shadow 8 4)))
    (after .flush s).trace = win 4 2 7 3 [0, 0, 0, 0, 0, 0, 0, 0x2222] ∧ (after .flush s).dirty = Dirty.empty := by decide +kernel

/-- R216: accepted with a buffer; in direct mode RESULT = 0 and no query. -/
theorem test_flushasync : (after .flushasync (shadow 2 2)).trace =
      [.asyncActive false, .writeRectAsync 0 0 2 2 0x8000 .d16] ∧ (after .flushasync (shadow 2 2)).result = true ∧
    (after .flushasync (direct 2 2 [])).trace = [] := by decide

/-- R217: one query answered 0 completes it. -/
theorem test_waitasync : (after .waitasync (shadow 2 2)).trace = [.asyncActive false] ∧
    (after .waitasync (shadow 2 2)).waiting = false := by decide

/-- R218: the answer goes to RESULT. -/
theorem test_pollasync :
    (after .pollasync { shadow 2 2 with asyncBusy := true, env := { Env.reset with active := [true] } }).result = true := by decide

/-- 95_test_vectors.md 2.5: the latches of font T1. -/
theorem test_setfont_t1 : withT1.font =
    { hdr := 0x1000, fixed := 0, index := 0x1020, unicode := 0, data := 0x1040, version := 1, reserved := 0, i1f := 65, i1l := 66,
      i2f := 48, i2l := 49, bidx := 8, bw := 4, bh := 4, bxo := 3, byo := 3, bdelta := 4, lspace := 8, caph := 6, bpp := 1,
      alphamx := 31, ok := true } := by decide +kernel

/-- 95_test_vectors.md 2.6: F_BPP = 2, F_ALPHAMX = 10. -/
theorem test_setfont_t2 : withT2.font.bpp = 2 ∧ withT2.font.alphamx = 10 := by decide +kernel

/-- R233. -/
theorem test_setcursor : (after (.setcursor 10 20) { direct 4 4 [] with last := { Last.reset with valid := true } }).text =
      { Text.reset with cursorX := 10, cursorY := 20 } ∧
    (after (.setcursor 10 20) { direct 4 4 [] with last := { Last.reset with valid := true } }).last.valid = false := by decide

/-- R234. -/
theorem test_settextcolor : (after (.settextcolor 0x1234 0x5678) (direct 4 4 [])).text = { Text.reset with fg := 0x1234, bg := 0x5678 } := by
  decide

/-- R235. -/
theorem test_settextwrap : (after (.settextwrap false) (direct 4 4 [])).text = { Text.reset with wrap := false } := by decide

/-- R236: 0 is stored as 1. -/
theorem test_settextsize : (after (.settextsize 2 3) (direct 4 4 [])).text = { Text.reset with tsizeX := 2, tsizeY := 3 } ∧
    (after (.settextsize 0 3) (direct 4 4 [])).text = { Text.reset with tsizeX := 1, tsizeY := 3 } := by decide

/-- R237. -/
theorem test_setscroll : (after (.setscroll 0 50 100 50 true) (direct 4 4 [])).text =
    { Text.reset with scrollX := 0, scrollY := 50, scrollW := 100, scrollH := 50, scrollEn := true } := by decide

/-- R270 (V61): six rectangles in order, CURSOR = (6, 1), LAST_VALID = 0. -/
theorem test_drawchar_v61 :
    (after (.drawchar 65) (pen 0xFFFF 0xFFFF 2 1 withT1)).trace =
      win 3 2 3 2 [0xFFFF] ++ win 2 3 2 3 [0xFFFF] ++ win 4 3 4 3 [0xFFFF] ++ win 2 4 4 4 [0xFFFF, 0xFFFF, 0xFFFF] ++
      win 2 5 2 6 [0xFFFF, 0xFFFF] ++ win 4 5 4 6 [0xFFFF, 0xFFFF] := by decide +kernel

/-- R288 (a): the first four rectangles of the twelve, CURSOR = (7, 2). -/
theorem test_drawchar_fixed : ((after (.drawchar 65) (pen 0xFFFF 0xFFFF 1 2 withTable)).trace.take 16 =
      win 3 2 3 2 [0xFFFF] ++ win 2 3 2 3 [0xFFFF] ++ win 4 3 4 3 [0xFFFF] ++ win 1 4 1 4 [0xFFFF]) ∧
    (after (.drawchar 65) (pen 0xFFFF 0xFFFF 1 2 withTable)).text.cursorX = 7 := by decide +kernel

/-- R60: ORIGIN_Y sign-extended, WIDTH zero-extended, F_RANGE and F_BITS0 of font T1 packed. -/
theorem test_readPort : readReg (after (.setorigin 10 0xFFFD) (direct 4 4 [])) 0x05 = 0xFFFFFFFD#32 ∧
    readReg (direct 0x8001 4 []) 0x02 = 0x00008001#32 ∧ readReg withT1 0x23 = 0x31304241#32 ∧
    readReg withT1 0x24 = 0x03040408#32 := by decide +kernel

/-! ## Single accesses (R79, R330) -/

/-- A platform with one hole. -/
def holeAt (a : Word) (n : Nat) (s : State) : State := { s with unmapped := [(a, n)] }

/-- R79: a store to an address with nothing behind it gets no step; the bytes before and after the pixel's may be holes. -/
theorem test_unmapped_store : exec (.setpixel 0 0 7) (holeAt 0x8001 1 (shadow 2 2)) = .refused .unmappedAddress ∧
    Mapped (.setpixel 0 0 7) (holeAt 0x8002 4 (shadow 2 2)) ∧ Mapped (.setpixel 0 0 7) (holeAt 0x7FFF 1 (shadow 2 2)) :=
  ⟨rfl, by decide, by decide⟩

/-- R79, R78: a read from such an address gets no step either; SETFONT of kind 2 reads 26 bytes, kinds 0 and 1 none. -/
theorem test_unmapped_read : exec (.setfont 2 0x1000) (holeAt 0x1019 1 (direct 2 2 [])) = .refused .unmappedAddress ∧
    Mapped (.setfont 2 0x1000) (holeAt 0x101A 1 (direct 2 2 [])) ∧ Mapped (.setfont 1 0x1000) (holeAt 0x1000 99 (direct 2 2 [])) :=
  ⟨rfl, by decide, by decide⟩

/-- R330: a FILLRECT of two pixels abandoned after three of its four byte stores leaves the buffer partly written. -/
theorem test_reset_during :
    let s := { shadow 2 1 with port := [0xABCD0213, 0, 0x00010002, 0] }
    (assertResetDuring 3 s).mem = [(0x8000, 0xCD), (0x8001, 0xAB), (0x8002, 0xCD), (0x8003, 0)] ∧
    (assertResetDuring 4 s).mem = (afterStep s).mem ∧ (assertResetDuring 3 s).port = [] ∧
    (assertResetDuring 3 s).fb = Mirror.reset := by decide +kernel

/-- R330: a direct-mode SETPIXEL abandoned after BEGIN leaves the session open. -/
theorem test_reset_in_session :
    sinkSession (assertResetDuring 2 { direct 2 1 [] with port := [0xABCD0110, 0] }).trace = true := by decide

/-! ## Compositions the vectors of 2.5 and 2.6 give (glyph decode, overlap, scroll) -/

/-- V62 then V63: the state after the opaque 'A'. -/
def afterA : State := after (.drawchar 65) (pen 0xFFFF 0 2 1 withT1)

/-- V62: one window of 32 pixels, and the bookkeeping. -/
theorem test_opaque_v62 : afterA.trace = win 2 1 5 8
      [0, 0, 0, 0, 0, 0xFFFF, 0, 0, 0xFFFF, 0, 0xFFFF, 0, 0xFFFF, 0xFFFF, 0xFFFF, 0, 0xFFFF, 0, 0xFFFF, 0, 0xFFFF, 0, 0xFFFF, 0,
       0, 0, 0, 0, 0, 0, 0, 0] ∧
    afterA.last = { valid := true, cx := 6, cy := 1, xr := 5, fg := 0xFFFF, bg := 0 } := by decide +kernel

/-- V63: in the shared column five single pixels, then the window from column 6. -/
theorem test_overlap_v63 : (after (.drawchar 66) afterA).trace.drop 35 =
    win 5 2 5 2 [0xFFFF] ++ win 5 3 5 3 [0xFFFF] ++ win 5 4 5 4 [0xFFFF] ++ win 5 5 5 5 [0xFFFF] ++ win 5 6 5 6 [0xFFFF] ++
    win 6 1 9 8 [0, 0, 0, 0, 0xFFFF, 0, 0, 0, 0, 0xFFFF, 0, 0, 0xFFFF, 0, 0, 0, 0, 0xFFFF, 0, 0, 0xFFFF, 0, 0, 0,
      0, 0, 0, 0, 0, 0, 0, 0] ∧ (after (.drawchar 66) afterA).last.xr = 9 := by decide +kernel

/-- V71: the blend by level. -/
theorem test_antialiased_v71 : (after (.drawchar 97) (pen 0xFFFF 0 1 1 withT2)).trace = win 1 1 3 4
    [0xEF7D, 0x4A69, 0, 0, 0x9CF3, 0, 0, 0, 0, 0, 0, 0] := by decide +kernel

/-- V73: three single pixels at AA_THRESHOLD(2) = 1. -/
theorem test_antialiased_v73 : (after (.drawchar 97) (pen 0x07E0 0x07E0 5 1 withT2)).trace =
    win 5 1 5 1 [0x07E0] ++ win 6 1 6 1 [0x07E0] ++ win 6 2 6 2 [0x07E0] := by decide +kernel

/-- V70: direct auto-scroll; the first row's query and session, and the cursor. -/
theorem test_scroll_v70 :
    let s := { after (.setscroll 0 0 8 16 true) (pen 0xFFFF 0 0 16 (after (.setfont 2#2 0x1000#32) (direct 8 16 fontT1))) with
      env := { Env.reset with pixels := (List.range 8).flatMap fun k => List.replicate 8 (0x0108 + BitVec.ofNat 16 k) } }
    (after (.drawchar 48) s).trace.take 12 =
      .readRect 0 8 8 1 (List.replicate 8 0x0108) :: win 0 0 7 0 (List.replicate 8 0x0108) ∧
    (after (.drawchar 48) s).text.cursorX = 4 ∧ (after (.drawchar 48) s).text.cursorY = 8 := by decide +kernel

/-! ## Witnesses: the hypotheses of each statement, met together, clause by clause -/

theorem witness_DecodeOfEncode : (Instr.setfont 2 0x1000).wellFormed = true := by decide

theorem witness_EncodeOfDecode : [0x1000#32].length = (nwField 0x00020130).toNat ∧
    decode 0x00020130 [0x1000#32] = .ok (.setfont 2 0x1000) := ⟨by decide, rfl⟩

/-- Each of the three causes, and a legal packet. -/
theorem witness_IllegalPacketCauses :
    (([] : List Word).length = (nwField 0x04).toNat ∧ ∀ r ∈ opcodeTable, r.selects 0x04 = false) ∧
    ([0#32].length = (nwField 0x00030130).toNat ∧ opcField 0x00030130 = 0x30#8 ∧ immField 0x00030130 = 3#16) ∧
    ([0#32, 0x0001000A#32].length = (nwField 0x001F0212).toNat ∧ opcField 0x001F0212 = 0x12#8 ∧ hiField 0x0001000A ≠ 0#16) ∧
    ([0#32, 0x0001000A#32].length = (nwField 0x001F0211).toNat ∧ opcField 0x001F0211 = 0x11#8) ∧
    decode 0 [] = .ok .nop := ⟨by decide, by decide, by decide, by decide, rfl⟩

/-- A packet one word short, a legal one, an illegal one. -/
theorem witness_PacketLength : fetchFrom [0x101#32] = .idle ∧ fetchFrom [0x101#32, 0#32, 7#32] = .packet (.setcanvas 0 0) [7#32] ∧
    fetchFrom [0x10101#32, 0#32, 7#32] = .illegal .reservedField [7#32] := by decide

/-- A state with one packet and one more word at the port. -/
def withPacket (ws : List Word) : State := { shadow 2 2 with port := ws ++ [0#32] }

theorem witness_StepRunsDecoded : (withPacket [0xF8000110, 0]).waiting = false ∧
    (withPacket [0xF8000110, 0]).port = 0xF8000110#32 :: ([0#32] ++ [0#32]) ∧ [0#32].length = (nwField 0xF8000110).toNat ∧
    decode 0xF8000110 [0#32] = .ok (.setpixel 0 0 0xF800) := ⟨rfl, rfl, rfl, rfl⟩

theorem witness_StepDiscardsIllegal : (withPacket [0x10101, 0]).waiting = false ∧
    (withPacket [0x10101, 0]).port = 0x10101#32 :: ([0#32] ++ [0#32]) ∧ [0#32].length = (nwField 0x10101).toNat ∧
    decode 0x10101 [0#32] = .error .reservedField := ⟨rfl, rfl, rfl, rfl⟩

theorem witness_StepIdleKeepsState : (shadow 2 2).waiting = false ∧ (shadow 2 2).port = [] ∧
    (withPacket [0x313]).port = 0x313#32 :: [0#32] ∧ [0#32].length < (nwField 0x313).toNat := ⟨rfl, rfl, rfl, by decide⟩

/-- A WAITASYNC in execution, the sink to answer 1 twice and then 0. -/
def waiting2 : State :=
  { shadow 2 2 with waiting := true, asyncBusy := true, env := { Env.reset with active := [true, true, false, true] } }

theorem witness_WaitAsyncTerminates : waiting2.waiting = true ∧ waiting2.asyncBusy = true ∧
    waiting2.env.active = List.replicate 2 true ++ false :: [true] ∧ 0 < 1 ∧ 1 ≤ 2 := by decide

theorem witness_ResetInput : blocked (stepEvents (withPacket [0xF8000110, 0])) (withPacket [0xF8000110, 0]) = false := by decide

theorem witness_ReadPortUnassigned : (0x1C#8 : Byte) ≤ 0x1C#8 ∧ (0x1F#8 : Byte) ≤ 0x1F#8 ∧ 0x2D#8 ≤ (0x2D#8 : Byte) ∧
    0x2D#8 ≤ (0xFF#8 : Byte) := by decide

theorem witness_StepKeepsInv : LegalState (withPacket [0xF8000110, 0]) ∧
    step (withPacket [0xF8000110, 0]) = .next (afterStep (withPacket [0xF8000110, 0])) := ⟨by decide +kernel, rfl⟩

/-- A FLUSH presented over an internal buffer. -/
def flushNext : State := { internalBuffer with port := [0x24] }

theorem witness_StepKeepsSessions : LegalState flushNext ∧ SessionsOk flushNext ∧ step flushNext = .next (afterStep flushNext) :=
  ⟨by decide +kernel, by decide, rfl⟩

/-- A FBRELEASE presented over an internal buffer. -/
def releaseNext : State := { internalBuffer with port := [0x23] }

theorem witness_StepKeepsAllocBalance : LegalState releaseNext ∧ AllocBalanced releaseNext ∧
    step releaseNext = .next (afterStep releaseNext) := ⟨by decide +kernel, by decide, rfl⟩

/-- A step with every access mapped, and the same step over a hole. -/
theorem witness_StepExtendsTrace : blocked (stepEvents (withPacket [0xF8000110, 0])) (withPacket [0xF8000110, 0]) = false ∧
    blocked (stepEvents (holeAt 0x8000 1 (withPacket [0xF8000110, 0]))) (holeAt 0x8000 1 (withPacket [0xF8000110, 0])) = true := by
  decide

/-- ILL already set, and ILL set by the step. -/
theorem witness_IllIsSticky :
    step { withPacket [0x21] with ill := true } = .next (afterStep { withPacket [0x21] with ill := true }) ∧
    (withPacket [0x10101, 0]).ill = false ∧ step (withPacket [0x10101, 0]) = .next (afterStep (withPacket [0x10101, 0])) ∧
    (afterStep (withPacket [0x10101, 0])).ill = true := ⟨rfl, rfl, rfl, rfl⟩

theorem witness_IllAndUnicodeAreNeverRead : (Instr.setfont 2 0x1000).wellFormed = true ∧
    exec (.setfont 2 0x1000) (direct 20 12 fontT1) = .next withT1 := ⟨by decide, rfl⟩

/-- NOP is none of the writers named, so every clause's premise holds of it. -/
theorem witness_RegisterWriters : exec .nop (shadow 2 2) = .next (shadow 2 2) ∧
    Instr.nop.mnemonic ∉ ["SETCANVAS", "SETORIGIN", "SETCLIP", "FBSETEXT", "FBENABLE", "FBDISABLE", "FBRELEASE", "FLUSHASYNC",
      "POLLASYNC", "SETCURSOR", "DRAWCHAR", "SETTEXTCOLOR", "SETTEXTWRAP", "SETTEXTSIZE", "SETSCROLL", "SETFONT"] :=
  ⟨rfl, by decide⟩

/-- The first byte before and after the region stored to. -/
theorem witness_StoresStayInRegions : LegalState (shadow 2 2) ∧
    exec (.setpixel 0 0 7) (shadow 2 2) = .next (after (.setpixel 0 0 7) (shadow 2 2)) ∧
    (∀ r ∈ writtenRegions (.setpixel 0 0 7) (shadow 2 2), ¬ InRegion r 0x7FFF ∧ ¬ InRegion r 0x8008 ∧ InRegion r 0x8007) ∧
    (∀ r ∈ writtenRegions (.readrect 0 0 2 2 0x100) (shadow 2 2), ¬ InRegion r 0xFF ∧ ¬ InRegion r 0x108) ∧
    LegalState v50 ∧ (∀ r ∈ writtenRegions .fbenable v50, ¬ InRegion r 0x8040 ∧ InRegion r 0x803F) :=
  ⟨by decide +kernel, rfl, by decide +kernel, by decide +kernel, by decide +kernel, by decide +kernel⟩

theorem witness_DrawingUsesOneMode : drawsPixels (.setpixel 0 0 7) = true ∧
    exec (.setpixel 0 0 7) (shadow 2 2) = .next (after (.setpixel 0 0 7) (shadow 2 2)) ∧ (shadow 2 2).fb.en = true ∧
    exec (.setpixel 0 0 7) (direct 2 2 []) = .next (after (.setpixel 0 0 7) (direct 2 2 [])) ∧ (direct 2 2 []).fb.en = false :=
  ⟨rfl, rfl, rfl, rfl, rfl⟩

/-- A one-pixel buffer that differs from `zeroed` in the pixel its dirty rectangle covers. -/
def oneDirty : State := after (.setpixel 0 0 7) (shadow 1 1)

theorem witness_DirtyRectangleSound : LegalState oneDirty ∧ oneDirty.fb.en = true ∧
    Hazard.operandOverlap ∉ hazards (.readrect 0 0 1 1 0x100) oneDirty ∧ DirtyCovers (zeroed 0x8000 2) oneDirty ∧
    fbReadIn oneDirty (zeroed 0x8000 2) 0 0 ≠ fbRead oneDirty 0 0 ∧
    exec (.readrect 0 0 1 1 0x100) oneDirty = .next (after (.readrect 0 0 1 1 0x100) oneDirty) ∧
    (after (.readrect 0 0 1 1 0x100) oneDirty).fb.en = true := by
  refine ⟨by decide +kernel, by decide, by decide +kernel, ?_, by decide +kernel, rfl, rfl⟩
  rintro px py ⟨h1, h2, h3, h4⟩ _
  have hx : px = 0 := Int.le_antisymm (Int.lt_add_one_iff.mp h2) h1
  have hy : py = 0 := Int.le_antisymm (Int.lt_add_one_iff.mp h4) h3
  subst hx hy
  decide +kernel

/-- A legal canvas with a visible pixel of a clipped request, and a request clipped away. -/
theorem witness_ClipIsIntersection : CanvasOk (canvasOf 100 100) ∧ Visible (canvasOf 100 100) (-5) (-5) 20 20 14 14 ∧
    (clip (canvasOf 100 100) (-5) (-5) 20 20).isSome = true ∧ clip (canvasOf 100 100) 100 0 1 1 = none := by decide

theorem witness_BlendChannels : (0 : Int) ≤ 0 ∧ (0 : Int) ≤ 31 ∧ (31 : Int) < 32 := by decide

theorem witness_PackedBlendIsBlend : 31 < 32 := by decide

/-- The widths 0 and 32, and the bytes of the worked example. -/
theorem witness_BitFields : 0 ≤ 32 ∧ 32 ≤ 32 ∧ Memory.read [(0, 0b10110010#8), (1, 0b01000000#8)] 0#32 = 0b10110010#8 ∧
    Memory.read [(0, 0b10110010#8), (1, 0b01000000#8)] (0#32 + 1#32) = 0b01000000#8 := by decide

theorem witness_PaletteIndexIsBitField : legalBpp 1 = true ∧ legalBpp 2 = true ∧ legalBpp 4 = true ∧ legalBpp 8 = true ∧
    (0 : Int) < 1 ∧ (0 : Int) ≤ 0 := by decide

theorem witness_ByteOrder : ¬ InRegion (0x100#32, 2) 0xFF ∧ ¬ InRegion (0x100#32, 2) 0x102 ∧ ¬ InRegion (0xFFFFFFFF#32, 4) 3 := by decide

/-- SETCANVAS ignored for a negative width and height and for a buffer, and accepted. -/
theorem witness_CanvasSettersResult : (s16 0xFFFF < 0 ∧ s16 0x8000 < 0) ∧ (shadow 2 2).fb.alloc = true ∧
    ¬ (s16 0 < 0 ∨ s16 0x7FFF < 0 ∨ (direct 2 2 []).fb.alloc = true) := by decide

theorem witness_SetclipResult : CanvasOk (canvasOf 0 0) ∧ CanvasOk (canvasOf 0x7FFF 0x7FFF) := by decide

/-- Each of the four primitives, in both modes; a hole around the buffer. -/
theorem witness_SolidPrimitivesDraw : solidRequest (.setpixel 1 0xFFFF 7) = some (1, -1, 1, 1, 7) ∧
    solidRequest (.fastvline 1 0 2 7) = some (1, 0, 1, 2, 7) ∧ solidRequest (.fasthline 1 0 2 7) = some (1, 0, 2, 1, 7) ∧
    solidRequest (.fillrect 1 0 2 3 7) = some (1, 0, 2, 3, 7) ∧ CanvasOk (shadow 2 2).canvas ∧ CanvasOk (direct 2 2 []).canvas ∧
    (∀ i ∈ [Instr.setpixel 1 0xFFFF 7, .fastvline 1 0 2 7, .fasthline 1 0 2 7, .fillrect 1 0 2 3 7],
      Mapped i (holeAt 0x8008 0xFFFFFFF8 (shadow 2 2)) ∧ Mapped i (holeAt 0 0x100000000 (direct 2 2 []))) := by
  decide

/-- Both modes. -/
theorem witness_SolidDrawTwice : solidRequest (.setpixel 0 0 7) = some (0, 0, 1, 1, 7) ∧ LegalState (shadow 2 2) ∧
    LegalState (direct 2 2 []) ∧ exec (.setpixel 0 0 7) (shadow 2 2) = .next (after (.setpixel 0 0 7) (shadow 2 2)) ∧
    exec (.setpixel 0 0 7) (after (.setpixel 0 0 7) (shadow 2 2)) =
      .next (after (.setpixel 0 0 7) (after (.setpixel 0 0 7) (shadow 2 2))) :=
  ⟨by decide, by decide +kernel, by decide, rfl, rfl⟩

/-- A source that ends just before the buffer at 0x8000. -/
theorem witness_WriterectDraws : LegalState (shadow 2 2) ∧ Hazard.operandOverlap ∉ hazards (.writerect 0 0 2 2 0x7FF8) (shadow 2 2) ∧
    Hazard.operandOverlap ∈ hazards (.writerect 0 0 2 2 0x7FF9) (shadow 2 2) ∧
    Mapped (.writerect 0 0 2 2 0x7FF8) (holeAt 0x8008 8 (shadow 2 2)) := by decide +kernel

/-- A bitmap before the buffer at 0x8000, a palette after it; a legal depth and another. -/
theorem witness_WriterectnbppDraws : LegalState (shadow 2 2) ∧
    Hazard.operandOverlap ∉ hazards (.writerectnbpp 0 0 2 2 1 0x7FFE 0x8008) (shadow 2 2) ∧
    Hazard.operandOverlap ∉ hazards (.writerectnbpp 0 0 2 2 3 0x8000 0x8000) (shadow 2 2) ∧
    Mapped (.writerectnbpp 0 0 2 2 1 0x7FFE 0x8008) (shadow 2 2) ∧ Mapped (.writerectnbpp 0 0 2 2 3 0x8000 0x8000) (shadow 2 2) ∧
    legalBpp 1 = true ∧ legalBpp 3 = false := by decide +kernel

/-- Visible, and clipped away. -/
theorem witness_ReadrectFromBuffer : LegalState (shadow 2 2) ∧ (shadow 2 2).fb.en = true ∧
    Hazard.operandOverlap ∉ hazards (.readrect 0 0 2 2 0x8008) (shadow 2 2) ∧
    Mapped (.readrect 0 0 2 2 0x8008) (shadow 2 2) ∧ Mapped (.readrect 2 0 2 2 0x8008) (shadow 2 2) ∧
    clip (shadow 2 2).canvas (s16 0) (s16 0) (s16 2) (s16 2) = some ⟨0, 0, 0, 0, 2, 2⟩ ∧
    clip (shadow 2 2).canvas (s16 2) (s16 0) (s16 2) (s16 2) = none := by decide +kernel

/-- One answer scripted of the four asked for. -/
theorem witness_ReadrectFromSink : LegalState (direct 2 2 []) ∧ (direct 2 2 []).fb.en = false ∧
    Mapped (.readrect 0 0 2 2 0x100) (direct 2 2 []) ∧ 0 < ({ Env.reset with pixels := [7] } : Env).pixels.length ∧
    clip (direct 2 2 []).canvas (s16 0) (s16 0) (s16 2) (s16 2) = some ⟨0, 0, 0, 0, 2, 2⟩ := by decide

/-- A shadow buffer of 2 by 2 pixels and an array of four elements at 0x100. -/
def withArray : State := { shadow 2 2 with mem := elements 0x100 [1, 2, 3, 4] (shadow 2 2).mem }

theorem witness_WriteReadRoundTrip : LegalState withArray ∧ withArray.fb.en = true ∧
    Hazard.operandOverlap ∉ hazards (.writerect 0xFFFF 0 2 2 0x100) withArray ∧
    exec (.writerect 0xFFFF 0 2 2 0x100) withArray = .next (after (.writerect 0xFFFF 0 2 2 0x100) withArray) ∧
    Hazard.operandOverlap ∉ hazards (.readrect 0xFFFF 0 2 2 0x200) (after (.writerect 0xFFFF 0 2 2 0x100) withArray) ∧
    exec (.readrect 0xFFFF 0 2 2 0x200) (after (.writerect 0xFFFF 0 2 2 0x100) withArray) =
      .next (after (.readrect 0xFFFF 0 2 2 0x200) (after (.writerect 0xFFFF 0 2 2 0x100) withArray)) ∧
    clip withArray.canvas (s16 0xFFFF) (s16 0) (s16 2) (s16 2) = some ⟨-1, 0, 0, 0, 1, 2⟩ ∧
    Visible withArray.canvas (s16 0xFFFF) (s16 0) (s16 2) (s16 2) 0 1 :=
  ⟨by decide +kernel, by decide, by decide +kernel, rfl, by decide +kernel, rfl, by decide, by decide⟩

/-- V41 and V42. -/
theorem witness_WriterectCrops :
    LegalState v41 ∧ clip v41.canvas (s16 9) (s16 9) (s16 5) (s16 4) = some ⟨9, 9, 10, 10, 13, 12⟩ ∧
    (s16 10 = 10 - s16 v41.canvas.originX ∧ s16 10 = 10 - s16 v41.canvas.originY ∧ s16 3 = 13 - 10 ∧ s16 2 = 12 - 10) ∧
    (∀ i j : Nat, (i : Int) < 13 - 10 → (j : Int) < 12 - 10 →
      Memory.read16 v41.mem (elementAddr 0x2100 (j * (13 - 10) + i)) =
        Memory.read16 v41.mem (elementAddr 0x2000 (srcIndex ⟨9, 9, 10, 10, 13, 12⟩ (s16 5) (10 + i) (10 + j)))) ∧
    Hazard.operandOverlap ∉ hazards (.writerect 9 9 5 4 0x2000) v41 ∧
    Hazard.operandOverlap ∉ hazards (.writerect 10 10 3 2 0x2100) v41 ∧
    Mapped (.writerect 9 9 5 4 0x2000) v41 ∧ Mapped (.writerect 10 10 3 2 0x2100) v41 := by
  refine ⟨by decide +kernel, by decide, by decide, ?_, by decide, by decide, by decide +kernel, by decide +kernel⟩
  intro i j hi hj
  have h : ∀ i : Fin 3, ∀ j : Fin 2, Memory.read16 v41.mem (elementAddr 0x2100 ((j.val : Int) * (13 - 10) + (i.val : Int))) =
      Memory.read16 v41.mem (elementAddr 0x2000 (srcIndex ⟨9, 9, 10, 10, 13, 12⟩ (s16 5) (10 + (i.val : Int)) (10 + (j.val : Int)))) := by
    decide +kernel
  exact h ⟨i, by omega⟩ ⟨j, by omega⟩

/-- Not capable; attached; FAIL; an answer with its first byte scripted. -/
theorem witness_FbenableResult : CanvasOk v50.canvas ∧ v50.params.fbCapable = true ∧ v50.fb.alloc = false ∧
    v50.env.nextAlloc.1 = some 0x400 ∧ v50.env.bytes[63]? = some 0 ∧ 63 < v50.canvas.width.toNat * v50.canvas.height.toNat * 2 ∧
    ¬ InRegion (blockAddr 0x400, 64) 0x8040 ∧ (shadow 2 2).fb.alloc = true ∧
    ({ Env.reset with alloc := [none] } : Env).nextAlloc.1 = none ∧
    { params16 with fbCapable := false }.fbCapable = false := by decide

theorem witness_BufferAttachRelease : (shadow 2 2).fb.alloc = true ∧ (shadow 2 2).fb.int = false ∧ internalBuffer.fb.int = true ∧
    (direct 2 2 []).fb.alloc = false ∧ (direct 2 2 []).params.fbCapable = true := by decide

/-- Direct; nothing dirty, and no pixel at all; dirty inside the clip, and outside it. -/
theorem witness_FlushResult : (direct 2 2 []).fb.en = false ∧ (shadow 2 2).fb.en = true ∧ dirtyEmpty (shadow 2 2).dirty = true ∧
    (shadow 0 2).fb.en = true ∧ oneDirty.fb.en = true ∧ dirtyEmpty oneDirty.dirty = false ∧
    dirtyEmpty (after (.setclip 1 1 1 1) (after (.setpixel 0 0 7) (shadow 2 2))).dirty = false ∧
    Mapped .flush (shadow 2 2) ∧ Mapped .flush (shadow 0 2) ∧ Mapped .flush oneDirty := by decide +kernel

/-- The dirty pixel of a 1 by 1 canvas; and with nothing dirty. -/
theorem witness_FlushReachesSink : LegalState oneDirty ∧ oneDirty.fb.en = true ∧ SinkFits oneDirty.canvas (RefSink.fresh 1 1 0) ∧
    exec .flush oneDirty = .next (after .flush oneDirty) ∧ OnCanvas oneDirty.canvas 0 0 ∧
    InDirty oneDirty.dirty 0 0 ∧ InClip oneDirty.canvas 0 0 ∧ dirtyEmpty (shadow 1 1).dirty = true :=
  ⟨by decide +kernel, by decide, by decide, rfl, by decide, by decide +kernel, by decide, by decide⟩

theorem witness_DirectMatchesShadow : LegalState (shadow 1 1) ∧ (shadow 1 1).fb.en = true ∧ drawsPixels (.setpixel 0 0 7) = true ∧
    (Instr.setpixel 0 0 7).mnemonic ≠ "DRAWCHAR" ∧ Hazard.operandOverlap ∉ hazards (.setpixel 0 0 7) (shadow 1 1) ∧
    SinkFits (shadow 1 1).canvas (RefSink.fresh 1 1 0) ∧
    (∀ px py : Nat, OnCanvas (shadow 1 1).canvas px py →
      (RefSink.fresh 1 1 0).gramAt px py = fromFB (shadow 1 1).params.depth (fbRead (shadow 1 1) px py)) ∧
    exec (.setpixel 0 0 7) (shadow 1 1) = .next oneDirty ∧
    exec (.setpixel 0 0 7) { shadow 1 1 with fb := { (shadow 1 1).fb with en := false } } =
      .next (after (.setpixel 0 0 7) { shadow 1 1 with fb := { (shadow 1 1).fb with en := false } }) := by
  refine ⟨by decide +kernel, by decide, by decide, by decide, by decide, by decide, ?_, rfl, rfl⟩
  rintro px py ⟨h1, h2, h3, h4⟩
  have hx : px = 0 := Nat.lt_one_iff.mp (Int.ofNat_lt.mp h2)
  have hy : py = 0 := Nat.lt_one_iff.mp (Int.ofNat_lt.mp h4)
  subst hx hy
  decide +kernel

/-- Disabled; idle; a transfer outstanding, the sink answering 1 or 0. -/
theorem witness_AsyncCommandsResult : (direct 2 2 []).fb.en = false ∧ (shadow 2 2).asyncBusy = false ∧ (shadow 2 2).fb.en = true ∧
    waiting2.asyncBusy = true ∧ waiting2.env.nextActive.1 = true ∧
    ({ Env.reset with active := [false] } : Env).nextActive.1 = false := by decide

theorem witness_SetfontResult : Mapped (.setfont 2 0x1000) (holeAt 0 0x1000 (direct 20 12 fontT1)) := by decide

/-- A code of 256 with a fixed font; the code past either range of font T1; the glyph of tag 1; a font that is not usable. -/
theorem witness_DrawcharSkips : ((direct 2 2 []).text.fontKind ≠ .scalableFont ∧ 255 < (256#16).toNat) ∧
    withT1.text.fontKind = .scalableFont ∧
    (¬ (withT1.font.i1f.toNat ≤ (67#16).toNat ∧ (67#16).toNat ≤ withT1.font.i1l.toNat) ∧
      ¬ (withT1.font.i2f.toNat ≤ (67#16).toNat ∧ (67#16).toNat ≤ withT1.font.i2l.toNat)) ∧
    (glyphAddr withT1.font withT1.mem (49#16).toNat = some 0x104F ∧ fetchU withT1.mem 0x104F 0 3 ≠ 0 ∧
      Mapped (.drawchar 49) withT1) ∧
    ({ withT1 with font := Font.reset } : State).font.ok = false := by decide +kernel

/-- Both ranges of font T1 at their ends, a record of tag 0 and one of tag 1. -/
theorem witness_GlyphLookupAndHeader : withT1.font.ok = true ∧ (withT1.font.i1f.toNat ≤ 66 ∧ 66 ≤ withT1.font.i1l.toNat) ∧
    (¬ (withT1.font.i1f.toNat ≤ 48 ∧ 48 ≤ withT1.font.i1l.toNat) ∧ (withT1.font.i2f.toNat ≤ 48 ∧ 48 ≤ withT1.font.i2l.toNat) ∧
      withT1.font.i1f.toNat ≤ withT1.font.i1l.toNat + 1) ∧
    LegalState withT1 ∧ fetchU withT1.mem 0x1040 0 3 = 0 ∧ fetchU withT1.mem 0x104F 0 3 ≠ 0 := by decide +kernel

/-- 'A' of font T1 (R251, R270): the groups start at bits 21, 25, 29 and 33, and the last has two rows. -/
theorem witness_RowGroupsCoverGlyph : (decodeGroups fontT1 0x1040 3 5 5 0 21).1.length = 4 ∧ 0 < 5 ∧
    (decodeGroups fontT1 0x1040 3 5 5 0 21).2 < 2 ^ 32 ∧ withT1.font.bpp = 1#8 := by decide +kernel

/-- The scene of 'A' (one bit) and of 'a' of font T2 (two bits). -/
theorem witness_GlyphLevels : withT1.font.bpp = 1 ∧
    (takePixels 0x1040 { gw := 3, gh := 5, xo := 0, yo := 0, adv := 4 } { withT1 with bitcur := 21 }).1.groups.length ≠ 0 ∧
    withT2.font.bpp ≠ 1 ∧ ¬ ((0 : Int) ≤ -1) := by decide +kernel

/-- Both modes; a scripted answer for the one row that moves. -/
theorem witness_ScrollUpMovesRows : LegalState (shadow 2 2) ∧ (shadow 2 2).fb.en = true ∧ (0 : Int) < 1 ∧ (0 : Int) ≤ 0 ∧
    LegalState { direct 2 2 [] with text := { Text.reset with scrollW := 2, scrollH := 2 }, env := { Env.reset with pixels := [7, 8] } } ∧
    (scrollUp 1 { direct 2 2 [] with
      text := { Text.reset with scrollW := 2, scrollH := 2, bg := 0 }, env := { Env.reset with pixels := [7, 8] } }).trace =
      .readRect 0 1 2 1 [7, 8] :: (win 0 0 1 0 [7, 8] ++ win 0 1 1 1 [0, 0]) := by decide +kernel

theorem witness_FixedCharacterCursor : builtIn.text.fontKind ≠ .scalableFont ∧ (255#16).toNat ≤ 255 ∧
    Mapped (.drawchar 255) builtIn := by decide +kernel

theorem witness_FixedCharacterOpaque : LegalState builtIn ∧ builtIn.text.fontKind ≠ .scalableFont ∧ (255#16).toNat ≤ 255 ∧
    builtIn.text.fg ≠ builtIn.text.bg ∧ Mapped (.drawchar 255) builtIn := by decide +kernel

/-- Both modes, and a display. -/
theorem witness_FixedCharacterTransparent : LegalState (shadow 2 2) ∧ (shadow 2 2).fb.en = true ∧
    (shadow 2 2).text.fontKind ≠ .scalableFont ∧ (255#16).toNat ≤ 255 ∧ (shadow 2 2).text.fg = (shadow 2 2).text.bg ∧
    Mapped (.drawchar 255) (shadow 2 2) ∧ LegalState withTable ∧ withTable.fb.en = false ∧
    withTable.text.fontKind ≠ .scalableFont ∧ withTable.text.fg = withTable.text.bg ∧ Mapped (.drawchar 65) withTable ∧
    SinkFits withTable.canvas (RefSink.fresh 20 20 0) := by decide +kernel

theorem witness_GlyphCursorAndBookkeeping : withT1.text.fontKind = .scalableFont ∧ Mapped (.drawchar 65) withT1 ∧
    glyphScene (65#16).toNat withT1 = some ((glyphScene (65#16).toNat withT1).getD ⟨⟨0, 0, 0, 0, 0⟩, ⟨0, 0, false⟩, withT1, ⟨[], []⟩⟩) :=
  ⟨by decide +kernel, by decide +kernel, rfl⟩

/-- Font T1 selected on a shadow buffer of 8 by 9 pixels. -/
def shadowT1 (bg : Half) : State :=
  let s := shadow 8 9
  after (.settextcolor 0xFFFF bg) (after (.setfont 2#2 0x1000#32) { s with mem := fontT1 ++ s.mem })

/-- The scene of 'A' there. -/
def sceneA (bg : Half) : GlyphScene :=
  (glyphScene (65#16).toNat (shadowT1 bg)).getD ⟨⟨0, 0, 0, 0, 0⟩, ⟨0, 0, false⟩, withT1, ⟨[], []⟩⟩

/-- The scene of 'A' in direct mode. -/
def directA (bg : Half) : State := pen 0xFFFF bg 2 1 withT1

/-- Both modes; no column shared, and one shared (V63). -/
theorem witness_GlyphOpaque : LegalState (shadowT1 0) ∧ (shadowT1 0).fb.en = true ∧ (shadowT1 0).text.fontKind = .scalableFont ∧
    glyphScene (65#16).toNat (shadowT1 0) = some (sceneA 0) ∧ (shadowT1 0).text.fg ≠ (shadowT1 0).text.bg ∧
    Mapped (.drawchar 65) (shadowT1 0) ∧
    (LegalState (directA 0) ∧ (directA 0).fb.en = false ∧ (directA 0).text.fontKind = .scalableFont ∧
      (glyphScene (65#16).toNat (directA 0)).isSome = true ∧ (directA 0).text.fg ≠ (directA 0).text.bg ∧
      Mapped (.drawchar 65) (directA 0) ∧ (directA 0).last.valid = false ∧ SinkFits (directA 0).canvas (RefSink.fresh 20 12 0)) ∧
    (afterA.last.valid = true ∧ afterA.last.cx = afterA.text.cursorX ∧ afterA.last.cy = afterA.text.cursorY ∧
      5 ≤ afterA.last.xr.toInt ∧ Mapped (.drawchar 66) afterA) :=
  ⟨by decide +kernel, by decide +kernel, by decide +kernel, rfl, by decide +kernel, by decide +kernel, by decide +kernel,
    by decide +kernel⟩

/-- Both modes, one bit; direct mode, two bits. -/
theorem witness_GlyphTransparent : LegalState (shadowT1 0xFFFF) ∧ (shadowT1 0xFFFF).fb.en = true ∧
    (shadowT1 0xFFFF).text.fontKind = .scalableFont ∧ glyphScene (65#16).toNat (shadowT1 0xFFFF) = some (sceneA 0xFFFF) ∧
    (shadowT1 0xFFFF).text.fg = (shadowT1 0xFFFF).text.bg ∧ Mapped (.drawchar 65) (shadowT1 0xFFFF) ∧
    (LegalState (directA 0xFFFF) ∧ (directA 0xFFFF).fb.en = false ∧ (glyphScene (65#16).toNat (directA 0xFFFF)).isSome = true ∧
      (directA 0xFFFF).text.fg = (directA 0xFFFF).text.bg ∧ Mapped (.drawchar 65) (directA 0xFFFF)) ∧
    (LegalState (pen 1 1 1 1 withT2) ∧ (glyphScene (97#16).toNat (pen 1 1 1 1 withT2)).isSome = true ∧
      Mapped (.drawchar 97) (pen 1 1 1 1 withT2)) :=
  ⟨by decide +kernel, by decide +kernel, by decide +kernel, rfl, by decide +kernel, by decide +kernel, by decide +kernel,
    by decide +kernel⟩

theorem witness_EventsReplayCommand : exec (.setpixel 0 0 7) (shadow 2 2) = .next (after (.setpixel 0 0 7) (shadow 2 2)) ∧
    step (withPacket [0xF8000110, 0]) = .next (afterStep (withPacket [0xF8000110, 0])) ∧
    (stepEvents (withPacket [0xF8000110, 0])).length ≤ 2 := ⟨rfl, rfl, by decide⟩

end Sys2Proof.Tests.Slice0
end

section
/-! PROOFS. The reset input and single accesses (70_reset_and_hazards.md R330): what the reset input leaves, and that it sees nothing of the
state but what stands outside the registers. Settles O12. -/

namespace Sys2Proof.Machine

/-! ## The reset input -/

@[simp] theorem assertReset_port (s : State) : (assertReset s).port = [] := rfl
@[simp] theorem assertReset_waiting (s : State) : (assertReset s).waiting = false := rfl
@[simp] theorem assertReset_params (s : State) : (assertReset s).params = s.params := rfl
@[simp] theorem assertReset_unmapped (s : State) : (assertReset s).unmapped = s.unmapped := rfl

/-- The read port shows registers only: after the reset input every number reads as after reset (R60, R330). -/
theorem readReg_assertReset (s : State) (n : Byte) : readReg (assertReset s) n = readReg State.reset n := by
  unfold readReg
  rfl

/-- The reset input reaches nothing outside the registers (R330). -/
theorem sameOutside_assertReset (s : State) : SameOutside (assertReset s) s := ⟨rfl, rfl, rfl, rfl⟩

/-- What the reset input leaves is fixed by the parameters, the platform's map and what stands outside the registers. -/
theorem assertReset_congr {s t : State} (hp : s.params = t.params) (hu : s.unmapped = t.unmapped) (h : SameOutside s t) :
    assertReset s = assertReset t := by
  obtain ⟨hm, ht, he, ha⟩ := h
  simp only [assertReset, hp, hu, hm, ht, he, ha]

/-! ## Accesses change neither the parameters nor the platform's map -/

@[simp] theorem applyEvent_params (s : State) (e : Event) : (applyEvent s e).params = s.params := by
  cases e with
  | load a n => rfl
  | store a b => rfl
  | port t =>
    cases t with
    | alloc size align answer => cases answer <;> rfl
    | _ => rfl

@[simp] theorem applyEvent_unmapped (s : State) (e : Event) : (applyEvent s e).unmapped = s.unmapped := by
  cases e with
  | load a n => rfl
  | store a b => rfl
  | port t =>
    cases t with
    | alloc size align answer => cases answer <;> rfl
    | _ => rfl

@[simp] theorem replay_params : ∀ (evs : List Event) (s : State), (replay evs s).params = s.params
  | [], _ => rfl
  | e :: evs, s => by rw [replay_cons, replay_params evs, applyEvent_params]

@[simp] theorem replay_unmapped : ∀ (evs : List Event) (s : State), (replay evs s).unmapped = s.unmapped
  | [], _ => rfl
  | e :: evs, s => by rw [replay_cons, replay_unmapped evs, applyEvent_unmapped]

/-! ## The reset input inside a step -/

/-- In every case the reset input meets a state with the parameters and the map the step began with. -/
theorem assertResetDuring_eq (k : Nat) (s : State) :
    ∃ u, assertResetDuring k s = assertReset u ∧ u.params = s.params ∧ u.unmapped = s.unmapped := by
  unfold assertResetDuring
  split
  · exact ⟨s, rfl, rfl, rfl⟩
  · exact ⟨_, rfl, replay_params _ _, replay_unmapped _ _⟩

theorem assertResetDuring_of_mapped {s : State} (h : blocked (stepEvents s) s = false) (k : Nat) :
    assertResetDuring k s = assertReset (replay ((stepEvents s).take k) s) := by
  simp [assertResetDuring, h]

theorem assertResetDuring_zero (s : State) : assertResetDuring 0 s = assertReset s := by
  simp [assertResetDuring]

/-- Settles O12: the read port, the command port and the map are those of `assertReset`, and the accesses made before it reach none of
them. -/
theorem resetInput : Obligations.ResetInput := by
  intro s k
  obtain ⟨u, hr, hp, hu⟩ := assertResetDuring_eq k s
  refine ⟨?_, ?_, ?_, ?_, ?_, fun h => ?_, assertResetDuring_zero s, sameOutside_assertReset s⟩
  · rw [hr]; exact readReg_assertReset u
  · rw [hr]; exact assertReset_port u
  · rw [hr]; exact assertReset_waiting u
  · rw [hr, assertReset_params, hp]
  · rw [hr, assertReset_unmapped, hu]
  · rw [assertResetDuring_of_mapped h]
    exact sameOutside_assertReset _

end Sys2Proof.Machine
end

section
/-! PROOFS. What every operation leaves of the parameters, the platform's map and the trace (00_scope.md R7, R11; 20_memory.md R95):
the first two stay, and the trace is extended, never by a WRITERECT. -/

namespace Sys2Proof.Machine

/-- R95: no WRITERECT among the transactions. -/
def NoWriterect (ts : List Transaction) : Prop := ∀ x y w h pixels, Transaction.writeRect x y w h pixels ∉ ts

theorem noWriterect_nil : NoWriterect [] := fun _ _ _ _ _ => List.not_mem_nil

theorem NoWriterect.append {as bs : List Transaction} (ha : NoWriterect as) (hb : NoWriterect bs) : NoWriterect (as ++ bs) :=
  fun x y w h p hm => (List.mem_append.1 hm).elim (ha x y w h p) (hb x y w h p)

/-- A streaming transaction is no WRITERECT. -/
theorem noWriterect_of_streams {ts : List Transaction} (h : ∀ t ∈ ts, t.streams = true) : NoWriterect ts :=
  fun _ _ _ _ _ hm => absurd (h _ hm) Bool.false_ne_true

/-- `t` has the parameters and the map of `s`, and its trace extends that of `s` without a WRITERECT. -/
structure Extends (s t : State) : Prop where
  params : t.params = s.params
  unmapped : t.unmapped = s.unmapped
  trace : ∃ ts, t.trace = s.trace ++ ts ∧ NoWriterect ts

/-- A change of registers, of memory or of the answers alone. -/
theorem Extends.of_trace_eq {s t : State} (hp : t.params = s.params) (hu : t.unmapped = s.unmapped) (ht : t.trace = s.trace) :
    Extends s t := ⟨hp, hu, [], by simp [ht], noWriterect_nil⟩

theorem Extends.refl (s : State) : Extends s s := .of_trace_eq rfl rfl rfl

theorem Extends.trans {s t u : State} (h1 : Extends s t) (h2 : Extends t u) : Extends s u := by
  obtain ⟨ts, ht, hts⟩ := h1.trace
  obtain ⟨us, hu, hus⟩ := h2.trace
  exact ⟨h2.params.trans h1.params, h2.unmapped.trans h1.unmapped, ts ++ us, by rw [hu, ht, List.append_assoc], hts.append hus⟩

/-- What only streams and reads on the sink port, and changes neither the parameters nor the map. -/
theorem Streams.extends {s t : State} (h : Streams s t) (hp : t.params = s.params) (hu : t.unmapped = s.unmapped) : Extends s t := by
  obtain ⟨ts, ht, hts⟩ := h
  exact ⟨hp, hu, ts, ht, noWriterect_of_streams hts⟩

theorem DrawFrame.extends {s t : State} (h : DrawFrame s t) (ht : Streams s t) : Extends s t := ht.extends h.params h.unmapped

theorem extends_drawWindow (x y w h : Int) (g : Colour) (s : State) : Extends s (drawWindow x y w h g s) :=
  (drawFrame_drawWindow x y w h g s).extends (streams_drawWindow x y w h g s)

theorem extends_moveRow (n y : Int) (s : State) : Extends s (moveRow n y s) := (drawFrame_moveRow n y s).extends (streams_moveRow n y s)

/-- A whole character extends the trace so. -/
theorem extends_characters (s0 : State) : KeptByCharacters (Extends s0) where
  window _ _ _ _ _ _ h := h.trans (extends_drawWindow _ _ _ _ _ _)
  row _ _ _ h := h.trans (extends_moveRow _ _ _)
  bits _ _ h := h.trans (.of_trace_eq rfl rfl rfl)
  cursor _ _ _ h := h.trans (.of_trace_eq rfl rfl rfl)
  forget _ h := h.trans (.of_trace_eq rfl rfl rfl)
  record _ _ h := h.trans (.of_trace_eq rfl rfl rfl)
  retire _ h := h.trans (.of_trace_eq rfl rfl rfl)

theorem extends_drawcharState (code : Half) (s : State) : Extends s (drawcharState code s) :=
  (extends_characters s).drawchar code s (.refl s)

theorem extends_emit {ts : List Transaction} (h : NoWriterect ts) (s : State) : Extends s (emit ts s) := ⟨rfl, rfl, ts, rfl, h⟩

theorem extends_streamFB (x0 y0 x1 y1 : Int) (s : State) : Extends s (streamFB x0 y0 x1 y1 s) :=
  extends_emit (noWriterect_of_streams (session_streams _ _ _ _ _)) s

theorem extends_readVisible (v : Vis) (w : Int) (dst : Word) (s : State) : Extends s (readVisible v w dst s) := by
  unfold readVisible
  dsimp only
  split
  · exact .of_trace_eq rfl rfl rfl
  · exact ⟨rfl, rfl, _, rfl, noWriterect_of_streams (by simp [Transaction.streams])⟩

theorem extends_readrectState (x y w h : Half) (dst : Word) (s : State) : Extends s (readrectState x y w h dst s) := by
  unfold readrectState
  split
  · exact .refl s
  · exact extends_readVisible _ _ _ _

theorem extends_askActive (s : State) : Extends s (askActive s).2 := by
  unfold askActive
  split <;> exact ⟨rfl, rfl, _, rfl, by simp [NoWriterect]⟩

theorem extends_askAlloc (n : Nat) (s : State) : Extends s (askAlloc n s).2 := ⟨rfl, rfl, _, rfl, by simp [NoWriterect]⟩

theorem extends_startTransfer (s : State) : Extends s (startTransfer s) := ⟨rfl, rfl, _, rfl, by simp [NoWriterect]⟩

theorem extends_allocateMirror (s : State) : Extends s (allocateMirror s) := by
  unfold allocateMirror
  dsimp only
  split <;> exact (extends_askAlloc (fbSize s) s).trans (.of_trace_eq rfl rfl rfl)

end Sys2Proof.Machine
end

section
/-! PROOFS. Replaying the accesses of the remaining operations leaves what they leave outside the registers (20_memory.md R78, R111):
the two font machines, READRECT, the streaming of the buffer, the queries. -/

namespace Sys2Proof.Machine

/-! ## The fixed font (46_font_fixed.md R281 to R284) -/

theorem columnEvents_loads (s : State) (code : Nat) : ∀ e ∈ columnEvents s code, ∃ a n, e = .load a n := by
  unfold columnEvents
  split <;> simp

theorem replays_drawFixedRow (b : List Byte) (cx cy sx sy : Int) (fg : Half) (s : State) (row : Nat) :
    Replays (drawFixedRowEvents b cx cy sx sy fg s row) s (drawFixedRow b cx cy sx sy fg s row) :=
  Replays.loop (fun _ _ => replays_drawRect _ _ _ _ _ _) _ s

/-- The last registers a character writes are not seen outside. -/
theorem sameOutside_finished (x y : Int) (s : State) : SameOutside s (retireHidden (clearLast (moveCursor x y s))) :=
  ⟨rfl, rfl, rfl, rfl⟩

theorem replays_drawFixed (code : Nat) (s : State) : Replays (drawFixedEvents code s) s (drawFixed code s) := by
  unfold drawFixedEvents drawFixed
  split
  · exact .refl s
  · dsimp only
    have hplace := replays_placePen s (s16 s.text.cursorX + 6 * (s.text.tsizeX.toNat : Int)) (8 * (s.text.tsizeY.toNat : Int))
    have htext := (drawFrame_placePen s (s16 s.text.cursorX + 6 * (s.text.tsizeX.toNat : Int)) (8 * (s.text.tsizeY.toNat : Int))).text
    refine Replays.to (((replays_loads (columnEvents_loads s code) s).append hplace).append ?_) (sameOutside_finished _ _ _)
    split
    · rw [drawFixedTransparent, htext]
      exact Replays.loop (replays_drawFixedRow _ _ _ _ _ _) _ _
    · rw [drawFixedOpaque, htext]
      exact replays_drawWindow _ _ _ _ _ (by simp [noReads]) _

/-! ## The scalable font (45_font_scalable.md R246 to R262) -/

theorem indexEvents_loads (f : Font) (code : Nat) : ∀ e ∈ indexEvents f code, ∃ a n, e = .load a n := by
  unfold indexEvents
  split
  · simp
  · split
    · simp
    · exact loadField_loads _ _ _

theorem headerEvents_loads (base : Word) (s : State) : ∀ e ∈ headerEvents base s, ∃ a n, e = .load a n := by
  intro e he
  unfold headerEvents at he
  rcases List.mem_append.1 he with he | he
  · exact loadField_loads _ _ _ e he
  · split at he
    · simp at he
    · exact loadField_loads _ _ _ e he

theorem pixelEvents_loads (base : Word) (g : GlyphHeader) (s : State) : ∀ e ∈ pixelEvents base g s, ∃ a n, e = .load a n := by
  unfold pixelEvents
  dsimp only
  split <;> exact loadField_loads _ _ _

/-- Decoding pixels reads, and moves the decode cursor, which is not seen outside. -/
theorem replays_takePixels (base : Word) (g : GlyphHeader) (s : State) :
    Replays (pixelEvents base g s) s (takePixels base g s).2 := by
  refine (replays_loads (pixelEvents_loads base g s) s).to ?_
  unfold takePixels
  dsimp only
  split <;> exact ⟨rfl, rfl, rfl, rfl⟩

theorem sameOutside_takeHeader {base : Word} {s : State} {h : GlyphHeader × State} (hh : takeHeader base s = some h) :
    SameOutside s h.2 := by
  rw [takeHeader_frame hh]
  exact ⟨rfl, rfl, rfl, rfl⟩

theorem replays_drawGroups (p : GlyphPixels) (ox oy : Int) (fg : Half) (s : State) :
    Replays (drawGroupsEvents p ox oy fg s) s (drawGroups p ox oy fg s) :=
  Replays.loop (fun t _ => Replays.loop (fun _ _ => replays_drawRect _ _ _ _ _ _) _ t) _ s

/-- A pixel drawn on a condition. -/
theorem replays_drawPixel_ite (c : Prop) [Decidable c] (x y : Int) (v : Half) (s : State) :
    Replays (if c then drawPixelEvents x y v s else []) s (if c then drawPixel x y v s else s) := by
  split
  · exact replays_drawPixel _ _ _ _
  · exact .refl s

theorem replays_drawLevels (p : GlyphPixels) (gw gh threshold : Nat) (ox oy : Int) (fg : Half) (s : State) :
    Replays (drawLevelsEvents p gw gh threshold ox oy fg s) s (drawLevels p gw gh threshold ox oy fg s) :=
  Replays.loop (fun _ _ => replays_drawPixel_ite _ _ _ _ _) _ s

theorem replays_drawOpaque (col : Int → Int → Half) (ink : Int → Int → Bool) (b : Box) (active : Bool) (lastXr : Int) (s : State) :
    Replays (drawOpaqueEvents col ink b active lastXr s) s (drawOpaque col ink b active lastXr s) := by
  unfold drawOpaqueEvents drawOpaque
  dsimp only
  split
  · exact (Replays.loop (fun _ _ => replays_drawPixel_ite _ _ _ _ _) _ s).append (replays_drawWindow _ _ _ _ _ (by simp [noReads]) _)
  · exact replays_drawWindow _ _ _ _ _ (by simp [noReads]) s

theorem replays_drawGlyph (base : Word) (g : GlyphHeader) (s : State) :
    Replays (drawGlyphEvents base g s) s (drawGlyph base g s) := by
  unfold drawGlyphEvents drawGlyph
  dsimp only
  refine ((replays_placePen s _ _).append (replays_takePixels base g _)).append ?_
  split
  · refine Replays.to ?_ (sameOutside_finished _ _ _)
    split
    · exact replays_drawGroups _ _ _ _ _
    · exact replays_drawLevels _ _ _ _ _ _ _ _
  · exact Replays.to (replays_drawOpaque _ _ _ _ _ _) ⟨rfl, rfl, rfl, rfl⟩

theorem replays_drawScalable (code : Nat) (s : State) : Replays (drawScalableEvents code s) s (drawScalable code s) := by
  unfold drawScalableEvents drawScalable
  refine (replays_loads (indexEvents_loads s.font code) s).append ?_
  split
  · exact .refl s
  · rename_i base _
    refine (replays_loads (headerEvents_loads base s) s).append ?_
    split
    · exact .refl s
    · rename_i hh
      exact (replays_drawGlyph _ _ _).congr (sameOutside_takeHeader hh) (.refl _)

theorem replays_drawcharState (code : Half) (s : State) : Replays (drawcharEvents code s) s (drawcharState code s) := by
  unfold drawcharEvents drawcharState
  cases s.text.fontKind with
  | noFont => exact replays_drawFixed _ s
  | fixedFont => exact replays_drawFixed _ s
  | scalableFont => exact replays_drawScalable _ s

/-! ## READRECT and the paletted blit (42_pixel_backend.md R197, 47_nbpp_blit.md R290) -/

theorem replays_readrectState (x y w h : Half) (dst : Word) (s : State) :
    Replays (readrectEvents x y w h dst s) s (readrectState x y w h dst s) := by
  unfold readrectEvents readrectState
  cases clip s.canvas (s16 x) (s16 y) (s16 w) (s16 h) with
  | none => exact .refl s
  | some v =>
    dsimp only
    unfold readVisible
    split
    · exact replays_copyOut s v (s16 w) dst _ s
    · exact (replays_askRead v.vx0 v.vy0 (v.vx1 - v.vx0) (v.vy1 - v.vy0) s).append (replays_storeAnswer v (s16 w) dst _ _ _)

/-! ## The mirror (43_framebuffer.md R211 to R218) -/

theorem replays_streamFB (x0 y0 x1 y1 : Int) (s : State) : Replays (streamFBEvents x0 y0 x1 y1 s) s (streamFB x0 y0 x1 y1 s) := by
  unfold streamFBEvents streamFB
  refine replays_session _ _ _ _ (fun t => ?_) s
  rw [List.map_map]
  exact replays_pixels (rectPoints x0 y0 (x1 + 1) (y1 + 1)) (loads := fun p => [loadPixel s p.1 p.2])
    (colour := fun p => fromFB s.params.depth (fbRead s p.1 p.2)) (by simp [loadPixel]) t

@[simp] theorem askActive_canvas (s : State) : (askActive s).2.canvas = s.canvas := by
  unfold askActive
  split <;> rfl

@[simp] theorem askActive_fb (s : State) : (askActive s).2.fb = s.fb := by
  unfold askActive
  split <;> rfl

/-- The query's answer is taken from the environment only while a transfer is outstanding (R98). -/
theorem replays_askActive (s : State) : Replays (askActiveEvents s) s (askActive s).2 := by
  unfold askActiveEvents askActive
  cases hb : s.asyncBusy with
  | true => exact ⟨rfl, rfl, by simp [applyEvent, applyTransaction, hb], rfl⟩
  | false => exact ⟨rfl, rfl, by simp [applyEvent, applyTransaction, hb], by simp [applyEvent, applyTransaction, hb]⟩

theorem replays_startTransfer (s : State) :
    Replays [.port (.writeRectAsync 0 0 s.canvas.width s.canvas.height s.fb.base s.params.depth)] s (startTransfer s) :=
  ⟨rfl, rfl, rfl, rfl⟩

/-- The answer FAIL leaves memory alone; an address comes with the bytes of its region (R82, R211). -/
theorem replays_allocateMirror (s : State) : Replays [.port (.alloc (fbSize s) 32 (askAlloc (fbSize s) s).1)] s (allocateMirror s) := by
  unfold allocateMirror
  dsimp only
  cases h : (askAlloc (fbSize s) s).1 with
  | none => exact ⟨rfl, congrArg (fun a => s.trace ++ [.alloc (fbSize s) 32 a]) h.symm, rfl, rfl⟩
  | some b => exact ⟨rfl, congrArg (fun a => s.trace ++ [.alloc (fbSize s) 32 a]) h.symm, rfl, rfl⟩

end Sys2Proof.Machine
end

section
/-! PROOFS. What a command and a step are, said once for all of them: guarded by their accesses (20_memory.md R79), they leave outside the
registers what those accesses leave (R111), and extend the trace (R95). Settles O17 and O60. -/

namespace Sys2Proof.Machine

/-- `o` is the outcome, from `s`, of an operation with the accesses `evs`. -/
def RunsAs (evs : List Event) (s : State) (o : Host.Outcome State Fault Refusal) : Prop :=
  ∃ t, o = guarded evs s t ∧ Replays evs s t ∧ Extends s t

namespace RunsAs

theorem guarded {evs : List Event} {s t : State} (hr : Replays evs s t) (he : Extends s t) :
    RunsAs evs s (Machine.guarded evs s t) := ⟨t, rfl, hr, he⟩

/-- An operation whose accesses are all transactions is never stopped. -/
theorem next {evs : List Event} {s t : State} (hb : blocked evs s = false) (hr : Replays evs s t) (he : Extends s t) :
    RunsAs evs s (.next t) := ⟨t, (guarded_of_mapped hb).symm, hr, he⟩

/-- A command that only writes registers. -/
theorem silent {s t : State} (hs : SameOutside s t) (hp : t.params = s.params) (hu : t.unmapped = s.unmapped) :
    RunsAs [] s (.next t) := next (blocked_nil s) hs (.of_trace_eq hp hu hs.2.1.symm)

variable {evs : List Event} {s : State} {o : Host.Outcome State Fault Refusal}

theorem refused (h : RunsAs evs s o) (hb : blocked evs s = true) : o = .refused .unmappedAddress := by
  obtain ⟨t, rfl, -, -⟩ := h
  simp [hb]

theorem completes (h : RunsAs evs s o) (hb : blocked evs s = false) : ∃ t, o = .next t ∧ Extends s t := by
  obtain ⟨t, rfl, -, he⟩ := h
  exact ⟨t, guarded_of_mapped hb, he⟩

/-- What a next state tells: nothing was in the way, and the accesses leave what it has. -/
theorem of_next {t : State} (h : RunsAs evs s (.next t)) : blocked evs s = false ∧ Replays evs s t ∧ Extends s t := by
  obtain ⟨u, hu, hr, he⟩ := h
  obtain ⟨hb, rfl⟩ := guarded_eq_next.1 hu.symm
  exact ⟨hb, hr, he⟩

/-- The words at the command port play no part (R105). -/
theorem of_withPort {ws : List Word} (h : RunsAs evs (withPort ws s) o) : RunsAs evs s o := by
  obtain ⟨t, rfl, hr, he⟩ := h
  have hport : SameOutside s (withPort ws s) := ⟨rfl, rfl, rfl, rfl⟩
  have hext : Extends s (withPort ws s) := .of_trace_eq rfl rfl rfl
  exact ⟨t, rfl, hr.congr hport (.refl t), hext.trans he⟩

end RunsAs

/-! ## The commands with accesses of their own -/

theorem runsAs_drawWindow (x y w h : Int) (g : Colour) {reads : Reads} (hr : ∀ m x y, ∀ e ∈ reads m x y, ∃ a n, e = .load a n)
    (s : State) : RunsAs (drawWindowEvents x y w h g reads s) s (guarded (drawWindowEvents x y w h g reads s) s (drawWindow x y w h g s)) :=
  .guarded (replays_drawWindow _ _ _ _ _ hr s) (extends_drawWindow _ _ _ _ _ s)

theorem runsAs_drawRect (x y w h : Int) (c : Half) (s : State) :
    RunsAs (drawRectEvents x y w h c s) s (guarded (drawRectEvents x y w h c s) s (drawRect x y w h c s)) :=
  runsAs_drawWindow _ _ _ _ _ (by simp [noReads]) s

theorem runsAs_setcanvas (w h : Half) (s : State) : RunsAs [] s (execSetcanvas w h s) := by
  unfold execSetcanvas
  split
  · exact .silent (.refl s) rfl rfl
  · split <;> exact .silent ⟨rfl, rfl, rfl, rfl⟩ rfl rfl

theorem runsAs_writerectnbpp (x y w h bpp : Half) (src pal : Word) (s : State) :
    RunsAs (writerectnbppEvents x y w h bpp src pal s) s (execWriterectnbpp x y w h bpp src pal s) := by
  unfold execWriterectnbpp writerectnbppEvents
  split
  · exact runsAs_drawWindow _ _ _ _ _ (by simp [nbppReads]) s
  · exact .guarded (.refl s) (.refl s)

theorem runsAs_fbsetext (buf : Word) (s : State) : RunsAs [] s (execFbsetext buf s) := by
  unfold execFbsetext
  split <;> exact .silent ⟨rfl, rfl, rfl, rfl⟩ rfl rfl

theorem runsAs_fbenable (s : State) : RunsAs (fbenableEvents s) s (execFbenable s) := by
  unfold execFbenable fbenableEvents
  cases hc : s.params.fbCapable with
  | false => exact .silent ⟨rfl, rfl, rfl, rfl⟩ rfl rfl
  | true =>
    cases ha : s.fb.alloc with
    | true => exact .silent ⟨rfl, rfl, rfl, rfl⟩ rfl rfl
    | false => exact .next (blocked_port _ s) (replays_allocateMirror s) (extends_allocateMirror s)

theorem runsAs_fbrelease (s : State) : RunsAs (fbreleaseEvents s) s (execFbrelease s) := by
  unfold execFbrelease fbreleaseEvents
  cases ha : s.fb.alloc with
  | false => exact .silent ⟨rfl, rfl, rfl, rfl⟩ rfl rfl
  | true =>
    cases hi : s.fb.int with
    | false => exact .silent ⟨rfl, by simp, rfl, rfl⟩ rfl rfl
    | true => exact .next (blocked_port _ s) ⟨rfl, rfl, rfl, rfl⟩ ⟨rfl, rfl, _, rfl, by simp [NoWriterect]⟩

theorem runsAs_flush (s : State) : RunsAs (flushEvents s) s (execFlush s) := by
  have hstream : ∀ x0 y0 x1 y1, Replays (streamFBEvents x0 y0 x1 y1 s) s (emptyDirty (streamFB x0 y0 x1 y1 s)) ∧
      Extends s (emptyDirty (streamFB x0 y0 x1 y1 s)) := fun x0 y0 x1 y1 =>
    ⟨(replays_streamFB x0 y0 x1 y1 s).to ⟨rfl, rfl, rfl, rfl⟩, (extends_streamFB x0 y0 x1 y1 s).trans (.of_trace_eq rfl rfl rfl)⟩
  have hnone : Replays [] s (emptyDirty s) ∧ Extends s (emptyDirty s) := ⟨⟨rfl, rfl, rfl, rfl⟩, .of_trace_eq rfl rfl rfl⟩
  suffices h : Replays (flushEvents s) s _ ∧ Extends s _ from .guarded h.1 h.2
  unfold flushEvents streamAll streamDirty
  dsimp only
  split
  · exact ⟨.refl s, .refl s⟩
  · split
    · split
      · exact hstream _ _ _ _
      · exact hnone
    · split
      · exact hstream _ _ _ _
      · exact hnone

/-- WAITASYNC and POLLASYNC: the query, then registers only (R217, R218). -/
theorem runsAs_query {s t : State} (ho : SameOutside (askActive s).2 t) (hp : t.params = (askActive s).2.params)
    (hu : t.unmapped = (askActive s).2.unmapped) : RunsAs (askActiveEvents s) s (.next t) :=
  .next (blocked_port _ s) ((replays_askActive s).to ho) ((extends_askActive s).trans (.of_trace_eq hp hu ho.2.1.symm))

/-- FLUSHASYNC: the query, and on the answer 0 the hand-over of the buffer (R216). -/
theorem runsAs_flushasync (s : State) : RunsAs (flushasyncEvents s) s (execFlushasync s) := by
  unfold execFlushasync flushasyncEvents
  dsimp only
  cases s.fb.en with
  | false => exact .silent ⟨rfl, rfl, rfl, rfl⟩ rfl rfl
  | true =>
    cases hq : (askActive s).1 with
    | true =>
      simp only [Bool.not_true, Bool.false_eq_true, if_false, if_true, List.append_nil]
      exact runsAs_query ⟨rfl, rfl, rfl, rfl⟩ rfl rfl
    | false =>
      simp only [Bool.not_true, Bool.false_eq_true, if_false]
      have hstart := replays_startTransfer (askActive s).2
      rw [askActive_canvas, askActive_fb, (extends_askActive s).params] at hstart
      exact .next (by simp [askActiveEvents, blocked, Event.touches]) ((replays_askActive s).append hstart)
        ((extends_askActive s).trans (extends_startTransfer _))

theorem runsAs_setfont (kind : BitVec 2) (addr : Word) (s : State) : RunsAs (setfontEvents kind addr) s (execSetfont kind addr s) := by
  refine .guarded (Replays.to (replays_loads ?_ s) ?_) ?_
  · unfold setfontEvents
    split <;> simp
  · split <;> exact ⟨rfl, rfl, rfl, rfl⟩
  · split <;> exact .of_trace_eq rfl rfl rfl

/-! ## Every command, and every step -/

/-- Every command is guarded by its accesses and adds up to them. -/
theorem exec_runsAs (i : Instr) (s : State) : RunsAs (commandEvents i s) s (exec i s) := by
  cases i with
  | setcanvas w h => exact runsAs_setcanvas w h s
  | setpixel | fastvline | fasthline | fillrect => exact runsAs_drawRect _ _ _ _ _ s
  | writerect x y w h src => exact runsAs_drawWindow _ _ _ _ _ (by simp [sourceReads]) s
  | readrect x y w h dst => exact .guarded (replays_readrectState x y w h dst s) (extends_readrectState x y w h dst s)
  | writerectnbpp x y w h bpp src pal => exact runsAs_writerectnbpp x y w h bpp src pal s
  | fbsetext buf => exact runsAs_fbsetext buf s
  | fbenable => exact runsAs_fbenable s
  | fbrelease => exact runsAs_fbrelease s
  | flush => exact runsAs_flush s
  | flushasync => exact runsAs_flushasync s
  | waitasync | pollasync => exact runsAs_query ⟨rfl, rfl, rfl, rfl⟩ rfl rfl
  | setfont kind addr => exact runsAs_setfont kind addr s
  | drawchar code => exact .guarded (replays_drawcharState code s) (extends_drawcharState code s)
  | nop | setorigin | setclip | fbdisable | setcursor | settextcolor | settextwrap | settextsize | setscroll =>
    exact .silent ⟨rfl, rfl, rfl, rfl⟩ rfl rfl

/-- So is every step: a query, a command, a discarded packet, or nothing. -/
theorem step_runsAs (s : State) : RunsAs (stepEvents s) s (step s) := by
  unfold stepEvents step
  split
  · exact exec_runsAs .waitasync s
  · cases fetch s with
    | idle => exact .silent (.refl s) rfl rfl
    | illegal why rest => exact .silent ⟨rfl, rfl, rfl, rfl⟩ rfl rfl
    | packet i rest => exact (exec_runsAs i (withPort rest s)).of_withPort

/-! ## The obligations on single accesses -/

/-- Settles O17: a step is guarded by its accesses, and each extends the trace by what it sends. -/
theorem stepExtendsTrace : Obligations.StepExtendsTrace := by
  intro s
  refine ⟨(step_runsAs s).refused, fun hb => ?_⟩
  obtain ⟨t, ht, he⟩ := (step_runsAs s).completes hb
  exact ⟨t, ht, he.params, he.unmapped, he.trace⟩

/-- A reset after the last access of a step is a reset after the step (R330). -/
theorem assertResetDuring_of_all {s t : State} {k : Nat} (h : step s = .next t) (hk : (stepEvents s).length ≤ k) :
    assertResetDuring k s = assertReset t := by
  have hrun := step_runsAs s
  rw [h] at hrun
  obtain ⟨hb, hr, he⟩ := hrun.of_next
  rw [assertResetDuring_of_mapped hb, List.take_of_length_le hk]
  exact assertReset_congr (by rw [replay_params, he.params]) (by rw [replay_unmapped, he.unmapped]) hr

/-- Settles O60, command by command (`exec_runsAs`). -/
theorem eventsReplayCommand : Obligations.EventsReplayCommand := by
  refine ⟨fun i s t h => ?_, fun s t k h hk => assertResetDuring_of_all h hk⟩
  have hrun := exec_runsAs i s
  rw [h] at hrun
  exact hrun.of_next.2.1

end Sys2Proof.Machine
end

section
/-! PROOFS. The registers after reset and on the read port (10_state.md R60 to R62, 70_reset_and_hazards.md R332). Settles O10, O11 and
O13. -/

namespace Sys2Proof.Machine

/-! ## The read port -/

/-- A number in no row of the table of R60 reads 0 (R61). -/
theorem readReg_unassigned (s : State) {n : Byte} (h : n = 0x0B#8 ∨ (0x1C#8 ≤ n ∧ n ≤ 0x1F#8) ∨ 0x2D#8 ≤ n) : readReg s n = 0#32 := by
  unfold readReg
  split
  case h_41 => rfl
  all_goals exact absurd h (by decide)

theorem toInt_signedReg (v : Half) : (signedReg v).toInt = v.toInt := BitVec.toInt_signExtend_of_le (by decide)

/-- A field above the width of a value is 0. -/
theorem extractLsb'_eq_zero_of_width_le {w start len : Nat} (v : BitVec w) (h : w ≤ start) : v.extractLsb' start len = 0#len := by
  ext i hi
  simp [BitVec.getLsbD_of_ge v (start + i) (by omega)]

/-- The bytes of a word put together from four, the low one last. -/
theorem bytes_of_append (d c b a : Byte) :
    (d ++ c ++ b ++ a).extractLsb' 0 8 = a ∧ (d ++ c ++ b ++ a).extractLsb' 8 8 = b ∧
    (d ++ c ++ b ++ a).extractLsb' 16 8 = c ∧ (d ++ c ++ b ++ a).extractLsb' 24 8 = d := by
  refine ⟨BitVec.extractLsb'_append_eq_right, ?_, ?_, ?_⟩
  · rw [BitVec.extractLsb'_append_eq_of_le (by decide)]
    exact BitVec.extractLsb'_append_eq_right
  · rw [BitVec.extractLsb'_append_eq_of_le (by decide), BitVec.extractLsb'_append_eq_of_le (by decide)]
    exact BitVec.extractLsb'_append_eq_right
  · rw [BitVec.extractLsb'_append_eq_of_le (by decide), BitVec.extractLsb'_append_eq_of_le (by decide),
      BitVec.extractLsb'_append_eq_of_le (by decide)]
    exact BitVec.extractLsb'_eq_self

/-- A zero-extended pair of bytes: the two bytes, then 0. -/
theorem bytes_of_setWidth_append (hi lo : Byte) :
    ((hi ++ lo).setWidth 32).extractLsb' 0 8 = lo ∧ ((hi ++ lo).setWidth 32).extractLsb' 8 8 = hi ∧
    ((hi ++ lo).setWidth 32).extractLsb' 16 16 = 0#16 := by
  refine ⟨?_, ?_, ?_⟩ <;> rw [BitVec.extractLsb'_setWidth_of_le (by decide)]
  · exact BitVec.extractLsb'_append_eq_right
  · exact BitVec.extractLsb'_append_eq_left
  · exact extractLsb'_eq_zero_of_width_le _ (by decide)

/-- A zero-extended flag is its one bit. -/
theorem getLsbD_setWidth_ofBool (b : Bool) (n : Nat) : ((BitVec.ofBool b).setWidth 32).getLsbD n = (n == 0 && b) := by
  cases n with
  | zero => simp
  | succ n => simp [BitVec.getLsbD_setWidth]

/-- The bits of STATUS (R27). -/
theorem getLsbD_statusWord (s : State) (b : Nat) : (statusWord s).getLsbD b =
    if b = 0 then s.fb.en else if b = 1 then s.fb.alloc else if b = 2 then s.fb.int else if b = 3 then s.ill else false := by
  match b with
  | 0 | 1 | 2 | 3 => simp only [statusWord, BitVec.getLsbD_setWidth, BitVec.getLsbD_append]; simp
  | n + 4 => simp [statusWord, BitVec.getLsbD_of_ge]

/-- The fields of TEXTCTL (R33). -/
theorem fields_textctlWord (t : Text) :
    (textctlWord t).getLsbD 0 = t.wrap ∧ (textctlWord t).getLsbD 1 = t.scrollEn ∧ (textctlWord t).extractLsb' 2 2 = 0#2 ∧
    (textctlWord t).extractLsb' 4 2 = fontKindCode t.fontKind ∧ (textctlWord t).extractLsb' 6 26 = 0#26 := by
  refine ⟨?_, ?_, ?_, ?_, ?_⟩
  · simp only [textctlWord, BitVec.getLsbD_setWidth, BitVec.getLsbD_append]; simp
  · simp only [textctlWord, BitVec.getLsbD_setWidth, BitVec.getLsbD_append]; simp
  all_goals rw [textctlWord, BitVec.extractLsb'_setWidth_of_le (by decide)]
  · rw [BitVec.extractLsb'_append_eq_of_le (by decide), BitVec.extractLsb'_append_eq_of_le (by decide)]
    exact BitVec.extractLsb'_append_eq_right
  · rw [BitVec.extractLsb'_append_eq_of_le (by decide), BitVec.extractLsb'_append_eq_of_le (by decide)]
    exact BitVec.extractLsb'_append_eq_left
  · exact extractLsb'_eq_zero_of_width_le _ (by decide)

/-- The fields of F_AA (R38). -/
theorem fields_aaWord (ok : Bool) (alphamx bpp : Byte) :
    ((BitVec.ofBool ok ++ alphamx ++ bpp).setWidth 32).extractLsb' 0 8 = bpp ∧
    ((BitVec.ofBool ok ++ alphamx ++ bpp).setWidth 32).extractLsb' 8 8 = alphamx ∧
    ((BitVec.ofBool ok ++ alphamx ++ bpp).setWidth 32).getLsbD 16 = ok ∧
    ((BitVec.ofBool ok ++ alphamx ++ bpp).setWidth 32).extractLsb' 17 15 = 0#15 := by
  refine ⟨?_, ?_, ?_, ?_⟩
  · rw [BitVec.extractLsb'_setWidth_of_le (by decide)]
    exact BitVec.extractLsb'_append_eq_right
  · rw [BitVec.extractLsb'_setWidth_of_le (by decide), BitVec.extractLsb'_append_eq_of_le (by decide)]
    exact BitVec.extractLsb'_append_eq_right
  · simp only [BitVec.getLsbD_setWidth, BitVec.getLsbD_append]; simp
  · rw [BitVec.extractLsb'_setWidth_of_le (by decide)]
    exact extractLsb'_eq_zero_of_width_le _ (by decide)

/-- Settles O13: each number's word, then the fields of the word. -/
theorem readPortUnassigned : Obligations.ReadPortUnassigned := by
  intro s
  refine ⟨fun n hn => readReg_unassigned s hn, ?_, ?_, ?_, getLsbD_statusWord s, getLsbD_setWidth_ofBool s.result, ?_,
    bytes_of_setWidth_append _ _, bytes_of_append _ _ _ _, bytes_of_append _ _ _ _, bytes_of_append _ _ _ _,
    fields_aaWord _ _ _, bytes_of_setWidth_append _ _, ⟨BitVec.extractLsb'_append_eq_right, BitVec.extractLsb'_append_eq_left⟩,
    getLsbD_setWidth_ofBool s.last.valid⟩
  · simp only [List.forall_mem_cons, List.not_mem_nil, false_implies, implies_true, and_true]
    and_intros
    all_goals exact toInt_signedReg _
  · simp only [List.forall_mem_cons, List.not_mem_nil, false_implies, implies_true, and_true]
    and_intros
    all_goals exact BitVec.toNat_setWidth_of_le (by decide)
  · simp only [List.forall_mem_cons, List.not_mem_nil, false_implies, implies_true, and_true]
    and_intros
    all_goals rfl
  · obtain ⟨hwrap, hscroll, hgap, hkind, hrest⟩ := fields_textctlWord s.text
    refine ⟨hwrap, hscroll, hgap, hkind.trans ?_, hrest⟩
    cases s.text.fontKind <;> rfl

/-! ## After reset -/

/-- Settles O10, number by number along the read port's table. -/
theorem resetRegisterValues : Obligations.ResetRegisterValues := by
  intro n
  unfold readReg
  split
  case h_41 =>
    rw [if_neg (by simp_all), if_neg (by simp_all), if_neg (by simp_all), if_neg (by simp_all), if_neg (by simp_all)]
    rfl
  all_goals rfl

/-- Settles O11: the canvas is empty, nothing is attached, nothing has been loaded, written or sent. -/
theorem resetIsLegal : Obligations.ResetIsLegal := by
  have hcanvas : CanvasOk State.reset.canvas := by decide
  have hmirror : MirrorOk State.reset.params State.reset.fb := by simp [State.reset, Mirror.reset]
  have hfont : FontOk State.reset.text.fontKind State.reset.font := by decide
  exact ⟨⟨hcanvas, hmirror, fun _ => .inl rfl, by decide, hfont, rfl⟩, rfl, rfl⟩

end Sys2Proof.Machine
end

section
/-! PROOFS. A step keeps a legal state legal (Safety.lean; 10_state.md R23 to R38). Settles O14. -/

namespace Sys2Proof.Machine

variable {s t : State}

/-! ## Operations -/

/-- The emptied dirty rectangle is legal on every canvas (R29). -/
theorem inv_emptyDirty (hs : LegalState s) : LegalState (emptyDirty s) := by
  obtain ⟨hcanvas, hmirror, -, htext, hfont, hmem⟩ := hs
  exact ⟨hcanvas, hmirror, fun _ => .inl rfl, htext, hfont, hmem⟩

theorem inv_withPort (ws : List Word) (hs : LegalState s) : LegalState (withPort ws s) := hs

theorem inv_emit (ts : List Transaction) (hs : LegalState s) : LegalState (emit ts s) := hs

theorem inv_streamFB (x0 y0 x1 y1 : Int) (hs : LegalState s) : LegalState (streamFB x0 y0 x1 y1 s) := inv_emit _ hs

theorem inv_askActive (hs : LegalState s) : LegalState (askActive s).2 := by
  unfold askActive
  split <;> exact hs

theorem inv_startTransfer (hs : LegalState s) : LegalState (startTransfer s) := inv_emptyDirty hs

/-- Enabling the mirror over an attached buffer empties the dirty rectangle (R211). -/
theorem inv_enableMirror (hs : LegalState s) (ha : s.fb.alloc = true) : LegalState (enableMirror s) := by
  obtain ⟨hcanvas, ⟨-, hmirror⟩, -, htext, hfont, hmem⟩ := hs
  exact ⟨hcanvas, ⟨fun _ => ha, hmirror⟩, fun _ => .inl rfl, htext, hfont, hmem⟩

/-- An external buffer is legal at every base (R210). -/
theorem mirrorOk_external {p : Params} (hcap : p.fbCapable = true) (base : Word) (en : Bool) :
    MirrorOk p { base := base, en := en, alloc := true, int := false } := by
  simp [MirrorOk, hcap]

/-- An internal buffer is legal at a multiple of 32 (R103, R211). -/
theorem mirrorOk_internal {p : Params} (hcap : p.fbCapable = true) {base : Word} (hbase : base.toNat % 32 = 0) (en : Bool) :
    MirrorOk p { base := base, en := en, alloc := true, int := true } := by
  simp [MirrorOk, hcap, hbase]

/-- Nothing attached, nothing enabled (R213). -/
theorem mirrorOk_detached (p : Params) : MirrorOk p { base := 0, en := false, alloc := false, int := false } := by
  simp [MirrorOk]

/-- FBDISABLE leaves what is attached (R212). -/
theorem MirrorOk.disabled {p : Params} {f : Mirror} (h : MirrorOk p f) : MirrorOk p { f with en := false } :=
  ⟨fun hen => Bool.noConfusion hen, h.2⟩

/-- The allocator's blocks begin at multiples of 32 (R103). -/
theorem blockAddr_toNat_mod (b : BitVec 27) : (blockAddr b).toNat % 32 = 0 := by
  have := b.isLt
  simp only [blockAddr, BitVec.toNat_ofNat]
  omega

/-- FBENABLE with no buffer attached: FAIL changes RESULT only, an address is a legal base (R211). -/
theorem inv_allocateMirror (hs : LegalState s) (hcap : s.params.fbCapable = true) : LegalState (allocateMirror s) := by
  obtain ⟨hcanvas, -, -, htext, hfont, hmem⟩ := id hs
  unfold allocateMirror
  dsimp only
  split
  · exact hs
  · rename_i b _
    exact ⟨hcanvas, mirrorOk_internal hcap (blockAddr_toNat_mod b) true, fun _ => .inl rfl, htext, hfont, Memory.wf_writeBytes _ hmem _⟩

theorem storedSize_ne_zero (n : Byte) : storedSize n ≠ 0#8 := by
  unfold storedSize
  split
  · decide
  · assumption

/-- A kind other than the scalable font asks less of the latches (R33, R38). -/
theorem FontOk.of_kind {k k' : FontKind} {f : Font} (h : FontOk k f) (hk : k' ≠ .scalableFont) : FontOk k' f :=
  ⟨h.1, fun h' => absurd h' hk, h.2.2⟩

/-! ## Commands -/

/-- A new size is accepted only while no buffer is attached, so the mirror is disabled and the dirty rectangle is not read (R181). -/
theorem inv_execSetcanvas {w h : Half} (hs : LegalState s) (he : execSetcanvas w h s = .next t) : LegalState t := by
  obtain rfl := Host.Outcome.next.inj he
  split
  · exact hs
  · rename_i hsize
    split
    · exact hs
    · rename_i hfree
      obtain ⟨-, hmirror, -, htext, hfont, hmem⟩ := hs
      exact ⟨canvasOk_sizedCanvas (fun hw => hsize (.inl hw)) (fun hh => hsize (.inr hh)) _, hmirror,
        fun hen => absurd (hmirror.1 hen) hfree, htext, hfont, hmem⟩

theorem inv_execSetclip {x y w h : Half} (hs : LegalState s) (he : execSetclip x y w h s = .next t) : LegalState t := by
  obtain rfl := Host.Outcome.next.inj he
  obtain ⟨hcanvas, hrest⟩ := hs
  exact ⟨canvasOk_clippedCanvas hcanvas _ _ _ _, hrest⟩

theorem inv_readrectState (x y w h : Half) (dst : Word) (hs : LegalState s) : LegalState (readrectState x y w h dst s) := by
  unfold readrectState
  split
  · exact hs
  · exact inv_readVisible _ _ _ _ hs

theorem inv_execFbsetext {buf : Word} (hs : LegalState s) (he : execFbsetext buf s = .next t) : LegalState t := by
  obtain rfl := Host.Outcome.next.inj he
  split
  · exact hs
  · rename_i h
    simp only [Bool.or_eq_true, Bool.not_eq_true', not_or, Bool.not_eq_false] at h
    obtain ⟨hcap, hfree⟩ := h
    obtain ⟨hcanvas, hmirror, -, htext, hfont, hmem⟩ := hs
    exact ⟨hcanvas, mirrorOk_external hcap buf _,
      fun hen => absurd (hmirror.1 hen) hfree, htext, hfont, hmem⟩

theorem inv_execFbenable (hs : LegalState s) (he : execFbenable s = .next t) : LegalState t := by
  obtain rfl := Host.Outcome.next.inj he
  split
  · exact hs
  · rename_i hcap
    split
    · rename_i ha
      exact inv_enableMirror hs ha
    · exact inv_allocateMirror hs (by simpa using hcap)

theorem inv_execFbdisable (hs : LegalState s) (he : execFbdisable s = .next t) : LegalState t := by
  obtain rfl := Host.Outcome.next.inj he
  obtain ⟨hcanvas, hmirror, -, hrest⟩ := hs
  exact ⟨hcanvas, hmirror.disabled, fun hen => Bool.noConfusion hen, hrest⟩

/-- Detaching leaves no base and nothing enabled (R213). -/
theorem inv_execFbrelease (hs : LegalState s) (he : execFbrelease s = .next t) : LegalState t := by
  obtain ⟨hcanvas, -, -, htext, hfont, hmem⟩ := id hs
  by_cases ha : s.fb.alloc = true
  · simp only [execFbrelease, if_pos ha] at he
    obtain rfl := Host.Outcome.next.inj he
    exact ⟨hcanvas, mirrorOk_detached _, fun hen => Bool.noConfusion hen, htext, hfont, hmem⟩
  · simp only [execFbrelease, if_neg ha] at he
    exact inv_execFbdisable hs he

theorem inv_execFlush (hs : LegalState s) (he : execFlush s = .next t) : LegalState t := by
  obtain ⟨-, rfl⟩ := guarded_eq_next.1 he
  split
  · exact hs
  · refine inv_emptyDirty ?_
    split
    · unfold streamAll
      split
      · exact inv_streamFB _ _ _ _ hs
      · exact hs
    · unfold streamDirty
      dsimp only
      split
      · exact inv_streamFB _ _ _ _ hs
      · exact hs

theorem inv_execFlushasync (hs : LegalState s) (he : execFlushasync s = .next t) : LegalState t := by
  obtain rfl := Host.Outcome.next.inj he
  split
  · exact hs
  · dsimp only
    split
    · exact inv_askActive hs
    · exact inv_startTransfer (inv_askActive hs)

theorem inv_selectFont (k : FontKind) (addr : Word) (hs : LegalState s) : LegalState (selectFont k addr s) := by
  obtain ⟨hcanvas, hmirror, hdirty, htext, hfont, hmem⟩ := hs
  refine ⟨hcanvas, hmirror, hdirty, htext, ?_, hmem⟩
  cases k with
  | noFont => exact FontOk.of_kind hfont FontKind.noConfusion
  | fixedFont => exact FontOk.of_kind hfont FontKind.noConfusion
  | scalableFont => exact fontOk_loadDescriptor _ _ _ _

theorem inv_execSetfont {kind : BitVec 2} {addr : Word} (hs : LegalState s) (he : execSetfont kind addr s = .next t) :
    LegalState t := by
  obtain ⟨-, rfl⟩ := guarded_eq_next.1 he
  split
  · exact inv_selectFont _ _ hs
  · exact hs

theorem inv_execSettextsize {sx sy : Byte} (hs : LegalState s) (he : execSettextsize sx sy s = .next t) : LegalState t := by
  obtain rfl := Host.Outcome.next.inj he
  obtain ⟨hcanvas, hmirror, hdirty, -, hfont, hmem⟩ := hs
  exact ⟨hcanvas, hmirror, hdirty, ⟨storedSize_ne_zero _, storedSize_ne_zero _⟩, hfont, hmem⟩

/-- Every command keeps a legal state legal. -/
theorem exec_keeps_legal {i : Instr} (hs : LegalState s) (he : exec i s = .next t) : LegalState t := by
  cases i with
  | setcanvas => exact inv_execSetcanvas hs he
  | setclip => exact inv_execSetclip hs he
  | setpixel | fastvline | fasthline | fillrect | writerect =>
    obtain ⟨-, rfl⟩ := guarded_eq_next.1 he
    exact inv_drawWindow _ _ _ _ _ _ hs
  | readrect =>
    obtain ⟨-, rfl⟩ := guarded_eq_next.1 he
    exact inv_readrectState _ _ _ _ _ hs
  | writerectnbpp =>
    obtain ⟨-, rfl⟩ := guarded_eq_next.1 he
    split
    · exact inv_drawWindow _ _ _ _ _ _ hs
    · exact hs
  | fbsetext => exact inv_execFbsetext hs he
  | fbenable => exact inv_execFbenable hs he
  | fbdisable => exact inv_execFbdisable hs he
  | fbrelease => exact inv_execFbrelease hs he
  | flush => exact inv_execFlush hs he
  | flushasync => exact inv_execFlushasync hs he
  | waitasync | pollasync =>
    obtain rfl := Host.Outcome.next.inj he
    exact inv_askActive hs
  | setfont => exact inv_execSetfont hs he
  | settextsize => exact inv_execSettextsize hs he
  | drawchar code =>
    obtain ⟨-, rfl⟩ := guarded_eq_next.1 he
    exact inv_characters.drawchar code s hs
  | nop | setorigin | setcursor | settextcolor | settextwrap | setscroll =>
    obtain rfl := Host.Outcome.next.inj he
    exact hs

/-- Settles O14: a step is a query, a command, a discarded packet, or nothing. -/
theorem stepKeepsInv : Obligations.StepKeepsInv := by
  intro s t hs he
  unfold step at he
  split at he
  · exact exec_keeps_legal hs he
  · split at he
    · obtain rfl := Host.Outcome.next.inj he
      exact hs
    · obtain rfl := Host.Outcome.next.inj he
      exact hs
    · exact exec_keeps_legal (inv_withPort _ hs) he

end Sys2Proof.Machine
end

section
/-! PROOFS. The dirty rectangle covers every modified pixel (10_state.md R30, 40_clip_and_common.md R160, R162 (d)). Settles O23. -/

namespace Sys2Proof.Machine

variable {m0 : Memory} {s t : State}

/-! ## What keeps a pixel covered -/

/-- A pixel of the buffer is unchanged when its bytes are. -/
theorem fbReadIn_eq_of_read {m m' : Memory} {px py : Int}
    (h : ∀ a, PixelByte s px py a → Memory.read m' a = Memory.read m a) : fbReadIn s m' px py = fbReadIn s m px py :=
  readPixelAt_congr fun _ hk => h _ (pixelByte_add s px py hk)

/-- Painting leaves every pixel of the canvas that it does not meet, whatever the colours are. -/
theorem fbReadIn_paint_of_notMem (hc : CanvasOk s.canvas) (f : Colour) (m : Memory) {ps : List (Int × Int)}
    (hps : ∀ p ∈ ps, OnCanvas s.canvas p.1 p.2) {px py : Int} (hp : OnCanvas s.canvas px py) (hnot : (px, py) ∉ ps) :
    fbReadIn s (paint s f m ps) px py = fbReadIn s m px py := by
  refine fbReadIn_eq_of_read fun a ha => read_paint_of_out ps m fun q hq hqa => hnot ?_
  obtain ⟨hx, hy⟩ := pixelByte_unique hc hp (hps q hq) ha hqa
  rw [hx, hy]
  exact hq

/-- A store off the buffer's region leaves every pixel of the canvas. -/
theorem fbReadIn_eq_of_off_buffer (hc : CanvasOk s.canvas) {m m' : Memory}
    (h : ∀ a, InRegion (bufferRegion s) a → Memory.read m' a = Memory.read m a) {px py : Int} (hp : OnCanvas s.canvas px py) :
    fbReadIn s m' px py = fbReadIn s m px py :=
  fbReadIn_eq_of_read fun a ha => h a (inRegion_of_pixelByte hc hp ha)

/-- The union holds what the rectangle held, and the rectangle united with it (R160). -/
theorem inDirty_dirtyUnion {d : Dirty} {x0 y0 x1 y1 px py : Int} (hx : 0 ≤ x0 ∧ x0 ≤ 32767) (hy : 0 ≤ y0 ∧ y0 ≤ 32767)
    (hx' : 0 ≤ x1 ∧ x1 ≤ 32767) (hy' : 0 ≤ y1 ∧ y1 ≤ 32767)
    (h : InDirty d px py ∨ (x0 ≤ px ∧ px ≤ x1 ∧ y0 ≤ py ∧ py ≤ y1)) : InDirty (dirtyUnion x0 y0 x1 y1 d) px py := by
  obtain ⟨h1, h2, h3, h4⟩ := dirtyUnion_exact d hx hy hx' hy'
  unfold InDirty at *
  rw [h1, h2, h3, h4]
  omega

/-- New memory with every pixel as it was: what covered still covers. -/
theorem DirtyCovers.with_mem (h : DirtyCovers m0 s) {m : Memory}
    (hm : ∀ px py, OnCanvas s.canvas px py → fbReadIn s m px py = fbRead s px py) : DirtyCovers m0 { s with mem := m } :=
  fun px py hp hne => h px py hp fun he => hne (he.trans (hm px py hp).symm)

/-- New memory in a rectangle of the canvas, and the rectangle united into the dirty one: covered again. -/
theorem DirtyCovers.with_union (h : DirtyCovers m0 s) {m : Memory} {x0 y0 x1 y1 : Int} (hx : 0 ≤ x0 ∧ x0 ≤ 32767)
    (hy : 0 ≤ y0 ∧ y0 ≤ 32767) (hx' : 0 ≤ x1 ∧ x1 ≤ 32767) (hy' : 0 ≤ y1 ∧ y1 ≤ 32767)
    (hm : ∀ px py, OnCanvas s.canvas px py → ¬ (x0 ≤ px ∧ px ≤ x1 ∧ y0 ≤ py ∧ py ≤ y1) → fbReadIn s m px py = fbRead s px py) :
    DirtyCovers m0 { s with mem := m, dirty := dirtyUnion x0 y0 x1 y1 s.dirty } := by
  intro px py hp hne
  refine inDirty_dirtyUnion hx hy hx' hy' ?_
  by_cases hin : x0 ≤ px ∧ px ≤ x1 ∧ y0 ≤ py ∧ py ≤ y1
  · exact .inr hin
  · exact .inl (h px py hp fun he => hne (he.trans (hm px py hp hin).symm))

/-! ## Drawing -/

/-- What a drawing in shadow mode keeps: the mirror is enabled over a legal canvas, and every modified pixel is covered. -/
structure Covered (m0 : Memory) (s : State) : Prop where
  canvas : CanvasOk s.canvas
  enabled : s.fb.en = true
  covers : DirtyCovers m0 s

theorem covered_drawWindow (x y w h : Int) (g : Colour) (hs : Covered m0 s) : Covered m0 (drawWindow x y w h g s) := by
  refine ⟨by simpa using hs.canvas, by simpa using hs.enabled, ?_⟩
  unfold drawWindow
  split
  · exact hs.covers
  · rename_i v hv
    have hcor := clip_corners hs.canvas hv
    rw [putWindow, if_pos hs.enabled]
    refine hs.covers.with_union (by omega) (by omega) (by omega) (by omega) fun px py hp hout => ?_
    refine fbReadIn_paint_of_notMem hs.canvas _ _ (fun p hp => ?_) hp fun hmem => hout ?_
    · exact onCanvas_of_visible hs.canvas ((clip_some_iff_visible hv p.1 p.2).1 ((mem_rectPoints _ _ _ _ p).1 hp))
    · have := (mem_rectPoints _ _ _ _ (px, py)).1 hmem
      omega

theorem covered_moveRow (n y : Int) (hs : Covered m0 s) : Covered m0 (moveRow n y s) := by
  have hframe := drawFrame_moveRow n y s
  refine ⟨by rw [hframe.canvas]; exact hs.canvas, by rw [hframe.fb]; exact hs.enabled, ?_⟩
  unfold moveRow
  split
  · rename_i v w hv hw
    have hv' := clip_corners hs.canvas hv
    have hw' := clip_corners hs.canvas hw
    obtain ⟨-, hkeep, -⟩ := moveRowShadow_effect hs.canvas (x0 := v.vx0) (x1 := v.vx1) (sy := v.vy0) (dy := w.vy0)
      fun x h0 h1 => ⟨by omega, by omega, by omega, by omega⟩
    rw [if_pos hs.enabled]
    exact hs.covers.with_union (by omega) (by omega) (by omega) (by omega) fun px py hp hout =>
      hkeep px py hp fun hin => hout (by omega)
  · exact hs.covers

/-- A whole character keeps every modified pixel covered. -/
theorem covered_characters (m0 : Memory) : KeptByCharacters (Covered m0) where
  window _ _ _ _ _ _ h := covered_drawWindow _ _ _ _ _ h
  row _ _ _ h := covered_moveRow _ _ h
  bits _ _ h := ⟨h.canvas, h.enabled, h.covers⟩
  cursor _ _ _ h := ⟨h.canvas, h.enabled, h.covers⟩
  forget _ h := ⟨h.canvas, h.enabled, h.covers⟩
  record _ _ h := ⟨h.canvas, h.enabled, h.covers⟩
  retire _ h := ⟨h.canvas, h.enabled, h.covers⟩

/-! ## READRECT -/

/-- The host contract of R352 for READRECT: the destination is off the attached buffer. -/
theorem regionsMeet_of_no_overlap {x y w h : Half} {dst : Word} (ha : s.fb.alloc = true)
    (hz : Hazard.operandOverlap ∉ hazards (.readrect x y w h dst) s) :
    regionsMeet (bufferRegion s) (dst, 2 * (s16 w).toNat * (s16 h).toNat) = false := by
  by_contra hmeet
  refine hz ?_
  simp only [Bool.not_eq_false] at hmeet
  simp [hazards, operandRegions, ha, hmeet]

/-- In shadow mode READRECT stores to its destination alone (R197). -/
theorem covers_readrectState {x y w h : Half} {dst : Word} (hs : Covered m0 s) (ha : s.fb.alloc = true)
    (hz : Hazard.operandOverlap ∉ hazards (.readrect x y w h dst) s) : DirtyCovers m0 (readrectState x y w h dst s) := by
  have hmeet := regionsMeet_of_no_overlap ha hz
  unfold readrectState
  split
  · exact hs.covers
  · rename_i v hv
    simp only [readVisible, if_pos hs.enabled]
    refine hs.covers.with_mem fun px py hp => fbReadIn_eq_of_off_buffer hs.canvas (fun a ha => ?_) hp
    refine read_copyOut_of_out _ _ fun p hp hpa => not_both_of_regionsMeet hmeet a ⟨ha, ?_⟩
    have hp' := (mem_rectPoints _ _ _ _ p).1 hp
    exact inRegion_of_visible hv ⟨hp'.1, hp'.2.1⟩ hp'.2.2 hpa

/-! ## Commands that empty the rectangle, and the rest -/

/-- The conclusion of R162 (d): still covered, or the rectangle is empty over the same memory. -/
def CoversOrEmptied (m0 : Memory) (s t : State) : Prop := DirtyCovers m0 t ∨ (t.dirty = Dirty.empty ∧ t.mem = s.mem)

theorem coversOrEmptied_flush (hs : Covered m0 s) (he : execFlush s = .next t) : CoversOrEmptied m0 s t := by
  obtain ⟨-, rfl⟩ := guarded_eq_next.1 he
  refine .inr ?_
  rw [hs.enabled]
  unfold streamAll streamDirty
  dsimp only
  split
  · rename_i h
    cases h
  · refine ⟨rfl, ?_⟩
    split <;> split <;> rfl

theorem askActive_mem (s : State) : (askActive s).2.mem = s.mem := by
  unfold askActive
  split <;> rfl

theorem dirtyCovers_askActive (h : DirtyCovers m0 s) : DirtyCovers m0 (askActive s).2 := by
  unfold askActive
  split <;> exact h

theorem coversOrEmptied_flushasync (hs : Covered m0 s) (he : execFlushasync s = .next t) : CoversOrEmptied m0 s t := by
  obtain rfl := Host.Outcome.next.inj he
  split
  · exact .inl hs.covers
  · dsimp only
    split
    · exact .inl (dirtyCovers_askActive hs.covers)
    · exact .inr ⟨rfl, askActive_mem s⟩

/-- With the mirror enabled a buffer is attached, so FBENABLE allocates nothing (R211, R219). -/
theorem coversOrEmptied_fbenable (hs : Covered m0 s) (ha : s.fb.alloc = true) (he : execFbenable s = .next t) :
    CoversOrEmptied m0 s t := by
  obtain rfl := Host.Outcome.next.inj he
  split
  · exact .inl hs.covers
  · exact .inr ⟨rfl, rfl⟩

theorem not_enabled_of_fbrelease (he : execFbrelease s = .next t) : t.fb.en = false := by
  obtain rfl := Host.Outcome.next.inj he
  split <;> rfl

/-- With a buffer attached SETCANVAS and FBSETEXT do nothing (R181, R210). -/
theorem execSetcanvas_of_attached {w h : Half} (ha : s.fb.alloc = true) (he : execSetcanvas w h s = .next t) : t = s := by
  obtain rfl := Host.Outcome.next.inj he
  simp [ha]

theorem execFbsetext_of_attached {buf : Word} (ha : s.fb.alloc = true) (he : execFbsetext buf s = .next t) : t = s := by
  obtain rfl := Host.Outcome.next.inj he
  simp [ha]

theorem covers_execSetfont {kind : BitVec 2} {addr : Word} (h : DirtyCovers m0 s) (he : execSetfont kind addr s = .next t) :
    DirtyCovers m0 t := by
  obtain ⟨-, rfl⟩ := guarded_eq_next.1 he
  split <;> exact h

/-- Settles O23, command by command: a drawing covers what it paints, a flush empties the rectangle and stores nothing, and the others
store nothing to the buffer. -/
theorem dirtyRectangleSound : Obligations.DirtyRectangleSound := by
  intro m0 i s t hlegal hen hoverlap hcov he hen'
  obtain ⟨hcanvas, hmirror, -⟩ := hlegal
  have hs : Covered m0 s := ⟨hcanvas, hen, hcov⟩
  have ha : s.fb.alloc = true := hmirror.1 hen
  show CoversOrEmptied m0 s t
  cases i with
  | setcanvas =>
    rw [execSetcanvas_of_attached ha he]
    exact .inl hcov
  | setpixel | fastvline | fasthline | fillrect | writerect =>
    obtain ⟨-, rfl⟩ := guarded_eq_next.1 he
    exact .inl (covered_drawWindow _ _ _ _ _ hs).covers
  | writerectnbpp =>
    obtain ⟨-, rfl⟩ := guarded_eq_next.1 he
    split
    · exact .inl (covered_drawWindow _ _ _ _ _ hs).covers
    · exact .inl hcov
  | drawchar code =>
    obtain ⟨-, rfl⟩ := guarded_eq_next.1 he
    exact .inl ((covered_characters m0).drawchar code s hs).covers
  | readrect =>
    obtain ⟨-, rfl⟩ := guarded_eq_next.1 he
    exact .inl (covers_readrectState hs ha (hoverlap rfl))
  | fbsetext =>
    rw [execFbsetext_of_attached ha he]
    exact .inl hcov
  | fbenable => exact coversOrEmptied_fbenable hs ha he
  | fbdisable =>
    obtain rfl := Host.Outcome.next.inj he
    exact Bool.noConfusion hen'
  | fbrelease => exact Bool.noConfusion (hen'.symm.trans (not_enabled_of_fbrelease he))
  | flush => exact coversOrEmptied_flush hs he
  | flushasync => exact coversOrEmptied_flushasync hs he
  | waitasync | pollasync =>
    obtain rfl := Host.Outcome.next.inj he
    exact .inl (dirtyCovers_askActive hcov)
  | setfont => exact .inl (covers_execSetfont hcov he)
  | nop | setorigin | setclip | setcursor | settextcolor | settextwrap | settextsize | setscroll =>
    obtain rfl := Host.Outcome.next.inj he
    exact .inl hcov

end Sys2Proof.Machine
end

section
/-! PROOFS. ILL and F_UNICODE are read by no command (60_exceptions.md R303, 10_state.md R37, 45_font_scalable.md R246). Settles O19. -/

namespace Sys2Proof.Machine

/-- Other values of ILL and of F_UNICODE. -/
def withUnread (b : Bool) (a : Word) (s : State) : State := { s with ill := b, font := { s.font with unicode := a } }

section unread
variable (b : Bool) (a : Word) (s : State)

@[simp] theorem withUnread_params : (withUnread b a s).params = s.params := rfl
@[simp] theorem withUnread_canvas : (withUnread b a s).canvas = s.canvas := rfl
@[simp] theorem withUnread_fb : (withUnread b a s).fb = s.fb := rfl
@[simp] theorem withUnread_dirty : (withUnread b a s).dirty = s.dirty := rfl
@[simp] theorem withUnread_text : (withUnread b a s).text = s.text := rfl
@[simp] theorem withUnread_font : (withUnread b a s).font = { s.font with unicode := a } := rfl
@[simp] theorem withUnread_last : (withUnread b a s).last = s.last := rfl
@[simp] theorem withUnread_bitcur : (withUnread b a s).bitcur = s.bitcur := rfl
@[simp] theorem withUnread_mem : (withUnread b a s).mem = s.mem := rfl

end unread

/-- An operation that reads neither of the two: its effect and its accesses are the same for other values of them. -/
structure Unread (b : Bool) (a : Word) (f : State → State) (events : State → List Event) : Prop where
  state : ∀ s, f (withUnread b a s) = withUnread b a (f s)
  accesses : ∀ s, events (withUnread b a s) = events s

section operations
variable {b : Bool} {a : Word}

/-! ## Loops and windows -/

/-- A loop reads neither if no turn does. -/
theorem Unread.loop {α : Type} {body : State → α → State} {events : State → α → List Event}
    (h : ∀ x, Unread b a (fun s => body s x) (fun s => events s x)) (l : List α) :
    Unread b a (fun s => l.foldl body s) (loopEvents body events l) := by
  induction l with
  | nil => exact ⟨fun _ => rfl, fun _ => rfl⟩
  | cons x l ih =>
    refine ⟨fun s => ?_, fun s => ?_⟩
    · rw [List.foldl_cons, List.foldl_cons, (h x).state, ih.state]
    · rw [loopEvents, loopEvents, (h x).accesses, (h x).state, ih.accesses]

theorem paint_withUnread (s : State) (f : Colour) : ∀ (ps : List (Int × Int)) (m : Memory),
    paint (withUnread b a s) f m ps = paint s f m ps
  | [], _ => rfl
  | _ :: ps, _ => paint_withUnread s f ps _

theorem paintEvents_withUnread (s : State) (f : Colour) (reads : Reads) : ∀ (ps : List (Int × Int)) (m : Memory),
    paintEvents (withUnread b a s) f reads m ps = paintEvents s f reads m ps
  | [], _ => rfl
  | _ :: ps, _ => congrArg _ (paintEvents_withUnread s f reads ps _)

theorem unread_putWindow (vx0 vy0 vx1 vy1 : Int) (f : Colour) (reads : Reads) :
    Unread b a (putWindow vx0 vy0 vx1 vy1 f) (putWindowEvents vx0 vy0 vx1 vy1 f reads) := by
  refine ⟨fun s => ?_, fun s => ?_⟩
  · unfold putWindow
    simp only [withUnread_fb, withUnread_mem, paint_withUnread]
    split <;> rfl
  · simp only [putWindowEvents, withUnread_fb, withUnread_mem, paintEvents_withUnread]

theorem unread_drawWindow (x y w h : Int) (g : Colour) (reads : Reads) :
    Unread b a (drawWindow x y w h g) (drawWindowEvents x y w h g reads) := by
  refine ⟨fun s => ?_, fun s => ?_⟩
  · unfold drawWindow
    rw [withUnread_canvas]
    split
    · rfl
    · exact (unread_putWindow _ _ _ _ _ noReads).state s
  · unfold drawWindowEvents
    rw [withUnread_canvas]
    split
    · rfl
    · exact (unread_putWindow _ _ _ _ _ _).accesses s

theorem unread_drawRect (x y w h : Int) (c : Half) : Unread b a (drawRect x y w h c) (drawRectEvents x y w h c) :=
  ⟨(unread_drawWindow x y w h _ noReads).state, (unread_drawWindow x y w h _ noReads).accesses⟩

theorem unread_drawPixel (x y : Int) (c : Half) : Unread b a (drawPixel x y c) (drawPixelEvents x y c) :=
  ⟨(unread_drawRect x y 1 1 c).state, (unread_drawRect x y 1 1 c).accesses⟩

/-- A pixel drawn on a condition. -/
theorem unread_drawPixel_ite (c : Prop) [Decidable c] (x y : Int) (v : Half) :
    Unread b a (fun s => if c then drawPixel x y v s else s) (fun s => if c then drawPixelEvents x y v s else []) := by
  split
  · exact unread_drawPixel _ _ _
  · exact ⟨fun _ => rfl, fun _ => rfl⟩

/-! ## Scrolling and placing -/

theorem unread_moveRow (n y : Int) : Unread b a (moveRow n y) (moveRowEvents n y) := by
  refine ⟨fun s => ?_, fun s => ?_⟩
  · unfold moveRow
    simp only [withUnread_canvas, withUnread_text]
    split
    · by_cases hen : s.fb.en = true
      · rw [withUnread_fb, if_pos hen, if_pos hen]
        rfl
      · rw [withUnread_fb, if_neg hen, if_neg hen]
        rfl
    · rfl
  · unfold moveRowEvents
    simp only [withUnread_canvas, withUnread_text]
    split <;> rfl

theorem unread_scrollUp (n : Int) : Unread b a (scrollUp n) (scrollUpEvents n) := by
  refine ⟨fun s => ?_, fun s => ?_⟩
  · unfold scrollUp
    split
    · rfl
    · dsimp only [withUnread_text]
      rw [(Unread.loop (fun y => unread_moveRow n y) _).state, (unread_drawRect _ _ _ _ _).state]
  · unfold scrollUpEvents
    split
    · rfl
    · dsimp only [withUnread_text]
      rw [(Unread.loop (fun y => unread_moveRow n y) _).state, (Unread.loop (fun y => unread_moveRow n y) _).accesses,
        (unread_drawRect _ _ _ _ _).accesses]

@[simp] theorem wrapPen_withUnread (s : State) (right lineh : Int) : wrapPen (withUnread b a s) right lineh = wrapPen s right lineh :=
  rfl

@[simp] theorem scrollDue_withUnread (s : State) (cy lineh : Int) : scrollDue (withUnread b a s) cy lineh = scrollDue s cy lineh := rfl

@[simp] theorem placePen_withUnread (s : State) (right lineh : Int) : placePen (withUnread b a s) right lineh =
    ((placePen s right lineh).1, withUnread b a (placePen s right lineh).2) := by
  unfold placePen
  simp only [wrapPen_withUnread, scrollDue_withUnread, withUnread_text, (unread_scrollUp _).state]
  split <;> rfl

@[simp] theorem placePenEvents_withUnread (s : State) (right lineh : Int) :
    placePenEvents (withUnread b a s) right lineh = placePenEvents s right lineh := by
  simp only [placePenEvents, wrapPen_withUnread, scrollDue_withUnread, (unread_scrollUp _).accesses]

/-! ## The fixed font -/

theorem unread_drawFixedRow (q : List Byte) (cx cy sx sy : Int) (fg : Half) (row : Nat) :
    Unread b a (fun s => drawFixedRow q cx cy sx sy fg s row) (fun s => drawFixedRowEvents q cx cy sx sy fg s row) :=
  Unread.loop (fun _ => unread_drawRect _ _ _ _ _) _

theorem unread_drawFixedRows (q : List Byte) (cx cy sx sy : Int) (fg : Half) :
    Unread b a (fun s => (List.range 8).foldl (drawFixedRow q cx cy sx sy fg) s)
      (loopEvents (drawFixedRow q cx cy sx sy fg) (drawFixedRowEvents q cx cy sx sy fg) (List.range 8)) :=
  Unread.loop (fun _ => unread_drawFixedRow _ _ _ _ _ _ _) _

@[simp] theorem fixedColumns_withUnread (s : State) (code : Nat) : fixedColumns (withUnread b a s) code = fixedColumns s code := rfl

@[simp] theorem columnEvents_withUnread (s : State) (code : Nat) : columnEvents (withUnread b a s) code = columnEvents s code := rfl

theorem unread_drawFixed (code : Nat) : Unread b a (drawFixed code) (drawFixedEvents code) := by
  refine ⟨fun s => ?_, fun s => ?_⟩
  · unfold drawFixed drawFixedTransparent drawFixedOpaque
    split
    · rfl
    · simp only [withUnread_text, fixedColumns_withUnread, placePen_withUnread, (unread_drawFixedRows _ _ _ _ _ _).state,
        (unread_drawWindow _ _ _ _ _ noReads).state]
      split <;> rfl
  · unfold drawFixedEvents
    split
    · rfl
    · simp only [withUnread_text, fixedColumns_withUnread, placePen_withUnread, columnEvents_withUnread, placePenEvents_withUnread,
        (unread_drawFixedRows _ _ _ _ _ _).accesses, (unread_drawWindow _ _ _ _ _ noReads).accesses]

/-! ## The scalable font -/

@[simp] theorem glyphAddr_unicode (f : Font) (m : Memory) (code : Nat) :
    glyphAddr { f with unicode := a } m code = glyphAddr f m code := rfl

@[simp] theorem indexEvents_unicode (f : Font) (code : Nat) : indexEvents { f with unicode := a } code = indexEvents f code := rfl

@[simp] theorem glyphColour_unicode (p : GlyphPixels) (g : GlyphHeader) (f : Font) :
    glyphColour p g { f with unicode := a } = glyphColour p g f := rfl

@[simp] theorem takeHeader_withUnread (base : Word) (s : State) :
    takeHeader base (withUnread b a s) = (takeHeader base s).map fun h => (h.1, withUnread b a h.2) := by
  unfold takeHeader
  dsimp only
  split <;> split
  · rfl
  · contradiction
  · contradiction
  · rfl

@[simp] theorem headerEvents_withUnread (base : Word) (s : State) : headerEvents base (withUnread b a s) = headerEvents base s := by
  unfold headerEvents
  rw [takeHeader_withUnread]
  cases takeHeader base s <;> rfl

@[simp] theorem takePixels_withUnread (base : Word) (g : GlyphHeader) (s : State) : takePixels base g (withUnread b a s) =
    ((takePixels base g s).1, withUnread b a (takePixels base g s).2) := by
  unfold takePixels
  dsimp only [withUnread_font, withUnread_bitcur, withUnread_mem]
  split <;> rfl

@[simp] theorem pixelEvents_withUnread (base : Word) (g : GlyphHeader) (s : State) :
    pixelEvents base g (withUnread b a s) = pixelEvents base g s := rfl

theorem unread_drawGroups (p : GlyphPixels) (ox oy : Int) (fg : Half) :
    Unread b a (drawGroups p ox oy fg) (drawGroupsEvents p ox oy fg) :=
  Unread.loop (fun _ => Unread.loop (fun _ => unread_drawRect _ _ _ _ _) _) _

theorem unread_drawLevels (p : GlyphPixels) (gw gh threshold : Nat) (ox oy : Int) (fg : Half) :
    Unread b a (drawLevels p gw gh threshold ox oy fg) (drawLevelsEvents p gw gh threshold ox oy fg) :=
  Unread.loop (fun _ => unread_drawPixel_ite _ _ _ _) _

theorem unread_inked (col : Int → Int → Half) (ink : Int → Int → Bool) (l : List (Int × Int)) :
    Unread b a (fun s => l.foldl (drawInked col ink) s)
      (loopEvents (drawInked col ink) (fun t p => if ink p.1 p.2 then drawPixelEvents p.1 p.2 (col p.1 p.2) t else []) l) :=
  Unread.loop (fun _ => unread_drawPixel_ite _ _ _ _) _

theorem unread_drawOpaque (col : Int → Int → Half) (ink : Int → Int → Bool) (q : Box) (active : Bool) (lastXr : Int) :
    Unread b a (drawOpaque col ink q active lastXr) (drawOpaqueEvents col ink q active lastXr) := by
  refine ⟨fun s => ?_, fun s => ?_⟩
  · unfold drawOpaque
    dsimp only
    split
    · rw [(unread_inked _ _ _).state, (unread_drawWindow _ _ _ _ _ noReads).state]
    · exact (unread_drawWindow _ _ _ _ _ noReads).state s
  · unfold drawOpaqueEvents
    dsimp only
    split
    · rw [(unread_inked _ _ _).state, (unread_inked _ _ _).accesses, (unread_drawWindow _ _ _ _ _ noReads).accesses]
    · exact (unread_drawWindow _ _ _ _ _ noReads).accesses s

theorem unread_drawGlyph (base : Word) (g : GlyphHeader) : Unread b a (drawGlyph base g) (drawGlyphEvents base g) := by
  refine ⟨fun s => ?_, fun s => ?_⟩
  · unfold drawGlyph
    simp only [withUnread_text, withUnread_font, withUnread_params, withUnread_last, placePen_withUnread, takePixels_withUnread,
      glyphColour_unicode, (unread_drawGroups _ _ _ _).state, (unread_drawLevels _ _ _ _ _ _ _).state,
      (unread_drawOpaque _ _ _ _ _).state]
    split
    · split <;> rfl
    · rfl
  · unfold drawGlyphEvents
    simp only [withUnread_text, withUnread_font, withUnread_params, withUnread_last, placePen_withUnread, takePixels_withUnread,
      placePenEvents_withUnread, pixelEvents_withUnread, glyphColour_unicode, (unread_drawGroups _ _ _ _).accesses,
      (unread_drawLevels _ _ _ _ _ _ _).accesses, (unread_drawOpaque _ _ _ _ _).accesses]

theorem unread_drawScalable (code : Nat) : Unread b a (drawScalable code) (drawScalableEvents code) := by
  refine ⟨fun s => ?_, fun s => ?_⟩
  · unfold drawScalable
    simp only [withUnread_font, withUnread_mem, glyphAddr_unicode, takeHeader_withUnread]
    split
    · rfl
    · rename_i base _
      cases takeHeader base s with
      | none => rfl
      | some h => exact (unread_drawGlyph base h.1).state h.2
  · unfold drawScalableEvents
    simp only [withUnread_font, withUnread_mem, glyphAddr_unicode, indexEvents_unicode, takeHeader_withUnread, headerEvents_withUnread]
    split
    · rfl
    · rename_i base _
      cases takeHeader base s with
      | none => rfl
      | some h => exact congrArg _ (congrArg _ ((unread_drawGlyph base h.1).accesses h.2))

theorem unread_drawchar (code : Half) : Unread b a (drawcharState code) (drawcharEvents code) := by
  refine ⟨fun s => ?_, fun s => ?_⟩
  · unfold drawcharState
    rw [withUnread_text]
    split
    · exact (unread_drawFixed _).state s
    · exact (unread_drawFixed _).state s
    · exact (unread_drawScalable _).state s
  · unfold drawcharEvents
    rw [withUnread_text]
    split
    · exact (unread_drawFixed _).accesses s
    · exact (unread_drawFixed _).accesses s
    · exact (unread_drawScalable _).accesses s

/-! ## READRECT -/

theorem copyOut_withUnread (s : State) (v : Vis) (w : Int) (dst : Word) : ∀ (ps : List (Int × Int)) (m : Memory),
    copyOut (withUnread b a s) v w dst m ps = copyOut s v w dst m ps
  | [], _ => rfl
  | _ :: ps, _ => copyOut_withUnread s v w dst ps _

theorem copyOutEvents_withUnread (s : State) (v : Vis) (w : Int) (dst : Word) : ∀ (ps : List (Int × Int)) (m : Memory),
    copyOutEvents (withUnread b a s) v w dst m ps = copyOutEvents s v w dst m ps
  | [], _ => rfl
  | _ :: ps, _ => congrArg _ (congrArg _ (copyOutEvents_withUnread s v w dst ps _))

theorem unread_readrect (x y w h : Half) (dst : Word) : Unread b a (readrectState x y w h dst) (readrectEvents x y w h dst) := by
  refine ⟨fun s => ?_, fun s => ?_⟩
  · unfold readrectState readVisible
    rw [withUnread_canvas]
    split
    · rfl
    · simp only [withUnread_fb, withUnread_mem, copyOut_withUnread]
      split <;> rfl
  · unfold readrectEvents
    rw [withUnread_canvas]
    split
    · rfl
    · simp only [withUnread_fb, withUnread_mem, copyOutEvents_withUnread]
      rfl

/-! ## The mirror -/

theorem unread_streamFB (x0 y0 x1 y1 : Int) : Unread b a (streamFB x0 y0 x1 y1) (streamFBEvents x0 y0 x1 y1) :=
  ⟨fun _ => rfl, fun _ => rfl⟩

theorem unread_flush : Unread b a
    (fun s => if !s.fb.en then s else emptyDirty (if dirtyEmpty s.dirty then streamAll s else streamDirty s)) flushEvents := by
  refine ⟨fun s => ?_, fun s => rfl⟩
  simp only [withUnread_fb, withUnread_dirty, streamAll, streamDirty, withUnread_canvas, (unread_streamFB _ _ _ _).state]
  split
  · rfl
  · split <;> split <;> rfl

@[simp] theorem askActive_withUnread (s : State) :
    askActive (withUnread b a s) = ((askActive s).1, withUnread b a (askActive s).2) := by
  by_cases hbusy : s.asyncBusy = true
  · simp only [askActive, show (withUnread b a s).asyncBusy = true from hbusy, hbusy, if_true]
    rfl
  · simp only [askActive, show ¬ (withUnread b a s).asyncBusy = true from hbusy, hbusy]
    rfl

@[simp] theorem allocateMirror_withUnread (s : State) : allocateMirror (withUnread b a s) = withUnread b a (allocateMirror s) := by
  unfold allocateMirror
  cases h : (askAlloc (fbSize s) s).1 with
  | none =>
    simp only [show (askAlloc (fbSize (withUnread b a s)) (withUnread b a s)).1 = none from h, h]
    rfl
  | some q =>
    simp only [show (askAlloc (fbSize (withUnread b a s)) (withUnread b a s)).1 = some q from h, h]
    rfl

/-! ## Commands -/

/-- A command that completes does the same for other values of the two, and leaves them as given. -/
def KeepsUnread (b : Bool) (a : Word) (run : State → Host.Outcome State Fault Refusal) : Prop :=
  ∀ s t, run s = .next t → run (withUnread b a s) = .next (withUnread b a t)

theorem Unread.keepsUnread {f : State → State} {events : State → List Event} (h : Unread b a f events) :
    KeepsUnread b a fun s => guarded (events s) s (f s) := by
  intro s t hst
  obtain ⟨hb, rfl⟩ := guarded_eq_next.1 hst
  exact guarded_eq_next.2 ⟨by rw [h.accesses]; exact hb, h.state s⟩

theorem keepsUnread_next {f : State → State} (h : ∀ s, f (withUnread b a s) = withUnread b a (f s)) :
    KeepsUnread b a fun s => .next (f s) := by
  intro s t hst
  obtain rfl := Host.Outcome.next.inj hst
  exact congrArg Host.Outcome.next (h s)

theorem keepsUnread_setcanvas (w h : Half) : KeepsUnread b a (execSetcanvas w h) := by
  refine keepsUnread_next fun s => ?_
  simp only [apply_ite (withUnread b a)]
  rfl

theorem keepsUnread_writerectnbpp (x y w h bpp : Half) (src pal : Word) :
    KeepsUnread b a (execWriterectnbpp x y w h bpp src pal) := by
  refine Unread.keepsUnread (f := fun s => if legalBpp bpp.toNat then drawWindow _ _ _ _ _ s else s) ?_
  unfold writerectnbppEvents
  split
  · exact unread_drawWindow _ _ _ _ _ _
  · exact ⟨fun _ => rfl, fun _ => rfl⟩

theorem keepsUnread_fbsetext (buf : Word) : KeepsUnread b a (execFbsetext buf) := by
  refine keepsUnread_next fun s => ?_
  simp only [apply_ite (withUnread b a)]
  rfl

theorem keepsUnread_fbenable : KeepsUnread b a execFbenable := by
  refine keepsUnread_next fun s => ?_
  simp only [withUnread_fb, withUnread_params, allocateMirror_withUnread]
  split
  · rfl
  · split <;> rfl

theorem keepsUnread_fbrelease : KeepsUnread b a execFbrelease := by
  refine keepsUnread_next fun s => ?_
  simp only [apply_ite (withUnread b a)]
  rfl

theorem keepsUnread_flushasync : KeepsUnread b a execFlushasync := by
  refine keepsUnread_next fun s => ?_
  simp only [withUnread_fb, askActive_withUnread]
  split
  · rfl
  · split <;> rfl

theorem keepsUnread_waitasync : KeepsUnread b a execWaitasync :=
  keepsUnread_next fun s => by
    rw [askActive_withUnread]
    rfl

theorem keepsUnread_pollasync : KeepsUnread b a execPollasync :=
  keepsUnread_next fun s => by
    rw [askActive_withUnread]
    rfl

/-- Every command but SETFONT leaves the two as given. -/
theorem exec_keepsUnread {i : Instr} (hi : ∀ kind addr, i ≠ .setfont kind addr) : KeepsUnread b a (exec i) := by
  cases i with
  | setfont kind addr => exact absurd rfl (hi kind addr)
  | setcanvas w h => exact keepsUnread_setcanvas w h
  | setpixel x y c => exact (unread_drawPixel _ _ _).keepsUnread
  | fastvline | fasthline | fillrect => exact (unread_drawRect _ _ _ _ _).keepsUnread
  | writerect => exact (unread_drawWindow _ _ _ _ _ _).keepsUnread
  | readrect => exact (unread_readrect _ _ _ _ _).keepsUnread
  | writerectnbpp => exact keepsUnread_writerectnbpp _ _ _ _ _ _ _
  | fbsetext => exact keepsUnread_fbsetext _
  | fbenable => exact keepsUnread_fbenable
  | fbrelease => exact keepsUnread_fbrelease
  | flush => exact unread_flush.keepsUnread
  | flushasync => exact keepsUnread_flushasync
  | waitasync => exact keepsUnread_waitasync
  | pollasync => exact keepsUnread_pollasync
  | drawchar code => exact (unread_drawchar code).keepsUnread
  | nop | setorigin | setclip | fbdisable | setcursor | settextcolor | settextwrap | settextsize | setscroll =>
    exact keepsUnread_next fun _ => rfl

end operations

/-- `u` is `t` but for ILL, which is `b`, and F_UNICODE, which is `a` or the one `t` has. -/
def SameButUnread (b : Bool) (a : Word) (t u : State) : Prop :=
  u = { t with ill := b, font := { t.font with unicode := u.font.unicode } } ∧
  (u.font.unicode = a ∨ u.font.unicode = t.font.unicode)

theorem sameButUnread_withUnread (b : Bool) (a : Word) (t : State) : SameButUnread b a t (withUnread b a t) := ⟨rfl, .inl rfl⟩

/-- SETFONT of a legal kind: kind 2 latches F_UNICODE anew, the others leave it (R230, R231). -/
theorem selectFont_withUnread (k : FontKind) (addr : Word) (b : Bool) (a : Word) (s : State) :
    SameButUnread b a (selectFont k addr s) (selectFont k addr (withUnread b a s)) := by
  cases k with
  | noFont | fixedFont => exact ⟨rfl, .inl rfl⟩
  | scalableFont => exact ⟨rfl, .inr rfl⟩

/-- A kind that a well-formed SETFONT carries is one of the three (R134, R230). -/
theorem fontKindOf_of_wellFormed {kind : BitVec 2} {addr : Word} (h : (Instr.setfont kind addr).wellFormed = true) :
    ∃ k, fontKindOf kind = some k := by
  have hlegal : ∀ k : BitVec 2, k ≠ 3#2 → (fontKindOf k).isSome = true := by decide
  exact Option.isSome_iff_exists.1 (hlegal kind (by simpa [Instr.wellFormed] using h))

/-- Settles O19: SETFONT by the font it selects, every other command by what it reads. -/
theorem illAndUnicodeAreNeverRead : Obligations.IllAndUnicodeAreNeverRead := by
  intro i s t b a hw he
  by_cases hi : ∀ kind addr, i ≠ .setfont kind addr
  · exact ⟨withUnread b a t, exec_keepsUnread hi s t he, sameButUnread_withUnread b a t⟩
  · simp only [not_forall, not_not] at hi
    obtain ⟨kind, addr, rfl⟩ := hi
    obtain ⟨k, hk⟩ := fontKindOf_of_wellFormed hw
    obtain ⟨hb, rfl⟩ := guarded_eq_next.1 he
    rw [hk]
    refine ⟨selectFont k addr (withUnread b a s), ?_, selectFont_withUnread k addr b a s⟩
    refine guarded_eq_next.2 ⟨hb, ?_⟩
    rw [hk]
    rfl

end Sys2Proof.Machine
end

section
/-! PROOFS. Which commands write which registers (10_state.md R23 to R39). Settles O20. -/

namespace Sys2Proof.Machine

/-- From `s` to `t` a command of the mnemonic `m` changed only the registers the spec lets it write. -/
structure WritesOwn (m : String) (s t : State) : Prop where
  size : m ≠ "SETCANVAS" → t.canvas.width = s.canvas.width ∧ t.canvas.height = s.canvas.height
  origin : m ≠ "SETORIGIN" → t.canvas.originX = s.canvas.originX ∧ t.canvas.originY = s.canvas.originY
  clip : m ∉ ["SETCANVAS", "SETCLIP"] → t.canvas.clipX1 = s.canvas.clipX1 ∧ t.canvas.clipY1 = s.canvas.clipY1 ∧
    t.canvas.clipX2 = s.canvas.clipX2 ∧ t.canvas.clipY2 = s.canvas.clipY2
  mirror : m ∉ ["FBSETEXT", "FBENABLE", "FBDISABLE", "FBRELEASE"] → t.fb = s.fb
  result : m ∉ ["FBENABLE", "FLUSHASYNC", "POLLASYNC"] → t.result = s.result
  cursor : m ∉ ["SETCURSOR", "DRAWCHAR"] → t.text.cursorX = s.text.cursorX ∧ t.text.cursorY = s.text.cursorY
  colours : m ≠ "SETTEXTCOLOR" → t.text.fg = s.text.fg ∧ t.text.bg = s.text.bg
  wrap : m ≠ "SETTEXTWRAP" → t.text.wrap = s.text.wrap
  tsize : m ≠ "SETTEXTSIZE" → t.text.tsizeX = s.text.tsizeX ∧ t.text.tsizeY = s.text.tsizeY
  scroll : m ≠ "SETSCROLL" → t.text.scrollX = s.text.scrollX ∧ t.text.scrollY = s.text.scrollY ∧
    t.text.scrollW = s.text.scrollW ∧ t.text.scrollH = s.text.scrollH ∧ t.text.scrollEn = s.text.scrollEn
  font : m ≠ "SETFONT" → t.text.fontKind = s.text.fontKind ∧ t.font = s.font
  last : m ∉ ["SETCANVAS", "SETORIGIN", "SETFONT", "SETCURSOR", "DRAWCHAR"] → t.last = s.last

namespace WritesOwn
variable {m : String} {s t : State}

/-- A command that leaves all of these registers. -/
theorem of_eq (hcanvas : t.canvas = s.canvas) (hfb : t.fb = s.fb) (hresult : t.result = s.result) (htext : t.text = s.text)
    (hfont : t.font = s.font) (hlast : t.last = s.last) : WritesOwn m s t := by
  constructor <;> intro _ <;> simp only [hcanvas, hfb, hresult, htext, hfont, hlast, and_self]

theorem refl (m : String) (s : State) : WritesOwn m s s := of_eq rfl rfl rfl rfl rfl rfl

theorem of_drawFrame (h : DrawFrame s t) : WritesOwn m s t := of_eq h.canvas h.fb h.result h.text h.font h.last

end WritesOwn

variable {s t : State}

theorem writesOwn_readrect (m : String) (x y w h : Half) (dst : Word) : WritesOwn m s (readrectState x y w h dst s) := by
  unfold readrectState readVisible
  split
  · exact .refl m s
  · dsimp only
    split <;> exact .of_eq rfl rfl rfl rfl rfl rfl

theorem writesOwn_setcanvas {w h : Half} (he : execSetcanvas w h s = .next t) : WritesOwn "SETCANVAS" s t := by
  obtain rfl := Host.Outcome.next.inj he
  split
  · exact .refl _ s
  · split
    · exact .refl _ s
    · exact { WritesOwn.refl "SETCANVAS" s with
        size := fun hm => absurd rfl hm, clip := fun hm => absurd (by simp) hm, last := fun hm => absurd (by simp) hm }

theorem writesOwn_fbsetext {buf : Word} (he : execFbsetext buf s = .next t) : WritesOwn "FBSETEXT" s t := by
  obtain rfl := Host.Outcome.next.inj he
  split
  · exact .refl _ s
  · exact { WritesOwn.refl "FBSETEXT" s with mirror := fun hm => absurd (by simp) hm }

theorem writesOwn_allocateMirror : WritesOwn "FBENABLE" s (allocateMirror s) := by
  unfold allocateMirror
  dsimp only
  split <;>
  · exact { WritesOwn.refl "FBENABLE" s with mirror := fun hm => absurd (by simp) hm, result := fun hm => absurd (by simp) hm }

theorem writesOwn_fbenable (he : execFbenable s = .next t) : WritesOwn "FBENABLE" s t := by
  obtain rfl := Host.Outcome.next.inj he
  split
  · exact { WritesOwn.refl "FBENABLE" s with result := fun hm => absurd (by simp) hm }
  · split
    · exact { WritesOwn.refl "FBENABLE" s with mirror := fun hm => absurd (by simp) hm, result := fun hm => absurd (by simp) hm }
    · exact writesOwn_allocateMirror

theorem writesOwn_fbrelease (he : execFbrelease s = .next t) : WritesOwn "FBRELEASE" s t := by
  obtain rfl := Host.Outcome.next.inj he
  split <;>
  · exact { WritesOwn.refl "FBRELEASE" s with mirror := fun hm => absurd (by simp) hm }

theorem writesOwn_flush (he : execFlush s = .next t) : WritesOwn "FLUSH" s t := by
  obtain ⟨-, rfl⟩ := guarded_eq_next.1 he
  unfold streamAll streamDirty
  dsimp only
  split
  · exact .refl _ s
  · split <;> split <;> exact .of_eq rfl rfl rfl rfl rfl rfl

theorem writesOwn_askActive (m : String) (s : State) : WritesOwn m s (askActive s).2 := by
  unfold askActive
  split <;> exact .of_eq rfl rfl rfl rfl rfl rfl

theorem writesOwn_flushasync (he : execFlushasync s = .next t) : WritesOwn "FLUSHASYNC" s t := by
  obtain rfl := Host.Outcome.next.inj he
  split
  · exact { WritesOwn.refl "FLUSHASYNC" s with result := fun hm => absurd (by simp) hm }
  · dsimp only
    split <;>
    · exact { writesOwn_askActive "FLUSHASYNC" s with result := fun hm => absurd (by simp) hm }

theorem writesOwn_setfont {kind : BitVec 2} {addr : Word} (he : execSetfont kind addr s = .next t) : WritesOwn "SETFONT" s t := by
  obtain ⟨-, rfl⟩ := guarded_eq_next.1 he
  split
  · exact { WritesOwn.refl "SETFONT" s with font := fun hm => absurd rfl hm, last := fun hm => absurd (by simp) hm }
  · exact .of_eq rfl rfl rfl rfl rfl rfl

/-- DRAWCHAR writes the cursor and the bookkeeping (R31, R39). -/
theorem writesOwn_drawchar (code : Half) : WritesOwn "DRAWCHAR" s (drawcharState code s) := by
  rcases drawcharState_cases code s with h | ⟨u, x, y, hu, h | ⟨q, h⟩⟩ <;> rw [h]
  · exact .refl _ s
  · exact { WritesOwn.of_drawFrame (m := "DRAWCHAR") hu with
      cursor := fun hm => absurd (by simp) hm, last := fun hm => absurd (by simp) hm }
  · exact { WritesOwn.of_drawFrame (m := "DRAWCHAR") hu with
      cursor := fun hm => absurd (by simp) hm, last := fun hm => absurd (by simp) hm }

/-- Every command writes registers of its own only. -/
theorem exec_writesOwn {i : Instr} (he : exec i s = .next t) : WritesOwn i.mnemonic s t := by
  cases i with
  | setcanvas => exact writesOwn_setcanvas he
  | setpixel =>
    obtain ⟨-, rfl⟩ := guarded_eq_next.1 he
    exact .of_drawFrame (drawFrame_drawPixel _ _ _ s)
  | fastvline | fasthline | fillrect | writerect =>
    obtain ⟨-, rfl⟩ := guarded_eq_next.1 he
    exact .of_drawFrame (drawFrame_drawWindow _ _ _ _ _ s)
  | readrect =>
    obtain ⟨-, rfl⟩ := guarded_eq_next.1 he
    exact writesOwn_readrect _ _ _ _ _ _
  | writerectnbpp =>
    obtain ⟨-, rfl⟩ := guarded_eq_next.1 he
    split
    · exact .of_drawFrame (drawFrame_drawWindow _ _ _ _ _ s)
    · exact .refl _ s
  | fbsetext => exact writesOwn_fbsetext he
  | fbenable => exact writesOwn_fbenable he
  | fbrelease => exact writesOwn_fbrelease he
  | flush => exact writesOwn_flush he
  | flushasync => exact writesOwn_flushasync he
  | setfont => exact writesOwn_setfont he
  | drawchar code =>
    obtain ⟨-, rfl⟩ := guarded_eq_next.1 he
    exact writesOwn_drawchar code
  | waitasync =>
    obtain rfl := Host.Outcome.next.inj he
    exact { writesOwn_askActive _ s with }
  | pollasync =>
    obtain rfl := Host.Outcome.next.inj he
    exact { writesOwn_askActive _ s with result := fun hm => absurd (by simp [Instr.mnemonic]) hm }
  | nop =>
    obtain rfl := Host.Outcome.next.inj he
    exact .refl _ s
  | setorigin =>
    obtain rfl := Host.Outcome.next.inj he
    exact { WritesOwn.refl _ s with origin := fun hm => absurd rfl hm, last := fun hm => absurd (by simp [Instr.mnemonic]) hm }
  | setclip =>
    obtain rfl := Host.Outcome.next.inj he
    exact { WritesOwn.refl _ s with clip := fun hm => absurd (by simp [Instr.mnemonic]) hm }
  | fbdisable =>
    obtain rfl := Host.Outcome.next.inj he
    exact { WritesOwn.refl _ s with mirror := fun hm => absurd (by simp [Instr.mnemonic]) hm }
  | setcursor =>
    obtain rfl := Host.Outcome.next.inj he
    exact { WritesOwn.refl _ s with
      cursor := fun hm => absurd (by simp [Instr.mnemonic]) hm, last := fun hm => absurd (by simp [Instr.mnemonic]) hm }
  | settextcolor =>
    obtain rfl := Host.Outcome.next.inj he
    exact { WritesOwn.refl _ s with colours := fun hm => absurd rfl hm }
  | settextwrap =>
    obtain rfl := Host.Outcome.next.inj he
    exact { WritesOwn.refl _ s with wrap := fun hm => absurd rfl hm }
  | settextsize =>
    obtain rfl := Host.Outcome.next.inj he
    exact { WritesOwn.refl _ s with tsize := fun hm => absurd rfl hm }
  | setscroll =>
    obtain rfl := Host.Outcome.next.inj he
    exact { WritesOwn.refl _ s with scroll := fun hm => absurd rfl hm }

/-- Settles O20, command by command (`exec_writesOwn`). -/
theorem registerWriters : Obligations.RegisterWriters := by
  intro i s t he
  have h := exec_writesOwn he
  exact ⟨h.size, h.origin, h.clip, h.mirror, h.result, h.cursor, h.colours, h.wrap, h.tsize, h.scroll, h.font, h.last⟩

end Sys2Proof.Machine
end

section
/-! PROOFS. Finding a glyph and reading its header and its row groups (45_font_scalable.md R246, R247, R251; 10_state.md R40). Settles O50
and O51. -/

namespace Sys2Proof.Machine

/-! ## Lookup (R246) -/

/-- An offset added to an address (R71). -/
theorem wrap32_toNat_add (w : Word) (n : Nat) : wrap32 ((w.toNat : Int) + n) = w + BitVec.ofNat 32 n := by
  rw [wrap32_add, wrap32_toNat, wrap32, BitVec.ofInt_natCast]

/-- The record of the glyph with a natural entry number (R246). -/
theorem glyphAddr_of_number {f : Font} {code g : Nat} (m : Memory) (hok : f.ok = true) (hg : glyphNumber f code = some (g : Int)) :
    glyphAddr f m code =
      some (f.data + BitVec.ofNat 32 (fetchU m f.index (g * f.bidx.toNat : Nat) f.bidx.toNat)) := by
  rw [glyphAddr, hok, hg, Nat.cast_mul]
  exact congrArg some (wrap32_toNat_add _ _)

theorem glyphNumber_index1 {f : Font} {code : Nat} (h : f.i1f.toNat ≤ code ∧ code ≤ f.i1l.toNat) :
    glyphNumber f code = some ((code - f.i1f.toNat : Nat) : Int) := by
  rw [glyphNumber, if_pos h, Nat.cast_sub h.1]

/-- `index2` is numbered after all of `index1`, when that range is not written with its first code past its last by more than one
(entry 14). -/
theorem glyphNumber_index2 {f : Font} {code : Nat} (h1 : ¬ (f.i1f.toNat ≤ code ∧ code ≤ f.i1l.toNat))
    (h2 : f.i2f.toNat ≤ code ∧ code ≤ f.i2l.toNat) (hsize : f.i1f.toNat ≤ f.i1l.toNat + 1) :
    glyphNumber f code = some ((code - f.i2f.toNat + (f.i1l.toNat + 1 - f.i1f.toNat) : Nat) : Int) := by
  rw [glyphNumber, if_neg h1, if_pos h2]
  congr 1
  omega

/-! ## The header (R247) -/

/-- The state with the decode cursor at bit `k` (R40). -/
def atBit (k : Nat) (s : State) : State := { s with bitcur := BitVec.ofNat 32 k }

/-- A field read at bit `k`: the cursor moves past it. -/
theorem takeU_atBit (base : Word) (n : Nat) {k : Nat} (hk : k < 2 ^ 32) (s : State) :
    takeU base n (atBit k s) = (fetchU s.mem base k n, atBit (k + n) s) := by
  have hcur : (BitVec.ofNat 32 k).toNat = k := by simpa using hk
  simp only [takeU, atBit, hcur, BitVec.ofNat_add]

theorem takeS_atBit (base : Word) (n : Nat) {k : Nat} (hk : k < 2 ^ 32) (s : State) :
    takeS base n (atBit k s) = (fetchS s.mem base k n, atBit (k + n) s) := by
  rw [takeS, takeU_atBit base n hk, fetchS]

/-- The header as R247 lists it: the fields one after another from bit 3, when the tag is 0. -/
theorem takeHeader_eq (base : Word) (s : State) (hw : s.font.bw.toNat ≤ 16) (hh : s.font.bh.toNat ≤ 16) (hx : s.font.bxo.toNat ≤ 16)
    (hy : s.font.byo.toNat ≤ 16) (htag : fetchU s.mem base 0 3 = 0) :
    takeHeader base s = some
      ({ gw := fetchU s.mem base 3 s.font.bw.toNat
         gh := fetchU s.mem base (3 + s.font.bw.toNat : Nat) s.font.bh.toNat
         xo := fetchS s.mem base (3 + s.font.bw.toNat + s.font.bh.toNat : Nat) s.font.bxo.toNat
         yo := fetchS s.mem base (3 + s.font.bw.toNat + s.font.bh.toNat + s.font.bxo.toNat : Nat) s.font.byo.toNat
         adv := fetchU s.mem base (3 + s.font.bw.toNat + s.font.bh.toNat + s.font.bxo.toNat + s.font.byo.toNat : Nat)
           s.font.bdelta.toNat },
       atBit (3 + s.font.bw.toNat + s.font.bh.toNat + s.font.bxo.toNat + s.font.byo.toNat + s.font.bdelta.toNat) s) := by
  have h0 : takeU base 3 { s with bitcur := 0 } = (fetchU s.mem base 0 3, atBit 3 s) := takeU_atBit base 3 (k := 0) (by decide) s
  have h1 := takeU_atBit base s.font.bw.toNat (k := 3) (by decide) s
  have h2 := takeU_atBit base s.font.bh.toNat (k := 3 + s.font.bw.toNat) (by omega) s
  have h3 := takeS_atBit base s.font.bxo.toNat (k := 3 + s.font.bw.toNat + s.font.bh.toNat) (by omega) s
  have h4 := takeS_atBit base s.font.byo.toNat (k := 3 + s.font.bw.toNat + s.font.bh.toNat + s.font.bxo.toNat) (by omega) s
  have h5 := takeU_atBit base s.font.bdelta.toNat
    (k := 3 + s.font.bw.toNat + s.font.bh.toNat + s.font.bxo.toNat + s.font.byo.toNat) (by omega) s
  simp only [takeHeader, h0, h1, h2, h3, h4, h5]
  rw [if_neg (by simpa using htag)]
  rfl

/-- A tag other than 0 ends the decode (R247). -/
theorem takeHeader_of_tag {base : Word} {s : State} (htag : fetchU s.mem base 0 3 ≠ 0) : takeHeader base s = none := by
  rw [takeHeader]
  exact if_pos htag

/-- Settles O50: the number of a code in either range, then the header's fields in order. -/
theorem glyphLookupAndHeader : Obligations.GlyphLookupAndHeader := by
  refine ⟨fun f m code hok => ⟨fun h1 => ?_, fun h1 h2 hsize => ?_⟩, fun base s hlegal hok => ⟨takeHeader_of_tag, fun htag => ?_⟩⟩
  · exact glyphAddr_of_number m hok (glyphNumber_index1 h1)
  · exact glyphAddr_of_number m hok (glyphNumber_index2 h1 h2 hsize)
  · obtain ⟨-, -, -, -, ⟨hwidths, -⟩, -⟩ := hlegal
    obtain ⟨hw, hh, hx, hy, -⟩ := hwidths hok
    exact takeHeader_eq base s hw hh hx hy htag

/-! ## Row groups (R251) -/

/-- Where a group's pattern begins: after the one bit 0, or after the bit 1 and the three bits of the count (R251). -/
def patternStart (m : Memory) (base : Word) (k : Nat) : Nat := k + (if fetchBit m base k = true then 4 else 1)

/-- The group from row `r` on that stands in the stream at bit `k` (R251). -/
def groupAt (m : Memory) (base : Word) (gw gh r k : Nat) : RowGroup :=
  { r0 := r
    cnt := min (if fetchBit m base k = true then fetchU m base (k + 1 : Nat) 3 + 2 else 1) (gh - r)
    pat := (List.range gw).map fun i => fetchBit m base (patternStart m base k + i : Nat) }

/-- One turn of the decoder: the group at the cursor, then the groups after it. -/
theorem decodeGroups_of_lt (m : Memory) (base : Word) {gw gh : Nat} (fuel : Nat) {r : Nat} (k : Nat) (hr : r < gh) :
    decodeGroups m base gw gh (fuel + 1) r k =
      (groupAt m base gw gh r k ::
        (decodeGroups m base gw gh fuel (r + (groupAt m base gw gh r k).cnt) (patternStart m base k + gw)).1,
       (decodeGroups m base gw gh fuel (r + (groupAt m base gw gh r k).cnt) (patternStart m base k + gw)).2) := by
  rw [decodeGroups, if_pos hr]
  dsimp only [groupAt, patternStart]
  split <;> simp only [Nat.cast_add, Nat.cast_one]

/-- `cursor n` is where group `n` of `gs` stands in the stream, the first at `k`, and `last` the bit after all of them (R40). -/
structure CursorsOf (m : Memory) (base : Word) (gw gh : Nat) (gs : List RowGroup) (k last : Nat) (cursor : Nat → Nat) : Prop where
  first : cursor 0 = k
  last : cursor gs.length = last
  group : ∀ n (hn : n < gs.length), gs[n] = groupAt m base gw gh gs[n].r0 (cursor n)
  next : ∀ n < gs.length, cursor (n + 1) = patternStart m base (cursor n) + gw

/-- The cursors of a list of groups from those of its tail. -/
def consCursor (k : Nat) (cursor : Nat → Nat) : Nat → Nat
  | 0 => k
  | n + 1 => cursor n

theorem CursorsOf.cons {m : Memory} {base : Word} {gw gh r : Nat} {gs : List RowGroup} {k last : Nat} {cursor : Nat → Nat}
    (h : CursorsOf m base gw gh gs (patternStart m base k + gw) last cursor) :
    CursorsOf m base gw gh (groupAt m base gw gh r k :: gs) k last (consCursor k cursor) where
  first := rfl
  last := h.last
  group n hn := by
    cases n with
    | zero => rfl
    | succ n => exact h.group n (Nat.lt_of_succ_lt_succ hn)
  next n hn := by
    cases n with
    | zero => exact h.first
    | succ n => exact h.next n (Nat.lt_of_succ_lt_succ hn)

theorem CursorsOf.nil (m : Memory) (base : Word) (gw gh k : Nat) : CursorsOf m base gw gh [] k k fun _ => k :=
  ⟨rfl, rfl, fun _ hn => absurd hn (Nat.not_lt_zero _), fun _ hn => absurd hn (Nat.not_lt_zero _)⟩

/-- The decoder's groups are those that stand in the stream one after another. -/
theorem exists_cursorsOf (m : Memory) (base : Word) (gw gh : Nat) : ∀ fuel r k : Nat,
    ∃ cursor, CursorsOf m base gw gh (decodeGroups m base gw gh fuel r k).1 k (decodeGroups m base gw gh fuel r k).2 cursor
  | 0, _, k => ⟨_, .nil m base gw gh k⟩
  | fuel + 1, r, k => by
    by_cases hr : r < gh
    · rw [decodeGroups_of_lt m base fuel k hr]
      obtain ⟨cursor, hc⟩ := exists_cursorsOf m base gw gh fuel (r + (groupAt m base gw gh r k).cnt) (patternStart m base k + gw)
      exact ⟨_, hc.cons⟩
    · rw [decodeGroups, if_neg hr]
      exact ⟨_, .nil m base gw gh k⟩

/-- A 1-bit glyph is decoded from BITCUR, which ends after its groups (R40, R251). -/
theorem takePixels_of_one_bit (base : Word) (g : GlyphHeader) {s : State} (h : s.font.bpp = 1#8) :
    (takePixels base g s).1.groups = (decodeGroups s.mem base g.gw g.gh g.gh 0 s.bitcur.toNat).1 ∧
    (takePixels base g s).2 = atBit (decodeGroups s.mem base g.gw g.gh g.gh 0 s.bitcur.toNat).2 s := by
  have hn : s.font.bpp.toNat = 1 := by rw [h]; rfl
  rw [takePixels, hn]
  exact ⟨rfl, rfl⟩

/-- Settles O51: the counts by `decodeGroups_spec`, the stream by the cursors of the groups. -/
theorem rowGroupsCoverGlyph : Obligations.RowGroupsCoverGlyph := by
  refine ⟨fun m base gw gh k => ?_, fun base g s hbpp => ?_⟩
  · obtain ⟨hgroup, hrow, hsum, hle, hlt⟩ := decodeGroups_spec m base gw gh gh 0 k (by omega) (by omega) _ rfl
    obtain ⟨cursor, hc⟩ := exists_cursorsOf m base gw gh gh 0 k
    refine ⟨hgroup, ?_, ?_, hle, hlt, cursor, hc.first, hc.last, fun n hn => ⟨?_, ?_, hc.next n hn⟩⟩
    · simpa only [Nat.zero_add] using hrow
    · simpa only [Nat.zero_add] using hsum
    · exact congrArg RowGroup.cnt (hc.group n hn)
    · exact congrArg RowGroup.pat (hc.group n hn)
  · obtain ⟨hgroups, hstate⟩ := takePixels_of_one_bit base g hbpp
    exact ⟨hgroups, _, hstate, fun hlt => by simpa using hlt⟩

end Sys2Proof.Machine
end

section
/-! PROOFS. ScrollUp (45_font_scalable.md R262, 10_state.md R41): the rows that move, what each leaves in shadow mode, and what each sends
in direct mode. Settles O53. -/

namespace Sys2Proof.Machine

variable {s t : State}

/-! ## The rows that move -/

/-- The left column of the scroll region inside the clip bounds, canvas coordinates. -/
def rowLeft (s : State) : Int := max (s16 s.text.scrollX + s16 s.canvas.originX) (s16 s.canvas.clipX1)

/-- The column after the right one. -/
def rowRight (s : State) : Int :=
  min (s16 s.text.scrollX + s16 s.canvas.originX + s16 s.text.scrollW) (s16 s.canvas.clipX2)

/-- The canvas row `y` moves to the row `n` above: both are visible (R262). -/
abbrev Movable (n : Int) (s : State) (y : Int) : Prop :=
  rowLeft s < rowRight s ∧ InClip s.canvas (rowLeft s) y ∧ InClip s.canvas (rowLeft s) (y - n)

/-- A row of the scroll region, clipped: its columns inside the clip bounds, or nothing (R151). -/
theorem clip_scrollRow (s : State) (y : Int) : clip s.canvas (s16 s.text.scrollX) y (s16 s.text.scrollW) 1 =
    if rowLeft s < rowRight s ∧ InClip s.canvas (rowLeft s) (y + s16 s.canvas.originY) then
      some { X := s16 s.text.scrollX + s16 s.canvas.originX, Y := y + s16 s.canvas.originY, vx0 := rowLeft s,
             vy0 := y + s16 s.canvas.originY, vx1 := rowRight s, vy1 := y + s16 s.canvas.originY + 1 }
    else none := by
  unfold clip InClip rowLeft rowRight
  dsimp only
  split
  · rw [if_neg (by omega)]
  · split
    · rw [if_neg (by omega)]
    · rw [if_pos (by omega)]
      congr 2 <;> omega

/-- One turn of ScrollUp's loop, in canvas coordinates. -/
theorem moveRow_eq (n y : Int) (s : State) : moveRow n y s =
    if Movable n s (y + s16 s.canvas.originY) then
      if s.fb.en then moveRowShadow (rowLeft s) (rowRight s) (y + s16 s.canvas.originY) (y + s16 s.canvas.originY - n) s
      else moveRowDirect (rowLeft s) (rowRight s) (y + s16 s.canvas.originY) (y + s16 s.canvas.originY - n) s
    else s := by
  have habove : y - n + s16 s.canvas.originY = y + s16 s.canvas.originY - n := by ring
  unfold moveRow
  rw [clip_scrollRow, clip_scrollRow, habove]
  by_cases hsrc : rowLeft s < rowRight s ∧ InClip s.canvas (rowLeft s) (y + s16 s.canvas.originY)
  · rw [if_pos hsrc]
    by_cases hdst : InClip s.canvas (rowLeft s) (y + s16 s.canvas.originY - n)
    · rw [if_pos ⟨hsrc.1, hdst⟩, if_pos ⟨hsrc.1, hsrc.2, hdst⟩]
    · rw [if_neg fun h => hdst h.2, if_neg fun h : Movable n s _ => hdst h.2.2]
  · rw [if_neg hsrc, if_neg fun h : Movable n s _ => hsrc ⟨h.1, h.2.1⟩]

theorem rowLeft_of_drawFrame (h : DrawFrame s t) : rowLeft t = rowLeft s := by
  unfold rowLeft
  rw [h.canvas, h.text]

theorem rowRight_of_drawFrame (h : DrawFrame s t) : rowRight t = rowRight s := by
  unfold rowRight
  rw [h.canvas, h.text]

theorem movable_of_drawFrame (h : DrawFrame s t) (n y : Int) : Movable n t y ↔ Movable n s y := by
  rw [Movable, rowLeft_of_drawFrame h, rowRight_of_drawFrame h, h.canvas]

/-- The state after the first `k` turns of ScrollUp's loop. -/
def movedRows (n : Int) (s : State) (k : Nat) : State :=
  ((List.range k).map fun j : Nat => s16 s.text.scrollY + n + (j : Int)).foldl (fun t y => moveRow n y t) s

theorem movedRows_succ (n : Int) (s : State) (k : Nat) :
    movedRows n s (k + 1) = moveRow n (s16 s.text.scrollY + n + k) (movedRows n s k) := by
  simp [movedRows, List.range_succ]

theorem drawFrame_movedRows (n : Int) (s : State) (k : Nat) : DrawFrame s (movedRows n s k) :=
  DrawFrame.foldl (fun t y => drawFrame_moveRow n y t) _ s

/-- ScrollUp: the rows, then the revealed band (R262). -/
theorem scrollUp_eq {n : Int} (hn : 0 < n) (s : State) : scrollUp n s =
    drawRect (s16 s.text.scrollX) (s16 s.text.scrollY + max (s16 s.text.scrollH - n) 0) (s16 s.text.scrollW)
      (min n (s16 s.text.scrollH)) s.text.bg (movedRows n s (s16 s.text.scrollH - n).toNat) := by
  have hcount : s16 s.text.scrollY + s16 s.text.scrollH - (s16 s.text.scrollY + n) = s16 s.text.scrollH - n := by ring
  rw [scrollUp, if_neg (by omega), movedRows, intRange, hcount]

/-! ## Shadow mode -/

/-- `t` differs from `s` in memory, dirty rectangle and LINEBUF only. -/
def ShadowFrame (s t : State) : Prop := t = { s with mem := t.mem, dirty := t.dirty, linebuf := t.linebuf }

theorem ShadowFrame.refl (s : State) : ShadowFrame s s := rfl

theorem ShadowFrame.trans {u : State} (h1 : ShadowFrame s t) (h2 : ShadowFrame t u) : ShadowFrame s u := by
  unfold ShadowFrame at *
  rw [h2, h1]

theorem shadowFrame_moveRow (hen : s.fb.en = true) (n y : Int) : ShadowFrame s (moveRow n y s) := by
  rw [moveRow_eq, hen]
  split
  · exact rfl
  · exact .refl s

theorem shadowFrame_drawWindow (hen : s.fb.en = true) (x y w h : Int) (g : Colour) : ShadowFrame s (drawWindow x y w h g s) := by
  unfold drawWindow
  split
  · exact .refl s
  · rw [putWindow, if_pos hen]
    exact rfl

theorem shadowFrame_movedRows (hen : s.fb.en = true) (n : Int) : ∀ k, ShadowFrame s (movedRows n s k)
  | 0 => .refl s
  | k + 1 => by
    have hen' : (movedRows n s k).fb.en = true := by rw [(drawFrame_movedRows n s k).fb, hen]
    rw [movedRows_succ]
    exact (shadowFrame_movedRows hen n k).trans (shadowFrame_moveRow hen' n _)

/-- The pixels that the canvas row `y` moves to, `n` rows above. -/
abbrev MovedTo (n : Int) (s : State) (y px py : Int) : Prop :=
  (rowLeft s ≤ px ∧ px < rowRight s) ∧ Movable n s (py + n) ∧ py + n = y

/-- A column of the region inside the clip bounds, on a row inside them, is inside them. -/
theorem inClip_of_column {y px : Int} (hx : rowLeft s ≤ px ∧ px < rowRight s) (hy : InClip s.canvas (rowLeft s) y) :
    InClip s.canvas px y := by
  unfold rowLeft rowRight InClip at *
  omega

/-- One turn in shadow mode: the row above takes the raw pixels of the row, if both are visible. -/
theorem moveRow_effect (hc : CanvasOk s.canvas) (hen : s.fb.en = true) (n y : Int) :
    ShadowEffect s (moveRow n y s) (MovedTo n s (y + s16 s.canvas.originY)) fun px py => fbRead s px (py + n) := by
  rw [moveRow_eq, if_pos hen]
  split
  · rename_i hm
    have hrow := moveRowShadow_effect hc (x0 := rowLeft s) (x1 := rowRight s) (sy := y + s16 s.canvas.originY)
      (dy := y + s16 s.canvas.originY - n) fun x h0 h1 => onCanvas_of_inClip hc (inClip_of_column ⟨h0, h1⟩ hm.2.2)
    refine hrow.congr (fun px py => ⟨?_, ?_⟩) fun px py hp => by rw [hp.2.2]
    · rintro ⟨hx, -, hy⟩
      exact ⟨hx, by omega⟩
    · rintro ⟨hx, rfl⟩
      rw [MovedTo, sub_add_cancel]
      exact ⟨hx, hm, rfl⟩
  · rename_i hm
    refine .refl s (fun px py hp => hm ?_) _
    rw [← hp.2.2]
    exact hp.2.1

/-- The same in a state that a drawing from `s` has left. -/
theorem moveRow_effect_of_drawFrame (hc : CanvasOk s.canvas) (hen : s.fb.en = true) (hf : DrawFrame s t) (n y : Int) :
    ShadowEffect t (moveRow n y t) (MovedTo n s (y + s16 s.canvas.originY)) fun px py => fbRead t px (py + n) := by
  have h := moveRow_effect (s := t) (by rw [hf.canvas]; exact hc) (by rw [hf.fb]; exact hen) n y
  refine h.congr (fun px py => ?_) fun _ _ _ => rfl
  unfold MovedTo
  rw [movable_of_drawFrame hf, rowLeft_of_drawFrame hf, rowRight_of_drawFrame hf, hf.canvas]

/-- The first `k` turns: each moved row holds the raw pixels that the row `n` below held at the start, since no turn before its own
has stored to that row. -/
theorem movedRows_effect (hc : CanvasOk s.canvas) (hen : s.fb.en = true) {n : Int} (hn : 0 < n) : ∀ k : Nat,
    ShadowEffect s (movedRows n s k)
      (fun px py => (rowLeft s ≤ px ∧ px < rowRight s) ∧ Movable n s (py + n) ∧
        s16 s.text.scrollY + s16 s.canvas.originY ≤ py ∧ py < s16 s.text.scrollY + s16 s.canvas.originY + k)
      fun px py => fbRead s px (py + n)
  | 0 => .refl s (fun px py => by omega) _
  | k + 1 => by
    have hframe := drawFrame_movedRows n s k
    have ih := movedRows_effect hc hen hn k
    have hturn := moveRow_effect_of_drawFrame hc hen hframe n (s16 s.text.scrollY + n + k)
    rw [movedRows_succ]
    refine ih.trans hframe hturn (fun px py => ⟨?_, ?_⟩) (fun px py => ?_) fun _ _ _ _ => rfl
    · rintro ⟨hx, hm, h0, h1⟩
      by_cases hlast : py < s16 s.text.scrollY + s16 s.canvas.originY + k
      · exact .inl ⟨hx, hm, h0, hlast⟩
      · exact .inr ⟨hx, hm, by omega⟩
    · rintro (⟨hx, hm, h0, h1⟩ | ⟨hx, hm, hy⟩)
      · exact ⟨hx, hm, h0, by omega⟩
      · exact ⟨hx, hm, by omega, by omega⟩
    · rintro ⟨hx, hm, hy⟩
      exact (ih.2.1 px (py + n) (onCanvas_of_inClip hc (inClip_of_column hx hm.2.1)) fun h => by omega).symm

/-- ScrollUp in shadow mode: the region's visible pixels take the raw pixels `n` rows below, the revealed band takes BG (R262). -/
theorem scrollUp_effect (hc : CanvasOk s.canvas) (hen : s.fb.en = true) {n : Int} (hn : 0 < n) :
    ShadowEffect s (scrollUp n s)
      (fun px py => s16 s.text.scrollX + s16 s.canvas.originX ≤ px ∧
        px < s16 s.text.scrollX + s16 s.canvas.originX + s16 s.text.scrollW ∧
        s16 s.text.scrollY + s16 s.canvas.originY ≤ py ∧
        py < s16 s.text.scrollY + s16 s.canvas.originY + s16 s.text.scrollH ∧ InClip s.canvas px py ∧
        (py + n < s16 s.text.scrollY + s16 s.canvas.originY + s16 s.text.scrollH → InClip s.canvas px (py + n)))
      (fun px py => if py + n < s16 s.text.scrollY + s16 s.canvas.originY + s16 s.text.scrollH then fbRead s px (py + n)
        else toFB s.params.depth s.text.bg) := by
  have hframe := drawFrame_movedRows n s (s16 s.text.scrollH - n).toNat
  rw [scrollUp_eq hn]
  refine (movedRows_effect hc hen hn _).trans hframe (drawRect_effect hc hen hframe _ _ _ _ _) (fun px py => ?_)
    (fun px py hband => if_neg ?_) fun px py hrow _ => if_pos ?_
  · unfold Movable Visible InClip rowLeft rowRight
    constructor
    · intro h
      by_cases hmoved : py + n < s16 s.text.scrollY + s16 s.canvas.originY + s16 s.text.scrollH
      · left
        omega
      · right
        omega
    · rintro (h | h)
      · omega
      · omega
  · unfold Visible at hband
    omega
  · omega

/-! ## Direct mode -/

/-- The answers `answers`, taken from the environment `e`, leave `e'`: the scripted pixels come first, in order (R96, entry 4). -/
structure Answered (e e' : Env) (answers : List Half) : Prop where
  first : ∀ k, k < answers.length → k < e.pixels.length → answers[k]? = e.pixels[k]?
  rest : e'.pixels = e.pixels.drop answers.length

theorem Answered.nil (e : Env) : Answered e e [] := ⟨fun _ hk => absurd hk (Nat.not_lt_zero _), rfl⟩

theorem length_nextPixels (e : Env) (n : Nat) : (e.nextPixels n).1.length = n := by simp [Env.nextPixels]

/-- The answer to one query is taken from the scripted pixels while they last. -/
theorem answered_nextPixels (e : Env) (n : Nat) : Answered e (e.nextPixels n).2 (e.nextPixels n).1 := by
  refine ⟨fun k hk hlt => ?_, by rw [length_nextPixels]; rfl⟩
  rw [length_nextPixels] at hk
  simp [Env.nextPixels, List.getElem?_range hk, hlt]

theorem Answered.append {e e' e'' : Env} {as bs : List Half} (ha : Answered e e' as) (hb : Answered e' e'' bs) :
    Answered e e'' (as ++ bs) := by
  refine ⟨fun k hk hlt => ?_, by rw [hb.rest, ha.rest, List.drop_drop, List.length_append]⟩
  by_cases hka : k < as.length
  · rw [List.getElem?_append_left hka, ha.first k hka hlt]
  · have hlen : as.length + (k - as.length) = k := by omega
    rw [List.length_append] at hk
    rw [List.getElem?_append_right (by omega), hb.first (k - as.length) (by omega) (by rw [ha.rest, List.length_drop]; omega),
      ha.rest, List.getElem?_drop, hlen]

/-- What one moved row sends: the query for the row, and its answer to the row `n` above in one session (R262). -/
def rowTransactions (x0 x1 n : Int) (p : Int × List Half) : List Transaction :=
  .readRect (wrap16 x0) (wrap16 p.1) (wrap16 (x1 - x0)) 1#16 p.2 :: session x0 (p.1 - n) (x1 - 1) (p.1 - n) p.2

/-- One moved row changes the trace, the answers to come and LINEBUF; the session sends what the query answered. -/
theorem moveRowDirect_frame (x0 x1 y n : Int) (s : State) : moveRowDirect x0 x1 y (y - n) s = { s with
    trace := s.trace ++ rowTransactions x0 x1 n (y, (askRead x0 y (x1 - x0) 1 s).1)
    env := (moveRowDirect x0 x1 y (y - n) s).env
    linebuf := (moveRowDirect x0 x1 y (y - n) s).linebuf } := by
  have hback : ∀ c : Half, (c.setWidth 32).setWidth 16 = c := fun c => by simp
  have hone : wrap16 1 = 1#16 := rfl
  simp [moveRowDirect, emit, rowTransactions, askRead, Function.comp_def, hback, hone]

/-- `t` is `s` after the moves of the canvas rows `rows`, answered with `answers`. -/
structure SentRows (n : Int) (s t : State) (rows : List Int) (answers : List (List Half)) : Prop where
  count : answers.length = rows.length
  width : ∀ a ∈ answers, (a.length : Int) = rowRight s - rowLeft s
  answered : Answered s.env t.env answers.flatten
  state : t = { s with
    trace := s.trace ++ (rows.zip answers).flatMap (rowTransactions (rowLeft s) (rowRight s) n)
    env := t.env, linebuf := t.linebuf }

theorem SentRows.nil (n : Int) (s : State) : SentRows n s s [] [] :=
  ⟨rfl, by simp, .nil _, by simp⟩

/-- One more row. -/
theorem SentRows.snoc {n : Int} {rows : List Int} {answers : List (List Half)} (h : SentRows n s t rows answers) {y : Int}
    (hy : rowLeft s < rowRight s) :
    SentRows n s (moveRowDirect (rowLeft s) (rowRight s) y (y - n) t) (rows ++ [y])
      (answers ++ [(askRead (rowLeft s) y (rowRight s - rowLeft s) 1 t).1]) where
  count := by simp [h.count]
  width a ha := by
    rcases List.mem_append.1 ha with ha | ha
    · exact h.width a ha
    · rw [List.mem_singleton.1 ha, askRead, length_nextPixels, mul_one]
      omega
  answered := by
    rw [List.flatten_append, List.flatten_singleton]
    exact h.answered.append (answered_nextPixels _ _)
  state := by
    have hrow := moveRowDirect_frame (rowLeft s) (rowRight s) y n t
    have hstate := h.state
    generalize moveRowDirect (rowLeft s) (rowRight s) y (y - n) t = u at hrow ⊢
    generalize (askRead (rowLeft s) y (rowRight s - rowLeft s) 1 t).1 = answer at hrow ⊢
    rw [hrow, hstate, List.zip_append h.count.symm]
    simp

/-- One turn in direct mode, in a state that a drawing from `s` has left. -/
theorem moveRow_direct (hen : s.fb.en = false) (hf : DrawFrame s t) (n y : Int) : moveRow n y t =
    if Movable n s (y + s16 s.canvas.originY) then
      moveRowDirect (rowLeft s) (rowRight s) (y + s16 s.canvas.originY) (y + s16 s.canvas.originY - n) t
    else t := by
  rw [moveRow_eq]
  simp only [movable_of_drawFrame hf, rowLeft_of_drawFrame hf, rowRight_of_drawFrame hf, hf.canvas, hf.fb, hen,
    Bool.false_eq_true, if_false]

/-- The first `k` turns in direct mode: the movable rows among them, ascending. -/
theorem movedRows_sent (hen : s.fb.en = false) (n : Int) : ∀ k : Nat, ∃ answers, SentRows n s (movedRows n s k)
    (((List.range k).map fun j : Nat => s16 s.text.scrollY + s16 s.canvas.originY + n + (j : Int)).filter
      fun y => decide (Movable n s y)) answers
  | 0 => ⟨[], .nil n s⟩
  | k + 1 => by
    obtain ⟨answers, ih⟩ := movedRows_sent hen n k
    have hrow : s16 s.text.scrollY + n + k + s16 s.canvas.originY = s16 s.text.scrollY + s16 s.canvas.originY + n + k := by ring
    rw [movedRows_succ, moveRow_direct hen (drawFrame_movedRows n s k), hrow, List.range_succ, List.map_append, List.filter_append]
    by_cases hm : Movable n s (s16 s.text.scrollY + s16 s.canvas.originY + n + k)
    · rw [if_pos hm, List.map_singleton, List.filter_cons_of_pos (by simpa using hm)]
      exact ⟨_, ih.snoc hm.1⟩
    · rw [if_neg hm, List.map_singleton, List.filter_cons_of_neg (by simpa using hm), List.filter_nil, List.append_nil]
      exact ⟨answers, ih⟩

/-- Settles O53: the rows turn by turn (`movedRows_effect`, `movedRows_sent`), then the band. -/
theorem scrollUpMovesRows : Obligations.ScrollUpMovesRows := by
  intro n s hlegal
  obtain ⟨hc, -⟩ := hlegal
  refine ⟨fun hn => if_pos hn, fun hn hen => ⟨?_, scrollUp_effect hc hen hn⟩, fun hn hen => ?_⟩
  · have hframe := drawFrame_movedRows n s (s16 s.text.scrollH - n).toNat
    rw [scrollUp_eq hn]
    exact (shadowFrame_movedRows hen n _).trans (shadowFrame_drawWindow (by rw [hframe.fb, hen]) _ _ _ _ _)
  · have hframe := drawFrame_movedRows n s (s16 s.text.scrollH - n).toNat
    have hcount : s16 s.text.scrollY + s16 s.canvas.originY + s16 s.text.scrollH - (s16 s.text.scrollY + s16 s.canvas.originY + n) =
      s16 s.text.scrollH - n := by ring
    obtain ⟨answers, hsent⟩ := movedRows_sent hen n (s16 s.text.scrollH - n).toNat
    rw [← hcount] at hsent
    refine ⟨answers, hsent.count, hsent.width, hsent.answered.first, _, hsent.state, ?_⟩
    rw [scrollUp_eq hn, hcount]
    exact drawRect_draws (by rw [hframe.canvas]; exact hc) _ _ _ _ _

end Sys2Proof.Machine
end

section
/-! PROOFS. What a step can be, and that every step leaves the sink port between whole sessions (20_memory.md R99). Settles O15. -/

namespace Sys2Proof.Machine

variable {s t : State}

/-- Everything a step can do: nothing, discard an illegal packet, or execute one command, which a WAITASYNC in execution does with the
port as it stands (R105, R134, R217). -/
theorem step_cases (he : step s = .next t) :
    t = s ∨ (∃ rest, t = discardPacket rest s) ∨ ∃ i ws, exec i (withPort ws s) = .next t := by
  unfold step at he
  split at he
  · exact .inr (.inr ⟨.waitasync, s.port, he⟩)
  · split at he
    · exact .inl (Host.Outcome.next.inj he).symm
    · exact .inr (.inl ⟨_, (Host.Outcome.next.inj he).symm⟩)
    · exact .inr (.inr ⟨_, _, he⟩)

/-! ## Transactions between sessions -/

/-- Transactions that belong to no session leave the port between sessions (R99). -/
theorem sessionPhase_append_between {trace ts : List Transaction} (h : sessionPhase trace = .closed)
    (hts : ∀ u ∈ ts, sessionStep .closed u = .closed) : sessionPhase (trace ++ ts) = .closed := by
  rw [sessionPhase_append, h]
  induction ts with
  | nil => rfl
  | cons u ts ih =>
    rw [List.foldl_cons, hts u (by simp)]
    exact ih fun v hv => hts v (by simp [hv])

theorem sessionsOk_askActive (hs : SessionsOk s) : SessionsOk (askActive s).2 := by
  unfold askActive
  split <;> exact sessionPhase_append_between hs (by simp [sessionStep, betweenSessions])

theorem sessionsOk_startTransfer (hs : SessionsOk s) : SessionsOk (startTransfer s) :=
  sessionPhase_append_between hs (by simp [sessionStep, betweenSessions])

theorem sessionsOk_allocateMirror (hs : SessionsOk s) : SessionsOk (allocateMirror s) := by
  unfold allocateMirror
  dsimp only
  split <;> exact sessionPhase_append_between hs (by simp [sessionStep, betweenSessions])

theorem sessionsOk_readrectState (x y w h : Half) (dst : Word) (hs : SessionsOk s) : SessionsOk (readrectState x y w h dst s) := by
  unfold readrectState
  split
  · exact hs
  · unfold readVisible
    dsimp only
    split
    · exact hs
    · exact sessionPhase_append_between hs (by simp [sessionStep, betweenSessions])

/-! ## Flushing -/

/-- StreamFB over a window of the canvas is one whole session (R99, R215). -/
theorem sessionsOk_streamFB {x0 y0 x1 y1 : Int} (hx : 0 ≤ x0 ∧ x0 ≤ x1 ∧ x1 ≤ 32767) (hy : 0 ≤ y0 ∧ y0 ≤ y1 ∧ y1 ≤ 32767)
    (hs : SessionsOk s) : SessionsOk (streamFB x0 y0 x1 y1 s) := by
  refine sessionPhase_session hs hx hy ?_
  rw [List.length_map, length_rectPoints, mul_comm, Int.toNat_mul (by omega) (by omega)]
  congr 2 <;> omega

theorem sessionsOk_streamAll (hc : CanvasOk s.canvas) (hs : SessionsOk s) : SessionsOk (streamAll s) := by
  obtain ⟨hw, hh, -⟩ := hc
  unfold streamAll
  split
  · simp only [u16] at *
    exact sessionsOk_streamFB (by omega) (by omega) hs
  · exact hs

/-- The flushed part of the dirty rectangle lies between the clip bounds, whatever the dirty rectangle is (R214). -/
theorem sessionsOk_streamDirty (hc : CanvasOk s.canvas) (hs : SessionsOk s) : SessionsOk (streamDirty s) := by
  obtain ⟨hw, hh, hclip⟩ := hc
  have hx2 := s16_bounds s.canvas.clipX2
  have hy2 := s16_bounds s.canvas.clipY2
  unfold streamDirty
  dsimp only
  split
  · exact sessionsOk_streamFB (by omega) (by omega) hs
  · exact hs

theorem sessionsOk_execFlush (hc : CanvasOk s.canvas) (hs : SessionsOk s) (he : execFlush s = .next t) : SessionsOk t := by
  obtain ⟨-, rfl⟩ := guarded_eq_next.1 he
  split
  · exact hs
  · show SessionsOk (if _ then _ else _)
    split
    · exact sessionsOk_streamAll hc hs
    · exact sessionsOk_streamDirty hc hs

theorem sessionsOk_execFlushasync (hs : SessionsOk s) (he : execFlushasync s = .next t) : SessionsOk t := by
  obtain rfl := Host.Outcome.next.inj he
  split
  · exact hs
  · dsimp only
    split
    · exact sessionsOk_askActive hs
    · exact sessionsOk_startTransfer (sessionsOk_askActive hs)

/-! ## Commands and steps -/

theorem sessionsOk_execFbenable (hs : SessionsOk s) (he : execFbenable s = .next t) : SessionsOk t := by
  obtain rfl := Host.Outcome.next.inj he
  split
  · exact hs
  · split
    · exact hs
    · exact sessionsOk_allocateMirror hs

theorem sessionsOk_execFbrelease (hs : SessionsOk s) (he : execFbrelease s = .next t) : SessionsOk t := by
  obtain rfl := Host.Outcome.next.inj he
  split
  · refine sessionPhase_append_between hs ?_
    split <;> simp [sessionStep, betweenSessions]
  · exact hs

/-- A command over a legal canvas sends whole sessions (R99). -/
theorem exec_keeps_sessions {i : Instr} (hc : CanvasOk s.canvas) (hs : SessionsOk s) (he : exec i s = .next t) : SessionsOk t := by
  cases i with
  | setpixel | fastvline | fasthline | fillrect | writerect =>
    obtain ⟨-, rfl⟩ := guarded_eq_next.1 he
    exact sessionsOk_drawWindow _ _ _ _ _ hc hs
  | writerectnbpp =>
    obtain ⟨-, rfl⟩ := guarded_eq_next.1 he
    split
    · exact sessionsOk_drawWindow _ _ _ _ _ hc hs
    · exact hs
  | drawchar code =>
    obtain ⟨-, rfl⟩ := guarded_eq_next.1 he
    exact (sessionsOk_characters.drawchar code s ⟨hc, hs⟩).2
  | readrect =>
    obtain ⟨-, rfl⟩ := guarded_eq_next.1 he
    exact sessionsOk_readrectState _ _ _ _ _ hs
  | fbenable => exact sessionsOk_execFbenable hs he
  | fbrelease => exact sessionsOk_execFbrelease hs he
  | flush => exact sessionsOk_execFlush hc hs he
  | flushasync => exact sessionsOk_execFlushasync hs he
  | waitasync | pollasync =>
    obtain rfl := Host.Outcome.next.inj he
    exact sessionsOk_askActive hs
  | setcanvas | fbsetext =>
    obtain rfl := Host.Outcome.next.inj he
    split_ifs <;> exact hs
  | setfont =>
    obtain ⟨-, rfl⟩ := guarded_eq_next.1 he
    split <;> exact hs
  | nop | setorigin | setclip | fbdisable | setcursor | settextcolor | settextwrap | settextsize | setscroll =>
    obtain rfl := Host.Outcome.next.inj he
    exact hs

/-- Settles O15, command by command (`exec_keeps_sessions`). -/
theorem stepKeepsSessions : Obligations.StepKeepsSessions := by
  intro s t ⟨hc, _⟩ hs he
  rcases step_cases he with rfl | ⟨rest, rfl⟩ | ⟨i, ws, hexec⟩
  · exact hs
  · exact hs
  · exact exec_keeps_sessions (s := withPort ws s) hc hs hexec

end Sys2Proof.Machine
end

section
/-! PROOFS. Successful ALLOCs and FREEs stay in step with FB_INT (20_memory.md R103, 43_framebuffer.md R213). Settles O16. -/

namespace Sys2Proof.Machine

variable {s t : State}

/-! ## What the allocator is not told of -/

/-- With FB_INT as it was, transactions that are no answered ALLOC and no FREE keep the balance. -/
theorem AllocBalanced.of_append (hs : AllocBalanced s) (hint : t.fb.int = s.fb.int) {ts : List Transaction}
    (ht : t.trace = s.trace ++ ts) (halloc : allocCount ts = 0) (hfree : freeCount ts = 0) : AllocBalanced t := by
  rw [AllocBalanced, hint, ht, allocCount_append, freeCount_append, halloc, hfree]
  exact hs

theorem AllocBalanced.of_streams (hs : AllocBalanced s) (hfb : t.fb = s.fb) (h : Streams s t) : AllocBalanced t := by
  obtain ⟨ts, ht, hstream⟩ := h
  exact hs.of_append (by rw [hfb]) ht (allocCount_streams hstream) (freeCount_streams hstream)

theorem streams_streamFB (x0 y0 x1 y1 : Int) (s : State) : Streams s (streamFB x0 y0 x1 y1 s) :=
  (Streams.refl s).append rfl (session_streams _ _ _ _ _)

theorem streams_readrectState (x y w h : Half) (dst : Word) (s : State) : Streams s (readrectState x y w h dst s) := by
  unfold readrectState
  split
  · exact .refl s
  · unfold readVisible
    dsimp only
    split
    · exact .refl s
    · exact (Streams.refl s).append rfl (by simp [Transaction.streams])

theorem streams_execFlush (he : execFlush s = .next t) : Streams s t := by
  obtain ⟨-, rfl⟩ := guarded_eq_next.1 he
  unfold streamAll streamDirty
  dsimp only
  split
  · exact .refl s
  · split <;> split
    · exact streams_streamFB _ _ _ _ s
    · exact .refl s
    · exact streams_streamFB _ _ _ _ s
    · exact .refl s

theorem allocBalanced_askActive (hs : AllocBalanced s) : AllocBalanced (askActive s).2 := by
  unfold askActive
  split <;> exact hs.of_append rfl rfl rfl rfl

theorem allocBalanced_execFlushasync (hs : AllocBalanced s) (he : execFlushasync s = .next t) : AllocBalanced t := by
  obtain rfl := Host.Outcome.next.inj he
  split
  · exact hs
  · dsimp only
    split
    · exact allocBalanced_askActive hs
    · exact (allocBalanced_askActive hs).of_append rfl rfl rfl rfl

/-! ## The mirror -/

/-- No buffer of the allocator is held while none is attached (R27). -/
theorem not_internal_of_detached (hs : LegalState s) (ha : s.fb.alloc = false) : s.fb.int = false := by
  obtain ⟨-, ⟨-, hint, -⟩, -⟩ := hs
  exact Bool.eq_false_iff.2 fun hi => Bool.noConfusion ((hint hi).symm.trans ha)

/-- FBSETEXT attaches a buffer that is not the allocator's, over none (R210). -/
theorem allocBalanced_execFbsetext {buf : Word} (hl : LegalState s) (hs : AllocBalanced s) (he : execFbsetext buf s = .next t) :
    AllocBalanced t := by
  obtain rfl := Host.Outcome.next.inj he
  split
  · exact hs
  · rename_i h
    have ha : s.fb.alloc = false := by simpa using (not_or.1 (mt Bool.or_eq_true_iff.2 h)).2
    exact hs.of_append (not_internal_of_detached hl ha).symm (List.append_nil _).symm rfl rfl

/-- FBENABLE's allocation, FAIL answered (R211). -/
theorem allocateMirror_of_fail (h : s.env.nextAlloc.1 = none) : allocateMirror s =
    { s with result := false, env := s.env.nextAlloc.2, trace := s.trace ++ [.alloc (fbSize s) 32 none] } := by
  simp only [allocateMirror, askAlloc, h]

/-- FBENABLE's allocation, block `b` answered: attached, filled with what the environment gives, enabled (R82, R211). -/
theorem allocateMirror_of_answer {b : BitVec 27} (h : s.env.nextAlloc.1 = some b) : allocateMirror s =
    { s with
      fb := { base := blockAddr b, en := true, alloc := true, int := true }
      dirty := Dirty.empty, result := true
      mem := Memory.writeBytes s.mem (blockAddr b) (s.env.nextAlloc.2.nextBytes (fbSize s)).1
      env := (s.env.nextAlloc.2.nextBytes (fbSize s)).2
      trace := s.trace ++ [.alloc (fbSize s) 32 (some b)] } := by
  simp only [allocateMirror, askAlloc, h]
  rfl

/-- An answered ALLOC attaches the allocator's buffer over none; FAIL attaches nothing (R211). -/
theorem allocBalanced_allocateMirror (hl : LegalState s) (ha : s.fb.alloc = false) (hs : AllocBalanced s) :
    AllocBalanced (allocateMirror s) := by
  have hint := not_internal_of_detached hl ha
  rcases h : s.env.nextAlloc.1 with _ | b
  · rw [allocateMirror_of_fail h]
    exact hs.of_append rfl rfl rfl rfl
  · rw [AllocBalanced, hint] at hs
    rw [allocateMirror_of_answer h, AllocBalanced, allocCount_append, freeCount_append, hs]
    rfl

theorem allocBalanced_execFbenable (hl : LegalState s) (hs : AllocBalanced s) (he : execFbenable s = .next t) : AllocBalanced t := by
  obtain rfl := Host.Outcome.next.inj he
  split
  · exact hs
  · split
    · exact hs
    · rename_i ha
      exact allocBalanced_allocateMirror hl (by simpa using ha) hs

/-- FBRELEASE frees the allocator's buffer, and no other (R213). -/
theorem allocBalanced_execFbrelease (hs : AllocBalanced s) (he : execFbrelease s = .next t) : AllocBalanced t := by
  obtain rfl := Host.Outcome.next.inj he
  unfold AllocBalanced at *
  split
  · cases hi : s.fb.int <;>
      simpa [hi, allocCount_append, freeCount_append, allocCount, freeCount, Transaction.allocates, Transaction.frees] using hs
  · exact hs

/-! ## Commands and steps -/

/-- Every command keeps the balance. -/
theorem exec_keeps_allocBalance {i : Instr} (hl : LegalState s) (hs : AllocBalanced s) (he : exec i s = .next t) :
    AllocBalanced t := by
  have hfb := (exec_writesOwn he).mirror
  cases i with
  | setpixel | fastvline | fasthline | fillrect | writerect =>
    refine hs.of_streams (hfb (by simp [Instr.mnemonic])) ?_
    obtain ⟨-, rfl⟩ := guarded_eq_next.1 he
    exact streams_drawWindow _ _ _ _ _ s
  | writerectnbpp =>
    refine hs.of_streams (hfb (by simp [Instr.mnemonic])) ?_
    obtain ⟨-, rfl⟩ := guarded_eq_next.1 he
    split
    · exact streams_drawWindow _ _ _ _ _ s
    · exact .refl s
  | drawchar code =>
    refine hs.of_streams (hfb (by simp [Instr.mnemonic])) ?_
    obtain ⟨-, rfl⟩ := guarded_eq_next.1 he
    exact (streams_characters s).drawchar code s (.refl s)
  | readrect =>
    refine hs.of_streams (hfb (by simp [Instr.mnemonic])) ?_
    obtain ⟨-, rfl⟩ := guarded_eq_next.1 he
    exact streams_readrectState _ _ _ _ _ s
  | flush => exact hs.of_streams (hfb (by simp [Instr.mnemonic])) (streams_execFlush he)
  | fbsetext => exact allocBalanced_execFbsetext hl hs he
  | fbenable => exact allocBalanced_execFbenable hl hs he
  | fbrelease => exact allocBalanced_execFbrelease hs he
  | flushasync => exact allocBalanced_execFlushasync hs he
  | waitasync | pollasync =>
    obtain rfl := Host.Outcome.next.inj he
    exact allocBalanced_askActive hs
  | setcanvas =>
    obtain rfl := Host.Outcome.next.inj he
    split_ifs <;> exact hs
  | setfont =>
    obtain ⟨-, rfl⟩ := guarded_eq_next.1 he
    split <;> exact hs
  | nop | setorigin | setclip | fbdisable | setcursor | settextcolor | settextwrap | settextsize | setscroll =>
    obtain rfl := Host.Outcome.next.inj he
    exact hs

/-- Settles O16, command by command (`exec_keeps_allocBalance`). -/
theorem stepKeepsAllocBalance : Obligations.StepKeepsAllocBalance := by
  intro s t hl hs he
  rcases step_cases he with rfl | ⟨rest, rfl⟩ | ⟨i, ws, hexec⟩
  · exact hs
  · exact hs
  · exact exec_keeps_allocBalance (s := withPort ws s) hl hs hexec

end Sys2Proof.Machine
end

section
/-! PROOFS. Drawing goes to the buffer or to the sink (20_memory.md R83, 40_clip_and_common.md R158), and no command stores outside the
regions the spec gives it (20_memory.md R78, R82, 40_clip_and_common.md R161). Settles O21 and O22. -/

namespace Sys2Proof.Machine

variable {s t : State}

/-- A drawing command keeps what a character draw keeps: it is windows, or a character. -/
theorem KeptByCharacters.exec {P : State → Prop} (k : KeptByCharacters P) {i : Instr} (hd : drawsPixels i = true)
    (he : exec i s = .next t) (hs : P s) : P t := by
  cases i with
  | setpixel =>
    obtain ⟨-, rfl⟩ := guarded_eq_next.1 he
    exact k.pixel _ _ _ _ hs
  | fastvline | fasthline | fillrect | writerect =>
    obtain ⟨-, rfl⟩ := guarded_eq_next.1 he
    exact k.window _ _ _ _ _ _ hs
  | writerectnbpp =>
    obtain ⟨-, rfl⟩ := guarded_eq_next.1 he
    split
    · exact k.window _ _ _ _ _ _ hs
    · exact hs
  | drawchar code =>
    obtain ⟨-, rfl⟩ := guarded_eq_next.1 he
    exact k.drawchar code s hs
  | _ => exact Bool.noConfusion hd

/-! ## One mode at a time -/

/-- The mirror is enabled, and nothing has been sent or asked since the trace was `ts` and the answers to come were `e`. -/
structure Unsent (ts : List Transaction) (e : Env) (u : State) : Prop where
  enabled : u.fb.en = true
  trace : u.trace = ts
  env : u.env = e

theorem unsent_characters (ts : List Transaction) (e : Env) : KeptByCharacters (Unsent ts e) where
  window x y w h g u hu := by
    have hframe := shadowFrame_drawWindow hu.enabled x y w h g
    rw [hframe]
    exact ⟨hu.enabled, hu.trace, hu.env⟩
  row n y u hu := by
    have hframe := shadowFrame_moveRow hu.enabled n y
    rw [hframe]
    exact ⟨hu.enabled, hu.trace, hu.env⟩
  bits _ _ hu := ⟨hu.enabled, hu.trace, hu.env⟩
  cursor _ _ _ hu := ⟨hu.enabled, hu.trace, hu.env⟩
  forget _ hu := ⟨hu.enabled, hu.trace, hu.env⟩
  record _ _ hu := ⟨hu.enabled, hu.trace, hu.env⟩
  retire _ hu := ⟨hu.enabled, hu.trace, hu.env⟩

/-- The mirror is disabled, and nothing has been stored since memory was `m` and the dirty rectangle `d`. -/
structure Unstored (m : Memory) (d : Dirty) (u : State) : Prop where
  disabled : u.fb.en = false
  mem : u.mem = m
  dirty : u.dirty = d

/-- A window in direct mode stores nothing (R83, R158). -/
theorem drawWindow_unstored (hen : s.fb.en = false) (x y w h : Int) (g : Colour) :
    (drawWindow x y w h g s).mem = s.mem ∧ (drawWindow x y w h g s).dirty = s.dirty := by
  unfold drawWindow
  split
  · exact ⟨rfl, rfl⟩
  · simp [putWindow, hen]

/-- A moved row in direct mode stores nothing (R83, R262). -/
theorem moveRow_unstored (hen : s.fb.en = false) (n y : Int) :
    (moveRow n y s).mem = s.mem ∧ (moveRow n y s).dirty = s.dirty := by
  unfold moveRow
  split
  · simp [hen, moveRowDirect, askRead]
  · exact ⟨rfl, rfl⟩

theorem unstored_characters (m : Memory) (d : Dirty) : KeptByCharacters (Unstored m d) where
  window x y w h g u hu := by
    obtain ⟨hmem, hdirty⟩ := drawWindow_unstored hu.disabled x y w h g
    exact ⟨by simpa using hu.disabled, hmem.trans hu.mem, hdirty.trans hu.dirty⟩
  row n y u hu := by
    obtain ⟨hmem, hdirty⟩ := moveRow_unstored hu.disabled n y
    exact ⟨by rw [(drawFrame_moveRow n y u).fb]; exact hu.disabled, hmem.trans hu.mem, hdirty.trans hu.dirty⟩
  bits _ _ hu := ⟨hu.disabled, hu.mem, hu.dirty⟩
  cursor _ _ _ hu := ⟨hu.disabled, hu.mem, hu.dirty⟩
  forget _ hu := ⟨hu.disabled, hu.mem, hu.dirty⟩
  record _ _ hu := ⟨hu.disabled, hu.mem, hu.dirty⟩
  retire _ hu := ⟨hu.disabled, hu.mem, hu.dirty⟩

/-- Settles O22: the mode is kept by every part of a draw, and each part keeps to it. -/
theorem drawingUsesOneMode : Obligations.DrawingUsesOneMode := by
  intro i s t hd he
  refine ⟨fun hen => ?_, fun hen => ?_⟩
  · have h := (unsent_characters s.trace s.env).exec hd he ⟨hen, rfl, rfl⟩
    exact ⟨h.trace, h.env⟩
  · have h := (unstored_characters s.mem s.dirty).exec hd he ⟨hen, rfl, rfl⟩
    exact ⟨h.mem, h.dirty⟩

/-! ## Stores of a drawing -/

/-- The canvas is legal, the buffer's region is `r`, and every byte outside it reads as in `m`. -/
structure StoredWithin (r : Region) (m : Memory) (u : State) : Prop where
  canvas : CanvasOk u.canvas
  region : bufferRegion u = r
  reads : ∀ a, ¬ InRegion r a → Memory.read u.mem a = Memory.read m a

theorem bufferRegion_of_drawFrame (h : DrawFrame s t) : bufferRegion t = bufferRegion s := by
  simp only [bufferRegion, fbSize, h.fb, h.canvas, h.params]

theorem StoredWithin.of_drawFrame {r : Region} {m : Memory} (hs : StoredWithin r m s) (h : DrawFrame s t)
    (hreads : AgreeOutside s s.mem t.mem) : StoredWithin r m t :=
  ⟨by rw [h.canvas]; exact hs.canvas, (bufferRegion_of_drawFrame h).trans hs.region,
    fun a ha => (hreads a (by rw [hs.region]; exact ha)).trans (hs.reads a ha)⟩

/-- A window stores pixels of the canvas, whatever its colours are (R161). -/
theorem agreeOutside_drawWindow (hc : CanvasOk s.canvas) (x y w h : Int) (g : Colour) :
    AgreeOutside s s.mem (drawWindow x y w h g s).mem := by
  unfold drawWindow
  split
  · exact .refl s s.mem
  · rename_i v hv
    unfold putWindow
    split
    · refine fun a ha => read_paint_of_out _ _ fun p hp hb => ha (inRegion_of_pixelByte hc ?_ hb)
      exact onCanvas_of_visible hc ((clip_some_iff_visible hv p.1 p.2).1 ((mem_rectPoints _ _ _ _ p).1 hp))
    · exact .refl s s.mem

theorem agreeOutside_moveRow (hc : CanvasOk s.canvas) (n y : Int) : AgreeOutside s s.mem (moveRow n y s).mem := by
  cases hen : s.fb.en with
  | false => rw [(moveRow_unstored hen n y).1]; exact .refl s s.mem
  | true =>
    obtain ⟨-, -, hout⟩ := moveRow_effect hc hen n y
    exact fun a ha => hout a fun px py ho _ hb => ha (inRegion_of_pixelByte hc ho hb)

theorem storedWithin_characters (r : Region) (m : Memory) : KeptByCharacters (StoredWithin r m) where
  window _ _ _ _ _ _ hu := hu.of_drawFrame (drawFrame_drawWindow _ _ _ _ _ _) (agreeOutside_drawWindow hu.canvas _ _ _ _ _)
  row _ _ _ hu := hu.of_drawFrame (drawFrame_moveRow _ _ _) (agreeOutside_moveRow hu.canvas _ _)
  bits _ _ hu := ⟨hu.canvas, hu.region, hu.reads⟩
  cursor _ _ _ hu := ⟨hu.canvas, hu.region, hu.reads⟩
  forget _ hu := ⟨hu.canvas, hu.region, hu.reads⟩
  record _ _ hu := ⟨hu.canvas, hu.region, hu.reads⟩
  retire _ hu := ⟨hu.canvas, hu.region, hu.reads⟩

/-- A drawing command stores in the shadow buffer, in shadow mode (R78, R83). -/
theorem draws_store_in_regions {i : Instr} {a : Word} (hd : drawsPixels i = true) (hc : CanvasOk s.canvas)
    (he : exec i s = .next t) (ha : ∀ r ∈ (if drawsPixels i && s.fb.en then [bufferRegion s] else []), ¬ InRegion r a) :
    Memory.read t.mem a = Memory.read s.mem a := by
  cases hen : s.fb.en with
  | false => rw [((unstored_characters s.mem s.dirty).exec hd he ⟨hen, rfl, rfl⟩).mem]
  | true =>
    exact ((storedWithin_characters (bufferRegion s) s.mem).exec hd he ⟨hc, rfl, fun _ _ => rfl⟩).reads a
      (ha _ (by simp [hd, hen]))

/-! ## Stores of READRECT and FBENABLE -/

/-- READRECT stores in its destination array, in either mode (R197). -/
theorem read_readrectState_of_out {x y w h : Half} {dst a : Word} (ha : ¬ InRegion (dst, 2 * (s16 w).toNat * (s16 h).toNat) a) :
    Memory.read (readrectState x y w h dst s).mem a = Memory.read s.mem a := by
  unfold readrectState
  split
  · rfl
  · rename_i v hv
    have hout : ∀ p ∈ rectPoints v.vx0 v.vy0 v.vx1 v.vy1, ¬ InRegion (elementAddr dst (srcIndex v (s16 w) p.1 p.2), 2) a := by
      intro p hp hpa
      obtain ⟨hx0, hx1, hy⟩ := (mem_rectPoints _ _ _ _ p).1 hp
      exact ha (inRegion_of_visible hv ⟨hx0, hx1⟩ hy hpa)
    unfold readVisible
    dsimp only
    split
    · exact read_copyOut_of_out _ _ hout
    · exact read_storeAnswer_of_out _ _ _ hout

theorem length_nextBytes (e : Env) (n : Nat) : (e.nextBytes n).1.length = n := by simp [Env.nextBytes]

/-- An allocation stores in the region that was answered (R82). -/
theorem read_allocateMirror_of_out (hc : CanvasOk s.canvas) {a : Word}
    (ha : ∀ b, s.env.nextAlloc.1 = some b → ¬ InRegion (blockAddr b, fbSize s) a) :
    Memory.read (allocateMirror s).mem a = Memory.read s.mem a := by
  rcases h : s.env.nextAlloc.1 with _ | b
  · rw [allocateMirror_of_fail h]
  · have hsize := fbSize_lt hc
    rw [allocateMirror_of_answer h]
    refine read_writeBytes_of_out _ _ _ _ ?_ ?_ <;> rw [length_nextBytes]
    · omega
    · exact ha b h

theorem writtenRegions_fbenable (hcap : s.params.fbCapable = true) (halloc : s.fb.alloc = false) {b : BitVec 27}
    (hb : s.env.nextAlloc.1 = some b) : writtenRegions .fbenable s = [(blockAddr b, fbSize s)] := by
  unfold writtenRegions
  simp only [hcap, halloc, hb]
  rfl

theorem read_execFbenable_of_out (hc : CanvasOk s.canvas) {a : Word} (he : execFbenable s = .next t)
    (ha : ∀ r ∈ writtenRegions .fbenable s, ¬ InRegion r a) : Memory.read t.mem a = Memory.read s.mem a := by
  obtain rfl := Host.Outcome.next.inj he
  split
  · rfl
  · rename_i hcap
    split
    · rfl
    · rename_i halloc
      refine read_allocateMirror_of_out hc fun b hb => ha _ ?_
      rw [writtenRegions_fbenable (by simpa using hcap) (by simpa using halloc) hb]
      exact List.mem_singleton_self _

/-! ## Commands that store nothing -/

theorem execFlush_mem (he : execFlush s = .next t) : t.mem = s.mem := by
  obtain ⟨-, rfl⟩ := guarded_eq_next.1 he
  unfold streamAll streamDirty
  dsimp only
  split
  · rfl
  · split <;> split <;> rfl

theorem execFlushasync_mem (he : execFlushasync s = .next t) : t.mem = s.mem := by
  obtain rfl := Host.Outcome.next.inj he
  dsimp only
  split_ifs
  · rfl
  · exact askActive_mem s
  · exact askActive_mem s

/-- Settles O21: the drawing commands by what they draw, READRECT and FBENABLE by their regions; the others store nothing. -/
theorem storesStayInRegions : Obligations.StoresStayInRegions := by
  intro i s t a ⟨hc, _⟩ he ha
  cases i with
  | setpixel | fastvline | fasthline | fillrect | writerect | writerectnbpp | drawchar => exact draws_store_in_regions rfl hc he ha
  | readrect x y w h dst =>
    obtain ⟨-, rfl⟩ := guarded_eq_next.1 he
    exact read_readrectState_of_out (ha _ (List.mem_singleton_self _))
  | fbenable => exact read_execFbenable_of_out hc he ha
  | flush => rw [execFlush_mem he]
  | flushasync => rw [execFlushasync_mem he]
  | waitasync | pollasync =>
    obtain rfl := Host.Outcome.next.inj he
    show Memory.read (askActive s).2.mem a = _
    rw [askActive_mem]
  | setcanvas | fbsetext | fbrelease =>
    obtain rfl := Host.Outcome.next.inj he
    split_ifs <;> rfl
  | setfont =>
    obtain ⟨-, rfl⟩ := guarded_eq_next.1 he
    split <;> rfl
  | nop | setorigin | setclip | fbdisable | setcursor | settextcolor | settextwrap | settextsize | setscroll =>
    obtain rfl := Host.Outcome.next.inj he
    rfl

end Sys2Proof.Machine
end

section
/-! PROOFS. What the reference sink shows after a session (20_memory.md R99, R100), and what FLUSH leaves on it (43_framebuffer.md R214,
R215). Settles O44. -/

namespace Sys2Proof.Machine

/-! ## The display -/

/-- A display position is its place in the row-major list (R100). -/
theorem gramIndex_inj {w x y x' y' : Nat} (hx : x < w) (hx' : x' < w) (h : y * w + x = y' * w + x') : x = x' ∧ y = y' := by
  have hmod := congrArg (· % w) h
  have hdiv := congrArg (· / w) h
  simp only [Nat.mul_add_mod', Nat.mod_eq_of_lt hx, Nat.mod_eq_of_lt hx'] at hmod
  rw [mul_comm y, mul_comm y'] at hdiv
  simp only [Nat.mul_add_div (show 0 < w by omega), Nat.div_eq_of_lt hx, Nat.div_eq_of_lt hx', Nat.add_zero] at hdiv
  exact ⟨hmod, hdiv⟩

namespace RefSink

/-- The display is a list of `sw` by `sh` colours. -/
def Whole (r : RefSink) : Prop := r.gram.length = r.sw * r.sh

/-- A write shows at its position and nowhere else (R100). -/
theorem gramAt_put {r : RefSink} (hr : r.Whole) {x y : Nat} (hx : x < r.sw) (hy : y < r.sh) (c : Half) (px py : Nat) :
    (r.put x y c).gramAt px py = if px = x ∧ py = y then c else r.gramAt px py := by
  have hlen : y * r.sw + x < r.gram.length := by
    have := Nat.mul_le_mul_right r.sw (show y + 1 ≤ r.sh from hy)
    rw [hr, mul_comm r.sw, Nat.succ_mul] at *
    omega
  simp only [put, gramAt, hx, hy, and_self, if_true]
  by_cases hp : px < r.sw ∧ py < r.sh
  · rw [if_pos hp, if_pos hp]
    split
    · rename_i h
      rw [h.1, h.2, List.getElem?_set_self hlen, Option.getD_some]
    · rename_i h
      rw [List.getElem?_set_ne]
      exact fun he => h ((gramIndex_inj hx hp.1 he).imp Eq.symm Eq.symm)
  · rw [if_neg hp, if_neg hp, if_neg]
    rintro ⟨rfl, rfl⟩
    exact hp ⟨hx, hy⟩

/-! ## Streaming -/

/-- The width of the window. -/
def span (r : RefSink) : Nat := r.x1 - r.x0 + 1

/-- The display position of the PIXEL with write index `k` (R100). -/
def target (r : RefSink) (k : Nat) : Nat × Nat := (r.x0 + k % r.span, r.y0 + k / r.span)

theorem target_inj (r : RefSink) {j k : Nat} (h : r.target j = r.target k) : j = k := by
  simp only [target, Prod.mk.injEq, Nat.add_left_cancel_iff] at h
  rw [← Nat.div_add_mod j r.span, ← Nat.div_add_mod k r.span, h.1, h.2]

/-- What the PIXELs of a session do to the sink, one after another. -/
def stream (r : RefSink) (ps : List Half) : RefSink := (ps.map Transaction.pixel).foldl accept r

theorem stream_cons (r : RefSink) (p : Half) (ps : List Half) : r.stream (p :: ps) = (r.accept (.pixel p)).stream ps := rfl

/-- A PIXEL inside the display: window and size stay, the colour shows at its target, the index moves on (R93, R100). -/
theorem accept_pixel {r : RefSink} (hr : r.Whole) (c : Half) (hin : (r.target r.k).1 < r.sw ∧ (r.target r.k).2 < r.sh) :
    ∃ gram, r.accept (.pixel c) = { r with gram := gram, k := r.k + 1 } ∧ (r.accept (.pixel c)).Whole ∧
    ∀ p, (r.accept (.pixel c)).gramAt p.1 p.2 = if p = r.target r.k then c else r.gramAt p.1 p.2 := by
  have haccept : r.accept (.pixel c) = { r.put (r.target r.k).1 (r.target r.k).2 c with k := r.k + 1 } := rfl
  have hput : r.put (r.target r.k).1 (r.target r.k).2 c =
      { r with gram := r.gram.set ((r.target r.k).2 * r.sw + (r.target r.k).1) c } := if_pos hin
  refine ⟨_, by rw [haccept, hput], ?_, fun p => ?_⟩
  · rw [haccept, hput]
    exact List.length_set.trans hr
  · simp only [Prod.ext_iff]
    exact gramAt_put hr hin.1 hin.2 c p.1 p.2

/-- PIXELs inside the display: each shows at its target, and every other position shows what it did (R93, R100). -/
theorem stream_spec : ∀ (ps : List Half) (r : RefSink), r.Whole →
    (∀ n < ps.length, (r.target (r.k + n)).1 < r.sw ∧ (r.target (r.k + n)).2 < r.sh) →
    (r.stream ps).Whole ∧ (r.stream ps).sw = r.sw ∧ (r.stream ps).sh = r.sh ∧
    (∀ n (hn : n < ps.length), (r.stream ps).gramAt (r.target (r.k + n)).1 (r.target (r.k + n)).2 = ps[n]) ∧
    ∀ p, (∀ n < ps.length, p ≠ r.target (r.k + n)) → (r.stream ps).gramAt p.1 p.2 = r.gramAt p.1 p.2
  | [], r, hr, _ => ⟨hr, rfl, rfl, fun n hn => absurd hn (Nat.not_lt_zero n), fun _ _ => rfl⟩
  | c :: ps, r, hr, hin => by
    obtain ⟨gram, haccept, hwhole, hshow⟩ := accept_pixel hr c (hin 0 (by simp))
    have htarget : ∀ n, (r.accept (.pixel c)).target ((r.accept (.pixel c)).k + n) = r.target (r.k + (n + 1)) := fun n => by
      rw [haccept, show r.k + (n + 1) = r.k + 1 + n by omega]
      rfl
    obtain ⟨iwhole, isw, ish, ihit, imiss⟩ := stream_spec ps (r.accept (.pixel c)) hwhole fun n hn => by
      rw [htarget, haccept]
      exact hin (n + 1) (by simpa using hn)
    simp only [htarget] at ihit imiss
    rw [haccept] at isw ish
    rw [stream_cons]
    refine ⟨iwhole, by rw [← isw, haccept], by rw [← ish, haccept], fun n hn => ?_, fun p hmiss => ?_⟩
    · cases n with
      | zero =>
        rw [imiss _ fun n _ h => by have := r.target_inj h; omega, hshow]
        exact if_pos rfl
      | succ n => exact ihit n (by simpa using hn)
    · rw [imiss p fun n hn => hmiss (n + 1) (by simpa using hn), hshow]
      exact if_neg (hmiss 0 (by simp))

/-- Transactions that ask nothing are followed as they come (R100). -/
theorem follow_eq_foldl : ∀ (ts : List Transaction) (r : RefSink), (∀ t ∈ ts, ∀ q : RefSink, q.agrees t = true) →
    r.follow ts = some (ts.foldl accept r)
  | [], _, _ => rfl
  | t :: ts, r, h => by
    rw [follow, if_pos (h t (by simp) r)]
    exact follow_eq_foldl ts _ fun u hu => h u (by simp [hu])

/-- The sink after SETADDR. -/
def addressed (r : RefSink) (x0 y0 x1 y1 : Int) : RefSink :=
  r.accept (.setAddr (wrap16 x0) (wrap16 y0) (wrap16 x1) (wrap16 y1))

/-- A sink follows every session: the window, then its pixels (R99, R100). -/
theorem follow_session (r : RefSink) (x0 y0 x1 y1 : Int) (ps : List Half) :
    r.follow (session x0 y0 x1 y1 ps) = some ((r.addressed x0 y0 x1 y1).stream ps) := by
  rw [follow_eq_foldl, session, List.foldl_cons, List.foldl_cons, List.foldl_append]
  · rfl
  · intro t ht q
    simp only [session, List.mem_cons, List.mem_append, List.mem_map, List.not_mem_nil, or_false] at ht
    rcases ht with rfl | rfl | ⟨c, -, rfl⟩ | rfl <;> rfl

end RefSink

/-! ## What a session shows -/

/-- From `r` to `r'` a display of the canvas's size takes `colour` at the touched pixels and keeps every other. -/
structure Shows (c : Canvas) (r r' : RefSink) (touched : Int → Int → Prop) (colour : Int → Int → Half) : Prop where
  fits : SinkFits c r'
  hit : ∀ px py : Nat, OnCanvas c px py → touched px py → r'.gramAt px py = colour px py
  miss : ∀ px py : Nat, OnCanvas c px py → ¬ touched px py → r'.gramAt px py = r.gramAt px py

theorem toNat_wrap16 {n : Int} (h0 : 0 ≤ n) (h1 : n ≤ 32767) : (wrap16 n).toNat = n.toNat := by
  simp only [wrap16, BitVec.toNat_ofInt]
  omega

/-- The targets of a window `W` wide: row by row from its corner. -/
theorem target_addressed (r : RefSink) {x0 y0 x1 : Int} {W : Nat} (hx : 0 ≤ x0 ∧ x0 ≤ x1 ∧ x1 ≤ 32767)
    (hy : 0 ≤ y0 ∧ y0 ≤ 32767) (hW : x1 - x0 + 1 = W) (y1 : Int) (n : Nat) :
    (r.addressed x0 y0 x1 y1).target ((r.addressed x0 y0 x1 y1).k + n) = (x0.toNat + n % W, y0.toNat + n / W) := by
  have hspan : (r.addressed x0 y0 x1 y1).span = W := by
    simp only [RefSink.span, RefSink.addressed, RefSink.accept]
    rw [toNat_wrap16 (by omega) (by omega), toNat_wrap16 (by omega) (by omega)]
    omega
  simp only [RefSink.target, hspan]
  simp only [RefSink.addressed, RefSink.accept, Nat.zero_add]
  rw [toNat_wrap16 (by omega) (by omega), toNat_wrap16 (by omega) (by omega)]

/-- A session over a window of the canvas shows its colours in the window and nothing outside it (R99, R100). -/
theorem follow_isSession {c : Canvas} (hc : CanvasOk c) {r : RefSink} (hr : SinkFits c r) {vx0 vy0 vx1 vy1 : Int}
    (hx : 0 ≤ vx0 ∧ vx0 < vx1 ∧ vx1 ≤ u16 c.width) (hy : 0 ≤ vy0 ∧ vy0 < vy1 ∧ vy1 ≤ u16 c.height)
    {colour : Int → Int → Half} {ts : List Transaction} (hts : IsSession ts vx0 vy0 vx1 vy1 colour) :
    ∃ r', r.follow ts = some r' ∧ Shows c r r' (fun px py => vx0 ≤ px ∧ px < vx1 ∧ vy0 ≤ py ∧ py < vy1) colour := by
  obtain ⟨ps, rfl, hlen, hps⟩ := hts
  obtain ⟨hw, hh, -⟩ := hc
  obtain ⟨hsw, hsh, hgram⟩ := hr
  simp only [u16] at hx hy
  obtain ⟨W, hW⟩ : ∃ W : Nat, vx1 - vx0 = W := ⟨(vx1 - vx0).toNat, by omega⟩
  obtain ⟨H, hH⟩ : ∃ H : Nat, vy1 - vy0 = H := ⟨(vy1 - vy0).toNat, by omega⟩
  have hn : ps.length = W * H := by rw [hW, hH] at hlen; exact_mod_cast hlen
  have hWpos : 0 < W := by omega
  have hplace : ∀ n < ps.length, n % W < W ∧ n / W < H := fun n hn' => ⟨Nat.mod_lt n hWpos, Nat.div_lt_of_lt_mul (hn ▸ hn')⟩
  have htarget := target_addressed r (x0 := vx0) (y0 := vy0) (x1 := vx1 - 1) (W := W) (by omega) (by omega) (by omega) (vy1 - 1)
  obtain ⟨hwhole, hsw', hsh', hhit, hmiss⟩ := RefSink.stream_spec ps (r.addressed vx0 vy0 (vx1 - 1) (vy1 - 1)) hgram fun n hn' => by
    have hin := hplace n hn'
    rw [htarget]
    show vx0.toNat + n % W < r.sw ∧ vy0.toNat + n / W < r.sh
    omega
  refine ⟨_, RefSink.follow_session _ _ _ _ _ _, ⟨hsw'.trans hsw, hsh'.trans hsh, hwhole⟩, ?_, ?_⟩
  · intro px py _ ⟨h1, h2, h3, h4⟩
    obtain ⟨i, hi⟩ : ∃ i : Nat, (px : Int) = vx0 + i := ⟨(px - vx0).toNat, by omega⟩
    obtain ⟨j, hj⟩ : ∃ j : Nat, (py : Int) = vy0 + j := ⟨(py - vy0).toNat, by omega⟩
    have hpix := hps i j (by omega) (by omega)
    rw [hW, Int.toNat_natCast] at hpix
    obtain ⟨hlt, hval⟩ := List.getElem?_eq_some_iff.1 hpix
    have hshow := hhit (j * W + i) hlt
    rw [htarget, hval, Nat.mul_add_mod', Nat.mod_eq_of_lt (by omega), mul_comm j, Nat.mul_add_div hWpos, Nat.div_eq_of_lt (by omega)] at hshow
    rw [hi, hj, ← hshow]
    congr 1 <;> omega
  · intro px py _ hout
    refine hmiss (px, py) fun n hn' he => hout ?_
    obtain ⟨hcol, hrow⟩ := hplace n hn'
    rw [htarget, Prod.mk.injEq] at he
    generalize n / W = j at *
    omega

/-! ## FLUSH -/

variable {s t : State} {r : RefSink}

/-- The display shows, after the transactions from `s` to `t`, `colour` at the touched pixels and what it showed before elsewhere. -/
def ReachesSink (s t : State) (r : RefSink) (touched : Int → Int → Prop) (colour : Int → Int → Half) : Prop :=
  ∃ ts r', t.trace = s.trace ++ ts ∧ r.follow ts = some r' ∧ Shows s.canvas r r' touched colour

/-- Nothing sent, nothing touched. -/
theorem ReachesSink.silent (hr : SinkFits s.canvas r) (ht : t.trace = s.trace) {touched : Int → Int → Prop}
    (hnone : ∀ px py, OnCanvas s.canvas px py → ¬ touched px py) (colour : Int → Int → Half) : ReachesSink s t r touched colour :=
  ⟨[], r, by rw [ht, List.append_nil], rfl, hr, fun px py ho hp => absurd hp (hnone px py ho), fun _ _ _ _ => rfl⟩

theorem ReachesSink.congr {touched touched' : Int → Int → Prop} {colour : Int → Int → Half} (h : ReachesSink s t r touched colour)
    (hiff : ∀ px py, OnCanvas s.canvas px py → (touched' px py ↔ touched px py)) : ReachesSink s t r touched' colour := by
  obtain ⟨ts, r', ht, hf, hfits, hhit, hmiss⟩ := h
  exact ⟨ts, r', ht, hf, hfits, fun px py ho hp => hhit px py ho ((hiff px py ho).1 hp),
    fun px py ho hp => hmiss px py ho fun h => hp ((hiff px py ho).2 h)⟩

/-- StreamFB brings a window of the buffer to the display (R215). -/
theorem streamFB_reaches (hc : CanvasOk s.canvas) (hr : SinkFits s.canvas r) {x0 y0 x1 y1 : Int}
    (hx : 0 ≤ x0 ∧ x0 ≤ x1 ∧ x1 < u16 s.canvas.width) (hy : 0 ≤ y0 ∧ y0 ≤ y1 ∧ y1 < u16 s.canvas.height) :
    ReachesSink s (streamFB x0 y0 x1 y1 s) r (fun px py => x0 ≤ px ∧ px < x1 + 1 ∧ y0 ≤ py ∧ py < y1 + 1)
      fun px py => fromFB s.params.depth (fbRead s px py) := by
  have hsession := isSession_map (show x0 < x1 + 1 by omega) (show y0 < y1 + 1 by omega)
    fun p => fromFB s.params.depth (fbRead s p.1 p.2)
  rw [Int.add_sub_cancel, Int.add_sub_cancel] at hsession
  obtain ⟨r', hf, hshow⟩ := follow_isSession hc hr (by omega) (by omega) hsession
  exact ⟨_, r', rfl, hf, hshow⟩

/-- The flushed pixels: all of them when nothing is dirty, else those of the dirty rectangle inside the clip bounds (R214). -/
abbrev Flushed (s : State) (px py : Int) : Prop :=
  dirtyEmpty s.dirty = true ∨ (InDirty s.dirty px py ∧ InClip s.canvas px py)

theorem streamAll_reaches (hc : CanvasOk s.canvas) (hr : SinkFits s.canvas r) (hd : dirtyEmpty s.dirty = true) :
    ReachesSink s (streamAll s) r (Flushed s) fun px py => fromFB s.params.depth (fbRead s px py) := by
  unfold streamAll
  split
  · exact (streamFB_reaches hc hr (by omega) (by omega)).congr fun px py ⟨hx0, hx1, hy0, hy1⟩ => by
      simp only [Flushed, hd, true_or, true_iff]
      omega
  · exact ReachesSink.silent hr rfl (fun px py ⟨hx0, hx1, hy0, hy1⟩ => by omega) _

theorem streamDirty_reaches (hc : CanvasOk s.canvas) (hr : SinkFits s.canvas r) (hd : dirtyEmpty s.dirty = false) :
    ReachesSink s (streamDirty s) r (Flushed s) fun px py => fromFB s.params.depth (fbRead s px py) := by
  have hclip := hc
  obtain ⟨-, -, hclip⟩ := hclip
  unfold streamDirty
  dsimp only
  split
  · refine (streamFB_reaches hc hr (by omega) (by omega)).congr fun px py _ => ?_
    simp only [Flushed, hd, Bool.false_eq_true, false_or, InDirty, InClip]
    omega
  · refine ReachesSink.silent hr rfl (fun px py _ => ?_) _
    simp only [Flushed, hd, Bool.false_eq_true, false_or, InDirty, InClip]
    omega

/-- Settles O44: FLUSH streams the whole buffer or the clipped dirty rectangle, as one session or not at all. -/
theorem flushReachesSink : Obligations.FlushReachesSink := by
  intro s t r ⟨hc, _⟩ hen hr he
  obtain ⟨-, rfl⟩ := guarded_eq_next.1 he
  have hreach : ReachesSink s (if dirtyEmpty s.dirty then streamAll s else streamDirty s) r (Flushed s)
      fun px py => fromFB s.params.depth (fbRead s px py) := by
    split
    · exact streamAll_reaches hc hr ‹_›
    · exact streamDirty_reaches hc hr (Bool.eq_false_iff.2 ‹_›)
  obtain ⟨ts, r', ht, hf, hfits, hhit, hmiss⟩ := hreach
  rw [hen]
  exact ⟨ts, r', ht, hf, hfits, fun px py ho => ⟨hhit px py ho, hmiss px py ho⟩⟩

end Sys2Proof.Machine
end

section
/-! PROOFS. Bytes of a store (20_memory.md R71 to R74) and the packed pixels of a paletted bitmap (20_memory.md R73, 47_nbpp_blit.md R290,
R291). Settles O29 and O30. -/

namespace Sys2Proof.Machine

/-! ## Bytes of a store -/

/-- The bytes of a 16-bit store (R72, R74). -/
theorem read_write16_bytes (m : Memory) (a : Word) (v : Half) :
    Memory.read (Memory.write16 m a v) a = v.extractLsb' 0 8 ∧ Memory.read (Memory.write16 m a v) (a + 1) = v.extractLsb' 8 8 := by
  have h01 : a ≠ a + 1 := by intro h; have := congrArg (· - a) h; simp at this
  simp only [Memory.write16, Memory.read_write, if_neg h01, if_true, and_self]

/-- Two of four consecutive addresses differ. -/
theorem add_ne_add (a : Word) {j k : Word} (h : j ≠ k) : a + j ≠ a + k := fun he => h (by simpa using he)

/-- The bytes of a 32-bit store (R72, R74). -/
theorem read_write32_bytes (m : Memory) (a : Word) (v : Word) :
    Memory.read (Memory.write32 m a v) a = v.extractLsb' 0 8 ∧ Memory.read (Memory.write32 m a v) (a + 1) = v.extractLsb' 8 8 ∧
    Memory.read (Memory.write32 m a v) (a + 2) = v.extractLsb' 16 8 ∧
    Memory.read (Memory.write32 m a v) (a + 3) = v.extractLsb' 24 8 := by
  have h0 : ∀ k : Word, k ≠ 0 → a ≠ a + k := fun k hk he => hk (by simpa using he)
  have h01 := h0 1 (by decide)
  have h02 := h0 2 (by decide)
  have h03 := h0 3 (by decide)
  have h12 := add_ne_add a (show (1 : Word) ≠ 2 by decide)
  have h13 := add_ne_add a (show (1 : Word) ≠ 3 by decide)
  have h23 := add_ne_add a (show (2 : Word) ≠ 3 by decide)
  simp only [Memory.write32, Memory.read_write, if_neg h01, if_neg h02, if_neg h03, if_neg h12, if_neg h13, if_neg h23, if_true,
    and_self]

/-- Settles O30: the bytes one by one, then the value put together from them. -/
theorem byteOrder : Obligations.ByteOrder := by
  refine ⟨fun m a v => ?_, fun m a v => ?_⟩
  · obtain ⟨h0, h1⟩ := read_write16_bytes m a v
    exact ⟨h0, h1, Memory.read16_write16_self m a v, fun b hb => read_write16_out hb⟩
  · obtain ⟨h0, h1, h2, h3⟩ := read_write32_bytes m a v
    exact ⟨h0, h1, h2, h3, Memory.read32_write32_self m a v, fun b hb => Memory.read_write32_of_out m v (Nat.le_of_not_lt hb)⟩

/-! ## Packed pixels -/

theorem legalBpp_iff {bpp : Nat} : legalBpp bpp = true ↔ bpp = 1 ∨ bpp = 2 ∨ bpp = 4 ∨ bpp = 8 := by
  simp [legalBpp, or_assoc]

/-- Row `r` of a bitmap takes `bytesPerRow` bytes, enough for its pixels and less than a byte more (R290). -/
theorem bytesPerRow_bounds {bpp : Nat} (hb : legalBpp bpp = true) (w : Int) :
    w * bpp ≤ 8 * bytesPerRow bpp w ∧ 8 * bytesPerRow bpp w < w * bpp + 8 := by
  unfold bytesPerRow
  rcases legalBpp_iff.1 hb with rfl | rfl | rfl | rfl <;> norm_num <;> omega

/-- Where pixel `i` of a row begins in its byte, and that it ends in that byte (R291). -/
theorem pixelStart_bounds {bpp : Nat} (hb : legalBpp bpp = true) (i : Int) :
    0 ≤ i % (8 / bpp) * bpp ∧ (i % (8 / bpp) * bpp).toNat + bpp ≤ 8 := by
  rcases legalBpp_iff.1 hb with rfl | rfl | rfl | rfl <;> norm_num <;> omega

/-- Bit `j` of pixel `i` of a row: its byte, and its place in the byte (R73, R291). -/
theorem pixelBit_place {bpp : Nat} (hb : legalBpp bpp = true) (row i : Int) {j : Nat} (hj : j < bpp) :
    (8 * row + i * bpp + j) / 8 = row + i / (8 / bpp) ∧ (8 * row + i * bpp + j) % 8 = i % (8 / bpp) * bpp + j := by
  rcases legalBpp_iff.1 hb with rfl | rfl | rfl | rfl <;> norm_num <;> omega

/-- `n` bits of a byte from bit `o` on, the most significant first, are a shift and a mask (R165, R291). -/
theorem foldl_bits_eq_shift_mod (b : Byte) (o : Nat) : ∀ n, o + n ≤ 8 →
    (List.range n).foldl (fun acc j => 2 * acc + (b.getLsbD (7 - (o + j))).toNat) 0 = (b.toNat >>> (8 - n - o)) % 2 ^ n
  | 0, _ => by simp [Nat.mod_one]
  | n + 1, h => by
    rw [List.range_succ, List.foldl_append, foldl_bits_eq_shift_mod b o n (by omega), List.foldl_cons, List.foldl_nil]
    have hshift : b.toNat >>> (8 - n - o) = (b.toNat >>> (8 - (n + 1) - o)) / 2 := by
      rw [show 8 - n - o = (8 - (n + 1) - o) + 1 by omega, Nat.shiftRight_add]
      rfl
    have hbit : (b.getLsbD (7 - (o + n))).toNat = (b.toNat >>> (8 - (n + 1) - o)) % 2 := by
      rw [show 7 - (o + n) = 8 - (n + 1) - o by omega, BitVec.getLsbD, Nat.toNat_testBit, Nat.shiftRight_eq_div_pow]
    rw [hshift, hbit, Nat.pow_succ', Nat.mod_mul, Nat.add_comm]

/-- The palette index is the bit field at the pixel's place in its row (R290, R291). -/
theorem paletteIndex_eq_fetchU {bpp : Nat} (hb : legalBpp bpp = true) (w : Int) (src : Word) (m : Memory) (i r : Int) :
    paletteIndex bpp w src m i r = fetchU m src (8 * (r * bytesPerRow bpp w) + i * bpp) bpp := by
  have hplace := fun j => pixelBit_place hb (r * bytesPerRow bpp w) i (j := j)
  obtain ⟨hpos, hstart⟩ := pixelStart_bounds hb i
  have hbit : ∀ j ∈ List.range bpp, fetchBit m src (8 * (r * bytesPerRow bpp w) + i * bpp + (j : Int)) =
      (Memory.read m (bitmapAddr bpp w src i r)).getLsbD (7 - (((i % (8 / bpp)) * bpp).toNat + j)) := by
    intro j hj
    obtain ⟨hbyte, hoff⟩ := hplace j (List.mem_range.1 hj)
    rw [fetchBit, bitmapAddr, hbyte, hoff, Int.add_assoc]
    congr 1
    omega
  rw [fetchU, List.foldl_ext _ _ 0 fun acc j hj => by rw [hbit j hj], foldl_bits_eq_shift_mod _ _ _ hstart, paletteIndex,
    Int.toNat_natCast]
  congr 2
  omega

/-- Settles O29: the field bit by bit (`paletteIndex_eq_fetchU`), then the row's size. -/
theorem paletteIndexIsBitField : Obligations.PaletteIndexIsBitField := by
  intro m src bpp w i r hb _ _ _
  exact ⟨paletteIndex_eq_fetchU hb w src m i r, bytesPerRow_bounds hb w⟩

/-! ## The operand regions of the paletted blit -/

/-- The byte of a pixel lies in the bitmap (R290, R352). -/
theorem inRegion_bitmapAddr {bpp : Nat} (hb : legalBpp bpp = true) {w h i r : Int} (hi : 0 ≤ i ∧ i < w) (hr : 0 ≤ r ∧ r < h)
    (src : Word) : InRegion (src, h.toNat * (bytesPerRow bpp w).toNat) (bitmapAddr bpp w src i r) := by
  have hcol : 0 ≤ i / (8 / bpp) ∧ i / (8 / bpp) < bytesPerRow bpp w := by
    unfold bytesPerRow
    rcases legalBpp_iff.1 hb with rfl | rfl | rfl | rfl <;> norm_num <;> omega
  have hdist := toNat_wrap32_sub ((src.toNat : Int) + r * bytesPerRow bpp w + i / (8 / bpp)) src.toNat
  rw [wrap32_toNat] at hdist
  simp only [InRegion, bitmapAddr]
  generalize bytesPerRow bpp w = B at *
  generalize i / (8 / (bpp : Int)) = col at *
  have hrow : 0 ≤ r * B := Int.mul_nonneg hr.1 (by omega)
  have hend : r * B + B ≤ h * B := by
    have := Int.mul_le_mul_of_nonneg_right (show r + 1 ≤ h by omega) (show 0 ≤ B by omega)
    rwa [Int.add_mul, Int.one_mul] at this
  have hsize : ((h.toNat * B.toNat : Nat) : Int) = h * B := by
    push_cast
    rw [Int.toNat_of_nonneg (by omega), Int.toNat_of_nonneg (by omega)]
  rw [show (src.toNat : Int) + r * B + col - src.toNat = r * B + col by ring] at hdist
  omega

end Sys2Proof.Machine
end

section
/-! PROOFS. What a drawing command shows in direct mode is what it stores in shadow mode (20_memory.md R100, 40_clip_and_common.md R156,
R158, 42_pixel_backend.md R190), operands off the buffer (70_reset_and_hazards.md R352). Settles O45. -/

namespace Sys2Proof.Machine

variable {s t t' : State} {r : RefSink}

/-! ## A colour through the buffer (R155, R156) -/

/-- The upper bits of an expanded channel are the channel. -/
theorem extractLsb'_expanded5 (v : BitVec 5) : ((if v = 0#5 then 0#8 else v ++ 7#3) : Byte).extractLsb' 3 5 = v := by
  split
  · rename_i h; rw [h]; rfl
  · exact BitVec.extractLsb'_append_eq_left

theorem extractLsb'_expanded6 (v : BitVec 6) : ((if v = 0#6 then 0#8 else v ++ 3#2) : Byte).extractLsb' 2 6 = v := by
  split
  · rename_i h; rw [h]; rfl
  · exact BitVec.extractLsb'_append_eq_left

/-- A colour is its three channels. -/
theorem channels_append (c : Half) : red5 c ++ green6 c ++ blue5 c = c := by
  ext i hi
  simp only [red5, green6, blue5, BitVec.getElem_append, BitVec.getElem_extractLsb']
  split
  · rw [← BitVec.getLsbD_eq_getElem]; congr 1; omega
  · split <;> rw [← BitVec.getLsbD_eq_getElem] <;> congr 1 <;> omega

/-- Quant565 takes each channel from its byte. -/
theorem quant565_append (r8 g8 b8 : Byte) :
    quant565 (0#8 ++ r8 ++ g8 ++ b8) = r8.extractLsb' 3 5 ++ g8.extractLsb' 2 6 ++ b8.extractLsb' 3 5 := by
  rw [quant565, BitVec.extractLsb'_append_eq_of_le (by decide), BitVec.extractLsb'_append_eq_of_le (by decide),
    BitVec.extractLsb'_append_eq_of_add_le (by decide), BitVec.extractLsb'_append_eq_of_le (by decide),
    BitVec.extractLsb'_append_eq_of_add_le (by decide), BitVec.extractLsb'_append_eq_of_add_le (by decide)]

theorem quant565_expand888 (c : Half) : quant565 (expand888 c) = c := by
  rw [expand888, quant565_append, extractLsb'_expanded5, extractLsb'_expanded6, extractLsb'_expanded5, channels_append]

/-- A colour comes back from the shadow buffer in either depth (R155, R156). -/
theorem fromFB_toFB (d : Depth) (c : Half) : fromFB d (toFB d c) = c := by
  cases d with
  | d16 => simp [fromFB, toFB]
  | d32 => exact quant565_expand888 c

/-! ## Operands off the buffer (R352) -/

/-- The host contract of R352: no operand region meets the attached buffer. -/
theorem operand_off_buffer {i : Instr} {q : Region} (ha : s.fb.alloc = true) (hz : Hazard.operandOverlap ∉ hazards i s)
    (hq : q ∈ operandRegions i s) : regionsMeet (bufferRegion s) q = false := by
  by_contra hmeet
  have hany : (operandRegions i s).any (regionsMeet (bufferRegion s)) = true :=
    List.any_eq_true.2 ⟨q, hq, by simpa using hmeet⟩
  exact hz (by simp [hazards, ha, hany])

/-- A 16-bit element of a region off the buffer reads the same after stores in the buffer. -/
theorem read16_of_off_buffer {q : Region} (hq : regionsMeet (bufferRegion s) q = false) {m' : Memory}
    (hm : AgreeOutside s s.mem m') {a : Word} (ha : ∀ b, InRegion (a, 2) b → InRegion q b) :
    Memory.read16 m' a = Memory.read16 s.mem a :=
  read16_congr_out fun b hb => hm b fun hbuf => not_both_of_regionsMeet hq b ⟨hbuf, ha b hb⟩

/-- A colour whose visible pixels read the same after any stores in the buffer. -/
abbrev VisiblyStable (s : State) (x y w h : Int) (g : Colour) : Prop :=
  ∀ m', AgreeOutside s s.mem m' → ∀ px py, Visible s.canvas x y w h px py →
    g m' (px - s16 s.canvas.originX) (py - s16 s.canvas.originY) = g s.mem (px - s16 s.canvas.originX) (py - s16 s.canvas.originY)

/-- WRITERECT's elements are read from its source array (R196). -/
theorem sourceColour_stable {x y w h : Half} {src : Word} (ha : s.fb.alloc = true)
    (hz : Hazard.operandOverlap ∉ hazards (.writerect x y w h src) s) :
    VisiblyStable s (s16 x) (s16 y) (s16 w) (s16 h) (sourceColour (s16 x) (s16 y) (s16 w) src) := by
  intro m' hm px py hv
  have hq := operand_off_buffer ha hz (List.mem_singleton_self _)
  cases hclip : clip s.canvas (s16 x) (s16 y) (s16 w) (s16 h) with
  | none => exact absurd hv (clip_none hclip px py)
  | some v =>
    obtain ⟨-, -, hX, hY, -⟩ := clip_some hclip
    obtain ⟨h0, h1, h2, h3⟩ := (clip_some_iff_visible hclip px py).2 hv
    refine read16_of_off_buffer hq hm fun b hb => inRegion_of_visible hclip ⟨h0, h1⟩ ⟨h2, h3⟩ ?_
    rwa [srcIndex, show py - v.Y = py - s16 s.canvas.originY - s16 y by omega,
      show px - v.X = px - s16 s.canvas.originX - s16 x by omega]

/-- A palette index depends on its bitmap byte only (R290). -/
theorem paletteIndex_congr {bpp w : Int} {src : Word} {m m' : Memory} {i r : Int}
    (h : Memory.read m' (bitmapAddr bpp w src i r) = Memory.read m (bitmapAddr bpp w src i r)) :
    paletteIndex bpp w src m' i r = paletteIndex bpp w src m i r := by
  rw [paletteIndex, h, paletteIndex]

/-- WRITERECTNBPP's pixels are read from its bitmap and its palette (R290). -/
theorem nbppColour_stable {x y w h bpp : Half} {src pal : Word} (ha : s.fb.alloc = true) (hb : legalBpp bpp.toNat = true)
    (hz : Hazard.operandOverlap ∉ hazards (.writerectnbpp x y w h bpp src pal) s) :
    VisiblyStable s (s16 x) (s16 y) (s16 w) (s16 h) (nbppColour (s16 x) (s16 y) (s16 w) (u16 bpp) src pal) := by
  intro m' hm px py ⟨hx0, hx1, hy0, hy1, _⟩
  have hregions : operandRegions (.writerectnbpp x y w h bpp src pal) s =
      [(src, (s16 h).toNat * (bytesPerRow (u16 bpp) (s16 w)).toNat), (pal, 2 * 2 ^ bpp.toNat)] := if_pos hb
  have hbitmap := operand_off_buffer ha hz (q := (src, _)) (by rw [hregions]; exact List.mem_cons_self)
  have hpalette := operand_off_buffer ha hz (q := (pal, _)) (by rw [hregions]; exact List.mem_cons_of_mem _ List.mem_cons_self)
  have hin : InRegion (src, (s16 h).toNat * (bytesPerRow (u16 bpp) (s16 w)).toNat) (bitmapAddr (u16 bpp) (s16 w) src
      (px - s16 s.canvas.originX - s16 x) (py - s16 s.canvas.originY - s16 y)) :=
    inRegion_bitmapAddr hb (by omega) (by omega) src
  have hindex := paletteIndex_congr (hm _ fun hbuf => not_both_of_regionsMeet hbitmap _ ⟨hbuf, hin⟩)
  unfold nbppColour
  rw [hindex]
  refine read16_of_off_buffer hpalette hm fun b hb' => ?_
  refine inRegion_of_element (k := (paletteIndex (u16 bpp) (s16 w) src s.mem _ _ : Int)) (n := 2 ^ bpp.toNat) (by omega) ?_ ?_ hb'
  · exact_mod_cast Nat.mod_lt _ (by positivity)
  · rcases legalBpp_iff.1 hb with h | h | h | h <;> rw [h] <;> decide

/-! ## The two modes of one drawing -/

/-- A display that shows the buffer shows it again after one drawing, stored in the buffer and sent to the display. -/
theorem draws_direct_matches_shadow (hc : CanvasOk s.canvas) (hen : s.fb.en = true) (hr : SinkFits s.canvas r)
    (hshows : ∀ px py : Nat, OnCanvas s.canvas px py → r.gramAt px py = fromFB s.params.depth (fbRead s px py))
    {x y w h : Int} {colour : Int → Int → Half} (ht : Draws s t x y w h colour)
    (ht' : Draws { s with fb := { s.fb with en := false } } t' x y w h colour) :
    ∃ ts r', t'.trace = s.trace ++ ts ∧ r.follow ts = some r' ∧
      ∀ px py : Nat, OnCanvas s.canvas px py → r'.gramAt px py = fromFB s.params.depth (fbRead t px py) := by
  unfold Draws at ht ht'
  dsimp only at ht'
  cases hclip : clip s.canvas x y w h with
  | none =>
    simp only [hclip] at ht ht'
    rw [ht, ht']
    exact ⟨[], r, (List.append_nil _).symm, rfl, hshows⟩
  | some v =>
    simp only [hclip, hen, if_true, Bool.false_eq_true, if_false] at ht ht'
    obtain ⟨-, ⟨hhit, hmiss, -⟩, -⟩ := ht
    obtain ⟨ts, rfl, hsession⟩ := ht'
    have hcor := clip_corners hc hclip
    obtain ⟨r', hfollow, hshow⟩ := follow_isSession hc hr (by omega) (by omega) hsession
    refine ⟨ts, r', rfl, hfollow, fun px py ho => ?_⟩
    by_cases hp : Visible s.canvas x y w h px py
    · rw [hshow.hit px py ho ((clip_some_iff_visible hclip px py).2 hp), hhit px py ho hp, fromFB_toFB]
    · rw [hshow.miss px py ho (mt (clip_some_iff_visible hclip px py).1 hp), hmiss px py ho hp, hshows px py ho]

/-- One window in both modes, its colours off the buffer. -/
theorem drawWindow_direct_matches_shadow (hc : CanvasOk s.canvas) (hen : s.fb.en = true) (hr : SinkFits s.canvas r)
    (hshows : ∀ px py : Nat, OnCanvas s.canvas px py → r.gramAt px py = fromFB s.params.depth (fbRead s px py))
    (x y w h : Int) {g : Colour} (hg : VisiblyStable s x y w h g) :
    ∃ ts r', (drawWindow x y w h g { s with fb := { s.fb with en := false } }).trace = s.trace ++ ts ∧ r.follow ts = some r' ∧
      ∀ px py : Nat, OnCanvas s.canvas px py →
        r'.gramAt px py = fromFB s.params.depth (fbRead (drawWindow x y w h g s) px py) :=
  draws_direct_matches_shadow hc hen hr hshows (drawWindow_draws hc x y w h fun _ => hg)
    (drawWindow_draws (s := { s with fb := { s.fb with en := false } }) hc x y w h fun hen' => Bool.noConfusion hen')

/-- Settles O45: each command is one window, or nothing. -/
theorem directMatchesShadow : Obligations.DirectMatchesShadow := by
  intro i s t t' r ⟨hc, ⟨halloc, _⟩, _⟩ hen hd hchar hz hr hshows he he'
  have ha := halloc hen
  cases i with
  | setpixel | fastvline | fasthline | fillrect =>
    obtain ⟨-, rfl⟩ := guarded_eq_next.1 he
    obtain ⟨-, rfl⟩ := guarded_eq_next.1 he'
    exact drawWindow_direct_matches_shadow hc hen hr hshows _ _ _ _ fun _ _ _ _ _ => rfl
  | writerect =>
    obtain ⟨-, rfl⟩ := guarded_eq_next.1 he
    obtain ⟨-, rfl⟩ := guarded_eq_next.1 he'
    exact drawWindow_direct_matches_shadow hc hen hr hshows _ _ _ _ (sourceColour_stable ha hz)
  | writerectnbpp x y w h bpp src pal =>
    obtain ⟨-, rfl⟩ := guarded_eq_next.1 he
    obtain ⟨-, rfl⟩ := guarded_eq_next.1 he'
    cases hb : legalBpp bpp.toNat with
    | true => exact drawWindow_direct_matches_shadow hc hen hr hshows _ _ _ _ (nbppColour_stable ha hb hz)
    | false => exact ⟨[], r, (List.append_nil _).symm, rfl, hshows⟩
  | drawchar => exact absurd rfl hchar
  | _ => exact Bool.noConfusion hd

end Sys2Proof.Machine
end

section
/-! PROOFS. Packets at the command port (20_memory.md R105, 30_encoding.md R121 to R133): how many words are taken, and what a step does
with them. Settles O4, O6 and O8. -/

namespace Sys2Proof.Machine

/-! ## Taking a packet -/

/-- With its operand words presented, a packet is the header, those words, and the rest (R133). -/
theorem splitPacket_of_le {h : Word} {ws : List Word} (hlen : (nwField h).toNat ≤ ws.length) :
    splitPacket (h :: ws) = some (h, ws.take (nwField h).toNat, ws.drop (nwField h).toNat) := if_pos hlen

/-- With words still to come there is none (R105). -/
theorem splitPacket_of_lt {h : Word} {ws : List Word} (hlen : ws.length < (nwField h).toNat) : splitPacket (h :: ws) = none :=
  if_neg (Nat.not_le_of_lt hlen)

theorem splitPacket_append {h : Word} {ops rest : List Word} (hlen : ops.length = (nwField h).toNat) :
    splitPacket (h :: (ops ++ rest)) = some (h, ops, rest) := by
  rw [splitPacket_of_le (by rw [List.length_append]; omega), ← hlen, List.take_left, List.drop_left]

/-- What is fetched from a whole packet: its command, or why it is illegal, and the words after it. -/
theorem fetchFrom_of_le {h : Word} {ws : List Word} (hlen : (nwField h).toNat ≤ ws.length) :
    (∃ i, fetchFrom (h :: ws) = .packet i (ws.drop (nwField h).toNat)) ∨
    ∃ why, fetchFrom (h :: ws) = .illegal why (ws.drop (nwField h).toNat) := by
  unfold fetchFrom
  rw [splitPacket_of_le hlen]
  dsimp only
  split
  · exact .inl ⟨_, rfl⟩
  · exact .inr ⟨_, rfl⟩

theorem fetchFrom_of_lt {h : Word} {ws : List Word} (hlen : ws.length < (nwField h).toNat) : fetchFrom (h :: ws) = .idle := by
  rw [fetchFrom, splitPacket_of_lt hlen]

theorem fetchFrom_of_decode {h : Word} {ops rest : List Word} {i : Instr} (hlen : ops.length = (nwField h).toNat)
    (hd : decode h ops = .ok i) : fetchFrom (h :: (ops ++ rest)) = .packet i rest := by
  unfold fetchFrom
  rw [splitPacket_append hlen]
  dsimp only
  rw [hd]

/-! ## The packet of a command -/

/-- A kind operand of SETFONT comes back from its immediate, which is below 3 for a legal kind (R123, R134). -/
theorem kind_of_immediate (k : BitVec 2) : (k.setWidth 16).extractLsb' 0 2 = k ∧ (k ≠ 3#2 → (k.setWidth 16).toNat < 3) := by
  revert k
  decide

/-- A flag operand comes back from its immediate, which is below 2 (R123, R126). -/
theorem flag_of_immediate (b : Bool) : (flagImm b).getLsbD 0 = b ∧ (flagImm b).toNat < 2 := by
  cases b <;> decide

/-- A well-formed command's packet has the words its header names, and decodes to the command (R121 to R132). -/
theorem encode_eq_packet (i : Instr) (hi : i.wellFormed = true) :
    ∃ h ops, encode i = h :: ops ∧ ops.length = (nwField h).toNat ∧ decode h ops = .ok i := by
  cases i with
  | setfont k a =>
    obtain ⟨hk, hlt⟩ := kind_of_immediate k
    have hlt := hlt (by simpa [Instr.wellFormed] using hi)
    exact ⟨_, _, rfl, by simp, by simpa [decode, format1, whenZero, hk] using hlt⟩
  | settextwrap b =>
    obtain ⟨hb, hlt⟩ := flag_of_immediate b
    exact ⟨_, _, rfl, by simp, by simpa [decode, formatI, whenZero, hlt] using hb⟩
  | setscroll x y w h b =>
    obtain ⟨hb, hlt⟩ := flag_of_immediate b
    exact ⟨_, _, rfl, by simp, by simpa [decode, formatR, whenZero, hlt] using hb⟩
  | nop | fbenable | fbdisable | fbrelease | flush | flushasync | waitasync | pollasync =>
    exact ⟨_, _, rfl, by simp, by simp [decode, formatZ, whenZero]⟩
  | setcanvas | setorigin | setpixel | fbsetext | setcursor | settextcolor =>
    exact ⟨_, _, rfl, by simp, by simp [decode, format1, whenZero]⟩
  | fastvline | fasthline => exact ⟨_, _, rfl, by simp, by simp [decode, formatL, whenZero]⟩
  | setclip | fillrect => exact ⟨_, _, rfl, by simp, by simp [decode, formatR, whenZero]⟩
  | writerect | readrect => exact ⟨_, _, rfl, by simp, by simp [decode, formatM, whenZero]⟩
  | writerectnbpp => exact ⟨_, _, rfl, by simp, by simp [decode, formatN]⟩
  | settextsize | drawchar => exact ⟨_, _, rfl, by simp, by simp [decode, formatI, whenZero]⟩

/-- Settles O4: the length of what is taken, then the packet of a command. -/
theorem packetLength : Obligations.PacketLength := by
  refine ⟨fun h ws => ?_, fun i rest hi => ?_⟩
  · rcases Nat.lt_or_ge ws.length (nwField h).toNat with hlt | hle
    · simp [fetchFrom_of_lt hlt, hlt]
    · rcases fetchFrom_of_le hle with ⟨i, hf⟩ | ⟨why, hf⟩ <;> simp [hf, Nat.not_lt_of_le hle, eq_comm]
  · obtain ⟨h, ops, he, hlen, hd⟩ := encode_eq_packet i hi
    rw [he]
    exact fetchFrom_of_decode hlen hd

/-! ## Steps -/

variable {s : State}

theorem step_of_fetch_idle (hw : s.waiting = false) (hf : fetchFrom s.port = .idle) : step s = .next s := by
  simp [step, hw, fetch, hf]

theorem step_of_fetch_packet (hw : s.waiting = false) {i : Instr} {rest : List Word} (hf : fetchFrom s.port = .packet i rest) :
    step s = exec i (withPort rest s) := by
  simp [step, hw, fetch, hf]

/-- Settles O6: what is fetched is the command, so the step executes it. -/
theorem stepRunsDecoded : Obligations.StepRunsDecoded := by
  intro s h ops rest i hw hport hlen hd
  exact step_of_fetch_packet hw (by rw [hport]; exact fetchFrom_of_decode hlen hd)

/-- Settles O8: nothing is fetched from an empty port or an incomplete packet. -/
theorem stepIdleKeepsState : Obligations.StepIdleKeepsState := by
  intro s hw hport
  refine step_of_fetch_idle hw ?_
  rcases hport with hnil | ⟨h, ws, hcons, hlt⟩
  · rw [hnil]; rfl
  · rw [hcons]; exact fetchFrom_of_lt hlt

end Sys2Proof.Machine
end

section
/-! PROOFS. The asynchronous transfer (20_memory.md R97, R98, 43_framebuffer.md R216 to R218): FLUSHASYNC, POLLASYNC, and WAITASYNC until
the sink answers 0. Settles O9 and O46. -/

namespace Sys2Proof.Machine

variable {s : State}

/-- An idle sink answers 0 (R98). -/
theorem askActive_of_idle (hb : s.asyncBusy = false) : askActive s = (false, { s with trace := s.trace ++ [.asyncActive false] }) := by
  simp [askActive, hb]

/-- With a transfer outstanding the answer is the environment's (R98). -/
theorem askActive_of_busy (hb : s.asyncBusy = true) : askActive s = (s.env.nextActive.1, { s with
    env := s.env.nextActive.2, asyncBusy := s.env.nextActive.1, trace := s.trace ++ [.asyncActive s.env.nextActive.1] }) := by
  simp [askActive, hb]

/-- FLUSHASYNC with the mirror enabled: refused on the answer 1, else a transfer starts (R216). -/
theorem execFlushasync_of_enabled (hen : s.fb.en = true) : execFlushasync s =
    .next (if (askActive s).1 then { (askActive s).2 with result := false } else startTransfer (askActive s).2) := by
  simp [execFlushasync, hen]

/-- Settles O46: each command is its query, and what follows from the answer. -/
theorem asyncCommandsResult : Obligations.AsyncCommandsResult := by
  refine ⟨⟨rfl, rfl, rfl⟩, fun s => ⟨fun hen => ?_, fun hb => ⟨fun hen => ?_, ?_, ?_⟩,
    fun hb => ⟨fun hen hact => ?_, fun hen hact => ?_, ?_, ?_⟩⟩⟩
  · simp [exec, execFlushasync, hen]
  · show execFlushasync s = _
    rw [execFlushasync_of_enabled hen, askActive_of_idle hb]
    simp [startTransfer]
  · simp [exec, execPollasync, askActive_of_idle hb]
  · simp [exec, execWaitasync, askActive_of_idle hb]
  · show execFlushasync s = _
    rw [execFlushasync_of_enabled hen, askActive_of_busy hb]
    simp [hact, ← hb]
  · show execFlushasync s = _
    rw [execFlushasync_of_enabled hen, askActive_of_busy hb]
    simp [hact, startTransfer, ← hb]
  · simp [exec, execPollasync, askActive_of_busy hb]
  · simp [exec, execWaitasync, askActive_of_busy hb]

/-! ## WAITASYNC in execution -/

/-- One more query of a WAITASYNC in execution, the answer scripted (R217). -/
theorem step_of_waiting (hw : s.waiting = true) (hb : s.asyncBusy = true) {answer : Bool} {later : List Bool}
    (henv : s.env.active = answer :: later) : step s = .next { s with
      waiting := answer, asyncBusy := answer, env := { s.env with active := later }
      trace := s.trace ++ [.asyncActive answer] } := by
  have hnext : s.env.nextActive = (answer, { s.env with active := later }) := by simp [Env.nextActive, henv]
  simp [step, hw, exec, execWaitasync, askActive_of_busy hb, hnext]

theorem stepTimes_succ_of_next {t : State} (h : step s = .next t) (n : Nat) : stepTimes (n + 1) s = stepTimes n t := by
  rw [stepTimes, h]

/-- After `k` answers of 1 the WAITASYNC is in execution still, and only those answers are gone (R217, R306). -/
theorem stepTimes_of_active : ∀ (k : Nat) (s : State) (later : List Bool), s.waiting = true → s.asyncBusy = true →
    s.env.active = List.replicate k true ++ later → stepTimes k s = some { s with
      env := { s.env with active := later }
      trace := s.trace ++ List.replicate k (.asyncActive true) }
  | 0, s, later, _, _, henv => by
    simp only [List.replicate_zero, List.nil_append] at henv
    simp [stepTimes, ← henv]
  | k + 1, s, later, hw, hb, henv => by
    rw [List.replicate_succ, List.cons_append] at henv
    rw [stepTimes_succ_of_next (step_of_waiting hw hb henv), stepTimes_of_active k _ later rfl rfl rfl]
    simp [hw, hb, List.replicate_succ]

theorem stepTimes_add (m n : Nat) (s : State) : stepTimes (m + n) s = (stepTimes m s).bind (stepTimes n) := by
  induction m generalizing s with
  | zero => simp [stepTimes]
  | succ m ih =>
    rw [Nat.succ_add, stepTimes, stepTimes]
    split
    · exact ih _
    · rfl
    · rfl

/-- Settles O9: the answers of 1 (`stepTimes_of_active`), then the answer 0. -/
theorem waitAsyncTerminates : Obligations.WaitAsyncTerminates := by
  intro s n later hw hb henv
  refine ⟨?_, fun k _ hk => ?_⟩
  · rw [stepTimes_add, stepTimes_of_active n s _ hw hb henv, Option.bind_some]
    have hlast := step_of_waiting (s := { s with
      env := { s.env with active := false :: later }, trace := s.trace ++ List.replicate n (.asyncActive true) }) hw hb rfl
    exact stepTimes_succ_of_next hlast 0
  · refine stepTimes_of_active k s _ hw hb ?_
    rw [henv, ← List.append_assoc, ← List.replicate_add, Nat.add_sub_cancel' hk]

end Sys2Proof.Machine
end

section
/-! PROOFS. READRECT in either mode (42_pixel_backend.md R197, 20_memory.md R78, R96) and FBENABLE (43_framebuffer.md R211, 20_memory.md R82,
R103). Settles O37, O38 and O41. -/

namespace Sys2Proof.Machine

variable {s : State} {x y w h : Half} {dst : Word} {v : Vis}

/-! ## READRECT, case by case -/

theorem readrectState_of_clipped (hv : clip s.canvas (s16 x) (s16 y) (s16 w) (s16 h) = none) : readrectState x y w h dst s = s := by
  simp only [readrectState, hv]

theorem readrectState_of_shadow (hv : clip s.canvas (s16 x) (s16 y) (s16 w) (s16 h) = some v) (hen : s.fb.en = true) :
    readrectState x y w h dst s =
      { s with mem := copyOut s v (s16 w) dst s.mem (rectPoints v.vx0 v.vy0 v.vx1 v.vy1) } := by
  simp only [readrectState, hv, readVisible, hen, if_true]

/-- The sink's answer to READRECT for a visible rectangle (R96). -/
def visibleAnswer (s : State) (v : Vis) : List Half := (s.env.nextPixels ((v.vx1 - v.vx0) * (v.vy1 - v.vy0)).toNat).1

theorem readrectState_of_direct (hv : clip s.canvas (s16 x) (s16 y) (s16 w) (s16 h) = some v) (hen : s.fb.en = false) :
    readrectState x y w h dst s = { s with
      mem := storeAnswer v (s16 w) dst s.mem (rectPoints v.vx0 v.vy0 v.vx1 v.vy1) (visibleAnswer s v)
      env := (s.env.nextPixels ((v.vx1 - v.vx0) * (v.vy1 - v.vy0)).toNat).2
      trace := s.trace ++ [.readRect (wrap16 v.vx0) (wrap16 v.vy0) (wrap16 (v.vx1 - v.vx0)) (wrap16 (v.vy1 - v.vy0))
        (visibleAnswer s v)] } := by
  simp only [readrectState, hv, readVisible, hen, Bool.false_eq_true, if_false]
  rfl

/-- The points of the loop are the visible ones, as the loop's lemmas want them. -/
theorem mem_visiblePoints (p : Int × Int) (hp : p ∈ rectPoints v.vx0 v.vy0 v.vx1 v.vy1) :
    (v.vx0 ≤ p.1 ∧ p.1 < v.vx1) ∧ v.vy0 ≤ p.2 ∧ p.2 < v.vy1 := by
  rwa [mem_rectPoints, ← and_assoc] at hp

/-- Bytes of no visible element are of no element of the loop. -/
theorem not_inRegion_of_visiblePoint (hv : clip s.canvas (s16 x) (s16 y) (s16 w) (s16 h) = some v) {a : Word}
    (ha : ∀ px py, Visible s.canvas (s16 x) (s16 y) (s16 w) (s16 h) px py →
      ¬ InRegion (elementAddr dst (srcIndex v (s16 w) px py), 2) a) (p : Int × Int) (hp : p ∈ rectPoints v.vx0 v.vy0 v.vx1 v.vy1) :
    ¬ InRegion (elementAddr dst (srcIndex v (s16 w) p.1 p.2), 2) a :=
  ha p.1 p.2 ((clip_some_iff_visible hv p.1 p.2).1 ((mem_rectPoints _ _ _ _ p).1 hp))

/-- Settles O37: each visible pixel by the loop over the buffer (`read16_copyOut`). -/
theorem readrectFromBuffer : Obligations.ReadrectFromBuffer := by
  intro x y w h dst s
  refine ⟨rfl, fun ⟨hc, ⟨halloc, _⟩, _⟩ hen hz hmapped => ⟨_, guarded_of_mapped hmapped, ?_⟩⟩
  have hmeet := regionsMeet_of_no_overlap (halloc hen) hz
  cases hv : clip s.canvas (s16 x) (s16 y) (s16 w) (s16 h) with
  | none => exact readrectState_of_clipped hv
  | some v =>
    rw [readrectState_of_shadow hv hen]
    refine ⟨rfl, fun px py hp => ?_, fun a ha => read_copyOut_of_out _ _ (not_inRegion_of_visiblePoint hv ha)⟩
    have hmem : (px, py) ∈ rectPoints v.vx0 v.vy0 v.vx1 v.vy1 :=
      (mem_rectPoints _ _ _ _ _).2 ((clip_some_iff_visible hv px py).2 hp)
    have hread := read16_copyOut rfl hc hv (dst := dst) (m0 := s.mem)
      (fun a hdst hbuf => not_both_of_regionsMeet hmeet a ⟨hbuf, hdst⟩) _ s.mem mem_visiblePoints (mem_visiblePoints _ hmem)
      fun _ _ => rfl
    rw [if_pos hmem] at hread
    exact hread

/-- Settles O38: the answer's pixels stand in the elements in order (`read16_storeAnswer`). -/
theorem readrectFromSink : Obligations.ReadrectFromSink := by
  intro x y w h dst s ⟨hc, _⟩ hen hmapped
  refine ⟨_, guarded_of_mapped hmapped, ?_⟩
  cases hv : clip s.canvas (s16 x) (s16 y) (s16 w) (s16 h) with
  | none => exact readrectState_of_clipped hv
  | some v =>
    have hcor := clip_corners hc hv
    have hlen : (visibleAnswer s v).length = ((v.vx1 - v.vx0) * (v.vy1 - v.vy0)).toNat := length_nextPixels _ _
    have hlen' : (rectPoints v.vx0 v.vy0 v.vx1 v.vy1).length = (visibleAnswer s v).length := by
      rw [hlen, length_rectPoints, mul_comm, Int.toNat_mul (by omega) (by omega)]
    rw [readrectState_of_direct hv hen]
    refine ⟨visibleAnswer s v, ?_, fun k hk hk' => (answered_nextPixels s.env _).first k hk hk', rfl, fun i j hi hj => ?_, fun a ha =>
      read_storeAnswer_of_out _ _ _ (not_inRegion_of_visiblePoint hv ha)⟩
    · rw [hlen, Int.toNat_of_nonneg (Int.mul_nonneg (by omega) (by omega))]
    · obtain ⟨hlt, hpoint⟩ := List.getElem?_eq_some_iff.1 (getElem?_rectPoints hi hj)
      have hread := read16_storeAnswer hv (dst := dst) _ (visibleAnswer s v) s.mem (rectPoints_nodup v.vx0 v.vy0 v.vx1 v.vy1) hlen'.le
        mem_visiblePoints _ hlt
      rw [hpoint] at hread
      exact hread

/-! ## FBENABLE -/

/-- The scripted bytes come first in a fresh buffer (R82). -/
theorem getElem_nextBytes {e : Env} {n k : Nat} {byte : Byte} (hb : e.bytes[k]? = some byte)
    (hk : k < (e.nextBytes n).1.length) : (e.nextBytes n).1[k] = byte := by
  simp [Env.nextBytes, hb]

/-- An ALLOC leaves the bytes to come. -/
theorem nextAlloc_bytes (e : Env) : e.nextAlloc.2.bytes = e.bytes := by
  unfold Env.nextAlloc
  split <;> rfl

/-- Settles O41: the three outcomes without an allocation by computation, the fourth by the bytes of the fresh buffer. -/
theorem fbenableResult : Obligations.FbenableResult := by
  refine ⟨rfl, fun s hc => ⟨fun hcap => ?_, fun hcap ha => ?_, fun hcap ha => ?_⟩⟩
  · simp [exec, execFbenable, hcap]
  · simp [exec, execFbenable, hcap, ha, enableMirror]
  · have hexec : exec .fbenable s = .next (allocateMirror s) := by simp [exec, execFbenable, hcap, ha]
    have hsize : fbSize s < 2 ^ 32 := by have := fbSize_lt hc; omega
    dsimp only
    rw [hexec]
    cases hans : s.env.nextAlloc.1 with
    | none => exact congrArg _ (allocateMirror_of_fail hans)
    | some b =>
      refine ⟨_, rfl, ?_⟩
      have hlen := length_nextBytes s.env.nextAlloc.2 (fbSize s)
      rw [allocateMirror_of_answer hans]
      refine ⟨rfl, blockAddr_toNat_mod b, fun a hout => ?_, fun k byte hk hb => ?_⟩
      · exact read_writeBytes_of_out _ _ _ _ (by omega) (by rw [hlen]; exact hout)
      · show Memory.read (Memory.writeBytes _ _ _) _ = _
        rw [read_writeBytes _ _ _ k (by omega) (by rw [hlen]; exact hk)]
        exact getElem_nextBytes (by rw [nextAlloc_bytes]; exact hb) _

end Sys2Proof.Machine
end

section
/-! PROOFS. The encoding (30_encoding.md R121 to R134): a packet and the command it decodes to determine each other, which packets are
illegal, and that ILL is the sign of one and of nothing else (60_exceptions.md R303). Settles O1, O2, O3, O5, O7 and O18. -/

namespace Sys2Proof.Machine

/-- Settles O1: the packet written for each command decodes to it (`encode_eq_packet`). -/
theorem decodeOfEncode : Obligations.DecodeOfEncode := encode_eq_packet

/-- Settles O5, by computing the thirteen packets. -/
theorem decodeSpecWords : Obligations.DecodeSpecWords := ⟨rfl, rfl, rfl, rfl, rfl, rfl, rfl, rfl, rfl, rfl, rfl, rfl, rfl⟩

/-! ## Rows of the opcode map -/

/-- The rows of the opcode map with the opcode `opc`. -/
def rowsOf (opc : Byte) : List OpcodeRow := opcodeTable.filter fun r => decide (opc &&& opcField r.mask = opcField r.pattern)

/-- The opcode map has one row for `opc`: its packets have `nw` operand words, and the immediate's bits under `mask` must be zero (R132). -/
def Assigned (opc nw : Byte) (mask : Half) : Prop :=
  (rowsOf opc).map (fun r => (nwField r.pattern, nwField r.mask, immField r.pattern, immField r.mask)) =
    [(nw, BitVec.allOnes 8, 0#16, mask)]

variable {h : Word} {ops : List Word}

/-- A row selects a header by its opcode, its word count and its immediate. -/
theorem selects_iff (r : OpcodeRow) (h : Word) : r.selects h = true ↔ opcField h &&& opcField r.mask = opcField r.pattern ∧
    nwField h &&& nwField r.mask = nwField r.pattern ∧ immField h &&& immField r.mask = immField r.pattern := by
  rw [← mkHeader_fields h, Laws.HeaderSelectsRow.selects_mkHeader]
  simp [and_assoc]

theorem mem_rowsOf_of_selects {r : OpcodeRow} (hr : r ∈ opcodeTable) (hsel : r.selects h = true) : r ∈ rowsOf (opcField h) :=
  List.mem_filter.2 ⟨hr, decide_eq_true ((selects_iff r h).1 hsel).1⟩

/-- No row selects a header with another word count or immediate than the row of its opcode allows. -/
theorem noRow_of_assigned {nw : Byte} {mask : Half} (ha : Assigned (opcField h) nw mask)
    (hne : nwField h ≠ nw ∨ immField h &&& mask ≠ 0#16) : ∀ r ∈ opcodeTable, r.selects h = false := by
  obtain ⟨q, hrows, hq⟩ := List.map_eq_singleton_iff.1 ha
  obtain ⟨rfl, hm, hp, rfl⟩ : nwField q.pattern = nw ∧ nwField q.mask = BitVec.allOnes 8 ∧ immField q.pattern = 0#16 ∧
      immField q.mask = mask := by simpa using hq
  intro r hr
  by_contra hsel
  rw [Bool.not_eq_false] at hsel
  obtain rfl : r = q := by simpa [hrows] using mem_rowsOf_of_selects hr hsel
  obtain ⟨-, hnw, himm⟩ := (selects_iff r h).1 hsel
  rw [hm, BitVec.and_allOnes] at hnw
  rw [hp] at himm
  exact hne.elim (· hnw) (· himm)

/-- The opcodes of the map (R132). -/
def opcodes : List Byte := opcodeTable.map fun r => opcField r.pattern

/-- No row selects a header whose opcode is not one of the map's. -/
theorem noRow_of_unassigned (hopc : opcField h ∉ opcodes) : ∀ r ∈ opcodeTable, r.selects h = false := by
  have hmask : ∀ r ∈ opcodeTable, opcField r.mask = BitVec.allOnes 8 := by decide
  intro r hr
  by_contra hsel
  rw [Bool.not_eq_false] at hsel
  obtain ⟨ho, -, -⟩ := (selects_iff r h).1 hsel
  rw [hmask r hr, BitVec.and_allOnes] at ho
  exact hopc (List.mem_map.2 ⟨r, hr, ho.symm⟩)

/-! ## What the decoder answers -/

/-- Why a packet with the words its header names is illegal (R134). -/
def IllegalCause (h : Word) (ops : List Word) : Prop :=
  (∀ r ∈ opcodeTable, r.selects h = false) ∨ (opcField h = 0x30#8 ∧ immField h = 3#16) ∨
  ((opcField h = 0x11#8 ∨ opcField h = 0x12#8) ∧ ∃ w1 w2, ops = [w1, w2] ∧ hiField w2 ≠ 0#16)

/-- `i` is a legal command and the packet is its encoding. -/
def Encodes (i : Instr) (h : Word) (ops : List Word) : Prop := i.wellFormed = true ∧ encode i = h :: ops

/-- An answer the encoding justifies: a command that the packet encodes, or an illegal packet with a cause. -/
def Justified (h : Word) (ops : List Word) : Except Illegal Instr → Prop
  | .ok i => Encodes i h ops
  | .error _ => IllegalCause h ops

theorem justified_whenZero {ok : Bool} {i : Instr} (hok : ok = true → Encodes i h ops) (hbad : ok = false → IllegalCause h ops) :
    Justified h ops (whenZero ok i) := by
  cases ok with
  | true => exact hok rfl
  | false => exact hbad rfl

/-- To be the encoding of the header's own fields and the operand words is to be that of the packet. -/
theorem encodes_of_fields {i : Instr} {opc : Byte} (hopc : opcField h = opc) (hlen : ops.length = (nwField h).toNat)
    (he : Encodes i (mkHeader (immField h) (BitVec.ofNat 8 ops.length) opc) ops) : Encodes i h ops := by
  rwa [hlen, BitVec.ofNat_toNat, BitVec.setWidth_eq, ← hopc, mkHeader_fields] at he

/-! ## The tests of an immediate -/

/-- Why a test of the immediate fails: a bit that must be zero is not, or the kind of a SETFONT is 3 (R134). -/
def BadImmediate (h : Word) (mask : Half) : Prop :=
  immField h &&& mask ≠ 0#16 ∨ (opcField h = 0x30#8 ∧ immField h = 3#16)

theorem badImmediate_of_ne_zero (hz : (immField h == 0#16) = false) : BadImmediate h (BitVec.allOnes 16) :=
  .inl (by rw [BitVec.and_allOnes]; simpa using hz)

/-- A value with no bit at `k` or above is below 2^k. -/
theorem toNat_lt_of_and_eq_zero {v : Half} {k : Nat} (hv : v &&& (BitVec.allOnes 16 <<< k) = 0#16) : v.toNat < 2 ^ k := by
  refine Nat.lt_pow_two_of_testBit _ fun j hj => ?_
  rw [BitVec.testBit_toNat]
  have hbit := congrArg (BitVec.getLsbD · j) hv
  by_cases hw : j < 16
  · simpa only [BitVec.getLsbD_and, BitVec.getLsbD_shiftLeft, BitVec.getLsbD_allOnes, hw, Nat.not_lt_of_le hj,
      show j - k < 16 by omega, decide_true, decide_false, Bool.not_false, Bool.and_true, BitVec.getLsbD_zero] using hbit
  · exact BitVec.getLsbD_of_ge v j (by omega)

theorem badImmediate_of_flag (hf : decide ((immField h).toNat < 2) = false) : BadImmediate h 0xFFFE#16 :=
  .inl fun hz => of_decide_eq_false hf (toNat_lt_of_and_eq_zero (k := 1) hz)

theorem badImmediate_of_kind (hopc : opcField h = 0x30#8) (hk : decide ((immField h).toNat < 3) = false) :
    BadImmediate h 0xFFFC#16 := by
  by_cases h3 : immField h = 3#16
  · exact .inr ⟨hopc, h3⟩
  · refine .inl fun hz => h3 (BitVec.eq_of_toNat_eq ?_)
    have hlt : (immField h).toNat < 2 ^ 2 := toNat_lt_of_and_eq_zero hz
    have hge := of_decide_eq_false hk
    show (immField h).toNat = 3
    omega

/-- A flag's immediate comes back from the flag (R123, R126). -/
theorem immediate_of_flag {imm : Half} (hf : imm.toNat < 2) : flagImm (imm.getLsbD 0) = imm := by
  have hcases : imm = 0#16 ∨ imm = 1#16 := by
    rcases (by omega : imm.toNat = 0 ∨ imm.toNat = 1) with h0 | h1
    · exact .inl (BitVec.eq_of_toNat_eq h0)
    · exact .inr (BitVec.eq_of_toNat_eq h1)
  rcases hcases with rfl | rfl <;> rfl

/-- A legal kind's immediate comes back from the kind (R129, R134). -/
theorem immediate_of_kind {imm : Half} (hk : imm.toNat < 3) :
    imm.extractLsb' 0 2 ≠ 3#2 ∧ (imm.extractLsb' 0 2).setWidth 16 = imm := by
  have hval : (imm.extractLsb' 0 2).toNat = imm.toNat := by
    rw [BitVec.extractLsb'_toNat, Nat.shiftRight_zero]
    omega
  refine ⟨fun h3 => ?_, BitVec.eq_of_toNat_eq ?_⟩
  · rw [h3] at hval
    exact absurd hval (by simpa using hk.ne')
  · rw [BitVec.toNat_setWidth, hval]
    omega

/-- An immediate is its two bytes (R123). -/
theorem immediate_bytes (imm : Half) : (imm.extractLsb' 8 8 ++ imm.extractLsb' 0 8 : BitVec (8 + 8)) = imm :=
  (BitVec.extractLsb'_append_extractLsb'_eq_extractLsb' rfl).trans BitVec.extractLsb'_eq_self

/-! ## The formats -/

section formats
variable {opc nw : Byte} {mask : Half} {ok : Bool} (hopc : opcField h = opc) (hlen : ops.length = (nwField h).toNat)
include hopc

theorem illegal_of_immediate (ha : Assigned opc nw mask) (hbad : BadImmediate h mask) : IllegalCause h ops :=
  hbad.elim (fun hne => .inl (noRow_of_assigned (hopc ▸ ha) (.inr hne))) fun hkind => .inr (.inl hkind)

include hlen

theorem illegal_of_count (ha : Assigned opc nw mask) (hne : ops.length ≠ nw.toNat) : IllegalCause h ops :=
  .inl (noRow_of_assigned (hopc ▸ ha) (.inl fun he => hne (by rw [hlen, he])))

/-- Formats I and Z (R122, R123). -/
theorem justified_formatI {i : Instr} (ha : Assigned opc 0 mask) (hbad : ok = false → BadImmediate h mask)
    (he : ok = true → Encodes i (mkHeader (immField h) 0 opc) []) : Justified h ops (formatI ops ok i) := by
  match ops with
  | [] => exact justified_whenZero (fun hz => encodes_of_fields hopc hlen (he hz)) fun hz => illegal_of_immediate hopc ha (hbad hz)
  | _ :: _ => exact illegal_of_count hopc hlen ha (by simp)

/-- Formats P, A and C (R124, R129, R130). -/
theorem justified_format1 {f : Word → Instr} (ha : Assigned opc 1 mask) (hbad : ok = false → BadImmediate h mask)
    (he : ok = true → ∀ w, Encodes (f w) (mkHeader (immField h) 1 opc) [w]) : Justified h ops (format1 ops ok f) := by
  match ops with
  | [w] => exact justified_whenZero (fun hz => encodes_of_fields hopc hlen (he hz w)) fun hz => illegal_of_immediate hopc ha (hbad hz)
  | [] | _ :: _ :: _ => exact illegal_of_count hopc hlen ha (by simp)

/-- Formats P and C: the operand word is a pair (R124, R130). -/
theorem justified_pair {f : Half → Half → Instr} (ha : Assigned opc 1 mask) (hbad : ok = false → BadImmediate h mask)
    (he : ok = true → ∀ x y, Encodes (f x y) (mkHeader (immField h) 1 opc) [mkPair y x]) :
    Justified h ops (format1 ops ok fun w => f (loField w) (hiField w)) :=
  justified_format1 hopc hlen ha hbad fun hz w => by simpa only [mkPair_fields] using he hz (loField w) (hiField w)

/-- Format L (R125): the one cause of R134 in an operand word. -/
theorem justified_formatL {f : Half → Half → Half → Instr} (ha : Assigned opc 2 0#16) (hline : opc = 0x11#8 ∨ opc = 0x12#8)
    (he : ∀ x y n, Encodes (f x y n) (mkHeader (immField h) 2 opc) [mkPair y x, mkPair 0 n]) :
    Justified h ops (formatL ops f) := by
  match ops with
  | [w1, w2] =>
    refine justified_whenZero (fun hz => ?_) fun hz => .inr (.inr ⟨hopc ▸ hline, w1, w2, rfl, by simpa using hz⟩)
    have hw := he (loField w1) (hiField w1) (loField w2)
    rw [mkPair_fields, show (0 : Half) = hiField w2 from (eq_of_beq hz).symm, mkPair_fields] at hw
    exact encodes_of_fields hopc hlen hw
  | [] | [_] | _ :: _ :: _ :: _ => exact illegal_of_count hopc hlen ha (by simp)

/-- Format R (R126). -/
theorem justified_formatR {f : Half → Half → Half → Half → Instr} (ha : Assigned opc 2 mask)
    (hbad : ok = false → BadImmediate h mask)
    (he : ok = true → ∀ x y w n, Encodes (f x y w n) (mkHeader (immField h) 2 opc) [mkPair y x, mkPair n w]) :
    Justified h ops (formatR ops ok f) := by
  match ops with
  | [w1, w2] =>
    refine justified_whenZero (fun hz => ?_) fun hz => illegal_of_immediate hopc ha (hbad hz)
    have hw := he hz (loField w1) (hiField w1) (loField w2) (hiField w2)
    rw [mkPair_fields, mkPair_fields] at hw
    exact encodes_of_fields hopc hlen hw
  | [] | [_] | _ :: _ :: _ :: _ => exact illegal_of_count hopc hlen ha (by simp)

/-- Format M (R127). -/
theorem justified_formatM {f : Half → Half → Half → Half → Word → Instr} (ha : Assigned opc 3 (BitVec.allOnes 16))
    (he : (immField h == 0#16) = true →
      ∀ x y w n a, Encodes (f x y w n a) (mkHeader (immField h) 3 opc) [mkPair y x, mkPair n w, a]) :
    Justified h ops (formatM (immField h) ops f) := by
  match ops with
  | [w1, w2, w3] =>
    refine justified_whenZero (fun hz => ?_) fun hz => illegal_of_immediate hopc ha (badImmediate_of_ne_zero hz)
    have hw := he hz (loField w1) (hiField w1) (loField w2) (hiField w2) w3
    rw [mkPair_fields, mkPair_fields] at hw
    exact encodes_of_fields hopc hlen hw
  | [] | [_] | [_, _] | _ :: _ :: _ :: _ :: _ => exact illegal_of_count hopc hlen ha (by simp)

/-- Format N (R128). -/
theorem justified_formatN {f : Half → Half → Half → Half → Word → Word → Instr} (ha : Assigned opc 4 mask)
    (he : ∀ x y w n a p, Encodes (f x y w n a p) (mkHeader (immField h) 4 opc) [mkPair y x, mkPair n w, a, p]) :
    Justified h ops (formatN ops f) := by
  match ops with
  | [w1, w2, w3, w4] =>
    have hw := he (loField w1) (hiField w1) (loField w2) (hiField w2) w3 w4
    rw [mkPair_fields, mkPair_fields] at hw
    exact encodes_of_fields hopc hlen hw
  | [] | [_] | [_, _] | [_, _, _] | _ :: _ :: _ :: _ :: _ :: _ => exact illegal_of_count hopc hlen ha (by simp)

end formats

/-! ## Every answer is justified -/

/-- Format Z is format I with the immediate zero (R122). -/
theorem formatZ_eq_formatI (imm : Half) (ops : List Word) (i : Instr) : formatZ imm ops i = formatI ops (imm == 0#16) i := by
  cases ops <;> rfl

/-- A command whose immediate is zero. -/
theorem encodes_of_immediate_zero {i : Instr} {nw opc : Byte} (hz : (immField h == 0#16) = true)
    (he : Encodes i (mkHeader 0#16 nw opc) ops) : Encodes i (mkHeader (immField h) nw opc) ops := by
  rwa [eq_of_beq hz]

theorem justified_formatZ {i : Instr} {opc : Byte} (hopc : opcField h = opc) (hlen : ops.length = (nwField h).toNat)
    (ha : Assigned opc 0 (BitVec.allOnes 16)) (he : Encodes i (mkHeader 0#16 0 opc) []) :
    Justified h ops (formatZ (immField h) ops i) := by
  rw [formatZ_eq_formatI]
  exact justified_formatI hopc hlen ha badImmediate_of_ne_zero fun hz => encodes_of_immediate_zero hz he

/-- The decoder answers what the encoding and the opcode map say, opcode by opcode (R132 to R134). -/
theorem justified_decode (hlen : ops.length = (nwField h).toNat) : Justified h ops (decode h ops) := by
  unfold decode
  dsimp only
  split
  -- NOP, FBENABLE, FBDISABLE, FBRELEASE, FLUSH, FLUSHASYNC, WAITASYNC, POLLASYNC
  case h_1 hopc | h_13 hopc | h_14 hopc | h_15 hopc | h_16 hopc | h_17 hopc | h_18 hopc | h_19 hopc =>
    exact justified_formatZ hopc hlen rfl ⟨rfl, rfl⟩
  -- SETCANVAS, SETORIGIN, SETCURSOR, SETTEXTCOLOR
  case h_2 hopc | h_3 hopc | h_21 hopc | h_22 hopc =>
    exact justified_pair hopc hlen rfl badImmediate_of_ne_zero fun hz _ _ =>
      encodes_of_immediate_zero hz ⟨rfl, rfl⟩
  -- SETCLIP
  case h_4 hopc =>
    exact justified_formatR hopc hlen rfl badImmediate_of_ne_zero fun hz _ _ _ _ =>
      encodes_of_immediate_zero hz ⟨rfl, rfl⟩
  -- SETPIXEL
  case h_5 hopc =>
    exact justified_pair (f := fun x y => .setpixel x y _) hopc hlen rfl (fun hz => nomatch hz)
      fun _ _ _ => ⟨rfl, rfl⟩
  -- FASTVLINE, FASTHLINE
  case h_6 hopc | h_7 hopc =>
    exact justified_formatL hopc hlen rfl (by decide) fun _ _ _ => ⟨rfl, rfl⟩
  -- FILLRECT
  case h_8 hopc =>
    exact justified_formatR hopc hlen rfl (fun hz => nomatch hz) fun _ _ _ _ _ => ⟨rfl, rfl⟩
  -- WRITERECT, READRECT
  case h_9 hopc | h_10 hopc =>
    exact justified_formatM hopc hlen rfl fun hz _ _ _ _ _ => encodes_of_immediate_zero hz ⟨rfl, rfl⟩
  -- WRITERECTNBPP
  case h_11 hopc => exact justified_formatN hopc hlen rfl fun _ _ _ _ _ _ => ⟨rfl, rfl⟩
  -- FBSETEXT
  case h_12 hopc =>
    exact justified_format1 hopc hlen rfl badImmediate_of_ne_zero fun hz _ =>
      encodes_of_immediate_zero hz ⟨rfl, rfl⟩
  -- SETFONT
  case h_20 hopc =>
    refine justified_format1 hopc hlen rfl (badImmediate_of_kind hopc) fun hk w => ?_
    obtain ⟨hlegal, himm⟩ := immediate_of_kind (of_decide_eq_true hk)
    exact ⟨by simpa [Instr.wellFormed] using hlegal, by rw [encode, himm]; rfl⟩
  -- SETTEXTWRAP
  case h_23 hopc =>
    exact justified_formatI hopc hlen rfl badImmediate_of_flag fun hf =>
      ⟨rfl, by rw [encode, immediate_of_flag (of_decide_eq_true hf)]; rfl⟩
  -- SETTEXTSIZE
  case h_24 hopc =>
    exact justified_formatI hopc hlen rfl (fun hz => nomatch hz) fun _ =>
      ⟨rfl, by rw [encode, immediate_bytes]; rfl⟩
  -- SETSCROLL
  case h_25 hopc =>
    exact justified_formatR hopc hlen rfl badImmediate_of_flag fun hf _ _ _ _ =>
      ⟨rfl, by rw [encode, immediate_of_flag (of_decide_eq_true hf)]; rfl⟩
  -- DRAWCHAR
  case h_26 hopc => exact justified_formatI hopc hlen rfl (fun hz => nomatch hz) fun _ => ⟨rfl, rfl⟩
  -- an opcode that is not in the map
  case h_27 =>
    refine .inl (noRow_of_unassigned fun hmem => ?_)
    rw [show opcodes = [0x00, 0x01, 0x02, 0x03, 0x10, 0x11, 0x12, 0x13, 0x14, 0x15, 0x16, 0x20, 0x21, 0x22, 0x23, 0x24, 0x25, 0x26,
      0x27, 0x30, 0x31, 0x32, 0x33, 0x34, 0x35, 0x36] from rfl] at hmem
    simp_all

theorem encodes_of_decode {i : Instr} (hlen : ops.length = (nwField h).toNat) (hd : decode h ops = .ok i) : Encodes i h ops := by
  have hj := justified_decode hlen
  rwa [hd] at hj

theorem illegalCause_of_decode {why : Illegal} (hlen : ops.length = (nwField h).toNat) (hd : decode h ops = .error why) :
    IllegalCause h ops := by
  have hj := justified_decode hlen
  rwa [hd] at hj

/-- Settles O2: a command is a justified answer when the packet encodes it (`justified_decode`). -/
theorem encodeOfDecode : Obligations.EncodeOfDecode := fun _ _ _ hlen hd => encodes_of_decode hlen hd

/-! ## Illegal packets -/

/-- The family `HeaderSelectsRow` for every command. -/
theorem headerSelectsRow (i : Instr) : Laws.HeaderSelectsRow.Statement i := by
  cases i with
  | nop => exact Laws.HeaderSelectsRow.nop
  | setcanvas => exact Laws.HeaderSelectsRow.setcanvas _ _
  | setorigin => exact Laws.HeaderSelectsRow.setorigin _ _
  | setclip => exact Laws.HeaderSelectsRow.setclip _ _ _ _
  | setpixel => exact Laws.HeaderSelectsRow.setpixel _ _ _
  | fastvline => exact Laws.HeaderSelectsRow.fastvline _ _ _ _
  | fasthline => exact Laws.HeaderSelectsRow.fasthline _ _ _ _
  | fillrect => exact Laws.HeaderSelectsRow.fillrect _ _ _ _ _
  | writerect => exact Laws.HeaderSelectsRow.writerect _ _ _ _ _
  | readrect => exact Laws.HeaderSelectsRow.readrect _ _ _ _ _
  | writerectnbpp => exact Laws.HeaderSelectsRow.writerectnbpp _ _ _ _ _ _ _
  | fbsetext => exact Laws.HeaderSelectsRow.fbsetext _
  | fbenable => exact Laws.HeaderSelectsRow.fbenable
  | fbdisable => exact Laws.HeaderSelectsRow.fbdisable
  | fbrelease => exact Laws.HeaderSelectsRow.fbrelease
  | flush => exact Laws.HeaderSelectsRow.flush
  | flushasync => exact Laws.HeaderSelectsRow.flushasync
  | waitasync => exact Laws.HeaderSelectsRow.waitasync
  | pollasync => exact Laws.HeaderSelectsRow.pollasync
  | setfont => exact Laws.HeaderSelectsRow.setfont _ _
  | setcursor => exact Laws.HeaderSelectsRow.setcursor _ _
  | settextcolor => exact Laws.HeaderSelectsRow.settextcolor _ _
  | settextwrap => exact Laws.HeaderSelectsRow.settextwrap _
  | settextsize => exact Laws.HeaderSelectsRow.settextsize _ _
  | setscroll => exact Laws.HeaderSelectsRow.setscroll _ _ _ _ _
  | drawchar => exact Laws.HeaderSelectsRow.drawchar _

/-- The header of an encoded command selects that command's row alone. -/
theorem Encodes.selected {i : Instr} (he : Encodes i h ops) : Laws.HeaderSelectsRow.selected h = [i.mnemonic] := by
  obtain ⟨hw, henc⟩ := he
  obtain ⟨g, gs, henc', -, hsel⟩ := headerSelectsRow i hw
  obtain ⟨rfl, -⟩ := List.cons.inj (henc.symm.trans henc')
  exact hsel

/-- A SETFONT of kind 3 is illegal (R134). -/
theorem decode_kind3 (hopc : opcField h = 0x30#8) (himm : immField h = 3#16) : ∃ why, decode h ops = .error why := by
  simp only [decode, hopc, himm, format1]
  split
  · exact ⟨_, rfl⟩
  · exact ⟨_, rfl⟩

/-- A line whose length word has a high bit set is illegal (R134). -/
theorem decode_longLine {w1 w2 : Word} (hopc : opcField h = 0x11#8 ∨ opcField h = 0x12#8) (hw : hiField w2 ≠ 0#16) :
    decode h [w1, w2] = .error .reservedField := by
  have hne : (hiField w2 == 0#16) = false := beq_eq_false_iff_ne.2 hw
  rcases hopc with hv | hh
  · simp [decode, hv, formatL, whenZero, hne]
  · simp [decode, hh, formatL, whenZero, hne]

/-- Each cause makes the packet illegal. -/
theorem decode_of_illegalCause (hlen : ops.length = (nwField h).toNat) (hc : IllegalCause h ops) :
    ∃ why, decode h ops = .error why := by
  rcases hc with hrows | ⟨hopc, himm⟩ | ⟨hopc, w1, w2, rfl, hw⟩
  · cases hd : decode h ops with
    | error why => exact ⟨why, rfl⟩
    | ok i =>
      have hsel := (encodes_of_decode hlen hd).selected
      have hnil : opcodeTable.filter (fun r => r.selects h) = [] := by simpa [List.filter_eq_nil_iff] using hrows
      rw [Laws.HeaderSelectsRow.selected, hnil] at hsel
      cases hsel
  · exact decode_kind3 hopc himm
  · exact ⟨_, decode_longLine hopc hw⟩

/-- Settles O3: an illegal answer is justified by a cause, each cause makes the packet illegal, and a command's header is its own. -/
theorem illegalPacketCauses : Obligations.IllegalPacketCauses := fun _ _ hlen =>
  ⟨⟨fun ⟨_, hd⟩ => illegalCause_of_decode hlen hd, decode_of_illegalCause hlen⟩,
    fun _ hd => (encodes_of_decode hlen hd).selected⟩

/-! ## Illegal packets at the port -/

theorem fetchFrom_of_error {rest : List Word} {why : Illegal} (hlen : ops.length = (nwField h).toNat)
    (hd : decode h ops = .error why) : fetchFrom (h :: (ops ++ rest)) = .illegal why rest := by
  unfold fetchFrom
  rw [splitPacket_append hlen]
  dsimp only
  rw [hd]

theorem step_of_fetch_illegal {s : State} {why : Illegal} {rest : List Word} (hw : s.waiting = false)
    (hf : fetchFrom s.port = .illegal why rest) : step s = .next (discardPacket rest s) := by
  simp [step, hw, fetch, hf]

/-- Settles O7: what is fetched is illegal, so the step discards it. -/
theorem stepDiscardsIllegal : Obligations.StepDiscardsIllegal := by
  intro s h ops rest why hw hport hlen hd
  exact step_of_fetch_illegal hw (by rw [hport]; exact fetchFrom_of_error hlen hd)

/-! ## ILL -/

/-- A packet that is split off has the words its header names (R133). -/
theorem splitPacket_length {ws rest : List Word} (hs : splitPacket ws = some (h, ops, rest)) : ops.length = (nwField h).toNat := by
  cases ws with
  | nil => cases hs
  | cons g ws =>
    rcases Nat.lt_or_ge ws.length (nwField g).toNat with hlt | hle
    · rw [splitPacket_of_lt hlt] at hs
      cases hs
    · rw [splitPacket_of_le hle] at hs
      cases hs
      exact List.length_take_of_le hle

/-- A command that is fetched is well formed (R134). -/
theorem wellFormed_of_fetchFrom {ws rest : List Word} {i : Instr} (hf : fetchFrom ws = .packet i rest) : i.wellFormed = true := by
  unfold fetchFrom at hf
  split at hf
  · cases hf
  next hs =>
    split at hf
    next hd =>
      cases hf
      exact (encodes_of_decode (splitPacket_length hs) hd).1
    · cases hf

variable {s t : State}

/-- No well-formed command writes ILL: a command that runs alike with any ILL and leaves it as given leaves the one it found (R303). -/
theorem exec_ill {i : Instr} (hw : i.wellFormed = true) (he : exec i s = .next t) : t.ill = s.ill := by
  obtain ⟨u, hu, hsame, -⟩ := illAndUnicodeAreNeverRead i s t s.ill s.font.unicode hw he
  obtain rfl : t = u := Host.Outcome.next.inj (he.symm.trans hu)
  rw [hsame]

/-- Every step leaves ILL, or takes an illegal packet and sets it (R134, R303). -/
theorem step_ill (he : step s = .next t) :
    t.ill = s.ill ∨ (t.ill = true ∧ s.waiting = false ∧ ∃ why rest, fetchFrom s.port = .illegal why rest) := by
  cases hw : s.waiting with
  | true => exact .inl (exec_ill (i := .waitasync) rfl (by simpa [step, hw] using he))
  | false =>
    cases hf : fetchFrom s.port with
    | idle =>
      rw [step_of_fetch_idle hw hf] at he
      obtain rfl := Host.Outcome.next.inj he
      exact .inl rfl
    | illegal why rest =>
      rw [step_of_fetch_illegal hw hf] at he
      obtain rfl := Host.Outcome.next.inj he
      exact .inr ⟨rfl, rfl, why, rest, rfl⟩
    | packet i rest =>
      rw [step_of_fetch_packet hw hf] at he
      exact .inl (exec_ill (s := withPort rest s) (wellFormed_of_fetchFrom hf) he)

/-- Settles O18 (`step_ill`). -/
theorem illIsSticky : Obligations.IllIsSticky := by
  intro s t he
  rcases step_ill he with hsame | ⟨hset, hcause⟩
  · exact ⟨fun hill => hsame.trans hill, fun hclear hill => absurd (hsame.symm.trans hill) (by simp [hclear])⟩
  · exact ⟨fun _ => hset, fun _ _ => hcause⟩

end Sys2Proof.Machine
end

section
/-! PROOFS. The clip engine, the colours and the blend (40_clip_and_common.md R151 to R157, R162, R166). Settles O24 to O27. -/

namespace Sys2Proof.Machine

/-! ## The clip engine -/

/-- Settles O24: NONE by `clip_none`, the rectangle by `clip_some`, the element numbers by `srcIndex_bounds` and `srcIndex_inj`. -/
theorem clipIsIntersection : Obligations.ClipIsIntersection := by
  intro c x y w h
  cases hv : clip c x y w h with
  | none => exact clip_none hv
  | some v =>
    obtain ⟨-, -, hX, hY, -, -, -, -, hx, hy⟩ := clip_some hv
    refine ⟨hX, hY, hx, hy, clip_some_iff_visible hv, fun hc px py hp => ?_⟩
    obtain ⟨hx0, hx1, hy0, hy1⟩ := (clip_some_iff_visible hv px py).2 hp
    obtain ⟨hlow, hhigh⟩ := srcIndex_bounds hv ⟨hx0, hx1⟩ ⟨hy0, hy1⟩
    refine ⟨onCanvas_of_visible hc hp, hlow, hhigh, fun qx qy hq he => ?_⟩
    obtain ⟨gx0, gx1, -⟩ := (clip_some_iff_visible hv qx qy).2 hq
    exact srcIndex_inj hv ⟨gx0, gx1⟩ ⟨hx0, hx1⟩ he

/-! ## Colours -/

/-- Settles O25. -/
theorem colourRoundTrip : Obligations.ColourRoundTrip := ⟨quant565_expand888, fromFB_toFB⟩

/-- The red channel of a colour put together from its channels (R15). -/
@[simp] theorem red5_append (r : BitVec 5) (g : BitVec 6) (b : BitVec 5) : red5 (r ++ g ++ b) = r := by
  rw [red5, BitVec.extractLsb'_append_eq_of_le (by decide), BitVec.extractLsb'_append_eq_of_le (by decide)]
  exact BitVec.extractLsb'_eq_self

/-- The green one. -/
@[simp] theorem green6_append (r : BitVec 5) (g : BitVec 6) (b : BitVec 5) : green6 (r ++ g ++ b) = g := by
  rw [green6, BitVec.extractLsb'_append_eq_of_le (by decide), BitVec.extractLsb'_append_eq_of_add_le (by decide)]
  exact BitVec.extractLsb'_eq_self

/-- The blue one. -/
@[simp] theorem blue5_append (r : BitVec 5) (g : BitVec 6) (b : BitVec 5) : blue5 (r ++ g ++ b) = b := by
  rw [blue5, BitVec.extractLsb'_append_eq_of_add_le (by decide)]
  exact BitVec.extractLsb'_eq_self

/-! ## One channel of the blend (R157) -/

/-- The weighted sum is the background plus the scaled difference, whatever the sign of the difference. -/
theorem weightedSum_eq (f b a : Int) : (f * a + b * (32 - a)) / 32 = b + (f - b) * a / 32 := by
  rw [show f * a + b * (32 - a) = b * 32 + (f - b) * a by ring]
  omega

@[simp] theorem blendChannel_zero (f b : Nat) : blendChannel f b 0 = b := by simp [blendChannel]

@[simp] theorem blendChannel_self (f : Nat) (a : Int) : blendChannel f f a = f := by simp [blendChannel, weightedSum_eq]

/-- A blended channel of `n` bits fits its bits. -/
theorem blendChannel_bounds {n : Nat} (f b : BitVec n) {a : Int} (h0 : 0 ≤ a) (h1 : a < 32) :
    0 ≤ blendChannel f.toNat b.toNat a ∧ blendChannel f.toNat b.toNat a < 2 ^ n := by
  have hf : (f.toNat : Int) ≤ 2 ^ n - 1 := by have := f.isLt; zify at this; omega
  have hb : (b.toNat : Int) ≤ 2 ^ n - 1 := by have := b.isLt; zify at this; omega
  have hfa := Int.mul_le_mul_of_nonneg_right hf h0
  have hba := Int.mul_le_mul_of_nonneg_right hb (show 0 ≤ 32 - a by omega)
  have hsum : ((2 : Int) ^ n - 1) * a + (2 ^ n - 1) * (32 - a) = 32 * 2 ^ n - 32 := by ring
  have hfa0 := Int.mul_nonneg (Int.natCast_nonneg f.toNat) h0
  have hba0 := Int.mul_nonneg (Int.natCast_nonneg b.toNat) (show 0 ≤ 32 - a by omega)
  unfold blendChannel
  omega

/-- So the stored channel is the blended one. -/
theorem toNat_ofInt_blendChannel {n : Nat} (f b : BitVec n) {a : Int} (h0 : 0 ≤ a) (h1 : a < 32) :
    ((BitVec.ofInt n (blendChannel f.toNat b.toNat a)).toNat : Int) = blendChannel f.toNat b.toNat a := by
  obtain ⟨hlow, hhigh⟩ := blendChannel_bounds f b h0 h1
  rw [BitVec.toNat_ofInt, Int.toNat_of_nonneg (Int.emod_nonneg _ (by positivity)), Int.emod_eq_of_lt hlow (by exact_mod_cast hhigh)]

/-! ## The blend -/

theorem blend_zero (fg bg : Half) : blend fg bg 0 = bg := by
  simp only [blend, blendChannel_zero, BitVec.ofInt_natCast, BitVec.ofNat_toNat, BitVec.setWidth_eq]
  exact channels_append bg

theorem blend_self (fg : Half) (a : Int) : blend fg fg a = fg := by
  simp only [blend, blendChannel_self, BitVec.ofInt_natCast, BitVec.ofNat_toNat, BitVec.setWidth_eq]
  exact channels_append fg

/-- Settles O26, channel by channel (`toNat_ofInt_blendChannel`). -/
theorem blendChannels : Obligations.BlendChannels := by
  refine ⟨blend_zero, blend_self, by decide, fun fg bg a h0 h1 => ⟨fun f b => weightedSum_eq f b a, ?_, ?_, ?_⟩⟩
  · rw [blend, red5_append, toNat_ofInt_blendChannel _ _ h0 h1, blendChannel]
  · rw [blend, green6_append, toNat_ofInt_blendChannel _ _ h0 h1, blendChannel]
  · rw [blend, blue5_append, toNat_ofInt_blendChannel _ _ h0 h1, blendChannel]

/-! ## The blend in packed lanes (R166) -/

/-- Three channels in separated lanes: green in bits 26:21, red in 15:11, blue in 4:0 (R166). -/
def lanes (r : BitVec 5) (g : BitVec 6) (b : BitVec 5) : Word :=
  g.setWidth 32 <<< 21 ||| (r.setWidth 32 <<< 11 ||| b.setWidth 32)

/-- Lanes as a number. -/
theorem toNat_lanes (r : BitVec 5) (g : BitVec 6) (b : BitVec 5) :
    (lanes r g b).toNat = g.toNat * 2 ^ 21 + (r.toNat * 2 ^ 11 + b.toNat) := by
  have hr := r.isLt
  have hb := b.isLt
  have hg := g.isLt
  have hlow : r.toNat <<< 11 ||| b.toNat = r.toNat <<< 11 + b.toNat := (Nat.shiftLeft_add_eq_or_of_lt (by omega) _).symm
  have hall : g.toNat <<< 21 ||| (r.toNat <<< 11 + b.toNat) = g.toNat <<< 21 + (r.toNat <<< 11 + b.toNat) :=
    (Nat.shiftLeft_add_eq_or_of_lt (by rw [Nat.shiftLeft_eq]; omega) _).symm
  simp only [lanes, BitVec.toNat_or, BitVec.toNat_shiftLeft, BitVec.toNat_setWidth_of_le (show 5 ≤ 32 by decide),
    BitVec.toNat_setWidth_of_le (show 6 ≤ 32 by decide)]
  rw [Nat.mod_eq_of_lt (by rw [Nat.shiftLeft_eq]; omega), Nat.mod_eq_of_lt (by rw [Nat.shiftLeft_eq]; omega), hlow, hall,
    Nat.shiftLeft_eq, Nat.shiftLeft_eq]

/-- The mask of R166 keeps the lanes and nothing else. -/
theorem and_laneMask (v : Word) : v &&& 0x07E0F81F#32 = lanes (v.extractLsb' 11 5) (v.extractLsb' 21 6) (v.extractLsb' 0 5) := by
  ext i hi
  interval_cases i <;> simp [lanes]

/-- `E(c)` of R166: the channels of a colour in their lanes. -/
theorem spreadLanes_eq (c : Half) : spreadLanes c = lanes (red5 c) (green6 c) (blue5 c) := by
  ext i hi
  interval_cases i <;> simp [spreadLanes, lanes, red5, green6, blue5]

/-- The way back: lanes folded together are the colour of their channels. -/
theorem fold_lanes (r : BitVec 5) (g : BitVec 6) (b : BitVec 5) :
    (lanes r g b ||| lanes r g b >>> 16).setWidth 16 = r ++ g ++ b := by
  have hr : red5 ((lanes r g b ||| lanes r g b >>> 16).setWidth 16) = r := by
    ext i hi
    interval_cases i <;> simp [red5, lanes]
  have hg : green6 ((lanes r g b ||| lanes r g b >>> 16).setWidth 16) = g := by
    ext i hi
    interval_cases i <;> simp [green6, lanes]
  have hb : blue5 ((lanes r g b ||| lanes r g b >>> 16).setWidth 16) = b := by
    ext i hi
    interval_cases i <;> simp [blue5, lanes]
  rw [← channels_append (BitVec.setWidth 16 _), hr, hg, hb]

/-- The scaled difference of two colours in lanes plus the background, before the mask (R166). -/
def packedSum (f b : Word) (a : Nat) : Word := ((f - b) * BitVec.ofNat 32 a) >>> 5 + b

/-- R166's blend masks that sum and folds it. -/
theorem packedBlend_eq (fg bg : Half) (a : Nat) : packedBlend fg bg a =
    ((packedSum (spreadLanes fg) (spreadLanes bg) a &&& 0x07E0F81F#32) |||
      (packedSum (spreadLanes fg) (spreadLanes bg) a &&& 0x07E0F81F#32) >>> 16).setWidth 16 := rfl

/-- The sum as a number: a negative difference is taken modulo 2^32 before the shift. -/
theorem toNat_packedSum (f b : Word) (a : Nat) :
    ((packedSum f b a).toNat : Int) = (((f.toNat : Int) - b.toNat) * a % 2 ^ 32 / 32 + b.toNat) % 2 ^ 32 := by
  have hscaled : (f - b) * BitVec.ofNat 32 a = wrap32 (((f.toNat : Int) - b.toNat) * a) := by
    simp [wrap32, BitVec.ofInt_mul, BitVec.ofInt_neg, Int.sub_eq_add_neg, BitVec.ofInt_add, BitVec.sub_eq_add_neg]
  rw [packedSum, hscaled, BitVec.toNat_add, BitVec.toNat_ushiftRight, wrap32, BitVec.toNat_ofInt, Nat.shiftRight_eq_div_pow]
  omega

/-- No lane disturbs another: with every blended channel inside its bits, each lane of the sum holds its channel, whatever the
signs of the scaled differences `R`, `G`, `B`. -/
theorem lanes_of_sum {R G B r g b S : Int} (hr : 0 ≤ r + R / 32 ∧ r + R / 32 < 2 ^ 5) (hg : 0 ≤ g + G / 32 ∧ g + G / 32 < 2 ^ 6)
    (hb : 0 ≤ b + B / 32 ∧ b + B / 32 < 2 ^ 5)
    (hS : S = ((G * 2 ^ 21 + (R * 2 ^ 11 + B)) % 2 ^ 32 / 32 + (g * 2 ^ 21 + (r * 2 ^ 11 + b))) % 2 ^ 32) :
    S / 2 ^ 11 % 2 ^ 5 = r + R / 32 ∧ S / 2 ^ 21 % 2 ^ 6 = g + G / 32 ∧ S / 2 ^ 0 % 2 ^ 5 = b + B / 32 := by
  omega

/-- A lane that holds the blended channel as a number holds its bits. -/
theorem extractLsb'_eq_blendChannel {n k : Nat} {S : Word} (f b : BitVec n) {a : Nat} (ha : a < 32)
    (h : (S.toNat : Int) / 2 ^ k % 2 ^ n = blendChannel f.toNat b.toNat a) :
    S.extractLsb' k n = BitVec.ofInt n (blendChannel f.toNat b.toNat a) := by
  apply BitVec.eq_of_toNat_eq
  zify
  rw [toNat_ofInt_blendChannel f b (by omega) (by omega), ← h, BitVec.extractLsb'_toNat, Nat.shiftRight_eq_div_pow]
  push_cast
  rfl

/-- Settles O27: the lanes of the sum are the blended channels (`lanes_of_sum`), and the mask and the fold pick them out. -/
theorem packedBlendIsBlend : Obligations.PackedBlendIsBlend := by
  intro fg bg a ha
  have hsum := toNat_packedSum (spreadLanes fg) (spreadLanes bg) a
  have hchannel : ∀ {n : Nat} (f b : BitVec n), 0 ≤ (b.toNat : Int) + ((f.toNat : Int) - b.toNat) * a / 32 ∧
      (b.toNat : Int) + ((f.toNat : Int) - b.toNat) * a / 32 < 2 ^ n := fun f b =>
    weightedSum_eq f.toNat b.toNat a ▸ blendChannel_bounds f b (by omega) (by omega)
  rw [spreadLanes_eq, spreadLanes_eq, toNat_lanes, toNat_lanes] at hsum
  obtain ⟨hr, hg, hb⟩ := lanes_of_sum (hchannel (red5 fg) (red5 bg)) (hchannel (green6 fg) (green6 bg))
    (hchannel (blue5 fg) (blue5 bg)) (hsum.trans (by push_cast; ring_nf))
  rw [← weightedSum_eq] at hr hg hb
  rw [packedBlend_eq, and_laneMask, fold_lanes, spreadLanes_eq, spreadLanes_eq, extractLsb'_eq_blendChannel _ _ ha hr,
    extractLsb'_eq_blendChannel _ _ ha hg, extractLsb'_eq_blendChannel _ _ ha hb, blend]

end Sys2Proof.Machine
end

section
/-! PROOFS. The bit reader (40_clip_and_common.md R165). Settles O28. -/

namespace Sys2Proof.Machine

variable {m m' : Memory} {b : Word}

/-- Bit `k` of a stream, at an offset of R165's range. -/
theorem fetchBit_natCast (m : Memory) (b : Word) (k : Nat) :
    fetchBit m b k = (Memory.read m (b + BitVec.ofNat 32 (k / 8))).getLsbD (7 - k % 8) := by
  have haddr : wrap32 ((b.toNat : Int) + (k : Int) / 8) = b + BitVec.ofNat 32 (k / 8) := wrap32_toNat_add b (k / 8)
  rw [fetchBit, haddr, show (7 - (k : Int) % 8).toNat = 7 - k % 8 by omega]

@[simp] theorem fetchU_zero (m : Memory) (b : Word) (k : Int) : fetchU m b k 0 = 0 := rfl

/-- A field one bit longer: the bits before it move up. -/
theorem fetchU_succ (m : Memory) (b : Word) (k : Int) (n : Nat) :
    fetchU m b k (n + 1) = 2 * fetchU m b k n + (fetchBit m b (k + n)).toNat := by
  simp [fetchU, List.range_succ]

/-- A field is the number its bits spell (R165). -/
theorem fetchU_eq_sum (m : Memory) (b : Word) (k n : Nat) :
    fetchU m b k n = ((List.range n).map fun i : Nat => (fetchBit m b (k + i : Nat)).toNat * 2 ^ (n - 1 - i)).sum := by
  induction n with
  | zero => rfl
  | succ n ih =>
    have hdouble : ((List.range n).map fun i : Nat => (fetchBit m b (k + i : Nat)).toNat * 2 ^ (n - i)).sum =
        2 * ((List.range n).map fun i : Nat => (fetchBit m b (k + i : Nat)).toNat * 2 ^ (n - 1 - i)).sum := by
      rw [← List.sum_map_mul_left]
      refine congrArg List.sum (List.map_congr_left fun i hi => ?_)
      have hi := List.mem_range.1 hi
      rw [show n - i = (n - 1 - i) + 1 by omega, Nat.pow_succ]
      ring
    rw [fetchU_succ, ih, ← hdouble, List.sum_range_succ]
    simp

theorem fetchU_lt (m : Memory) (b : Word) (k : Int) (n : Nat) : fetchU m b k n < 2 ^ n := by
  induction n with
  | zero => simp
  | succ n ih =>
    have hbit := (fetchBit m b (k + n)).toNat_lt
    rw [fetchU_succ, Nat.pow_succ]
    omega

/-- `sext_n` of a field is its two's complement value (R9). -/
theorem sext_eq_toInt {n v : Nat} (hv : v < 2 ^ n) : sext n v = (BitVec.ofNat n v).toInt := by
  cases n with
  | zero => simp [sext, BitVec.toInt_zero_length]
  | succ n =>
    have hpow : (2 : Int) ^ (n + 1) = ((2 ^ n * 2 : Nat) : Int) := by push_cast; ring
    rw [sext, if_neg (Nat.succ_ne_zero n), Nat.add_sub_cancel, BitVec.toInt, BitVec.toNat_ofNat, Nat.mod_eq_of_lt hv, hpow,
      Nat.pow_succ]
    split <;> split <;> omega

/-- A field depends on the bytes that hold its bits, and on no other (R165). -/
theorem fetchU_congr {k n : Nat} (h : ∀ j, k ≤ j → j < k + n →
      Memory.read m' (b + BitVec.ofNat 32 (j / 8)) = Memory.read m (b + BitVec.ofNat 32 (j / 8))) :
    fetchU m' b k n = fetchU m b k n := by
  induction n with
  | zero => rfl
  | succ n ih =>
    have hbit : fetchBit m' b ((k : Int) + n) = fetchBit m b ((k : Int) + n) := by
      rw [← Nat.cast_add, fetchBit_natCast, fetchBit_natCast, h (k + n) (by omega) (by omega)]
    rw [fetchU_succ, fetchU_succ, hbit, ih fun j hj hj' => h j hj (by omega)]

theorem alignUp8_spec (k : Nat) : alignUp8 k % 8 = 0 ∧ k ≤ alignUp8 k ∧ alignUp8 k < k + 8 := by
  unfold alignUp8
  omega

/-! ## R165's worked example -/

/-- Two bytes of a stream are a 16-bit string, the first byte first. -/
theorem fetchBit_twoBytes {b0 b1 : Byte} (h0 : Memory.read m b = b0) (h1 : Memory.read m (b + 1#32) = b1) {k : Nat}
    (hk : k < 16) : fetchBit m b k = (b0 ++ b1).getLsbD (15 - k) := by
  rw [fetchBit_natCast, BitVec.getLsbD_append]
  rcases lt_or_ge k 8 with hlt | hge
  · rw [show k / 8 = 0 by omega, BitVec.add_zero, h0, if_neg (by omega), show 15 - k - 8 = 7 - k % 8 by omega]
  · rw [show k / 8 = 1 by omega, h1, if_pos (by omega), show 15 - k = 7 - k % 8 by omega]

/-- A field of those bits. -/
theorem fetchU_twoBytes {b0 b1 : Byte} (h0 : Memory.read m b = b0) (h1 : Memory.read m (b + 1#32) = b1) {k n : Nat}
    (hn : k + n ≤ 16) :
    fetchU m b k n = (List.range n).foldl (fun acc i => 2 * acc + ((b0 ++ b1).getLsbD (15 - (k + i))).toNat) 0 :=
  List.foldl_ext _ _ 0 fun acc i hi => by
    have hi := List.mem_range.1 hi
    rw [← Nat.cast_add, fetchBit_twoBytes h0 h1 (by omega)]

/-- Settles O28: each formula by its lemma, the example by its sixteen bits (`fetchU_twoBytes`). -/
theorem bitFields : Obligations.BitFields := by
  refine ⟨fetchBit_natCast, fun m b k n _ => ⟨fetchU_eq_sum m b k n, fetchU_lt m b k n, sext_eq_toInt (fetchU_lt m b k n),
    fun m' h => fetchU_congr h⟩, fun k => ⟨rfl, alignUp8_spec k⟩, fun m b h0 h1 => ?_⟩
  have hfield {k n : Nat} (hn : k + n ≤ 16) := fetchU_twoBytes h0 h1 hn
  have h34 : fetchU m b 3 4 = 9 := hfield (k := 3) (by decide)
  exact ⟨hfield (k := 0) (by decide), h34, by rw [fetchS, h34]; rfl, hfield (k := 6) (by decide)⟩

end Sys2Proof.Machine
end

section
/-! PROOFS. The solid primitives (42_pixel_backend.md R190 to R195); drawing twice is drawing once (40_clip_and_common.md R162 (b)).
Settles O33 and O34. -/

namespace Sys2Proof.Machine

/-! ## One drawing -/

/-- A solid primitive is DrawRect of its request, guarded by its accesses (R191 to R194). -/
theorem exec_of_solidRequest {i : Instr} {x y w h : Int} {c : Half} (hi : solidRequest i = some (x, y, w, h, c)) (s : State) :
    exec i s = guarded (commandEvents i s) s (drawRect x y w h c s) := by
  cases i with
  | setpixel | fastvline | fasthline | fillrect =>
    simp only [solidRequest, Option.some.injEq, Prod.mk.injEq] at hi
    obtain ⟨rfl, rfl, rfl, rfl, rfl⟩ := hi
    rfl
  | _ => cases hi

/-- A header word is IMM16 above the half word of NW and OPC (R121). -/
theorem mkHeader_eq_append (imm : Half) {nw opc : Byte} {low : Half} (hlow : nw ++ opc = low) :
    mkHeader imm nw opc = imm ++ low := by
  rw [mkHeader, BitVec.append_assoc, hlow, BitVec.cast_eq]

/-- Settles O33: DrawRect is one drawing (`drawRect_draws`). -/
theorem solidPrimitivesDraw : Obligations.SolidPrimitivesDraw := by
  refine ⟨fun x y w h c => ?_, fun i x y w h c s hi hc hm => ?_⟩
  · exact ⟨congrArg (· :: [y ++ x]) (mkHeader_eq_append c rfl), congrArg (· :: [y ++ x, 0#16 ++ h]) (mkHeader_eq_append c rfl),
      congrArg (· :: [y ++ x, 0#16 ++ w]) (mkHeader_eq_append c rfl), congrArg (· :: [y ++ x, h ++ w]) (mkHeader_eq_append c rfl)⟩
  · exact ⟨_, (exec_of_solidRequest hi s).trans (guarded_of_mapped hm), drawRect_draws hc x y w h c⟩

/-! ## Memories with the same listed bytes -/

theorem Memory.find_eq_none {m : Memory} {a : Nat} (h : ∀ c ∈ m, a < c.1) : Memory.find m a = none := by
  induction m with
  | nil => rfl
  | cons c rest ih =>
    rw [Memory.find, if_neg (by have := h c List.mem_cons_self; omega)]
    exact ih fun d hd => h d (List.mem_cons_of_mem c hd)

/-- The first address listed by a memory is below no address listed by another with the same bytes. -/
theorem Memory.head_le {c d : Host.Cell} {m m' : Memory} (hm' : Memory.wf (d :: m') = true)
    (h : ∀ a, Memory.find (c :: m) a = Memory.find (d :: m') a) : d.1 ≤ c.1 := by
  by_contra hlt
  obtain ⟨-, hrest, -⟩ := (Memory.wf_cons_iff d m').1 hm'
  have hnone : Memory.find (d :: m') c.1 = none := Memory.find_eq_none fun e he => by
    rcases List.mem_cons.1 he with rfl | he
    · omega
    · have := hrest e he; omega
  rw [← h, Memory.find, if_pos rfl] at hnone
  cases hnone

/-- Two memories in canonical form that list the same bytes are equal. -/
theorem Memory.ext_find {m m' : Memory} (hm : Memory.wf m = true) (hm' : Memory.wf m' = true)
    (h : ∀ a, Memory.find m a = Memory.find m' a) : m = m' := by
  induction m generalizing m' with
  | nil =>
    cases m' with
    | nil => rfl
    | cons d m' => have := h d.1; simp [Memory.find] at this
  | cons c m ih =>
    cases m' with
    | nil => have := h c.1; simp [Memory.find] at this
    | cons d m' =>
      obtain ⟨-, hlow, hwf⟩ := (Memory.wf_cons_iff c m).1 hm
      obtain ⟨-, hlow', hwf'⟩ := (Memory.wf_cons_iff d m').1 hm'
      have haddr : c.1 = d.1 := le_antisymm (Memory.head_le hm fun a => (h a).symm) (Memory.head_le hm' h)
      have hbyte : c.2 = d.2 := by have := h c.1; simpa [Memory.find, haddr] using this
      have htail : ∀ a, Memory.find m a = Memory.find m' a := fun a => by
        by_cases ha : c.1 = a
        · rw [Memory.find_eq_none (ha ▸ hlow), Memory.find_eq_none (ha ▸ haddr ▸ hlow')]
        · have := h a
          rwa [Memory.find, Memory.find, if_neg ha, if_neg (haddr ▸ ha)] at this
      rw [Prod.ext haddr hbyte, ih hwf hwf' htail]

/-! ## Stores that read nothing -/

/-- A store whose places and bytes do not depend on the memory: at each address it leaves one and the same byte, or what it found. -/
def BlindStore (f : Memory → Memory) : Prop :=
  ∀ m m' a, Memory.find (f m) a = Memory.find (f m') a ∨
    (Memory.find (f m) a = Memory.find m a ∧ Memory.find (f m') a = Memory.find m' a)

theorem BlindStore.id : BlindStore fun m => m := fun _ _ _ => .inr ⟨rfl, rfl⟩

theorem BlindStore.comp {f g : Memory → Memory} (hg : BlindStore g) (hf : BlindStore f) : BlindStore fun m => g (f m) := by
  intro m m' a
  rcases hg (f m) (f m') a with h | ⟨h, h'⟩
  · exact .inl h
  · rw [h, h']
    exact hf m m' a

/-- Such a store made twice is made once. -/
theorem BlindStore.idem {f : Memory → Memory} (hf : BlindStore f) (hwf : ∀ m, Memory.wf m = true → Memory.wf (f m) = true)
    {m : Memory} (hm : Memory.wf m = true) : f (f m) = f m := by
  refine Memory.ext_find (hwf _ (hwf m hm)) (hwf m hm) fun a => ?_
  rcases hf (f m) m a with h | ⟨h, -⟩ <;> exact h

theorem blindStore_write (a : Word) (b : Byte) : BlindStore fun m => Memory.write m a b := by
  intro m m' a'
  by_cases h : a' = a.toNat
  · subst h
    exact .inl (by simp only [Memory.write, Memory.find_insert_self])
  · exact .inr ⟨Memory.find_insert_of_ne m b h, Memory.find_insert_of_ne m' b h⟩

theorem blindStore_fbWriteIn (s : State) (x y : Int) (v : Word) : BlindStore fun m => fbWriteIn s m x y v := by
  unfold fbWriteIn writePixelAt
  cases s.params.depth with
  | d16 => exact (blindStore_write _ _).comp (blindStore_write _ _)
  | d32 =>
    exact (blindStore_write _ _).comp ((blindStore_write _ _).comp ((blindStore_write _ _).comp (blindStore_write _ _)))

/-- Painting in one colour reads nothing. -/
theorem blindStore_paint (s : State) (c : Half) (ps : List (Int × Int)) : BlindStore fun m => paint s (fun _ _ _ => c) m ps := by
  induction ps with
  | nil => exact BlindStore.id
  | cons p ps ih => exact ih.comp (blindStore_fbWriteIn s p.1 p.2 _)

/-! ## The second drawing -/

/-- The loop of PutWindow reads memory from its argument only. -/
theorem paint_setMem (s : State) (m0 : Memory) (d : Dirty) (f : Colour) : ∀ (ps : List (Int × Int)) (m : Memory),
    paint { s with mem := m0, dirty := d } f m ps = paint s f m ps
  | [], _ => rfl
  | _ :: ps, _ => paint_setMem s m0 d f ps _

/-- The union with a rectangle already united changes nothing (R160). -/
theorem dirtyUnion_idem {x0 y0 x1 y1 : Int} (d : Dirty) (hx : 0 ≤ x0 ∧ x0 ≤ 32767) (hy : 0 ≤ y0 ∧ y0 ≤ 32767)
    (hx' : 0 ≤ x1 ∧ x1 ≤ 32767) (hy' : 0 ≤ y1 ∧ y1 ≤ 32767) :
    dirtyUnion x0 y0 x1 y1 (dirtyUnion x0 y0 x1 y1 d) = dirtyUnion x0 y0 x1 y1 d := by
  obtain ⟨h1, h2, h3, h4⟩ := dirtyUnion_exact d hx hy hx' hy'
  conv_lhs => rw [dirtyUnion]
  rw [h1, h2, h3, h4, min_assoc, min_self, min_assoc, min_self, max_assoc, max_self, max_assoc, max_self]
  rfl

/-- In shadow mode a second drawing changes nothing: the same bytes are stored, the same rectangle is united (R162 (b)). -/
theorem drawRect_idem {s : State} (hs : LegalState s) (hen : s.fb.en = true) (x y w h : Int) (c : Half) :
    drawRect x y w h c (drawRect x y w h c s) = drawRect x y w h c s := by
  obtain ⟨hc, -, -, -, -, hwf⟩ := hs
  cases hv : clip s.canvas x y w h with
  | none => simp only [drawRect, drawWindow, hv]
  | some v =>
    have hcor := clip_corners hc hv
    have hdirty := dirtyUnion_idem (x0 := v.vx0) (y0 := v.vy0) (x1 := v.vx1 - 1) (y1 := v.vy1 - 1) s.dirty (by omega) (by omega)
      (by omega) (by omega)
    have hmem := (blindStore_paint s c (rectPoints v.vx0 v.vy0 v.vx1 v.vy1)).idem (fun m => wf_paint _ m) hwf
    simp only [drawRect, drawWindow, hv, putWindow, hen, if_true, paint_setMem, hmem, hdirty]

/-- In direct mode a drawing appends transactions that the canvas alone fixes (R158). -/
theorem drawRect_direct (s : State) (hen : s.fb.en = false) (x y w h : Int) (c : Half) :
    ∃ ts, drawRect x y w h c s = emit ts s ∧ drawRect x y w h c (emit ts s) = emit ts (emit ts s) := by
  cases hv : clip s.canvas x y w h with
  | none => exact ⟨[], by simp [drawRect, drawWindow, hv, emit], by simp [drawRect, drawWindow, hv, emit]⟩
  | some v =>
    refine ⟨session v.vx0 v.vy0 (v.vx1 - 1) (v.vy1 - 1) ((rectPoints v.vx0 v.vy0 v.vx1 v.vy1).map fun _ => c), ?_, ?_⟩
    · simp only [drawRect, drawWindow, hv, putWindow, hen, Bool.false_eq_true, if_false]
    · simp only [drawRect, drawWindow, emit_canvas, hv, putWindow, emit_fb, hen, Bool.false_eq_true, if_false]

/-- Settles O34: `drawRect_idem` in shadow mode, `drawRect_direct` in direct mode. -/
theorem solidDrawTwice : Obligations.SolidDrawTwice := by
  intro i x y w h c s t u hi hs ht hu
  rw [exec_of_solidRequest hi, guarded_eq_next] at ht hu
  obtain ⟨-, rfl⟩ := ht
  obtain ⟨-, rfl⟩ := hu
  refine ⟨fun hen => drawRect_idem hs hen x y w h c, fun hen => ?_⟩
  obtain ⟨ts, hfirst, hsecond⟩ := drawRect_direct s hen x y w h c
  exact ⟨ts, hfirst, by rw [hfirst, hsecond]; rfl⟩

end Sys2Proof.Machine
end

section
/-! PROOFS. The blits (42_pixel_backend.md R196 to R198, 47_nbpp_blit.md R290): what WRITERECT and WRITERECTNBPP draw, that READRECT brings it
back, and that a clipped array is the cropped one (40_clip_and_common.md R162 (c)). Settles O35, O36, O39 and O40. -/

namespace Sys2Proof.Machine

variable {s : State}

/-! ## What is drawn -/

/-- The colour of WRITERECT's source at a visible pixel is the pixel's element (R151, R196). -/
theorem sourceColour_of_clip {c : Canvas} {x y w h : Int} {v : Vis} (hv : clip c x y w h = some v) (src : Word) (m : Memory)
    (px py : Int) :
    sourceColour x y w src m (px - s16 c.originX) (py - s16 c.originY) = Memory.read16 m (elementAddr src (srcIndex v w px py)) := by
  obtain ⟨-, -, hX, hY, -⟩ := clip_some hv
  rw [sourceColour, srcIndex, hX, hY, sub_sub, sub_sub, add_comm x, add_comm y]

/-- WRITERECT is one drawing of its source array (R196). -/
theorem drawWindow_source_draws {x y w h : Half} {src : Word} (hs : LegalState s)
    (hz : Hazard.operandOverlap ∉ hazards (.writerect x y w h src) s) :
    Draws s (drawWindow (s16 x) (s16 y) (s16 w) (s16 h) (sourceColour (s16 x) (s16 y) (s16 w) src) s) (s16 x) (s16 y) (s16 w) (s16 h)
      (sourceColour (s16 x) (s16 y) (s16 w) src s.mem) := by
  obtain ⟨hc, ⟨halloc, _⟩, _⟩ := hs
  exact drawWindow_draws hc _ _ _ _ fun hen => sourceColour_stable (halloc hen) hz

/-- Settles O35. -/
theorem writerectDraws : Obligations.WriterectDraws := by
  intro x y w h src s
  exact ⟨rfl, fun hs hz hm => ⟨_, guarded_of_mapped hm, drawWindow_source_draws hs hz⟩⟩

/-- Settles O36: the bit depth decides between one drawing (`nbppColour_stable`) and none. -/
theorem writerectnbppDraws : Obligations.WriterectnbppDraws := by
  intro x y w h bpp src pal s
  refine ⟨congrArg (· :: [y ++ x, h ++ w, src, pal]) (mkHeader_eq_append bpp rfl), fun ⟨hc, ⟨halloc, _⟩, _⟩ hz hm =>
    ⟨_, guarded_of_mapped hm, fun hb => ?_, fun hb => ?_⟩⟩
  · rw [hb]; rfl
  · rw [if_pos hb]
    exact drawWindow_draws hc _ _ _ _ fun hen => nbppColour_stable (halloc hen) hb hz

/-! ## There and back -/

/-- Settles O39: the pixel holds the element's colour (`drawWindow_source_draws`), READRECT stores the pixel's colour
(`readrectFromBuffer`), and the colour comes back from the buffer (`fromFB_toFB`). -/
theorem writeReadRoundTrip : Obligations.WriteReadRoundTrip := by
  intro x y w h src dst s t u hs hen hz ht hz' hu v hv px py hp
  have ht' := exec_keeps_legal hs ht
  obtain ⟨-, rfl⟩ := guarded_eq_next.1 ht
  set t := drawWindow (s16 x) (s16 y) (s16 w) (s16 h) (sourceColour (s16 x) (s16 y) (s16 w) src) s
  have hdraws := drawWindow_source_draws hs hz
  have hcanvas : t.canvas = s.canvas := drawWindow_canvas _ _ _ _ _ s
  have hdepth : t.params = s.params := drawWindow_params _ _ _ _ _ s
  have hfb : t.fb = s.fb := drawWindow_fb _ _ _ _ _ s
  obtain ⟨u', hu', hread⟩ := (readrectFromBuffer x y w h dst t).2 ht' (by rw [hfb, hen]) hz' (guarded_eq_next.1 hu).1
  obtain rfl : u' = u := by rw [hu'] at hu; exact Host.Outcome.next.inj hu
  rw [hcanvas, hv] at hread
  obtain ⟨-, helement, -⟩ := hread
  unfold Draws at hdraws
  rw [hv] at hdraws
  simp only [hen, if_true] at hdraws
  obtain ⟨-, ⟨hpixel, -⟩, -⟩ := hdraws
  rw [helement px py hp, hpixel px py (onCanvas_of_visible hs.1 hp) hp, hdepth, fromFB_toFB, sourceColour_of_clip hv]

/-! ## Crops -/

/-- Two colours that agree at the points of a loop, whatever it has stored, are painted alike (R158). -/
theorem paint_congr (hc : CanvasOk s.canvas) {f g : Colour} {m0 : Memory} : ∀ (ps : List (Int × Int)) (m : Memory),
    (∀ p ∈ ps, OnCanvas s.canvas p.1 p.2) → (∀ m', AgreeOutside s m0 m' → ∀ p ∈ ps, f m' p.1 p.2 = g m' p.1 p.2) →
      AgreeOutside s m0 m → paint s f m ps = paint s g m ps
  | [], _, _, _, _ => rfl
  | p :: ps, m, hp, hfg, hm => by
    have hhead := List.mem_cons_self (a := p) (l := ps)
    rw [paint, paint, hfg m hm p hhead]
    exact paint_congr hc ps _ (fun q hq => hp q (List.mem_cons_of_mem p hq))
      (fun m' hm' q hq => hfg m' hm' q (List.mem_cons_of_mem p hq)) (hm.fbWriteIn hc (hp p hhead) _)

/-- Two requests with one visible rectangle and the same visible colours are one drawing (R162 (c)). -/
theorem drawWindow_congr (hc : CanvasOk s.canvas) {x y w h x' y' w' h' : Int} {v v' : Vis} {g g' : Colour}
    (hv : clip s.canvas x y w h = some v) (hv' : clip s.canvas x' y' w' h' = some v')
    (hcorners : v'.vx0 = v.vx0 ∧ v'.vy0 = v.vy0 ∧ v'.vx1 = v.vx1 ∧ v'.vy1 = v.vy1)
    (hg : s.fb.en = true → VisiblyStable s x y w h g) (hg' : s.fb.en = true → VisiblyStable s x' y' w' h' g')
    (hsame : ∀ px py, Visible s.canvas x y w h px py →
      g' s.mem (px - s16 s.canvas.originX) (py - s16 s.canvas.originY) = g s.mem (px - s16 s.canvas.originX) (py - s16 s.canvas.originY)) :
    drawWindow x' y' w' h' g' s = drawWindow x y w h g s := by
  obtain ⟨e0, e1, e2, e3⟩ := hcorners
  have hvis : ∀ p ∈ rectPoints v.vx0 v.vy0 v.vx1 v.vy1, Visible s.canvas x y w h p.1 p.2 := fun p hp =>
    (clip_some_iff_visible hv p.1 p.2).1 ((mem_rectPoints _ _ _ _ p).1 hp)
  have hvis' : ∀ p ∈ rectPoints v.vx0 v.vy0 v.vx1 v.vy1, Visible s.canvas x' y' w' h' p.1 p.2 := fun p hp =>
    (clip_some_iff_visible hv' p.1 p.2).1 (by rw [e0, e1, e2, e3]; exact (mem_rectPoints _ _ _ _ p).1 hp)
  simp only [drawWindow, hv, hv', e0, e1, e2, e3, putWindow]
  split
  · rename_i hen
    rw [paint_congr hc _ s.mem (fun p hp => onCanvas_of_visible hc (hvis p hp)) (fun m' hm' p hp => ?_) (.refl s s.mem)]
    rw [hg' hen m' hm' _ _ (hvis' p hp), hsame _ _ (hvis p hp), hg hen m' hm' _ _ (hvis p hp)]
  · rw [List.map_congr_left fun p hp => hsame _ _ (hvis p hp)]

/-- The request for a visible rectangle is visible as a whole. -/
theorem clip_of_visible {c : Canvas} {x y w h : Int} {v : Vis} (hv : clip c x y w h = some v) :
    clip c (v.vx0 - s16 c.originX) (v.vy0 - s16 c.originY) (v.vx1 - v.vx0) (v.vy1 - v.vy0) =
      some { X := v.vx0, Y := v.vy0, vx0 := v.vx0, vy0 := v.vy0, vx1 := v.vx1, vy1 := v.vy1 } := by
  obtain ⟨-, -, -, -, h0, h1, h2, h3, hx, hy⟩ := clip_some hv
  unfold clip
  dsimp only
  rw [if_neg (by omega), if_neg (by omega)]
  simp only [Option.some.injEq, Vis.mk.injEq]
  omega

/-- Settles O40: the cropped request has the same visible rectangle (`clip_of_visible`) and the same visible colours, so it is the same
drawing (`drawWindow_congr`). -/
theorem writerectCrops : Obligations.WriterectCrops := by
  intro x y w h x' y' w' h' src src' s v ⟨hc, ⟨halloc, _⟩, _⟩ hv hx hy hw hh helements hz hz' hm hm'
  have hv' : clip s.canvas (s16 x') (s16 y') (s16 w') (s16 h') = some _ := hx ▸ hy ▸ hw ▸ hh ▸ clip_of_visible hv
  have hdraw := drawWindow_congr hc hv hv' ⟨rfl, rfl, rfl, rfl⟩ (fun hen => sourceColour_stable (halloc hen) hz)
    (fun hen => sourceColour_stable (halloc hen) hz') fun px py hp => ?_
  · exact (guarded_of_mapped hm').trans ((congrArg _ hdraw).trans (guarded_of_mapped hm).symm)
  · obtain ⟨hx0, hx1, hy0, hy1⟩ := (clip_some_iff_visible hv px py).2 hp
    obtain ⟨i, rfl⟩ : ∃ i : Nat, px = v.vx0 + i := ⟨(px - v.vx0).toNat, by omega⟩
    obtain ⟨j, rfl⟩ : ∃ j : Nat, py = v.vy0 + j := ⟨(py - v.vy0).toNat, by omega⟩
    rw [sourceColour_of_clip hv, sourceColour_of_clip hv', ← helements i j (by omega) (by omega), srcIndex, hw, add_sub_cancel_left,
      add_sub_cancel_left]

end Sys2Proof.Machine
end

section
/-! PROOFS. The canvas configuration (41_config.md R180 to R183): a clip bound that SETCLIP computes is stored exactly, and SETCANVAS has one
cause to be ignored and one effect. Settles O32 and O31. -/

namespace Sys2Proof.Machine

variable {lim : Half}

/-! ## The clip bounds are stored exactly -/

theorem clamp_zero_bounds {lim : Int} (hlim : 0 ≤ lim) (v : Int) : 0 ≤ clamp v 0 lim ∧ clamp v 0 lim ≤ lim := by
  unfold clamp
  omega

/-- A value clamped to a legal canvas size lies in the range `s16_wrap16` asks for (R23). -/
theorem clamp_size_bounds (hlim : lim.toNat < 32768) (v : Int) : 0 ≤ clamp v 0 (u16 lim) ∧ clamp v 0 (u16 lim) ≤ 32767 := by
  have hsize : 0 ≤ u16 lim ∧ u16 lim ≤ 32767 := by unfold u16; omega
  obtain ⟨hlow, hhigh⟩ := clamp_zero_bounds hsize.1 v
  exact ⟨hlow, hhigh.trans hsize.2⟩

theorem s16_nearBound (hlim : lim.toNat < 32768) (v : Int) : s16 (wrap16 (clamp v 0 (u16 lim))) = clamp v 0 (u16 lim) := by
  obtain ⟨hlow, hhigh⟩ := clamp_size_bounds hlim v
  exact s16_wrap16 (by omega) hhigh

/-- The far bound is the greater of the stored near bound and the clamped end, both exact (R183). -/
theorem s16_farBound (hlim : lim.toNat < 32768) (v e : Int) :
    s16 (wrap16 (max (clamp v 0 (u16 lim)) (clamp e 0 (u16 lim)))) =
      max (s16 (wrap16 (clamp v 0 (u16 lim)))) (clamp e 0 (u16 lim)) := by
  obtain ⟨hlow, hhigh⟩ := clamp_size_bounds hlim v
  obtain ⟨-, hend⟩ := clamp_size_bounds hlim e
  rw [s16_nearBound hlim]
  exact s16_wrap16 (by omega) (max_le hhigh hend)

/-- Settles O32: each axis has a near bound (`s16_nearBound`) and a far bound (`s16_farBound`). -/
theorem setclipResult : Obligations.SetclipResult := by
  intro x y w h s ⟨hwidth, hheight, _⟩
  exact ⟨rfl, _, rfl, rfl, s16_nearBound hwidth _, s16_nearBound hheight _, s16_farBound hwidth _ _, s16_farBound hheight _ _⟩

/-! ## The size and the origin -/

/-- SETCANVAS is ignored for a negative size and while a buffer is attached (R181). -/
theorem execSetcanvas_of_ignored {w h : Half} {s : State} (hi : s16 w < 0 ∨ s16 h < 0 ∨ s.fb.alloc = true) :
    execSetcanvas w h s = .next s := by
  unfold execSetcanvas
  split
  · rfl
  · rename_i hsize
    have halloc : s.fb.alloc = true := by tauto
    rw [if_pos halloc]

/-- Any other SETCANVAS sets the size, opens the clip on it and forgets the last character (R181). -/
theorem execSetcanvas_of_accepted {w h : Half} {s : State} (ha : ¬ (s16 w < 0 ∨ s16 h < 0 ∨ s.fb.alloc = true)) :
    execSetcanvas w h s = .next (clearLast { s with canvas := sizedCanvas w h s.canvas }) := by
  obtain ⟨hw, hh, hfree⟩ : ¬ s16 w < 0 ∧ ¬ s16 h < 0 ∧ ¬ s.fb.alloc = true := by tauto
  rw [execSetcanvas, if_neg (not_or.2 ⟨hw, hh⟩), if_neg hfree]

/-- Settles O31: SETCANVAS by whether it is ignored; NOP and SETORIGIN have one case each. -/
theorem canvasSettersResult : Obligations.CanvasSettersResult := by
  refine fun x y s => ⟨⟨rfl, rfl, rfl⟩, rfl, ?_, rfl⟩
  split
  · rename_i hignored
    exact execSetcanvas_of_ignored hignored
  · rename_i haccepted
    exact execSetcanvas_of_accepted haccepted

end Sys2Proof.Machine
end

section
/-! PROOFS. The framebuffer mirror (43_framebuffer.md R210, R212 to R215): a buffer attached from outside, disabled and released, and the
one session FLUSH streams. Settles O43 and O42. -/

namespace Sys2Proof.Machine

variable {s : State}

/-! ## StreamFB and its two callers -/

/-- StreamFB, corners inclusive, is one session of the buffer's colours (R215). -/
theorem streamFB_isSession {x0 y0 x1 y1 : Int} (hx : x0 ≤ x1) (hy : y0 ≤ y1) (s : State) :
    ∃ ts, streamFB x0 y0 x1 y1 s = emit ts s ∧
      IsSession ts x0 y0 (x1 + 1) (y1 + 1) fun px py => fromFB s.params.depth (fbRead s px py) := by
  have hsession := isSession_map (Int.lt_add_one_of_le hx) (Int.lt_add_one_of_le hy)
    fun p => fromFB s.params.depth (fbRead s p.1 p.2)
  rw [Int.add_sub_cancel, Int.add_sub_cancel] at hsession
  exact ⟨_, rfl, hsession⟩

/-- A FLUSH with its accesses mapped, the mirror enabled: what is streamed, and the dirty rectangle emptied (R214). -/
theorem exec_flush_of_enabled (hen : s.fb.en = true) (hm : Mapped .flush s) :
    exec .flush s = .next (emptyDirty (if dirtyEmpty s.dirty then streamAll s else streamDirty s)) := by
  have hguard : exec .flush s = .next _ := guarded_of_mapped hm
  rw [hguard, hen]
  rfl

/-- A FLUSH in direct mode has no accesses and no effect (R214). -/
theorem exec_flush_of_disabled (hen : s.fb.en = false) : exec .flush s = .next s := by
  have hmapped : blocked (flushEvents s) s = false := by simp [flushEvents, hen, blocked]
  have hguard : exec .flush s = .next _ := guarded_of_mapped hmapped
  rw [hguard, hen]
  rfl

/-- One session and an empty dirty rectangle, from what is streamed before the rectangle is emptied (R214). -/
theorem flushed_session {u : State} {x0 y0 x1 y1 : Int} (hx : x0 ≤ x1) (hy : y0 ≤ y1)
    (he : exec .flush s = .next (emptyDirty u)) (hu : u = streamFB x0 y0 x1 y1 s) :
    ∃ ts, exec .flush s = .next { s with dirty := Dirty.empty, trace := s.trace ++ ts } ∧
      IsSession ts x0 y0 (x1 + 1) (y1 + 1) fun px py => fromFB s.params.depth (fbRead s px py) := by
  obtain ⟨ts, hts, hsession⟩ := streamFB_isSession hx hy s
  refine ⟨ts, ?_, hsession⟩
  rw [he, hu, hts]
  rfl

/-- No transaction and an empty dirty rectangle, when nothing is streamed (R214). -/
theorem flushed_nothing {u : State} (he : exec .flush s = .next (emptyDirty u)) (hu : u = s) :
    exec .flush s = .next { s with dirty := Dirty.empty } := by
  rw [he, hu]
  rfl

/-- Settles O43: by the mode and whether anything is dirty; one session (`flushed_session`) or none (`flushed_nothing`). -/
theorem flushResult : Obligations.FlushResult := by
  refine fun s => ⟨rfl, exec_flush_of_disabled, fun hen hm hd => ?_, fun hen hm hd => ?_⟩
  · have he := exec_flush_of_enabled hen hm
    rw [hd, if_pos rfl] at he
    split
    · rename_i hpixels
      have hflushed := flushed_session (by omega) (by omega) he (if_pos hpixels)
      rwa [Int.sub_add_cancel, Int.sub_add_cancel] at hflushed
    · rename_i hnone
      exact flushed_nothing he (if_neg hnone)
  · have he := exec_flush_of_enabled hen hm
    rw [hd, if_neg Bool.false_ne_true] at he
    dsimp only
    split
    · rename_i hleft
      exact flushed_session hleft.1 hleft.2 he (if_pos hleft)
    · rename_i hnone
      exact flushed_nothing he (if_neg hnone)

/-! ## Attaching and releasing a buffer -/

/-- FBSETEXT keeps the state when not capable and when a buffer is attached, and else attaches `buf` (R210). -/
theorem execFbsetext_eq (buf : Word) (s : State) : execFbsetext buf s =
    if s.params.fbCapable = false ∨ s.fb.alloc = true then .next s
    else .next { s with fb := { s.fb with base := buf, alloc := true, int := false } } := by
  rw [← apply_ite Host.Outcome.next]
  simp only [execFbsetext, Bool.or_eq_true, Bool.not_eq_true']

/-- FBRELEASE with nothing attached is FBDISABLE (R213). -/
theorem execFbrelease_of_detached (ha : s.fb.alloc = false) : execFbrelease s = execFbdisable s := by
  simp [execFbrelease, execFbdisable, ha]

/-- FBRELEASE detaches what is attached, and gives back what is the allocator's (R213). -/
theorem execFbrelease_of_attached (ha : s.fb.alloc = true) : execFbrelease s = .next { s with
    fb := { base := 0#32, en := false, alloc := false, int := false }
    trace := if s.fb.int = true then s.trace ++ [.free s.fb.base] else s.trace } := by
  cases hi : s.fb.int <;> simp [execFbrelease, ha, hi]

/-- Settles O42: FBRELEASE by whether a buffer is attached. -/
theorem bufferAttachRelease : Obligations.BufferAttachRelease := fun buf s =>
  ⟨⟨rfl, rfl, rfl⟩, execFbsetext_eq buf s, rfl, execFbrelease_of_detached, execFbrelease_of_attached⟩

end Sys2Proof.Machine
end

section
/-! PROOFS. The text state commands (44_text_state.md R230 to R237): the values SETFONT derives from a descriptor are stored without loss,
and each setter writes its own registers. Settles O47 and O48. -/

namespace Sys2Proof.Machine

/-! ## The derived latches -/

/-- The low two bits of `reserved` are its remainder modulo 4 (R232). -/
theorem derivedBpp_eq (version reserved : Byte) :
    derivedBpp version reserved = if version = 23#8 then reserved.toNat % 4 + 1 else 1 := by
  have hlow : (reserved &&& 3#8).toNat = reserved.toNat % 4 := by
    rw [BitVec.toNat_and]
    exact Nat.and_two_pow_sub_one_eq_mod reserved.toNat 2
  rw [derivedBpp, hlow]

theorem toNat_ofNat_derivedBpp (version reserved : Byte) :
    (BitVec.ofNat 8 (derivedBpp version reserved)).toNat = derivedBpp version reserved := by
  have hle : derivedBpp version reserved ≤ 4 := by
    rw [derivedBpp_eq]
    split <;> omega
  exact Nat.mod_eq_of_lt (by omega)

theorem toNat_ofNat_derivedAlphamx (bpp : Nat) : (BitVec.ofNat 8 (derivedAlphamx bpp)).toNat = derivedAlphamx bpp := by
  have hle : derivedAlphamx bpp ≤ 31 := Nat.div_le_self _ _
  exact Nat.mod_eq_of_lt (by omega)

theorem widthsOk_eq_true {bidx bw bh bxo byo bdelta : Byte} : widthsOk bidx bw bh bxo byo bdelta = true ↔
    bw.toNat ≤ 16 ∧ bh.toNat ≤ 16 ∧ bxo.toNat ≤ 16 ∧ byo.toNat ≤ 16 ∧ bdelta.toNat ≤ 16 ∧ bidx.toNat ≤ 32 := by
  simp only [widthsOk, Bool.and_eq_true, decide_eq_true_eq, and_assoc]

section
variable (m : Memory) (hdr : Word) (f : Font)

/-- The one-byte fields of the descriptor lie at offsets 0x0C to 0x19, one after another (R231). -/
theorem loadDescriptor_bytes : let g := loadDescriptor m hdr f
    [g.version, g.reserved, g.i1f, g.i1l, g.i2f, g.i2l, g.bidx, g.bw, g.bh, g.bxo, g.byo, g.bdelta, g.lspace, g.caph] =
      (List.range 14).map (fun k => Memory.read m (hdr + BitVec.ofNat 32 (0x0C + k))) := rfl

theorem loadDescriptor_bpp : (loadDescriptor m hdr f).bpp.toNat =
    if (loadDescriptor m hdr f).version = 23#8 then (loadDescriptor m hdr f).reserved.toNat % 4 + 1 else 1 :=
  (toNat_ofNat_derivedBpp _ _).trans (derivedBpp_eq _ _)

theorem loadDescriptor_alphamx :
    (loadDescriptor m hdr f).alphamx.toNat = 31 / (2 ^ (loadDescriptor m hdr f).bpp.toNat - 1) := by
  have hbpp : (loadDescriptor m hdr f).bpp.toNat = derivedBpp _ _ := toNat_ofNat_derivedBpp _ _
  rw [hbpp]
  exact toNat_ofNat_derivedAlphamx _

end

/-! ## SETFONT -/

/-- A legal kind, with its accesses mapped, selects its font (R230). -/
theorem exec_setfont_of_kind {kind : BitVec 2} {k : FontKind} {addr : Word} {s : State} (hk : fontKindOf kind = some k)
    (hm : Mapped (.setfont kind addr) s) : exec (.setfont kind addr) s = .next (selectFont k addr s) := by
  have hguard : exec (.setfont kind addr) s = .next _ := guarded_of_mapped hm
  rw [hguard, hk]

/-- Settles O47: kinds 0 and 1 read nothing, so nothing can stop them; kind 2 latches `loadDescriptor`. -/
theorem setfontResult : Obligations.SetfontResult := fun addr s =>
  ⟨⟨rfl, rfl, rfl⟩, exec_setfont_of_kind rfl (blocked_nil s), exec_setfont_of_kind rfl (blocked_nil s),
    loadDescriptor s.mem addr s.font, exec_setfont_of_kind rfl, rfl, rfl, rfl, rfl, rfl, loadDescriptor_bytes _ _ _,
    loadDescriptor_bpp _ _ _, loadDescriptor_alphamx _ _ _, widthsOk_eq_true⟩

/-! ## The other setters -/

/-- A header word whose immediate is a flag (R121, R126). -/
theorem mkHeader_flagImm (b : Bool) (nw opc : Byte) :
    mkHeader (flagImm b) nw opc = if b then mkHeader 1#16 nw opc else mkHeader 0#16 nw opc := by
  cases b <;> rfl

/-- Settles O48: the headers carry a flag (`mkHeader_flagImm`) or the two sizes; each setter is one record update. -/
theorem textSettersResult : Obligations.TextSettersResult := fun x y w h sx sy b _ =>
  ⟨⟨rfl, rfl, congrArg (· :: []) (mkHeader_flagImm b 0 0x33), congrArg (· :: []) (mkHeader_eq_append (sy ++ sx) rfl),
      congrArg (· :: [y ++ x, h ++ w]) (mkHeader_flagImm b 2 0x35)⟩,
    rfl, rfl, rfl, rfl, rfl⟩

end Sys2Proof.Machine
end

section
/-! PROOFS. The levels of a glyph (45_font_scalable.md R251 to R253). Settles O52. -/

namespace Sys2Proof.Machine

variable {base : Word} {g : GlyphHeader} {s : State}

/-! ## Rows and columns -/

/-- A level stands in its row at its column, and is 0 where there is none. -/
theorem level_natCast (p : GlyphPixels) (i r : Nat) : level p i r = (((p.rows[r]?).getD [])[i]?).getD 0 :=
  if_pos ⟨Int.natCast_nonneg i, Int.natCast_nonneg r⟩

/-- The levels of a glyph of `gw` by `gh` pixels are `gh` rows of `gw` (R251, R252). -/
structure HasSize (gw gh : Nat) (p : GlyphPixels) : Prop where
  rows : p.rows.length = gh
  columns : ∀ row ∈ p.rows, row.length = gw

/-- Outside its size a glyph has level 0 (R253). -/
theorem HasSize.level_outside {gw gh : Nat} {p : GlyphPixels} (h : HasSize gw gh p) {i r : Int}
    (hout : ¬ (0 ≤ i ∧ i < gw ∧ 0 ≤ r ∧ r < gh)) : level p i r = 0 := by
  by_cases hneg : 0 ≤ i ∧ 0 ≤ r
  · lift i to Nat using hneg.1
    lift r to Nat using hneg.2
    rw [level_natCast]
    by_cases hr : r < p.rows.length
    · have hwidth := h.columns _ (List.getElem_mem hr)
      have hrows := h.rows
      rw [List.getElem?_eq_getElem hr, Option.getD_some, List.getElem?_eq_none (by omega), Option.getD_none]
    · rw [List.getElem?_eq_none (Nat.le_of_not_lt hr)]
      rfl
  · exact if_neg hneg

/-- The depth register says one bit (R38). -/
theorem toNat_eq_one_iff (b : Byte) : b.toNat = 1 ↔ b = 1#8 := ⟨fun h => BitVec.eq_of_toNat_eq h, fun h => congrArg BitVec.toNat h⟩

/-! ## One bit deep (R251) -/

/-- The rows of a 1-bit glyph are those its groups stand for. -/
theorem takePixels_rows_of_one_bit (base : Word) (g : GlyphHeader) (h : s.font.bpp = 1#8) :
    (takePixels base g s).1.rows = groupRows (takePixels base g s).1.groups := by
  rw [takePixels, (toNat_eq_one_iff _).2 h]
  rfl

/-- The groups of a 1-bit glyph are as wide as it is, follow one another from row 0, and have its height in all. -/
theorem takePixels_groups_spec (base : Word) (g : GlyphHeader) (h : s.font.bpp = 1#8) :
    (∀ q ∈ (takePixels base g s).1.groups, q.pat.length = g.gw) ∧
    (∀ n (hn : n < (takePixels base g s).1.groups.length), (takePixels base g s).1.groups[n].r0 =
      0 + (((takePixels base g s).1.groups.take n).map fun q => q.cnt).sum) ∧
    ((takePixels base g s).1.groups.map fun q => q.cnt).sum = g.gh := by
  rw [(takePixels_of_one_bit base g h).1]
  obtain ⟨hgroup, hrow, hsum, -⟩ := decodeGroups_spec s.mem base g.gw g.gh g.gh 0 s.bitcur.toNat (by omega) (by omega) _ rfl
  exact ⟨fun q hq => (hgroup q hq).2.2, hrow, by omega⟩

theorem hasSize_of_one_bit (base : Word) (g : GlyphHeader) (h : s.font.bpp = 1#8) :
    HasSize g.gw g.gh (takePixels base g s).1 := by
  obtain ⟨hwidth, -, hsum⟩ := takePixels_groups_spec base g h
  refine ⟨by rw [takePixels_rows_of_one_bit base g h, length_groupRows, hsum], fun row hrow => ?_⟩
  rw [takePixels_rows_of_one_bit base g h, groupRows] at hrow
  obtain ⟨q, hq, hrow⟩ := List.mem_flatMap.1 hrow
  rw [List.eq_of_mem_replicate hrow, List.length_map, hwidth q hq]

/-- The levels of a row are the pattern of the group that holds it. -/
theorem level_of_group (h : s.font.bpp = 1#8) {q : RowGroup} (hq : q ∈ (takePixels base g s).1.groups) (i : Nat) {r : Nat}
    (h0 : q.r0 ≤ r) (h1 : r < q.r0 + q.cnt) : level (takePixels base g s).1 i r = (q.pat[i]?.getD false).toNat := by
  obtain ⟨-, hstart, -⟩ := takePixels_groups_spec base g h
  have hrow := getElem?_groupRows _ 0 hstart q hq r h0 h1
  rw [level_natCast, takePixels_rows_of_one_bit base g h, show r = r - 0 from rfl, hrow, Option.getD_some, List.getElem?_map]
  cases q.pat[i]? <;> rfl

/-- Groups in sequence leave no row out. -/
theorem exists_group_of_row : ∀ (gs : List RowGroup) (start : Nat),
    (∀ n (hn : n < gs.length), gs[n].r0 = start + ((gs.take n).map fun q => q.cnt).sum) →
    ∀ r, start ≤ r → r < start + (gs.map fun q => q.cnt).sum → ∃ q ∈ gs, q.r0 ≤ r ∧ r < q.r0 + q.cnt
  | [], _, _, _, h0, h1 => absurd h1 (Nat.not_lt_of_le h0)
  | q :: gs, start, h, r, h0, h1 => by
    have hfirst : q.r0 = start := h 0 (by simp)
    rw [List.map_cons, List.sum_cons] at h1
    by_cases hr : r < start + q.cnt
    · exact ⟨q, List.mem_cons_self, by omega, by omega⟩
    · obtain ⟨q', hq', hin⟩ := exists_group_of_row gs (start + q.cnt) (fun n hn => by
        have hnext := h (n + 1) (by simpa using hn)
        rw [List.getElem_cons_succ, List.take_succ_cons, List.map_cons, List.sum_cons] at hnext
        omega) r (by omega) (by omega)
      exact ⟨q', List.mem_cons_of_mem q hq', hin⟩

/-- A pixel of a 1-bit glyph is set exactly when one of the maximal runs of one of the row groups holds it (R251, R257). -/
theorem one_le_level_iff_in_run (h : s.font.bpp = 1#8) (i r : Int) : 1 ≤ level (takePixels base g s).1 i r ↔
    ∃ q ∈ (takePixels base g s).1.groups, ∃ run ∈ maximalRuns q.pat,
      (q.r0 ≤ r ∧ r < q.r0 + q.cnt) ∧ (run.1 ≤ i ∧ i < run.1 + run.2) := by
  constructor
  · intro hset
    have hin : 0 ≤ i ∧ i < g.gw ∧ 0 ≤ r ∧ r < g.gh := by
      by_contra hout
      rw [(hasSize_of_one_bit base g h).level_outside hout] at hset
      exact absurd hset (by decide)
    lift i to Nat using hin.1
    lift r to Nat using hin.2.2.1
    obtain ⟨-, hstart, hsum⟩ := takePixels_groups_spec base g h
    obtain ⟨q, hq, h0, h1⟩ := exists_group_of_row _ 0 hstart r (Nat.zero_le r) (by omega)
    rw [level_of_group h hq i h0 h1] at hset
    have hbit : q.pat[i]? = some true := by
      cases hp : q.pat[i]? with
      | none => rw [hp] at hset; exact absurd hset (by decide)
      | some b => cases b with
        | false => rw [hp] at hset; exact absurd hset (by decide)
        | true => rfl
    obtain ⟨run, hrun, hi0, hi1⟩ := (mem_maximalRuns q.pat i).2 hbit
    exact ⟨q, hq, run, hrun, by omega, by omega⟩
  · rintro ⟨q, hq, run, hrun, ⟨h0, h1⟩, hi0, hi1⟩
    lift i to Nat using by omega
    lift r to Nat using by omega
    have hbit := (mem_maximalRuns q.pat i).1 ⟨run, hrun, by omega, by omega⟩
    rw [level_of_group h hq i (by omega) (by omega), hbit]
    exact Nat.le_refl 1

/-! ## Deeper (R252) -/

/-- The levels of an anti-aliased glyph are decoded from the aligned cursor. -/
theorem takePixels_of_deeper (base : Word) (g : GlyphHeader) (h : s.font.bpp ≠ 1#8) : (takePixels base g s).1 =
    { groups := [], rows := decodeLevels s.mem base g.gw g.gh s.font.bpp.toNat (alignUp8 s.bitcur.toNat) } := by
  rw [takePixels]
  dsimp only
  rw [if_neg (mt (toNat_eq_one_iff _).1 h)]

theorem hasSize_of_deeper (base : Word) (g : GlyphHeader) (h : s.font.bpp ≠ 1#8) :
    HasSize g.gw g.gh (takePixels base g s).1 := by
  rw [takePixels_of_deeper base g h, decodeLevels]
  refine ⟨by rw [List.length_map, List.length_range], fun row hrow => ?_⟩
  obtain ⟨r, -, rfl⟩ := List.mem_map.1 hrow
  rw [List.length_map, List.length_range]

theorem level_of_deeper (h : s.font.bpp ≠ 1#8) {i r : Nat} (hi : i < g.gw) (hr : r < g.gh) :
    level (takePixels base g s).1 i r =
      fetchU s.mem base ((alignUp8 s.bitcur.toNat + (r * g.gw + i) * s.font.bpp.toNat : Nat) : Int) s.font.bpp.toNat := by
  rw [level_natCast, takePixels_of_deeper base g h]
  simp only [decodeLevels, List.getElem?_map, List.getElem?_range hr, List.getElem?_range hi, Option.map_some, Option.getD_some,
    Nat.cast_add]

/-- What is decoded has the size the header names, at either depth. -/
theorem hasSize_takePixels (base : Word) (g : GlyphHeader) (s : State) : HasSize g.gw g.gh (takePixels base g s).1 := by
  by_cases h : s.font.bpp = 1#8
  · exact hasSize_of_one_bit base g h
  · exact hasSize_of_deeper base g h

/-- Settles O52: the size decides outside, the row's group or the pixel's field inside. -/
theorem glyphLevels : Obligations.GlyphLevels := fun base g s =>
  ⟨fun _ _ => (hasSize_takePixels base g s).level_outside, fun h _ hq i _ _ => level_of_group h hq i,
    fun h _ _ => level_of_deeper h⟩

end Sys2Proof.Machine
end

section
/-! PROOFS. What DRAWCHAR leaves besides pixels (45_font_scalable.md R245 to R249, R263, R268, R269; 46_font_fixed.md R282, R285, R287): the
skips, the placement, the cursor and the bookkeeping. Settles O49, O54 and O57. -/

namespace Sys2Proof.Machine

variable {s u : State} {code : Half} {q : GlyphScene}

/-! ## The command -/

/-- With its accesses mapped, DRAWCHAR completes. -/
theorem exec_drawchar_of_mapped (hm : Mapped (.drawchar code) s) : exec (.drawchar code) s = .next (drawcharState code s) :=
  guarded_of_mapped hm

/-- DRAWCHAR with a fixed font, whichever (R280). -/
theorem drawchar_of_fixed (hkind : s.text.fontKind ≠ .scalableFont) (code : Half) :
    drawcharState code s = drawFixed code.toNat s ∧ drawcharEvents code s = drawFixedEvents code.toNat s := by
  unfold drawcharState drawcharEvents
  cases hk : s.text.fontKind with
  | noFont => exact ⟨rfl, rfl⟩
  | fixedFont => exact ⟨rfl, rfl⟩
  | scalableFont => exact absurd hk hkind

/-- DRAWCHAR with a scalable font (R245). -/
theorem drawchar_of_scalable (hkind : s.text.fontKind = .scalableFont) (code : Half) :
    drawcharState code s = drawScalable code.toNat s ∧ drawcharEvents code s = drawScalableEvents code.toNat s := by
  unfold drawcharState drawcharEvents
  rw [hkind]
  exact ⟨rfl, rfl⟩

/-! ## The skips (R246, R247, R269, R287) -/

/-- A command without accesses that leaves the state does nothing at all. -/
theorem exec_drawchar_of_skip (hstate : drawcharState code s = s) (hevents : drawcharEvents code s = []) :
    exec (.drawchar code) s = .next s := by
  rw [exec_drawchar_of_mapped (show blocked (drawcharEvents code s) s = false by rw [hevents, blocked_nil]), hstate]

/-- A code above 255 has no fixed character (R287). -/
theorem exec_drawchar_of_large (hkind : s.text.fontKind ≠ .scalableFont) (hcode : 255 < code.toNat) :
    exec (.drawchar code) s = .next s := by
  obtain ⟨hstate, hevents⟩ := drawchar_of_fixed hkind code
  exact exec_drawchar_of_skip (hstate.trans (if_pos hcode)) (hevents.trans (if_pos hcode))

/-- A code that finds no record reads nothing, when its index entry is not read either (R246, R269). -/
theorem exec_drawchar_of_no_record (hkind : s.text.fontKind = .scalableFont) (hindex : indexEvents s.font code.toNat = [])
    (haddr : glyphAddr s.font s.mem code.toNat = none) : exec (.drawchar code) s = .next s := by
  obtain ⟨hstate, hevents⟩ := drawchar_of_scalable hkind code
  refine exec_drawchar_of_skip (hstate.trans ?_) (hevents.trans ?_)
  · rw [drawScalable, haddr]
  · rw [drawScalableEvents, haddr, hindex, List.append_nil]

/-- Settles O49: each cause ends the command before it writes anything. -/
theorem drawcharSkips : Obligations.DrawcharSkips := by
  refine fun code s => ⟨congrArg (· :: []) (mkHeader_eq_append code rfl), exec_drawchar_of_large, fun hkind hok => ?_,
    fun hkind h1 h2 => ?_, fun base hkind hbase htag hm => ?_⟩
  · exact exec_drawchar_of_no_record hkind (by simp [indexEvents, hok]) (by simp [glyphAddr, hok])
  · have hnumber : glyphNumber s.font code.toNat = none := by rw [glyphNumber, if_neg h1, if_neg h2]
    exact exec_drawchar_of_no_record hkind (by simp [indexEvents, hnumber]) (by simp [glyphAddr, hnumber])
  · rw [exec_drawchar_of_mapped hm, (drawchar_of_scalable hkind code).1, drawScalable, hbase]
    dsimp only
    rw [takeHeader_of_tag htag]

/-! ## The placement (R248, R249, R282) -/

/-- A character wraps when WRAP = 1 and its right edge passes the line's end. -/
abbrev Wraps (s : State) (right : Int) : Prop := s.text.wrap = true ∧ lineLimit s < right

/-- The line `y` scrolls when SCROLL_EN = 1 and its foot passes the region's. -/
abbrev Scrolls (s : State) (y line : Int) : Prop :=
  s.text.scrollEn = true ∧ s16 s.text.scrollY + s16 s.text.scrollH < y + line

/-- Where the wrap leaves the pen. -/
theorem wrapPen_eq (s : State) (right line : Int) : wrapPen s right line =
    { cx := if Wraps s right then lineStart s else s16 s.text.cursorX
      cy := if Wraps s right then s16 s.text.cursorY + line else s16 s.text.cursorY
      moved := decide (Wraps s right) } := by
  unfold wrapPen
  by_cases hw : Wraps s right
  · rw [if_pos hw, if_pos hw, if_pos hw, decide_eq_true hw]
  · rw [if_neg hw, if_neg hw, if_neg hw, decide_eq_false hw]

/-- At most one wrap, then at most one scroll: the pen and the state they leave. -/
theorem placePen_eq (s : State) (right line : Int) : placePen s right line =
    ({ cx := if Scrolls s (wrapPen s right line).cy line then s16 s.text.scrollX else (wrapPen s right line).cx
       cy := if Scrolls s (wrapPen s right line).cy line then (wrapPen s right line).cy - line else (wrapPen s right line).cy
       moved := decide (Wraps s right ∨ Scrolls s (wrapPen s right line).cy line) },
     if Scrolls s (wrapPen s right line).cy line then scrollUp line s else s) := by
  have hdue : scrollDue s (wrapPen s right line).cy line = true ↔ Scrolls s (wrapPen s right line).cy line := by
    rw [scrollDue, Bool.and_eq_true, decide_eq_true_eq]
  unfold placePen
  dsimp only
  by_cases hs : Scrolls s (wrapPen s right line).cy line
  · rw [if_pos (hdue.2 hs), if_pos hs, if_pos hs, if_pos hs, decide_eq_true (Or.inr hs)]
  · have hmoved : (wrapPen s right line).moved = decide (Wraps s right ∨ Scrolls s (wrapPen s right line).cy line) := by
      rw [decide_eq_decide.2 (or_iff_left hs), wrapPen_eq]
    rw [if_neg (mt hdue.1 hs), if_neg hs, if_neg hs, if_neg hs, ← hmoved]

/-! ## What a drawn character leaves (R263, R268, R285) -/

/-- After a draw, the cursor and LAST_VALID cleared. -/
theorem finished_clear (h : DrawFrame s u) (x y : Int) {t : State} (ht : t = retireHidden (clearLast (moveCursor x y u))) : t = { s with
    mem := t.mem, dirty := t.dirty, trace := t.trace, env := t.env, bitcur := 0#32, linebuf := []
    last := { s.last with valid := false }
    text := { s.text with cursorX := wrap16 x, cursorY := wrap16 y } } := by
  rw [ht, h]
  rfl

/-- After a draw, the cursor and the bookkeeping recorded. -/
theorem finished_record (h : DrawFrame s u) (b : Box) (x y : Int) {t : State}
    (ht : t = retireHidden (recordLast b (moveCursor x y u))) : t = { s with
    mem := t.mem, dirty := t.dirty, trace := t.trace, env := t.env, bitcur := 0#32, linebuf := []
    last := { valid := true, cx := wrap16 x, cy := wrap16 y, xr := wrap32 (b.x1 - 1), fg := s.text.fg, bg := s.text.bg }
    text := { s.text with cursorX := wrap16 x, cursorY := wrap16 y } } := by
  rw [ht, h]
  rfl

/-! ## The fixed font -/

/-- A fixed character: a draw on the state after wrap and scroll, then the cursor one cell on (R280, R285). -/
theorem drawFixed_of_le (hcode : code.toNat ≤ 255) (s : State) : ∃ u, DrawFrame s u ∧ drawFixed code.toNat s =
    retireHidden (clearLast (moveCursor ((fixedPlacement s).1.cx + 6 * s.text.tsizeX.toNat) (fixedPlacement s).1.cy u)) := by
  refine ⟨_, (drawFrame_placePen s (s16 s.text.cursorX + 6 * (s.text.tsizeX.toNat : Int)) (8 * (s.text.tsizeY.toNat : Int))).trans ?_,
    if_neg (Nat.not_lt_of_le hcode)⟩
  split
  · exact drawFrame_drawFixedTransparent _ _ _ _ _ _
  · exact drawFrame_drawFixedOpaque _ _ _ _ _ _

/-- Settles O54: the placement by `placePen_eq`, the rest by the frame of the draw. -/
theorem fixedCharacterCursor : Obligations.FixedCharacterCursor := by
  intro code s hkind hcode hm
  have hplace := placePen_eq s (s16 s.text.cursorX + 6 * (s.text.tsizeX.toNat : Int)) (8 * (s.text.tsizeY.toNat : Int))
  rw [wrapPen_eq] at hplace
  obtain ⟨u, hframe, hdrawn⟩ := drawFixed_of_le hcode s
  have hstate := finished_clear hframe _ _ ((drawchar_of_fixed hkind code).1.trans hdrawn)
  rw [fixedPlacement, hplace] at hstate
  exact ⟨congrArg Prod.fst hplace, congrArg Prod.snd hplace, _, exec_drawchar_of_mapped hm, hstate⟩

/-! ## The scalable font -/

theorem moveRow_bitcur (n y : Int) (s : State) : (moveRow n y s).bitcur = s.bitcur := by
  unfold moveRow
  split
  · split <;> rfl
  · rfl

/-- A scroll leaves the decode cursor where it is (R40, R262). -/
theorem placePen_bitcur (s : State) (right line : Int) : (placePen s right line).2.bitcur = s.bitcur := by
  rw [placePen_eq]
  dsimp only
  split
  · unfold scrollUp
    split
    · rfl
    · exact (drawWindow_bitcur _ _ _ _ _ _).trans
        (foldl_keeps (P := fun t => t.bitcur = s.bitcur) (fun t y ht => (moveRow_bitcur _ y t).trans ht) _ s rfl)
  · rfl

/-- What a scene is made of: the record looked up, its header, the placement, the pixels decoded after it (R245 to R252). -/
structure SceneOf (code : Nat) (s : State) (q : GlyphScene) (base : Word) : Prop where
  addr : glyphAddr s.font s.mem code = some base
  header : takeHeader base s = some (q.g, { s with bitcur := q.before.bitcur })
  placed : placePen { s with bitcur := q.before.bitcur } (s16 s.text.cursorX + q.g.xo + q.g.gw) s.font.lspace.toNat =
    (q.pen, q.before)
  pixels : q.pixels = (takePixels base q.g q.before).1

theorem exists_sceneOf {code : Nat} (hq : glyphScene code s = some q) : ∃ base, SceneOf code s q base := by
  unfold glyphScene at hq
  cases haddr : glyphAddr s.font s.mem code with
  | none => rw [haddr] at hq; cases hq
  | some base =>
    rw [haddr] at hq
    dsimp only at hq
    cases hheader : takeHeader base s with
    | none => rw [hheader] at hq; cases hq
    | some h =>
      rw [hheader] at hq
      obtain rfl := Option.some.inj hq
      have hread : h.2 = { s with bitcur := (placePen h.2 (s16 s.text.cursorX + h.1.xo + h.1.gw) s.font.lspace.toNat).2.bitcur } := by
        rw [placePen_bitcur]
        exact takeHeader_frame hheader
      exact ⟨base, haddr, by rw [hheader, ← hread], by dsimp only; rw [← hread], rfl⟩

theorem SceneOf.frame {code : Nat} {base : Word} (h : SceneOf code s q base) : DrawFrame s q.before := by
  have hplaced := drawFrame_placePen { s with bitcur := q.before.bitcur } (s16 s.text.cursorX + q.g.xo + q.g.gw) s.font.lspace.toNat
  rw [h.placed] at hplaced
  exact (drawFrame_takeHeader h.header).trans hplaced

/-- The rectangle an opaque glyph paints (R259). -/
def GlyphScene.box (q : GlyphScene) (f : Font) : Box := opaqueBox q.g q.pen q.ox (q.oy f) f.lspace.toNat

/-- The transparent draw of a scene with the registers of `s`, on the state `u` (R257, R258). -/
def GlyphScene.paintTransparent (q : GlyphScene) (s u : State) : State :=
  if s.font.bpp.toNat = 1 then drawGroups q.pixels q.ox (q.oy s.font) s.text.fg u
  else drawLevels q.pixels q.g.gw q.g.gh (aaThreshold s.params s.font.bpp.toNat) q.ox (q.oy s.font) s.text.fg u

/-- The opaque draw of a scene (R259 to R261). -/
def GlyphScene.paintOpaque (q : GlyphScene) (s u : State) : State :=
  drawOpaque (glyphColour q.pixels q.g s.font s.text.fg s.text.bg q.ox (q.oy s.font)) (glyphInk q.pixels q.g q.ox (q.oy s.font))
    (q.box s.font) (overlapActive s.last s.text q.pen.moved) s.last.xr.toInt u

theorem GlyphScene.drawFrame_paintTransparent (q : GlyphScene) (s u : State) : DrawFrame u (q.paintTransparent s u) := by
  unfold paintTransparent
  split
  · exact drawFrame_drawGroups _ _ _ _ _
  · exact drawFrame_drawLevels _ _ _ _ _ _ _ _

theorem GlyphScene.drawFrame_paintOpaque (q : GlyphScene) (s u : State) : DrawFrame u (q.paintOpaque s u) :=
  drawFrame_drawOpaque _ _ _ _ _ _

/-- The pixel decode moves the decode cursor and nothing else (R40). -/
theorem takePixels_atBit (base : Word) (g : GlyphHeader) (s : State) : ∃ k, (takePixels base g s).2 = atBit k s := by
  unfold takePixels
  dsimp only
  split
  · exact ⟨_, rfl⟩
  · exact ⟨_, rfl⟩

theorem drawFrame_atBit (k : Nat) (s : State) : DrawFrame s (atBit k s) := rfl

/-- Text is transparent when its colours are equal (R32, R256). -/
theorem transparentText_iff (t : Text) : transparentText t = true ↔ t.fg = t.bg := beq_iff_eq

/-- A glyph is its record read, the pen placed, the pixels decoded and drawn in one of the two ways, and the cursor and the bookkeeping
written (R245). -/
theorem drawcharState_of_scene (hkind : s.text.fontKind = .scalableFont) (hq : glyphScene code.toNat s = some q) :
    ∃ k, drawcharState code s =
      if transparentText s.text then
        retireHidden (clearLast (moveCursor (q.pen.cx + q.g.adv) q.pen.cy (q.paintTransparent s (atBit k q.before))))
      else retireHidden (recordLast (q.box s.font) (moveCursor (q.pen.cx + q.g.adv) q.pen.cy (q.paintOpaque s (atBit k q.before)))) := by
  obtain ⟨base, hscene⟩ := exists_sceneOf hq
  obtain ⟨k, hk⟩ := takePixels_atBit base q.g q.before
  refine ⟨k, ?_⟩
  rw [(drawchar_of_scalable hkind code).1, drawScalable, hscene.addr]
  dsimp only
  rw [hscene.header]
  dsimp only
  rw [drawGlyph]
  dsimp only
  rw [hscene.placed]
  dsimp only
  rw [hk, ← hscene.pixels]
  rfl

theorem drawcharState_of_transparent (hkind : s.text.fontKind = .scalableFont) (hq : glyphScene code.toNat s = some q)
    (ht : s.text.fg = s.text.bg) : ∃ k, drawcharState code s =
      retireHidden (clearLast (moveCursor (q.pen.cx + q.g.adv) q.pen.cy (q.paintTransparent s (atBit k q.before)))) := by
  obtain ⟨k, hk⟩ := drawcharState_of_scene hkind hq
  exact ⟨k, hk.trans (if_pos ((transparentText_iff _).2 ht))⟩

theorem drawcharState_of_opaque (hkind : s.text.fontKind = .scalableFont) (hq : glyphScene code.toNat s = some q)
    (ht : s.text.fg ≠ s.text.bg) : ∃ k, drawcharState code s =
      retireHidden (recordLast (q.box s.font) (moveCursor (q.pen.cx + q.g.adv) q.pen.cy (q.paintOpaque s (atBit k q.before)))) := by
  obtain ⟨k, hk⟩ := drawcharState_of_scene hkind hq
  exact ⟨k, hk.trans (if_neg (mt (transparentText_iff _).1 ht))⟩

/-- What a glyph writes besides pixels, the pen where it was placed (R263, R268). -/
theorem glyph_leaves (hkind : s.text.fontKind = .scalableFont) (hq : glyphScene code.toNat s = some q) {t : State}
    (ht : t = drawcharState code s) : t = { s with
      mem := t.mem, dirty := t.dirty, trace := t.trace, env := t.env, bitcur := 0#32, linebuf := []
      text := { s.text with cursorX := wrap16 (q.pen.cx + q.g.adv), cursorY := wrap16 q.pen.cy }
      last :=
        if s.text.fg = s.text.bg then { s.last with valid := false }
        else { valid := true, cx := wrap16 (q.pen.cx + q.g.adv), cy := wrap16 q.pen.cy, fg := s.text.fg, bg := s.text.bg
               xr := wrap32 (max (q.pen.cx + q.g.adv) (q.pen.cx + q.g.xo + q.g.gw) - 1) } } := by
  obtain ⟨base, hscene⟩ := exists_sceneOf hq
  by_cases htr : s.text.fg = s.text.bg
  · obtain ⟨k, hk⟩ := drawcharState_of_transparent hkind hq htr
    rw [if_pos htr]
    exact finished_clear ((hscene.frame.trans (drawFrame_atBit k _)).trans (q.drawFrame_paintTransparent s _)) _ _ (ht.trans hk)
  · obtain ⟨k, hk⟩ := drawcharState_of_opaque hkind hq htr
    rw [if_neg htr]
    exact finished_record ((hscene.frame.trans (drawFrame_atBit k _)).trans (q.drawFrame_paintOpaque s _)) _ _ _ (ht.trans hk)

/-- Settles O57: the scene's parts, the placement by `placePen_eq`, the rest by the frame of the draw. -/
theorem glyphCursorAndBookkeeping : Obligations.GlyphCursorAndBookkeeping := by
  intro code s q hkind hq hm
  obtain ⟨base, hscene⟩ := exists_sceneOf hq
  have hplace := placePen_eq { s with bitcur := q.before.bitcur } (s16 s.text.cursorX + q.g.xo + q.g.gw) s.font.lspace.toNat
  rw [wrapPen_eq, hscene.placed] at hplace
  have hpen : q.pen = _ := congrArg Prod.fst hplace
  have hstate := glyph_leaves hkind hq rfl
  rw [hpen] at hstate
  exact ⟨⟨base, hscene.addr, hscene.header, hscene.pixels⟩, hpen, congrArg Prod.snd hplace, _, exec_drawchar_of_mapped hm, hstate⟩

end Sys2Proof.Machine
end

section
/-! PROOFS. Drawing in either mode, said once: on the shadow buffer and on a reference sink that follows the transactions
(20_memory.md R83, R100; 40_clip_and_common.md R158). -/

namespace Sys2Proof.Machine

variable {s t u : State} {A B C : Int → Int → Prop} {f g k : Int → Int → Half}

/-! ## On the sink -/

/-- A sink follows a trace part by part. -/
theorem RefSink.follow_append : ∀ (as bs : List Transaction) (r : RefSink),
    r.follow (as ++ bs) = (r.follow as).bind fun q => q.follow bs
  | [], _, _ => rfl
  | a :: as, bs, r => by
    rw [List.cons_append, follow, follow]
    split
    · exact RefSink.follow_append as bs _
    · rfl

/-- Nothing sent. -/
theorem SinkEffect.refl (s : State) (hA : ∀ px py, ¬ A px py) (f : Int → Int → Half) : SinkEffect s s A f :=
  ⟨rfl, rfl, rfl, [], (List.append_nil _).symm, fun r hr => ⟨r, rfl, hr, fun px py _ => ⟨fun h => absurd h (hA px py), fun _ => rfl⟩⟩⟩

/-- Two effects in a row are one: the later colour where both touch. -/
theorem SinkEffect.trans (hf : DrawFrame s t) (h1 : SinkEffect s t A f) (h2 : SinkEffect t u B g)
    (hC : ∀ px py, C px py ↔ A px py ∨ B px py) (hB : ∀ px py, B px py → k px py = g px py)
    (hA : ∀ px py, A px py → ¬ B px py → k px py = f px py) : SinkEffect s u C k := by
  obtain ⟨hmem, hdirty, henv, ts, htrace, hfirst⟩ := h1
  obtain ⟨hmem', hdirty', henv', ts', htrace', hsecond⟩ := h2
  rw [hf.canvas] at hsecond
  refine ⟨hmem'.trans hmem, hdirty'.trans hdirty, henv'.trans henv, ts ++ ts', by rw [htrace', htrace, List.append_assoc],
    fun r hr => ?_⟩
  obtain ⟨q, hq, hfits, hshow⟩ := hfirst r hr
  obtain ⟨q', hq', hfits', hshow'⟩ := hsecond q hfits
  refine ⟨q', by rw [RefSink.follow_append, hq]; exact hq', hfits', fun px py ho => ?_⟩
  obtain ⟨hit, miss⟩ := hshow px py ho
  obtain ⟨hit', miss'⟩ := hshow' px py ho
  rw [hC]
  by_cases hb : B px py
  · exact ⟨fun _ => (hit' hb).trans (hB _ _ hb).symm, fun h => absurd (.inr hb) h⟩
  · rw [miss' hb]
    exact ⟨fun h => (hit (h.resolve_right hb)).trans (hA _ _ (h.resolve_right hb) hb).symm, fun h => miss fun ha => h (.inl ha)⟩

theorem SinkEffect.congr (h : SinkEffect s t A f) (hB : ∀ px py, B px py ↔ A px py) (hg : ∀ px py, B px py → g px py = f px py) :
    SinkEffect s t B g := by
  obtain ⟨hmem, hdirty, henv, ts, htrace, hall⟩ := h
  refine ⟨hmem, hdirty, henv, ts, htrace, fun r hr => ?_⟩
  obtain ⟨q, hq, hfits, hshow⟩ := hall r hr
  refine ⟨q, hq, hfits, fun px py ho => ⟨fun hb => ?_, fun hb => (hshow px py ho).2 (mt (hB _ _).2 hb)⟩⟩
  rw [hg _ _ hb]
  exact (hshow px py ho).1 ((hB _ _).1 hb)

/-- One drawing in direct mode: a reference sink shows it. -/
theorem Draws.sinkEffect {x y w h : Int} {colour : Int → Int → Half} (hc : CanvasOk s.canvas) (hen : s.fb.en = false)
    (hd : Draws s t x y w h colour) : SinkEffect s t (fun px py => Visible s.canvas x y w h px py)
      fun px py => colour (px - s16 s.canvas.originX) (py - s16 s.canvas.originY) := by
  unfold Draws at hd
  split at hd
  · rename_i hv
    rw [hd]
    exact .refl s (clip_none hv) _
  · rename_i v hv
    rw [if_neg (by rw [hen]; exact Bool.false_ne_true)] at hd
    obtain ⟨ts, rfl, hsession⟩ := hd
    have hcor := clip_corners hc hv
    have hvis := clip_some_iff_visible hv
    refine ⟨rfl, rfl, rfl, ts, rfl, fun r hr => ?_⟩
    obtain ⟨r', hfollow, hshow⟩ := follow_isSession hc hr (by omega) (by omega) hsession
    exact ⟨r', hfollow, hshow.fits, fun px py ho =>
      ⟨fun hp => hshow.hit px py ho ((hvis _ _).2 hp), fun hp => hshow.miss px py ho (mt (hvis _ _).1 hp)⟩⟩

/-! ## In either mode -/

theorem PaintsPixels.refl (s : State) (hA : ∀ px py, ¬ A px py) (f : Int → Int → Half) : PaintsPixels s s A f :=
  ⟨fun _ => .refl s hA _, fun _ => .refl s hA f⟩

/-- Two drawings in a row are one: the later colour where both touch. -/
theorem PaintsPixels.trans (hf : DrawFrame s t) (h1 : PaintsPixels s t A f) (h2 : PaintsPixels t u B g)
    (hC : ∀ px py, C px py ↔ A px py ∨ B px py) (hB : ∀ px py, B px py → k px py = g px py)
    (hA : ∀ px py, A px py → ¬ B px py → k px py = f px py) : PaintsPixels s u C k := by
  obtain ⟨hshadow, hsink⟩ := h1
  obtain ⟨hshadow', hsink'⟩ := h2
  rw [hf.fb] at hshadow' hsink'
  rw [hf.params] at hshadow'
  exact ⟨fun hen => (hshadow hen).trans hf (hshadow' hen) hC (fun px py hb => by rw [hB px py hb])
      fun px py ha hb => by rw [hA px py ha hb],
    fun hen => (hsink hen).trans hf (hsink' hen) hC hB hA⟩

theorem PaintsPixels.congr (h : PaintsPixels s t A f) (hB : ∀ px py, B px py ↔ A px py)
    (hg : ∀ px py, B px py → g px py = f px py) : PaintsPixels s t B g :=
  ⟨fun hen => (h.1 hen).congr hB fun px py hb => by rw [hg px py hb], fun hen => (h.2 hen).congr hB hg⟩

/-- The decode cursor plays no part in a drawing. -/
theorem PaintsPixels.from_atBit {n : Nat} (h : PaintsPixels (atBit n s) t A f) : PaintsPixels s t A f := h

/-- Nor do the cursor and the bookkeeping written after it. -/
theorem PaintsPixels.finish_clear (h : PaintsPixels s t A f) (x y : Int) :
    PaintsPixels s (retireHidden (clearLast (moveCursor x y t))) A f := h

theorem PaintsPixels.finish_record (h : PaintsPixels s t A f) (b : Box) (x y : Int) :
    PaintsPixels s (retireHidden (recordLast b (moveCursor x y t))) A f := h

/-- A loop of drawings touches what its turns touch, when every turn uses the same colours. -/
theorem PaintsPixels.foldl {α : Type} {body : State → α → State} {touched : α → Int → Int → Prop}
    (hf : ∀ t a, DrawFrame t (body t a)) (h : ∀ t a, DrawFrame s t → PaintsPixels t (body t a) (touched a) f) :
    ∀ (l : List α) (t : State), DrawFrame s t → PaintsPixels t (l.foldl body t) (fun px py => ∃ a ∈ l, touched a px py) f
  | [], t, _ => .refl t (by simp) f
  | a :: l, t, ht => (h t a ht).trans (hf t a) (PaintsPixels.foldl hf h l (body t a) (ht.trans (hf t a)))
      (fun px py => by simp) (fun _ _ _ => rfl) fun _ _ _ _ => rfl

/-- One drawing paints its visible pixels (R158, R162 (a)). -/
theorem Draws.paints {x y w h : Int} {colour : Int → Int → Half} (hc : CanvasOk s.canvas) (hd : Draws s t x y w h colour) :
    PaintsPixels s t (fun px py => Visible s.canvas x y w h px py)
      fun px py => colour (px - s16 s.canvas.originX) (py - s16 s.canvas.originY) := by
  refine ⟨fun hen => ?_, fun hen => hd.sinkEffect hc hen⟩
  unfold Draws at hd
  split at hd
  · rename_i hv
    rw [hd]
    exact .refl s (clip_none hv) _
  · rw [if_pos hen] at hd
    exact hd.2.1

section loops
variable {s0 : State} (hc : CanvasOk s0.canvas) (hf : DrawFrame s0 t)
include hc hf

/-- A window of a loop, its colours fixed before it. -/
theorem drawWindow_paints (x y w h : Int) (colour : Int → Int → Half) :
    PaintsPixels t (drawWindow x y w h (fun _ lx ly => colour lx ly) t) (fun px py => Visible s0.canvas x y w h px py)
      fun px py => colour (px - s16 s0.canvas.originX) (py - s16 s0.canvas.originY) := by
  rw [← hf.canvas] at hc ⊢
  exact (drawWindow_draws hc x y w h fun _ _ _ _ _ _ => rfl).paints hc

/-- A rectangle of a loop. -/
theorem drawRect_paints (x y w h : Int) (c : Half) :
    PaintsPixels t (drawRect x y w h c t) (fun px py => Visible s0.canvas x y w h px py) fun _ _ => c :=
  drawWindow_paints hc hf x y w h fun _ _ => c

/-- A pixel of a loop that draws it under a condition. -/
theorem drawPixel_ite_paints (p : Prop) [Decidable p] (x y : Int) (c : Half) :
    PaintsPixels t (if p then drawPixel x y c t else t) (fun px py => p ∧ Visible s0.canvas x y 1 1 px py) fun _ _ => c := by
  split
  · rename_i hp
    exact (drawRect_paints hc hf x y 1 1 c).congr (fun _ _ => and_iff_right hp) fun _ _ _ => rfl
  · rename_i hp
    exact .refl t (fun _ _ h => hp h.1) _

end loops

end Sys2Proof.Machine
end

section
/-! PROOFS. The pixels of a scalable character (45_font_scalable.md R253 to R261), in the shadow buffer or on a reference sink. Settles O58
and O59. -/

namespace Sys2Proof.Machine

variable {s s0 t : State} {code : Half} {q : GlyphScene}

section draws
variable (hc : CanvasOk s0.canvas) (hf : DrawFrame s0 t)
include hc hf

/-! ## Transparent (R257, R258) -/

/-- One row group paints its runs. -/
theorem drawGroup_paints (ox oy : Int) (fg : Half) (g : RowGroup) : PaintsPixels t (drawGroup ox oy fg t g)
    (fun px py => ∃ run ∈ maximalRuns g.pat, Visible s0.canvas (ox + run.1) (oy + g.r0) run.2 g.cnt px py) fun _ _ => fg := by
  unfold drawGroup
  exact PaintsPixels.foldl (fun _ _ => drawFrame_drawRect _ _ _ _ _ _)
    (fun _ run hv => drawRect_paints hc hv (ox + run.1) (oy + g.r0) run.2 g.cnt fg) _ t hf

/-- The row groups paint their runs (R257). -/
theorem drawGroups_paints (p : GlyphPixels) (ox oy : Int) (fg : Half) :
    PaintsPixels t (drawGroups p ox oy fg t)
      (fun px py => ∃ g ∈ p.groups, ∃ run ∈ maximalRuns g.pat, Visible s0.canvas (ox + run.1) (oy + g.r0) run.2 g.cnt px py)
      fun _ _ => fg :=
  PaintsPixels.foldl (drawFrame_drawGroup ox oy fg) (fun _ g hv => drawGroup_paints hc hv ox oy fg g) _ t hf

/-- The levels paint the pixels at or above the threshold (R258). -/
theorem drawLevels_paints (p : GlyphPixels) (gw gh threshold : Nat) (ox oy : Int) (fg : Half) :
    PaintsPixels t (drawLevels p gw gh threshold ox oy fg t)
      (fun px py => ∃ c ∈ rectPoints 0 0 gw gh, threshold ≤ level p c.1 c.2 ∧ Visible s0.canvas (ox + c.1) (oy + c.2) 1 1 px py)
      fun _ _ => fg :=
  PaintsPixels.foldl (drawFrame_drawLevel p threshold ox oy fg)
    (fun _ _ hv => drawPixel_ite_paints hc hv _ _ _ _) _ t hf

/-! ## Opaque (R259 to R261) -/

/-- The inked pixels of a rectangle (R261). -/
theorem drawInked_paints (col : Int → Int → Half) (ink : Int → Int → Bool) (x0 y0 x1 y1 : Int) :
    PaintsPixels t ((rectPoints x0 y0 x1 y1).foldl (drawInked col ink) t)
      (fun px py => ∃ p ∈ rectPoints x0 y0 x1 y1, ink p.1 p.2 = true ∧ Visible s0.canvas p.1 p.2 1 1 px py)
      fun px py => col (px - s16 s0.canvas.originX) (py - s16 s0.canvas.originY) := by
  refine PaintsPixels.foldl (drawFrame_drawInked col ink) (fun v p hv => ?_) _ t hf
  refine (drawPixel_ite_paints hc hv (ink p.1 p.2 = true) p.1 p.2 (col p.1 p.2)).congr (fun _ _ => Iff.rfl) ?_
  rintro px py ⟨-, hvis⟩
  unfold Visible at hvis
  rw [show px - s16 s0.canvas.originX = p.1 by omega, show py - s16 s0.canvas.originY = p.2 by omega]

/-- The opaque draw paints its box, sparing in the shared columns what is not inked (R261). -/
theorem drawOpaque_paints (col : Int → Int → Half) (ink : Int → Int → Bool) (b : Box) (active : Bool) (lastXr : Int) :
    PaintsPixels t (drawOpaque col ink b active lastXr t)
      (fun px py =>
        let lx := px - s16 s0.canvas.originX
        let ly := py - s16 s0.canvas.originY
        InClip s0.canvas px py ∧ b.x0 ≤ lx ∧ lx < b.x1 ∧ b.y0 ≤ ly ∧ ly < b.y1 ∧
          (active = true → lx ≤ lastXr → ink lx ly = true))
      fun px py => col (px - s16 s0.canvas.originX) (py - s16 s0.canvas.originY) := by
  unfold drawOpaque
  dsimp only
  split
  · rename_i hshared
    have hinked := drawInked_paints hc hf col ink b.x0 b.y0 (min b.x1 (lastXr + 1)) b.y1
    have hframe : DrawFrame t _ := DrawFrame.foldl (drawFrame_drawInked col ink) (rectPoints b.x0 b.y0 (min b.x1 (lastXr + 1)) b.y1) t
    refine hinked.trans hframe (drawWindow_paints hc (hf.trans hframe) _ _ _ _ col) (fun px py => ?_) (fun _ _ _ => rfl)
      fun _ _ _ _ => rfl
    simp only [mem_rectPoints, Prod.exists, Visible, hshared.1, true_imp_iff]
    constructor
    · rintro ⟨hclip, hx0, hx1, hy0, hy1, hink⟩
      by_cases hcol : px - s16 s0.canvas.originX ≤ lastXr
      · exact .inl ⟨_, _, ⟨hx0, by omega, hy0, hy1⟩, hink hcol, by omega, by omega, by omega, by omega, hclip⟩
      · exact .inr ⟨by omega, by omega, by omega, by omega, hclip⟩
    · rintro (⟨lx, ly, hin, hink, h0, h1, h2, h3, hclip⟩ | ⟨h0, h1, h2, h3, hclip⟩)
      · obtain rfl : lx = px - s16 s0.canvas.originX := by omega
        obtain rfl : ly = py - s16 s0.canvas.originY := by omega
        exact ⟨hclip, by omega, by omega, by omega, by omega, fun _ => hink⟩
      · exact ⟨hclip, by omega, by omega, by omega, by omega, fun h => by omega⟩
  · rename_i hsplit
    refine (drawWindow_paints hc hf _ _ _ _ col).congr (fun px py => ?_) fun _ _ _ => rfl
    simp only [Visible]
    constructor
    · rintro ⟨hclip, hx0, hx1, hy0, hy1, -⟩
      exact ⟨by omega, by omega, by omega, by omega, hclip⟩
    · rintro ⟨h0, h1, h2, h3, hclip⟩
      exact ⟨hclip, by omega, by omega, by omega, by omega, fun hactive hcol => absurd ⟨hactive, by omega⟩ hsplit⟩

end draws

/-! ## A transparent glyph -/

theorem one_le_aaThreshold (p : Params) (n : Nat) : 1 ≤ aaThreshold p n := by
  unfold aaThreshold
  split <;> omega

/-- The runs of a 1-bit glyph hold its set pixels. -/
theorem visible_run_iff {base : Word} {g : GlyphHeader} (h : s.font.bpp = 1#8) (c : Canvas) (ox oy px py : Int) :
    (InClip c px py ∧ 1 ≤ level (takePixels base g s).1 (px - s16 c.originX - ox) (py - s16 c.originY - oy)) ↔
    ∃ q ∈ (takePixels base g s).1.groups, ∃ run ∈ maximalRuns q.pat,
      Visible c (ox + run.1) (oy + q.r0) run.2 q.cnt px py := by
  rw [one_le_level_iff_in_run h]
  constructor
  · rintro ⟨hclip, q, hq, run, hrun, hrow, hcol⟩
    exact ⟨q, hq, run, hrun, by omega, by omega, by omega, by omega, hclip⟩
  · rintro ⟨q, hq, run, hrun, h0, h1, h2, h3, hclip⟩
    exact ⟨hclip, q, hq, run, hrun, by omega, by omega⟩

/-- The pixels of a glyph at or above a threshold lie in its bitmap. -/
theorem visible_level_iff {g : GlyphHeader} {p : GlyphPixels} (hp : HasSize g.gw g.gh p) {threshold : Nat} (hpos : 1 ≤ threshold)
    (c : Canvas) (ox oy px py : Int) :
    (InClip c px py ∧ threshold ≤ level p (px - s16 c.originX - ox) (py - s16 c.originY - oy)) ↔
    ∃ d ∈ rectPoints 0 0 g.gw g.gh, threshold ≤ level p d.1 d.2 ∧ Visible c (ox + d.1) (oy + d.2) 1 1 px py := by
  constructor
  · rintro ⟨hclip, hlevel⟩
    refine ⟨(px - s16 c.originX - ox, py - s16 c.originY - oy), ?_, hlevel, by omega, by omega, by omega, by omega, hclip⟩
    by_contra hout
    rw [mem_rectPoints] at hout
    rw [hp.level_outside (by omega)] at hlevel
    omega
  · rintro ⟨d, -, hlevel, h0, h1, h2, h3, hclip⟩
    rw [show px - s16 c.originX - ox = d.1 by omega, show py - s16 c.originY - oy = d.2 by omega]
    exact ⟨hclip, hlevel⟩

/-- The transparent draw of a scene (R257, R258). -/
theorem paintTransparent_paints (hs : CanvasOk s.canvas) {base : Word} (hscene : SceneOf code.toNat s q base) (k : Nat) :
    PaintsPixels q.before (q.paintTransparent s (atBit k q.before))
      (fun px py => InClip s.canvas px py ∧
        (if s.font.bpp = 1#8 then 1 else aaThreshold s.params s.font.bpp.toNat) ≤
          level q.pixels (px - s16 s.canvas.originX - q.ox) (py - s16 s.canvas.originY - q.oy s.font))
      fun _ _ => s.text.fg := by
  have hframe := hscene.frame.trans (drawFrame_atBit k q.before)
  unfold GlyphScene.paintTransparent
  by_cases hbpp : s.font.bpp = 1#8
  · rw [if_pos ((toNat_eq_one_iff _).2 hbpp)]
    simp only [hbpp, if_true]
    refine (drawGroups_paints hs hframe q.pixels q.ox (q.oy s.font) s.text.fg).from_atBit.congr (fun px py => ?_) fun _ _ _ => rfl
    rw [hscene.pixels]
    exact visible_run_iff (by rw [hscene.frame.font]; exact hbpp) _ _ _ _ _
  · rw [if_neg (mt (toNat_eq_one_iff _).1 hbpp)]
    simp only [hbpp, if_false]
    refine (drawLevels_paints hs hframe q.pixels q.g.gw q.g.gh _ q.ox (q.oy s.font) s.text.fg).from_atBit.congr (fun px py => ?_)
      fun _ _ _ => rfl
    exact visible_level_iff (by rw [hscene.pixels]; exact hasSize_takePixels _ _ _) (one_le_aaThreshold _ _) _ _ _ _ _

/-- Settles O59: the groups by their runs, the levels pixel by pixel. -/
theorem glyphTransparent : Obligations.GlyphTransparent := by
  intro code s q hlegal hkind hq htr hm
  obtain ⟨base, hscene⟩ := exists_sceneOf hq
  obtain ⟨k, hstate⟩ := drawcharState_of_transparent hkind hq htr
  exact ⟨_, (exec_drawchar_of_mapped hm).trans (congrArg _ hstate), (paintTransparent_paints hlegal.1 hscene k).finish_clear _ _⟩

/-! ## An opaque glyph -/

/-- The bookkeeping applies when all six hold (R261). -/
theorem overlapActive_iff (l : Last) (t : Text) (moved : Bool) : overlapActive l t moved = true ↔
    l.valid = true ∧ l.cx = t.cursorX ∧ l.cy = t.cursorY ∧ l.fg = t.fg ∧ l.bg = t.bg ∧ moved = false := by
  simp only [overlapActive, Bool.and_eq_true, beq_iff_eq, Bool.not_eq_true', and_assoc]

/-- Ink is a level other than 0: outside the bitmap there is none (R253). -/
theorem glyphInk_iff {g : GlyphHeader} {p : GlyphPixels} (hp : HasSize g.gw g.gh p) (ox oy lx ly : Int) :
    glyphInk p g ox oy lx ly = true ↔ level p (lx - ox) (ly - oy) ≠ 0 := by
  rw [glyphInk, decide_eq_true_eq]
  refine ⟨fun h => h.2.2.2.2, fun h => ?_⟩
  by_contra hout
  exact h (hp.level_outside (by tauto))

/-- The colour of a pixel, the depth read as a byte. -/
theorem glyphColour_eq (p : GlyphPixels) (g : GlyphHeader) (f : Font) (fg bg : Half) (ox oy lx ly : Int) :
    glyphColour p g f fg bg ox oy lx ly =
      if 0 ≤ lx - ox ∧ lx - ox < g.gw ∧ 0 ≤ ly - oy ∧ ly - oy < g.gh then
        if f.bpp = 1#8 then (if level p (lx - ox) (ly - oy) = 1 then fg else bg)
        else blend fg bg (level p (lx - ox) (ly - oy) * f.alphamx.toNat)
      else bg := by
  simp only [glyphColour, toNat_eq_one_iff]

theorem Draws.recolour {x y w h : Int} {colour colour' : Int → Int → Half} (hd : Draws s t x y w h colour)
    (heq : ∀ lx ly, colour lx ly = colour' lx ly) : Draws s t x y w h colour' := by
  rwa [← funext₂ heq]

theorem paint_atBit (k : Nat) (s : State) (f : Colour) : ∀ (ps : List (Int × Int)) (m : Memory),
    paint (atBit k s) f m ps = paint s f m ps
  | [], _ => rfl
  | _ :: ps, _ => paint_atBit k s f ps _

/-- A drawing neither reads nor moves the decode cursor (R40). -/
theorem drawWindow_atBit (k : Nat) (x y w h : Int) (g : Colour) (s : State) :
    drawWindow x y w h g (atBit k s) = atBit k (drawWindow x y w h g s) := by
  have hcanvas : (atBit k s).canvas = s.canvas := rfl
  have hfb : (atBit k s).fb = s.fb := rfl
  unfold drawWindow
  rw [hcanvas]
  cases clip s.canvas x y w h with
  | none => rfl
  | some v =>
    dsimp only
    rw [putWindow, putWindow, hfb, paint_atBit]
    split <;> rfl

/-- Settles O58: the box by `drawOpaque_paints`; one window where no column is shared. -/
theorem glyphOpaque : Obligations.GlyphOpaque := by
  intro code s q hlegal hkind hq htr hm
  obtain ⟨hc, -⟩ := hlegal
  obtain ⟨base, hscene⟩ := exists_sceneOf hq
  obtain ⟨k, hstate⟩ := drawcharState_of_opaque hkind hq htr
  have hsize : HasSize q.g.gw q.g.gh q.pixels := by rw [hscene.pixels]; exact hasSize_takePixels _ _ _
  have hframe := hscene.frame.trans (drawFrame_atBit k q.before)
  have hpaints := drawOpaque_paints hc hframe (glyphColour q.pixels q.g s.font s.text.fg s.text.bg q.ox (q.oy s.font))
    (glyphInk q.pixels q.g q.ox (q.oy s.font)) (q.box s.font) (overlapActive s.last s.text q.pen.moved) s.last.xr.toInt
  refine ⟨_, (exec_drawchar_of_mapped hm).trans (congrArg _ hstate), ?_, fun hnone => ?_⟩
  · simp only [glyphInk_iff hsize, overlapActive_iff, glyphColour_eq] at hpaints
    exact hpaints.from_atBit.finish_record _ _ _
  · have hdraws := drawWindow_draws (s := q.before) (by rw [hscene.frame.canvas]; exact hc) (q.box s.font).x0 (q.box s.font).y0
      ((q.box s.font).x1 - (q.box s.font).x0) ((q.box s.font).y1 - (q.box s.font).y0)
      (g := fun _ lx ly => glyphColour q.pixels q.g s.font s.text.fg s.text.bg q.ox (q.oy s.font) lx ly) fun _ _ _ _ _ _ => rfl
    have hone : q.paintOpaque s (atBit k q.before) = drawWindow _ _ _ _ _ _ := if_neg (by rw [overlapActive_iff]; exact hnone)
    rw [hone, drawWindow_atBit]
    generalize drawWindow _ _ _ _ _ q.before = u at hdraws ⊢
    exact ⟨u, hdraws.recolour (glyphColour_eq _ _ _ _ _ _ _), rfl, rfl, rfl, rfl⟩

end Sys2Proof.Machine
end

section
/-! PROOFS. The pixels of a fixed character (46_font_fixed.md R281, R283, R284, R286): the bits of its cell, the cell as one window, the runs
of its rows. Settles O55 and O56. -/

namespace Sys2Proof.Machine

variable {s s0 t : State}

/-! ## The bits of a cell (R281) -/

/-- The bits of the bytes fetched are those of the columns; there is none past column 4. -/
theorem cellBit_fixedColumns {code col row : Nat} : cellBit (fixedColumns s code) col row = true ↔
    col < 5 ∧ (fixedColumn s code col).getLsbD row = true := by
  by_cases hcol : col < 5 <;> simp [cellBit, fixedColumns, hcol]

/-- A row of the character shows the bits of its five columns (R283). -/
theorem getElem?_cellRow {b : List Byte} {col row : Nat} :
    (cellRow b row)[col]? = some true ↔ col < 5 ∧ cellBit b col row = true := by
  by_cases hcol : col < 5 <;> simp [cellRow, hcol]

/-- A text size multiplier of a legal state scales (R34). -/
theorem textSize_pos {size : Byte} (h : size ≠ 0#8) : (0 : Int) < size.toNat := by
  have hnat : size.toNat ≠ 0 := fun h0 => h (BitVec.eq_of_toNat_eq h0)
  omega

/-- An offset lies in a scaled interval when its cell does. -/
theorem scaled_iff {k : Int} (hk : 0 < k) (a b d : Int) : (a * k ≤ d ∧ d < b * k) ↔ (a ≤ d / k ∧ d / k < b) := by
  rw [Int.le_ediv_iff_mul_le hk, Int.ediv_lt_iff_lt_mul hk]

/-- The bit under a position is the bit of the cell the position falls in. -/
theorem fixedBitAt_iff (hs : TextOk s.text) {code : Nat} {cx cy lx ly : Int} : fixedBitAt s code cx cy lx ly = true ↔
    ∃ col row : Nat, (lx - cx) / (s.text.tsizeX.toNat : Int) = col ∧ (ly - cy) / (s.text.tsizeY.toNat : Int) = row ∧
      row < 8 ∧ cellBit (fixedColumns s code) col row = true := by
  have hcols := scaled_iff (textSize_pos hs.1) 0 5 (lx - cx)
  have hrows := scaled_iff (textSize_pos hs.2) 0 8 (ly - cy)
  rw [fixedBitAt, Bool.and_eq_true, decide_eq_true_eq]
  constructor
  · rintro ⟨⟨h0, h1, h2, h3⟩, hbit⟩
    obtain ⟨hcol0, hcol5⟩ := hcols.1 ⟨by omega, by omega⟩
    obtain ⟨hrow0, hrow8⟩ := hrows.1 ⟨by omega, by omega⟩
    exact ⟨_, _, (Int.toNat_of_nonneg hcol0).symm, (Int.toNat_of_nonneg hrow0).symm, by omega,
      cellBit_fixedColumns.2 ⟨by omega, hbit⟩⟩
  · rintro ⟨col, row, hcol, hrow, hrow8, hbit⟩
    obtain ⟨hcol5, hbit⟩ := cellBit_fixedColumns.1 hbit
    obtain ⟨h0, h1⟩ := hcols.2 ⟨by omega, by omega⟩
    obtain ⟨h2, h3⟩ := hrows.2 ⟨by omega, by omega⟩
    rw [hcol, hrow]
    exact ⟨⟨by omega, by omega, by omega, by omega⟩, hbit⟩

/-! ## The draw that DRAWCHAR makes -/

/-- A fixed character: its cell drawn at the placed pen on the state after wrap and scroll, then the cursor and the bookkeeping (R280). -/
theorem drawcharState_of_fixed {code : Half} (hkind : s.text.fontKind ≠ .scalableFont) (hcode : code.toNat ≤ 255) :
    ∃ x y, drawcharState code s = retireHidden (clearLast (moveCursor x y
      (if transparentText s.text then
        drawFixedTransparent (fixedColumns s code.toNat) (fixedPlacement s).1.cx (fixedPlacement s).1.cy
          s.text.tsizeX.toNat s.text.tsizeY.toNat (fixedPlacement s).2
      else
        drawFixedOpaque (fixedColumns s code.toNat) (fixedPlacement s).1.cx (fixedPlacement s).1.cy
          s.text.tsizeX.toNat s.text.tsizeY.toNat (fixedPlacement s).2))) :=
  ⟨_, _, (drawchar_of_fixed hkind code).1.trans (if_neg (Nat.not_lt_of_le hcode))⟩

/-! ## Opaque (R284) -/

/-- Two colours that agree at the visible positions of a window are one drawing of it (R158). -/
theorem drawWindow_draws_as (hc : CanvasOk s.canvas) {x y w h : Int} {colour colour' : Int → Int → Half}
    (hsame : ∀ px py, Visible s.canvas x y w h px py →
      colour (px - s16 s.canvas.originX) (py - s16 s.canvas.originY) = colour' (px - s16 s.canvas.originX) (py - s16 s.canvas.originY)) :
    Draws s (drawWindow x y w h (fun _ lx ly => colour lx ly) s) x y w h colour' := by
  have hwindow : drawWindow x y w h (fun _ lx ly => colour lx ly) s = drawWindow x y w h (fun _ lx ly => colour' lx ly) s := by
    cases hv : clip s.canvas x y w h with
    | none => simp only [drawWindow, hv]
    | some v => exact drawWindow_congr hc hv hv ⟨rfl, rfl, rfl, rfl⟩ (fun _ _ _ _ _ _ => rfl) (fun _ _ _ _ _ _ => rfl) hsame
  rw [hwindow]
  exact drawWindow_draws hc x y w h fun _ _ _ _ _ _ => rfl

/-- Inside the 6 by 8 cell the bit the draw looks up is the bit under the position, the spacing column included. -/
theorem cellBit_eq_fixedBitAt (hs : TextOk s.text) {code : Nat} {cx cy lx ly : Int} (hx : cx ≤ lx)
    (hy : cy ≤ ly ∧ ly < cy + 8 * (s.text.tsizeY.toNat : Int)) :
    cellBit (fixedColumns s code) ((lx - cx) / (s.text.tsizeX.toNat : Int)).toNat ((ly - cy) / (s.text.tsizeY.toNat : Int)).toNat =
      fixedBitAt s code cx cy lx ly := by
  have hcol : 0 ≤ (lx - cx) / (s.text.tsizeX.toNat : Int) := Int.ediv_nonneg (by omega) (by omega)
  obtain ⟨hrow0, hrow8⟩ := (scaled_iff (textSize_pos hs.2) 0 8 (ly - cy)).1 ⟨by omega, by omega⟩
  rw [Bool.eq_iff_iff, fixedBitAt_iff hs]
  constructor
  · exact fun hbit => ⟨_, _, (Int.toNat_of_nonneg hcol).symm, (Int.toNat_of_nonneg hrow0).symm, by omega, hbit⟩
  · rintro ⟨col, row, hc, hr, -, hbit⟩
    rw [hc, hr]
    exact hbit

/-- Settles O55: the cell is one window, whose colours are those of the bits wherever it is visible. -/
theorem fixedCharacterOpaque : Obligations.FixedCharacterOpaque := by
  rintro code s ⟨hc, -, -, hsize, -⟩ hkind hcode hne hm
  have hframe : DrawFrame s (fixedPlacement s).2 := drawFrame_placePen _ _ _
  obtain ⟨x, y, hstate⟩ := drawcharState_of_fixed hkind hcode
  rw [if_neg (mt (transparentText_iff _).1 hne)] at hstate
  refine ⟨_, drawFixedOpaque (fixedColumns s code.toNat) (fixedPlacement s).1.cx (fixedPlacement s).1.cy s.text.tsizeX.toNat
    s.text.tsizeY.toNat (fixedPlacement s).2, (exec_drawchar_of_mapped hm).trans (congrArg _ hstate), ?_, rfl, rfl, rfl, rfl⟩
  rw [drawFixedOpaque, hframe.text]
  refine drawWindow_draws_as (by rw [hframe.canvas]; exact hc) ?_
  rintro px py ⟨hx0, -, hy0, hy1, -⟩
  rw [cellBit_eq_fixedBitAt hsize (by omega) ⟨by omega, by omega⟩]

/-! ## Transparent (R283) -/

/-- A rectangle of `n` columns and one row of a cell, scaled. -/
theorem visible_scaled_iff {sx sy : Int} (hx : 0 < sx) (hy : 0 < sy) (c : Canvas) (cx cy px py a n row : Int) :
    Visible c (cx + a * sx) (cy + row * sy) (n * sx) sy px py ↔
      InClip c px py ∧ (a ≤ (px - s16 c.originX - cx) / sx ∧ (px - s16 c.originX - cx) / sx < a + n) ∧
        (py - s16 c.originY - cy) / sy = row := by
  have hcol := scaled_iff hx a (a + n) (px - s16 c.originX - cx)
  have hrow := scaled_iff hy row (row + 1) (py - s16 c.originY - cy)
  rw [add_mul] at hcol hrow
  rw [← hcol]
  constructor
  · rintro ⟨h0, h1, h2, h3, hclip⟩
    obtain ⟨hlow, hhigh⟩ := hrow.1 ⟨by omega, by omega⟩
    exact ⟨hclip, ⟨by omega, by omega⟩, by omega⟩
  · rintro ⟨hclip, ⟨h0, h1⟩, heq⟩
    obtain ⟨h2, h3⟩ := hrow.2 ⟨by omega, by omega⟩
    exact ⟨by omega, by omega, by omega, by omega, hclip⟩

/-- The runs of a character's rows hold its set bits. -/
theorem visible_fixedRun_iff (hs : TextOk s.text) (c : Canvas) (code : Nat) (cx cy px py : Int) :
    (InClip c px py ∧ fixedBitAt s code cx cy (px - s16 c.originX) (py - s16 c.originY) = true) ↔
    ∃ row ∈ List.range 8, ∃ run ∈ maximalRuns (cellRow (fixedColumns s code) row),
      Visible c (cx + run.1 * s.text.tsizeX.toNat) (cy + row * s.text.tsizeY.toNat) (run.2 * s.text.tsizeX.toNat)
        s.text.tsizeY.toNat px py := by
  simp only [visible_scaled_iff (textSize_pos hs.1) (textSize_pos hs.2), fixedBitAt_iff hs, List.mem_range]
  constructor
  · rintro ⟨hclip, col, row, hcol, hrow, hrow8, hbit⟩
    have hset := (getElem?_cellRow (b := fixedColumns s code) (row := row)).2 ⟨(cellBit_fixedColumns.1 hbit).1, hbit⟩
    obtain ⟨run, hrun, h0, h1⟩ := (mem_maximalRuns _ col).2 hset
    exact ⟨row, hrow8, run, hrun, hclip, ⟨by omega, by omega⟩, hrow⟩
  · rintro ⟨row, hrow8, run, hrun, hclip, ⟨h0, h1⟩, hrow⟩
    have hcol : (((px - s16 c.originX - cx) / (s.text.tsizeX.toNat : Int)).toNat : Int) = _ := Int.toNat_of_nonneg (by omega)
    have hset := (mem_maximalRuns _ ((px - s16 c.originX - cx) / (s.text.tsizeX.toNat : Int)).toNat).1
      ⟨run, hrun, by omega, by omega⟩
    exact ⟨hclip, _, row, hcol.symm, hrow, hrow8, (getElem?_cellRow.1 hset).2⟩

section draws
variable (hc : CanvasOk s0.canvas) (hf : DrawFrame s0 t) (b : List Byte) (cx cy sx sy : Int)
include hc hf

/-- One row of the transparent draw (R283). -/
theorem drawFixedRow_paints (fg : Half) (row : Nat) : PaintsPixels t (drawFixedRow b cx cy sx sy fg t row)
    (fun px py => ∃ run ∈ maximalRuns (cellRow b row), Visible s0.canvas (cx + run.1 * sx) (cy + row * sy) (run.2 * sx) sy px py)
    fun _ _ => fg :=
  PaintsPixels.foldl (fun _ _ => drawFrame_drawRect _ _ _ _ _ _)
    (fun _ run hv => drawRect_paints hc hv (cx + run.1 * sx) (cy + row * sy) (run.2 * sx) sy fg) _ t hf

/-- The transparent draw, rows from the top (R283). -/
theorem drawFixedTransparent_paints : PaintsPixels t (drawFixedTransparent b cx cy sx sy t)
    (fun px py => ∃ row ∈ List.range 8, ∃ run ∈ maximalRuns (cellRow b row),
      Visible s0.canvas (cx + run.1 * sx) (cy + row * sy) (run.2 * sx) sy px py)
    fun _ _ => t.text.fg :=
  PaintsPixels.foldl (drawFrame_drawFixedRow b cx cy sx sy t.text.fg)
    (fun _ row hv => drawFixedRow_paints hc hv b cx cy sx sy t.text.fg row) _ t hf

end draws

/-- Settles O56: the rows paint their runs, and the runs hold the set bits. -/
theorem fixedCharacterTransparent : Obligations.FixedCharacterTransparent := by
  rintro code s ⟨hc, -, -, hsize, -⟩ hkind hcode heq hm
  have hframe : DrawFrame s (fixedPlacement s).2 := drawFrame_placePen _ _ _
  obtain ⟨x, y, hstate⟩ := drawcharState_of_fixed hkind hcode
  rw [if_pos ((transparentText_iff _).2 heq)] at hstate
  have hpaints := drawFixedTransparent_paints hc hframe (fixedColumns s code.toNat) (fixedPlacement s).1.cx (fixedPlacement s).1.cy
    s.text.tsizeX.toNat s.text.tsizeY.toNat
  rw [hframe.text] at hpaints
  exact ⟨_, (exec_drawchar_of_mapped hm).trans (congrArg _ hstate),
    (hpaints.congr (fun px py => visible_fixedRun_iff hsize _ _ _ _ _ _) fun _ _ _ => rfl).finish_clear x y⟩

end Sys2Proof.Machine
end
